-- ==== Sys2Proof/Word.lean ====
section
/-!
DEFINITION. The widths the manual gives its data (00 R3, 12 R268, R274): bytes, 32-bit words, 64-bit pairs and register numbers.
-/
namespace Sys2Proof

/-- One byte of memory (R3). -/
abbrev Byte := BitVec 8
/-- A general register, an instruction word, a literal (R268, R274). -/
abbrev Word := BitVec 32
/-- A pair of registers, an address (R3, R157). -/
abbrev DWord := BitVec 64
/-- A register number, or any 7-bit field of a word (R268). -/
abbrev Reg := BitVec 7
/-- A tower, 0 to 11 (R8). -/
abbrev TowerId := Fin 12

end Sys2Proof
end

