-- ==== Sys2Proof/Machine/Bits.lean ====
section
/-!
DEFINITION. Bit fields, byte order and sign extension (R3, R7), and lists of bytes.
-/
namespace Sys2Proof.Machine

/-- Bits [hi:lo] of a number. -/
def bitsOf (w hi lo : Nat) : Nat := w / 2 ^ lo % 2 ^ (hi + 1 - lo)

/-- Bit n of a number. -/
def bitOf (w n : Nat) : Bool := w / 2 ^ n % 2 == 1

/-- A Bool as 0 or 1. -/
def b2n (b : Bool) : Nat := if b then 1 else 0

/-- The number that little-endian bytes hold (R3). -/
def leNat : List Byte → Nat
  | [] => 0
  | b :: bs => b.toNat + 256 * leNat bs

/-- The n little-endian bytes of a number (R3). -/
def leBytes : (n : Nat) → Nat → List Byte
  | 0, _ => []
  | n + 1, v => BitVec.ofNat 8 v :: leBytes n (v / 256)

/-- Little-endian bytes [lo, lo + n) of a byte list, as a number. -/
def fieldAt (bs : List Byte) (lo n : Nat) : Nat := leNat ((bs.drop lo).take n)

/-- The 32-bit words of a byte list, low word first; short lists are filled with zeros. -/
def leWords : (n : Nat) → List Byte → List Word
  | 0, _ => []
  | n + 1, bs => BitVec.ofNat 32 (leNat (bs.take 4)) :: leWords n (bs.drop 4)

/-- The bytes of words, low word first. -/
def bytesOfWords : List Word → List Byte
  | [] => []
  | w :: ws => leBytes 4 w.toNat ++ bytesOfWords ws

/-- A number of w bits read as two's complement. -/
def signed (w v : Nat) : Int := if v % 2 ^ w < 2 ^ (w - 1) then (v % 2 ^ w : Nat) else (v % 2 ^ w : Nat) - (2 ^ w : Nat)

/-- An integer modulo 2^w, as a number. -/
def wrapN (w : Nat) (i : Int) : Nat := (i % (2 ^ w : Nat)).toNat

/-- floor(a / b) rounded up, for b > 0. -/
def ceilDiv (a b : Nat) : Nat := (a + b - 1) / b

/-- The largest power of two not above n has this exponent; 0 for 0. -/
def log2Nat (n : Nat) : Nat := n.log2

/-- Sum of a list. -/
def sumNat : List Nat → Nat
  | [] => 0
  | x :: xs => x + sumNat xs

/-- Replace bytes from position lo on. -/
def overlay (bs : List Byte) (lo : Nat) (new : List Byte) : List Byte :=
  bs.take lo ++ new ++ bs.drop (lo + new.length)

/-- Insert into a list that rises under lt, before equal elements. -/
def insertBy {α : Type} (lt : α → α → Bool) (x : α) : List α → List α
  | [] => [x]
  | y :: ys => if lt y x then y :: insertBy lt x ys else x :: y :: ys

/-- Stable insertion sort. -/
def sortBy {α : Type} (lt : α → α → Bool) : List α → List α
  | [] => []
  | x :: xs => insertBy lt x (sortBy lt xs)

end Sys2Proof.Machine
end

