-- ==== Sys2Proof/Syntax.lean ====
section
/-!
DEFINITION. The steps of the Z12 as the opcode table lists them: 146 Trelah words and 124 device steps, one constructor of Instr each.
The fields of a word are those of R268 to R273 and of its table row; the data of a device step is what it needs from outside (log entry 2).
-/
namespace Sys2Proof

/-- The class of a clause (R265). -/
inductive Cls where | int | flt | xfn | mem | eng | sys
  deriving DecidableEq, Repr

/-- Scopes (R273, R163). -/
inductive Scope where | team | tower | pkg | sys
  deriving DecidableEq, Repr

/-- Orders, and the kinds of FENCE (R273). -/
inductive Order where | rlx | acq | rel | ar
  deriving DecidableEq, Repr

/-- Request types (R160, R273); dflt takes the page default. -/
inductive RType where | dflt | own | wt | si | nc
  deriving DecidableEq, Repr

/-- Access sizes of OP[2:0] (R273). -/
inductive Size where | b8 | b16 | b32 | b64 | b128
  deriving DecidableEq, Repr

/-- Floating-point formats in the code order of R279. -/
inductive Fmt where | f32 | f16 | bf16 | e5m2 | e4m3 | e2m1
  deriving DecidableEq, Repr

/-- Integer types in the code order of R279. -/
inductive IType where | i8 | i16 | i32 | i64 | n8 | n16 | n32 | n64
  deriving DecidableEq, Repr

/-- The extension word (R271). -/
structure Ext where
  c : Reg
  na : Bool
  nb : Bool
  nc : Bool
  aa : Bool
  ab : Bool
  ac : Bool
  sat : Bool
  ro : Bool
  rm : BitVec 3
  fn : BitVec 14
  deriving DecidableEq, Repr

/-- The second operand as M selects it (R270). -/
inductive Src where
  | reg (r : Reg)
  | imm (v : Reg)
  | lit (v : Word)
  | ext (r : Reg) (e : Ext)
  deriving DecidableEq, Repr

/-- The fields of an INT, FLT or XFN word (R268, R270). -/
structure Alu where
  u : Bool
  d : Reg
  a : Reg
  b : Src
  deriving DecidableEq, Repr

/-- The fields of a MEM word (R272, R273): g is M[22], lit the literal word that M[21] selects. -/
structure MemOp where
  z : Size
  u : Bool
  g : Bool
  lit : Option Word
  d : Reg
  a : Reg
  sc : Scope
  ord : Order
  rt : RType
  deriving DecidableEq, Repr

/-- The fields of an ENG or SYS word (R272): g is M[22], lit the literal word that M[21] selects. -/
structure EngOp where
  u : Bool
  g : Bool
  lit : Option Word
  d : Reg
  a : Reg
  b : Reg
  deriving DecidableEq, Repr

/-- The fields of a control word (R312): off is the literal offset in words. -/
structure CtlOp where
  u : Bool
  off : Option Word
  d : Reg
  a : Reg
  deriving DecidableEq, Repr

/-- A sync cell of the fabric (R64, R65). -/
structure Cell where
  src : BitVec 12
  dst : BitVec 12
  typ : BitVec 4
  bseq : Word
  ack : Word
  tag : BitVec 8
  status : BitVec 8
  payload : BitVec 512
  deriving DecidableEq, Repr

/-- A bulk packet that writes bytes of one 128-byte line (R70, R71): its number, the line's first address, a byte mask and the bytes. -/
structure Bulk where
  src : BitVec 12
  seq : Word
  line : BitVec 52
  mask : BitVec 128
  data : List Byte
  deriving DecidableEq, Repr

/-- The digests that a request for measurements names (R108): block 1, of the running firmware images, and block 2, the measurement digest. -/
structure Digests where
  firmware : Bool
  measured : Bool
  deriving DecidableEq, Repr

/-- What the patrol scrub finds in a row (R46): nothing, a correctable error, or an uncorrectable sector. -/
inductive Scrub where
  | clean
  | correctable
  | uncorrectable (sector : Nat)
  deriving DecidableEq, Repr

/-- The steps of spec/opcode_table.json, one constructor a row. -/
inductive Instr where
  -- INT (13); n selects the unsigned form
  | add (n : Bool) (o : Alu)
  | sub (n : Bool) (o : Alu)
  | mullo (n : Bool) (o : Alu)
  | mulhi (n : Bool) (o : Alu)
  | mad (n : Bool) (o : Alu)
  | mulw (n : Bool) (o : Alu)
  | madw (n : Bool) (o : Alu)
  | add64 (n : Bool) (o : Alu)
  | sub64 (n : Bool) (o : Alu)
  | min (n : Bool) (o : Alu)
  | max (n : Bool) (o : Alu)
  | sad (n : Bool) (o : Alu)
  | dp4i8 (n : Bool) (o : Alu)
  | dp2i16 (n : Bool) (o : Alu)
  | setc (n : Bool) (o : Alu)
  | bfx (n : Bool) (o : Alu)
  | neg (o : Alu)
  | abs (o : Alu)
  | and (o : Alu)
  | or (o : Alu)
  | xor (o : Alu)
  | andn (o : Alu)
  | orn (o : Alu)
  | not (o : Alu)
  | tlog (o : Alu)
  | shl (o : Alu)
  | shr (o : Alu)
  | sar (o : Alu)
  | rol (o : Alu)
  | shf (o : Alu)
  | bfi (o : Alu)
  | popc (o : Alu)
  | clz (o : Alu)
  | ctz (o : Alu)
  | brev (o : Alu)
  | perm (o : Alu)
  | sel (o : Alu)
  | mov (o : Alu)
  | movh (o : Alu)
  | lea (o : Alu)
  -- FLT (14)
  | fadd (o : Alu)
  | fsub (o : Alu)
  | fmul (o : Alu)
  | ffma (o : Alu)
  | fmin (o : Alu)
  | fmax (o : Alu)
  | fminn (o : Alu)
  | fmaxn (o : Alu)
  | fsetc (o : Alu)
  | frnd (o : Alu)
  | fclass (o : Alu)
  | fscale (o : Alu)
  | fcpys (o : Alu)
  | vaddh (o : Alu)
  | vmulh (o : Alu)
  | vfmah (o : Alu)
  | vaddb (o : Alu)
  | vmulb (o : Alu)
  | vfmab (o : Alu)
  | dot2b (o : Alu)
  | dot4e (x y : Bool) (o : Alu)
  | pack (f : Fmt) (o : Alu)
  | unpk (f : Fmt) (o : Alu)
  | cvt (s t : Fmt) (o : Alu)
  | f2i (s : Fmt) (i : IType) (o : Alu)
  | i2f (t : Fmt) (i : IType) (o : Alu)
  -- XFN (14)
  | rcp (o : Alu)
  | rsq (o : Alu)
  | sqrt (o : Alu)
  | ex2 (o : Alu)
  | lg2 (o : Alu)
  | sin (o : Alu)
  | cos (o : Alu)
  | tanh (o : Alu)
  | div (o : Alu)
  | idiv (wide n : Bool) (o : Alu)
  | irem (wide n : Bool) (o : Alu)
  -- MEM (15)
  | ld (o : MemOp)
  | st (o : MemOp)
  | lds (o : MemOp)
  | sts (o : MemOp)
  | ldacq (o : MemOp)
  | strel (o : MemOp)
  | atom (o : MemOp)
  | cas (o : MemOp)
  | cas128 (o : MemOp)
  | red (o : MemOp)
  | redc (o : MemOp)
  | pref (o : MemOp)
  | fence (o : MemOp)
  | cwb (o : MemOp)
  | cinv (o : MemOp)
  | maps (o : MemOp)
  | unmaps (o : MemOp)
  | wbs (o : MemOp)
  | ldh (o : MemOp)
  | sth (o : MemOp)
  -- ENG (15, 16)
  | copy (o : EngOp)
  | scld (o : EngOp)
  | mma (o : EngOp)
  | accwin (o : EngOp)
  | accz (o : EngOp)
  | accld (o : EngOp)
  | accst (o : EngOp)
  | accrd (o : EngOp)
  | accwr (o : EngOp)
  | ftest (o : EngOp)
  | fcancel (o : EngOp)
  | fwait (o : EngOp)
  | tbinit (o : EngOp)
  | tbinitRearm (o : EngOp)
  | tbarv (o : EngOp)
  | tbexp (o : EngOp)
  | tbwait (o : EngOp)
  | stgwait (o : EngOp)
  | cont (o : EngOp)
  | bararv (o : EngOp)
  | barsync (o : EngOp)
  | rdv (o : EngOp)
  | rdvx (o : EngOp)
  | rdvv (o : EngOp)
  | rdvs (o : EngOp)
  | waita (o : EngOp)
  | launch (o : EngOp)
  | resort (o : EngOp)
  | idemx (o : EngOp)
  -- SYS (16)
  | srd (o : EngOp)
  | swr (o : EngOp)
  | trap (o : EngOp)
  | tret (o : EngOp)
  | brk (o : EngOp)
  | nop (o : EngOp)
  | sleep (o : EngOp)
  | chsel (o : EngOp)
  | probe (o : EngOp)
  | dbgmark (o : EngOp)
  -- control, in every class (13)
  | bra (o : CtlOp)
  | bz (o : CtlOp)
  | bnz (o : CtlOp)
  | bltz (o : CtlOp)
  | bgez (o : CtlOp)
  | brx (o : CtlOp)
  | call (o : CtlOp)
  | callx (o : CtlOp)
  | ret (o : CtlOp)
  | exit (o : CtlOp)
  -- execution and memory accesses (06, 07, 15)
  | runStart (p : BitVec 11) (q : BitVec 2)
  | loadComplete (r : Nat)
  | storeComplete (r : Nat)
  | atomicComplete (r : Nat)
  | redcCombined (r : Nat)
  | cacheOpComplete (r : Nat)
  | mapBound (r : Nat)
  | mapLineFill (k : Nat) (line : Nat)
  | mapWritebackDone (r : Nat)
  | releasePrereqMet (k tid : Nat)
  | acquireCheckComplete (k tid : Nat)
  -- Saiga, Oryx, waits (09, 10, 15, 16)
  | saigaPiece (c : Nat) (i : Nat)
  | scoutProbe (c : Nat)
  | copyCancelStop (c : Nat)
  | copyComplete (c : Nat)
  | continuationSpawn (k : Nat)
  | passStart (quad : BitVec 9)
  | passRetire (quad : BitVec 9)
  | accumOpComplete (r : Nat)
  | waitaTimeout (k tid : Nat)
  | sleepExpire (k tid : Nat)
  -- translation and faults (08)
  | invalidateVaRange (v : Word)
  | invalidateAsid (v : Word)
  | invalidateAll (v : Word)
  | remoteLineDrop
  | invalidationDone
  | pageWalkComplete (k : Nat) (va : DWord)
  | faultRecordWrite
  | fqdoorWrite (v : Word)
  | fqcfgWrite (v : Word)
  | freplyRetry (fid : BitVec 24)
  | freplyFail (fid : BitVec 24) (disp : BitVec 8)
  | faultWatchdog (fid : BitVec 24)
  | sideLogReplay (e : Nat)
  -- scheduler (05)
  | tpartWrite (t : TowerId) (v : Word)
  | predRecordPoll (l : Nat)
  | unitEnterPlacement (l u : Nat)
  | placewaitExpire (l u : Nat)
  | teamPlace (l u : Nat)
  | teamRestore (k : Nat)
  | preemptPriority (l u : Nat)
  | timeSliceExpire (l u : Nat)
  | teamSaveComplete (k : Nat)
  | teamComplete (k : Nat)
  -- package, towers, Tahr (01)
  | moduleReset
  | registerWrite (pa : BitVec 52) (v : Word)
  | roleCmdGo (t : TowerId) (v : Word)
  | roleDrainDone (t : TowerId)
  | roleFlushDone (t : TowerId)
  | roleReenumerate (t : TowerId)
  | tahrEvaluate (t : TowerId) (td tj : Nat)
  | tahrApply (t : TowerId)
  | thcntTick (t : TowerId)
  -- tower memory (02)
  | chashWrite (t : TowerId) (v : Word)
  | memctlQuiesceSet (t : TowerId)
  | quiesceComplete (t : TowerId)
  | memctlQuiesceClear (t : TowerId)
  | dramZeroingDone (t : TowerId)
  | rowRefresh (t : TowerId) (bank : BitVec 10) (row : Nat)
  | refreshRetryReissue (r : Nat)
  | patrolScrub (t : TowerId) (bank : BitVec 10) (row : Nat) (found : Scrub)
  | remapMissFill (t : TowerId) (bank : BitVec 10) (row : Nat) (aOk bOk : Bool)
  | tsvDriftDetect (t : TowerId) (i : Fin 5)
  | tsvRealignStart (t : TowerId) (i : Fin 5)
  | tsvRealignEnd (t : TowerId) (i : Fin 5)
  | msecctlLock
  | msecctlUnlock
  | unlockWritebackDone
  | keypolWrite (i : BitVec 6) (v : Word)
  -- host interface (04)
  | bulkPacketArrive (b : Bulk)
  | hostCxlMemRead (off : BitVec 40) (n : Nat)
  | hostCxlMemWrite (off : BitVec 40) (d : List Byte)
  | hqctlWrite (v : Word)
  | hqcmdEnable (q : BitVec 14)
  | hqcmdDisable (q : BitVec 14)
  | hqcmdReset (q : BitVec 14)
  | queueDisableComplete (q : BitVec 14)
  | wqDoorbell (q : BitVec 14) (v : Word)
  | queueArbitrationSlot
  | queueEntryFetch (q : BitVec 14) (n : Nat)
  | nopEntry (q : BitVec 14) (e : Nat)
  | launchEntry (q : BitVec 14) (e : Nat)
  | flushEntry (q : BitVec 14) (e : Nat)
  | flushComplete (q : BitVec 14) (e : Nat)
  | biasEntry (q : BitVec 14) (e : Nat)
  | biasPageFlip (q : BitVec 14) (e : Nat)
  | waitEntry (q : BitVec 14) (e : Nat)
  | waitPoll (q : BitVec 14) (e : Nat)
  | signalEntry (q : BitVec 14) (e : Nat)
  | signalStoreDone (q : BitVec 14) (e : Nat)
  | eventRecordWrite (e : BitVec 10)
  | eventDoorbell (e : BitVec 10) (v : Word)
  | eventInterruptTimer (e : BitVec 10)
  | eventContextPoll (e : BitVec 10)
  | hpincfgWrite (v : Word)
  | hostCompletionTimeout (r : Nat)
  | doeDiscovery (i : Nat)
  | spdmNegotiateAlgorithms (mldsa sha3 : Bool)
  | spdmKeyExchange (sess : Nat) (mlkem aes : Bool)
  | spdmMeasurements (signed : Bool) (digest : Digests) (log : Bool)
  | keyLoad (sess : Nat) (msg : BitVec 544)
  | keyClear (sess : Nat) (msg : BitVec 32)
  | keyInstallDone (id : BitVec 10)
  | spdmSessionEnd (sess : Nat)
  -- fabric and far tier (03)
  | syncSlot (j : Nat)
  | fabEmptyCell (c : Cell)
  | fabLoadCell (c : Cell)
  | fabAcquireLoadCell (c : Cell)
  | fabStoreCell (c : Cell)
  | fabReleaseCell (c : Cell)
  | fabReleaseApply (src : BitVec 12)
  | fabOperationPacket (c : Cell)
  | fabReplyCell (c : Cell)
  | fabShootdownCell (c : Cell)
  | fabReservedCell (c : Cell)
  | fabRequestResume (src : BitVec 12)
  | fabEpochLock (flat : BitVec 16)
  | fabLinkDown (p : BitVec 6)
  | fabcfgWrite (v : Word)
  | fardecWrite (n : Fin 4) (v : Word)
  | farTierTimeout (r : Nat)
  | farTierLinkDown (p : Fin 4)
  -- rows 268 and 269 of the table (the device steps stand after the words)
  | hostSnoop (line : Nat) (drop : Bool)
  | fabEpochLoss
  deriving DecidableEq, Repr

end Sys2Proof
end

