-- ==== Sys2Proof/Machine/Fp.lean ====
section
/-!
DEFINITION. Number formats, exact values, rounding, overflow, dither and conversions (R245 to R261).
-/
namespace Sys2Proof.Machine

/-- The layout and special encodings of a format (R245, R246). -/
structure FmtInfo where
  bits : Nat
  fb : Nat
  eb : Nat
  bias : Nat
  inf : Option Nat
  nan : Option Nat
  max : Nat
  deriving DecidableEq, Repr

/-- The formats of R245 and R246. -/
def fmtInfo : Fmt → FmtInfo
  | .f32 => ⟨32, 23, 8, 127, some 0x7F800000, some 0x7FC00000, 0x7F7FFFFF⟩
  | .f16 => ⟨16, 10, 5, 15, some 0x7C00, some 0x7E00, 0x7BFF⟩
  | .bf16 => ⟨16, 7, 8, 127, some 0x7F80, some 0x7FC0, 0x7F7F⟩
  | .e5m2 => ⟨8, 2, 5, 15, some 0x7C, some 0x7E, 0x7B⟩
  | .e4m3 => ⟨8, 3, 4, 7, none, some 0x7F, 0x7E⟩
  | .e2m1 => ⟨4, 1, 2, 1, none, none, 0x7⟩

/-- A decoded value: a NaN (signalling or quiet), an infinity, or (-1)^neg * m * 2^e. -/
inductive Fv where
  | nan (sig : Bool)
  | inf (neg : Bool)
  | fin (neg : Bool) (m : Nat) (e : Int)
  deriving DecidableEq, Repr

/-- FPSTAT's flags (R258). -/
def fNV : Word := 1
def fDZ : Word := 2
def fOF : Word := 4
def fUF : Word := 8
def fIX : Word := 16

/-- Bits with the flags that producing them raised. -/
abbrev FOut := Nat × Word

/-- The exponent of a format's smallest subnormal. -/
def FmtInfo.emin (i : FmtInfo) : Int := 1 - (i.bias : Int) - (i.fb : Int)

/-- The sign bit of an encoding. -/
def fsign (f : Fmt) (b : Nat) : Bool := bitOf b ((fmtInfo f).bits - 1)
/-- An encoding without its sign. -/
def fmag (f : Fmt) (b : Nat) : Nat := b % 2 ^ ((fmtInfo f).bits - 1)
/-- A magnitude with a sign. -/
def fwith (f : Fmt) (neg : Bool) (m : Nat) : Nat := m + if neg then 2 ^ ((fmtInfo f).bits - 1) else 0

/-- The value of an encoding (R245, R246). -/
def fdecode (f : Fmt) (b : Nat) : Fv :=
  let i := fmtInfo f
  let s := fsign f b
  let m := fmag f b
  let e := m / 2 ^ i.fb
  let fr := m % 2 ^ i.fb
  if i.inf == some m then .inf s
  else if i.max < m then .nan (i.inf.isSome && !bitOf fr (i.fb - 1))
  else if e == 0 then .fin s fr i.emin
  else .fin s (2 ^ i.fb + fr) ((e : Int) - 1 + i.emin)

/-- The encoding is subnormal. -/
def fsubnormal (f : Fmt) (b : Nat) : Bool :=
  let m := fmag f b
  m != 0 && m < 2 ^ (fmtInfo f).fb

/-- FTZ acts on FP32, FP16 and BF16 only (R252). -/
def ftzFmt : Fmt → Bool
  | .f32 | .f16 | .bf16 => true
  | _ => false

/-- An operand as an instruction reads it: FTZ, then absolute value, then negation (R319). -/
def fprep (f : Fmt) (ftz aa na : Bool) (b : Nat) : Nat :=
  let b := b % 2 ^ (fmtInfo f).bits
  let b := if ftz && ftzFmt f && fsubnormal f b then fwith f (fsign f b) 0 else b
  let s := (if aa then false else fsign f b) != na
  fwith f s (fmag f b)

/-- The rounding modes of R249; dth carries the entry of T that applies. -/
inductive RMode where
  | rne | rz | rup | rdn | rna
  | dth (t : Nat)
  deriving DecidableEq, Repr

/-- The mode of a code 0 to 4 (R249). -/
def rmodeOf (c : Nat) : RMode :=
  match c with
  | 1 => .rz
  | 2 => .rup
  | 3 => .rdn
  | 4 => .rna
  | _ => .rne

/-- The dither table T (R255). -/
def ditherRows : List Nat :=
  [0, 32, 8, 40, 2, 34, 10, 42, 48, 16, 56, 24, 50, 18, 58, 26, 12, 44, 4, 36, 14, 46, 6, 38, 60, 28, 52, 20, 62, 30, 54, 22] ++
  [3, 35, 11, 43, 1, 33, 9, 41, 51, 19, 59, 27, 49, 17, 57, 25, 15, 47, 7, 39, 13, 45, 5, 37, 63, 31, 55, 23, 61, 29, 53, 21]

/-- T[(i + p) mod 64] (R256). -/
def ditherAt (i p : Nat) : Nat := ditherRows.getD ((i + p) % 64) 0

/-- An exact magnitude m * 2^e with its sign; st says that the true value lies strictly between m and m + 1 units. -/
structure Exact where
  neg : Bool
  m : Nat
  e : Int
  st : Bool
  deriving DecidableEq, Repr

/-- The magnitude rounds away from zero: n is its lower neighbour, rem / 2^k (and more, if st) the fraction above it (R249, R256). -/
def roundsUp (md : RMode) (neg : Bool) (n rem k : Nat) (st : Bool) : Bool :=
  let half := 2 ^ (k - 1)
  let gt := half < rem || (rem == half && st)
  let eq := rem == half && !st
  let inexact := rem != 0 || st
  match md with
  | .rne => gt || (eq && n % 2 == 1)
  | .rz => false
  | .rup => inexact && !neg
  | .rdn => inexact && neg
  | .rna => gt || eq
  | .dth t =>
    if neg then inexact && decide ((2 ^ k - rem) * 128 ≤ (2 * t + 1) * 2 ^ k)
    else decide ((2 * t + 1) * 2 ^ k < rem * 128)

/-- A magnitude as a multiple of 2^q, rounded, and whether that changed it. -/
def roundAt (md : RMode) (x : Exact) (q : Int) : Nat × Bool :=
  if q ≤ x.e then (x.m * 2 ^ (x.e - q).toNat, x.st)
  else
    let k := (q - x.e).toNat
    let n := x.m / 2 ^ k
    let rem := x.m % 2 ^ k
    (if roundsUp md x.neg n rem k x.st then n + 1 else n, rem != 0 || x.st)

/-- Encode r * 2^q, where r is below 2^(fb+1) or equal to it and q is emin or r is at least 2^fb. -/
def fencode (f : Fmt) (r : Nat) (q : Int) : Nat :=
  let i := fmtInfo f
  if r < 2 ^ i.fb then r
  else (q - i.emin).toNat * 2 ^ i.fb + r

/-- r * 2^q is above the format's largest finite value (R253). -/
def foverflows (f : Fmt) (r : Nat) (q : Int) : Bool := (fmtInfo f).max < fencode f r q

/-- What an overflowing result becomes, without its sign (R253). -/
def foverflow (f : Fmt) (md : RMode) (sat neg : Bool) : Nat :=
  let i := fmtInfo f
  let up := match md with
    | .rne | .rna => true
    | .rup => !neg
    | .rdn => neg
    | .rz | .dth _ => false
  if sat || !up then i.max else (i.inf.or i.nan).getD i.max

/-- The sign of an overflowing result: the canonical NaN is positive (R247). -/
def foverflowBits (f : Fmt) (md : RMode) (sat neg : Bool) : Nat :=
  let m := foverflow f md sat neg
  if some m == (fmtInfo f).nan then m else fwith f neg m

/-- Round an exact value into a format with the flags of R252 and R253; an exact zero keeps its sign. Tininess is judged after rounding with an unbounded exponent. -/
def fround (f : Fmt) (md : RMode) (sat ftz : Bool) (x : Exact) : FOut :=
  let i := fmtInfo f
  if x.m == 0 then (fwith f x.neg 0, 0)
  else
    let top : Int := (x.m.log2 : Int) + x.e - i.fb
    let q := if top < i.emin then i.emin else top
    let (r, ix) := roundAt md x q
    let unb := (roundAt md x top).1
    let tiny := top < i.emin - 1 || (top == i.emin - 1 && unb < 2 ^ (i.fb + 1))
    if foverflows f r q then (foverflowBits f md sat x.neg, fOF ||| fIX)
    else
      let b := fencode f r q
      if ftz && ftzFmt f && fsubnormal f b then (fwith f x.neg 0, fUF ||| fIX)
      else (fwith f x.neg b, (if ix then fIX else 0) ||| (if tiny && ix then fUF else 0))

/-- The canonical NaN of a format; a format without one gives +0 (R246, R254). -/
def fnan (f : Fmt) : Nat := (fmtInfo f).nan.getD 0

/-- Signed exact integers times a power of two. -/
structure Sx where
  i : Int
  e : Int
  deriving DecidableEq, Repr

/-- A finite value as a signed exact one. -/
def sxOf (neg : Bool) (m : Nat) (e : Int) : Sx := ⟨if neg then -(m : Int) else m, e⟩

/-- Exact sum. -/
def Sx.add (x y : Sx) : Sx :=
  let e := if x.e ≤ y.e then x.e else y.e
  ⟨x.i * (2 ^ (x.e - e).toNat : Nat) + y.i * (2 ^ (y.e - e).toNat : Nat), e⟩

/-- Exact sum of a list. -/
def sxSum : List Sx → Sx
  | [] => ⟨0, 0⟩
  | [x] => x
  | x :: xs => x.add (sxSum xs)

/-- The magnitude of a signed exact value; zneg is the sign of an exact zero. -/
def Sx.exact (x : Sx) (zneg : Bool) : Exact := ⟨if x.i == 0 then zneg else decide (x.i < 0), x.i.natAbs, x.e, false⟩

/-- NV for a signalling NaN among the operands (R247). -/
def nvOf : List Fv → Word
  | [] => 0
  | .nan true :: _ => fNV
  | _ :: vs => nvOf vs

/-- A NaN. -/
def Fv.isNan : Fv → Bool
  | .nan _ => true
  | _ => false

/-- Zero of a sum of terms: the sign all zero terms share, else plus, or minus under RDN (R322). -/
def zeroSign (md : RMode) (signs : List Bool) : Bool := signs.all id || (md == .rdn && !signs.all (!·))

/-- a + b (R322). -/
def faddOf (f : Fmt) (md : RMode) (ftz : Bool) (a b : Nat) : FOut :=
  match fdecode f a, fdecode f b with
  | .inf s, .inf t => if s == t then (fwith f s ((fmtInfo f).inf.getD 0), 0) else (fnan f, fNV)
  | .inf s, .fin _ _ _ => (fwith f s ((fmtInfo f).inf.getD 0), 0)
  | .fin _ _ _, .inf t => (fwith f t ((fmtInfo f).inf.getD 0), 0)
  | .fin s m e, .fin t n g => fround f md false ftz (((sxOf s m e).add (sxOf t n g)).exact (zeroSign md [s, t]))
  | x, y => (fnan f, nvOf [x, y])

/-- a - b: the sign of b changes first, a NaN stays one (R322). -/
def fsubOf (f : Fmt) (md : RMode) (ftz : Bool) (a b : Nat) : FOut := faddOf f md ftz a (fprep f false false true b)

/-- a * b (R322). -/
def fmulOf (f : Fmt) (md : RMode) (ftz : Bool) (a b : Nat) : FOut :=
  match fdecode f a, fdecode f b with
  | .nan x, y => (fnan f, nvOf [.nan x, y])
  | x, .nan y => (fnan f, nvOf [x, .nan y])
  | .inf s, .inf t => (fwith f (s != t) ((fmtInfo f).inf.getD 0), 0)
  | .inf s, .fin t n _ => if n == 0 then (fnan f, fNV) else (fwith f (s != t) ((fmtInfo f).inf.getD 0), 0)
  | .fin s m _, .inf t => if m == 0 then (fnan f, fNV) else (fwith f (s != t) ((fmtInfo f).inf.getD 0), 0)
  | .fin s m e, .fin t n g => fround f md false ftz ⟨s != t, m * n, e + g, false⟩

/-- A product of two values of any formats: a NaN with NV or not, an infinity, or exact (R262, R322). -/
inductive Prod where
  | nan (nv : Bool)
  | inf (neg : Bool)
  | val (neg : Bool) (m : Nat) (e : Int)
  deriving DecidableEq, Repr

/-- The product with the special cases of R322 and R262. -/
def fprod (a b : Fv) : Prod :=
  match a, b with
  | .inf s, .inf t => .inf (s != t)
  | .inf s, .fin t n _ => if n == 0 then .nan true else .inf (s != t)
  | .fin s m _, .inf t => if m == 0 then .nan true else .inf (s != t)
  | .fin s m e, .fin t n g => .val (s != t) (m * n) (e + g)
  | x, y => .nan (nvOf [x, y] != 0)

/-- Terms of a sum as products; a lone value is a product with one. -/
def Fv.term : Fv → Prod
  | .nan sig => .nan sig
  | .inf s => .inf s
  | .fin s m e => .val s m e

/-- The exact sum of terms, rounded once, with the special cases of R262 and R329. -/
def fsumOf (f : Fmt) (md : RMode) (ftz : Bool) (ts : List Prod) : FOut :=
  let nan := ts.any fun t => match t with | .nan _ => true | _ => false
  let nv := ts.any fun t => match t with | .nan v => v | _ => false
  let pos := ts.any fun t => t == .inf false
  let neg := ts.any fun t => t == .inf true
  let inf := (fmtInfo f).inf.getD 0
  if nan || (pos && neg) then (fnan f, if nv || (pos && neg) then fNV else 0)
  else if pos then (inf, 0)
  else if neg then (fwith f true inf, 0)
  else
    let xs := ts.map fun t => match t with | .val s m e => sxOf s m e | _ => ⟨0, 0⟩
    let allNegZero := ts.all fun t => match t with | .val s m _ => s && m == 0 | _ => false
    fround f md false ftz ((sxSum xs).exact (allNegZero || md == .rdn))

/-- a * b + c, rounded once (R322). -/
def ffmaOf (f : Fmt) (md : RMode) (ftz : Bool) (a b c : Nat) : FOut :=
  let x := fdecode f a
  let y := fdecode f b
  let z := fdecode f c
  match fprod x y, z with
  | .nan nv, z => (fnan f, if nv then fNV else nvOf [z])
  | _, .nan sig => (fnan f, if sig then fNV else 0)
  | .inf s, .inf t => if s == t then (fwith f s ((fmtInfo f).inf.getD 0), 0) else (fnan f, fNV)
  | .inf s, .fin _ _ _ => (fwith f s ((fmtInfo f).inf.getD 0), 0)
  | .val _ _ _, .inf t => (fwith f t ((fmtInfo f).inf.getD 0), 0)
  | .val s m e, .fin t n g => fround f md false ftz (((sxOf s m e).add (sxOf t n g)).exact (zeroSign md [s, t]))

/-- A place on the line of magnitudes with signs: -0 stands below +0 (R323). -/
def forder (f : Fmt) (b : Nat) : Int := if fsign f b then -(fmag f b : Int) - 1 else fmag f b

/-- FMIN, FMAX and their forms that ignore a NaN (R323). -/
def fminOf (f : Fmt) (max num : Bool) (a b : Nat) : FOut :=
  let x := fdecode f a
  let y := fdecode f b
  let nv := nvOf [x, y]
  let pick := if (forder f a ≤ forder f b) != max then a else b
  match x.isNan, y.isNan with
  | false, false => (pick, 0)
  | true, true => (fnan f, nv)
  | true, false => (if num then b else fnan f, nv)
  | false, true => (if num then a else fnan f, nv)

/-- Comparison of two values that are no NaN: less, equal, greater as -1, 0, 1; zeros are equal. -/
def fcmp (f : Fmt) (a b : Nat) : Int :=
  let x : Int := if fsign f a then -(fmag f a : Int) else fmag f a
  let y : Int := if fsign f b then -(fmag f b : Int) else fmag f b
  if x < y then -1 else if y < x then 1 else 0

/-- FSETC (R325): the condition and the NV it raises. -/
def fsetcOf (c : Nat) (a b : Nat) : Bool × Word :=
  let x := fdecode .f32 a
  let y := fdecode .f32 b
  let un := x.isNan || y.isNan
  let k := fcmp .f32 a b
  let base := match c % 8 with
    | 0 => !un && k == 0
    | 1 => !un && k != 0
    | 2 => !un && decide (k < 0)
    | 3 => !un && decide (k ≤ 0)
    | 4 => !un && decide (0 < k)
    | 5 => !un && decide (0 ≤ k)
    | 6 => un
    | _ => !un
  let quietNv := un && decide (2 ≤ c % 8) && decide (c % 8 ≤ 5)
  ((if 8 ≤ c then un || base else base), if quietNv then fNV else nvOf [x, y])

/-- FCLASS (R326). -/
def fclassOf (b : Nat) : Nat :=
  let s := fsign .f32 b
  match fdecode .f32 b with
  | .nan sig => if sig then 2 ^ 8 else 2 ^ 9
  | .inf _ => if s then 2 ^ 0 else 2 ^ 7
  | .fin _ m _ =>
    if m == 0 then (if s then 2 ^ 3 else 2 ^ 4)
    else if fsubnormal .f32 b then (if s then 2 ^ 2 else 2 ^ 5)
    else (if s then 2 ^ 1 else 2 ^ 6)

/-- FRND: the integral value in the mode, with no flag but NV (R327). -/
def frndOf (md : RMode) (b : Nat) : FOut :=
  match fdecode .f32 b with
  | .nan sig => (fnan .f32, if sig then fNV else 0)
  | .inf _ => (b, 0)
  | .fin s m e => if 0 ≤ e then (b, 0) else ((fround .f32 .rne false false ⟨s, (roundAt md ⟨s, m, e, false⟩ 0).1, 0, false⟩).1, 0)

/-- FSCALE (R322); an n beyond 700 either way rounds as 700 does. -/
def fscaleOf (md : RMode) (ftz : Bool) (b : Nat) (n : Int) : FOut :=
  match fdecode .f32 b with
  | .nan sig => (fnan .f32, if sig then fNV else 0)
  | .inf _ => (b, 0)
  | .fin s m e => if m == 0 then (b, 0) else fround .f32 md false ftz ⟨s, m, e + (if n < -700 then -700 else if 700 < n then 700 else n), false⟩

/-- A conversion between formats (R254, R261). -/
def fcvtOf (s t : Fmt) (md : RMode) (sat ftz : Bool) (b : Nat) : FOut :=
  let i := fmtInfo t
  match fdecode s b with
  | .nan sig => (fnan t, if sig || i.nan == none then fNV else 0)
  | .inf neg =>
    if sat then (fwith t neg i.max, 0)
    else match i.inf, i.nan with
      | some m, _ => (fwith t neg m, 0)
      | none, some n => (n, fOF ||| fIX)
      | none, none => (fwith t neg i.max, fOF ||| fIX)
  | .fin neg m e => fround t md sat ftz ⟨neg, m, e, false⟩

/-- The width and signedness of an integer type (R248). -/
def itypeBits : IType → Nat
  | .i8 | .n8 => 8
  | .i16 | .n16 => 16
  | .i32 | .n32 => 32
  | .i64 | .n64 => 64
def itypeUnsigned : IType → Bool
  | .n8 | .n16 | .n32 | .n64 => true
  | _ => false

/-- F2I: the integer and the flags (R261). -/
def f2iOf (s : Fmt) (t : IType) (md : RMode) (b : Nat) : Int × Word :=
  let w := itypeBits t
  let lo : Int := if itypeUnsigned t then 0 else -(2 ^ (w - 1) : Nat)
  let hi : Int := if itypeUnsigned t then (2 ^ w : Nat) - 1 else (2 ^ (w - 1) : Nat) - 1
  match fdecode s b with
  | .nan _ => (0, fNV)
  | .inf neg => (if neg then lo else hi, fNV)
  | .fin neg m e =>
    let (n, ix) := roundAt md ⟨neg, m, e, false⟩ 0
    let r : Int := if neg then -(n : Int) else n
    if r < lo then (lo, fNV) else if hi < r then (hi, fNV) else (r, if ix then fIX else 0)

/-- I2F (R261). -/
def i2fOf (t : Fmt) (md : RMode) (sat ftz : Bool) (v : Int) : FOut :=
  fround t md sat ftz ⟨decide (v < 0), v.natAbs, 0, false⟩

/-- The integer square root, bit by bit. -/
def isqrtBits : (bits n r : Nat) → Nat
  | 0, _, r => r
  | k + 1, n, r => isqrtBits k n (if (r + 2 ^ k) * (r + 2 ^ k) ≤ n then r + 2 ^ k else r)
def isqrt (n : Nat) : Nat := isqrtBits (n.log2 / 2 + 1) n 0

/-- a / b for finite operands, b not zero, as an exact magnitude with its sticky bit (R336). -/
def fquot (s t : Bool) (m : Nat) (e : Int) (n : Nat) (g : Int) : Exact :=
  ⟨s != t, m * 2 ^ 80 / n, e - g - 80, m * 2 ^ 80 % n != 0⟩

/-- DIV (R336). -/
def fdivOf (md : RMode) (ftz : Bool) (a b : Nat) : FOut :=
  match fdecode .f32 a, fdecode .f32 b with
  | .nan x, y => (fnan .f32, nvOf [.nan x, y])
  | x, .nan y => (fnan .f32, nvOf [x, .nan y])
  | .inf _, .inf _ => (fnan .f32, fNV)
  | .inf s, .fin t _ _ => (fwith .f32 (s != t) 0x7F800000, 0)
  | .fin s _ _, .inf t => (fwith .f32 (s != t) 0, 0)
  | .fin s m e, .fin t n g =>
    if n == 0 then (if m == 0 then (fnan .f32, fNV) else (fwith .f32 (s != t) 0x7F800000, fDZ))
    else if m == 0 then (fwith .f32 (s != t) 0, 0)
    else fround .f32 md false ftz (fquot s t m e n g)

/-- RCP (R334, R335). -/
def frcpOf (md : RMode) (ftz : Bool) (a : Nat) : FOut :=
  match fdecode .f32 a with
  | .nan sig => (fnan .f32, if sig then fNV else 0)
  | .inf s => (fwith .f32 s 0, 0)
  | .fin s m e => if m == 0 then (fwith .f32 s 0x7F800000, fDZ) else fround .f32 md false ftz (fquot false s 1 0 m e)

/-- m * 2^e with an even exponent. -/
def evenExp (m : Nat) (e : Int) : Nat × Int := if e % 2 == 0 then (m, e) else (2 * m, e - 1)

/-- SQRT (R334, R335). -/
def fsqrtOf (md : RMode) (ftz : Bool) (a : Nat) : FOut :=
  match fdecode .f32 a with
  | .nan sig => (fnan .f32, if sig then fNV else 0)
  | .inf s => if s then (fnan .f32, fNV) else (a, 0)
  | .fin s m e =>
    if m == 0 then (a, 0)
    else if s then (fnan .f32, fNV)
    else
      let (m, e) := evenExp m e
      let r := isqrt (m * 2 ^ 80)
      fround .f32 md false ftz ⟨false, r, e / 2 - 40, r * r != m * 2 ^ 80⟩

/-- 1 / sqrt(m * 2^e), truncated to FP32, and whether that is exact. -/
def frsqFloor (m : Nat) (e : Int) : Nat × Bool :=
  let (m, e) := evenExp m e
  let r := isqrt (2 ^ 120 / m)
  let (b, fl) := fround .f32 .rz false false ⟨false, r, -(e / 2) - 60, r * r * m != 2 ^ 120⟩
  (b, fl == 0)

end Sys2Proof.Machine
end

