-- ==== Sys2Proof/Config.lean ====
section
/-!
DEFINITION. What the manual leaves open as a value: uninterpreted constants with no body (log entries 6, 7, 10, 11, 34, 38, 48, 49).
-/
namespace Sys2Proof.Config

/-- The n-th free 32-bit value: an undefined value of R6 (log entry 6). -/
opaque freeWord : Nat → Word
/-- The n-th free choice, between values or orders that the manual leaves open (R6; log entry 11). -/
opaque freeChoice : Nat → Bool
/-- RSQ between the exact cases of R335 (R334; log entry 7). -/
opaque rsq : Word → Word
/-- EX2 between the exact cases of R335 (R334; log entry 7). -/
opaque ex2 : Word → Word
/-- LG2 between the exact cases of R335 (R334; log entry 7). -/
opaque lg2 : Word → Word
/-- SIN between the exact cases of R335 (R334; log entry 7). -/
opaque sin : Word → Word
/-- COS between the exact cases of R335 (R334; log entry 7). -/
opaque cos : Word → Word
/-- TANH between the exact cases of R335 (R334; log entry 7). -/
opaque tanh : Word → Word
/-- The key pair of key ID 0 that the hub draws from its entropy source at the n-th module reset (R53; log entry 10). -/
opaque entropyPair : (n : Nat) → BitVec 512
/-- The 16 bytes of a runtime-log record: event, tower, bank index and row, in a layout the manual does not give (R58; log entry 10). -/
opaque logRecord : (event tower bank row : Nat) → BitVec 128
/-- The bytes of remap copy A with these (bank, row, spare) entries, in a layout the manual does not give (R58; log entry 10). -/
opaque remapImage : List (Nat × Nat × Nat) → List Byte
/-- A pseudo-channel with so many stranded banks and so many spare rows in use has a spare row left (R46 to R48; log entry 34). -/
opaque spareLeft : (stranded used : Nat) → Bool

/-- The retention bin of a row as the test of the n-th module reset and the filters give it: 0 for 32 ms, 1 for 64 ms, else 128 ms (R44; log entry 48). -/
opaque retention : (n tower bank row : Nat) → Nat
/-- The row of a bank that holds its n-th line (R37, R47; log entry 48). -/
opaque rowOf : (line : Nat) → Nat
/-- The highest DRAM die and junction temperatures of a tower that Tahr reads at its k-th evaluation (R31; log entry 49). -/
opaque temps : (tower k : Nat) → Nat × Nat

/-- The SHA3-256 digest of the running firmware images (R108; log entry 38). -/
opaque firmwareDigest : BitVec 256

end Sys2Proof.Config
end

