-- ==== Sys2Proof/WellFormed.lean ====
section
/-!
DEFINITION. Which words are instructions: check 2 of R269, one rule per constructor, written from the tables of 13 to 16.
Register limits (check 4 of R269) are no part of it: they depend on REGS.
-/
namespace Sys2Proof

/-- What an INT, FLT or XFN instruction accepts (R270, R294, R321). -/
structure AluRule where
  /-- U = 1 is accepted. -/
  u : Bool := true
  /-- The values of M that are accepted. -/
  r0 : Bool := true
  i1 : Bool := true
  l2 : Bool := true
  e3 : Bool := true
  /-- A must be zero. -/
  az : Bool := false
  /-- A register B must be zero. -/
  bz : Bool := false
  /-- Operands that may carry the sign modifiers. -/
  ma : Bool := false
  mb : Bool := false
  mc : Bool := false
  /-- SAT may be 1. -/
  sat : Bool := false
  /-- RO may be 1. -/
  ro : Bool := false
  /-- RM 5 is accepted, and B then names the position register (R330). -/
  dth : Bool := false
  /-- C is read. -/
  c : Bool := false
  /-- The values of FN that are accepted. -/
  fn : BitVec 14 → Bool := fun f => f == 0

/-- The rounding field of the extension word (R271, R321). -/
def Ext.roundOk (ru : AluRule) (e : Ext) : Bool :=
  if e.ro then ru.ro && (e.rm ≤ 4 || (e.rm == 5 && ru.dth)) else e.rm == 0

/-- The extension word against an instruction's rule (R271, R294, R321). -/
def Ext.ok (ru : AluRule) (e : Ext) : Bool :=
  (ru.ma || (!e.na && !e.aa)) && (ru.mb || (!e.nb && !e.ab)) && (ru.mc || (!e.nc && !e.ac)) &&
  (ru.c || e.c == 0) && (ru.sat || !e.sat) && e.roundOk ru && ru.fn e.fn

/-- A dithered conversion: RO = 1 and RM 5 (R330). -/
def Ext.dither (e : Ext) : Bool := e.ro && e.rm == 5

/-- An INT, FLT or XFN word against its rule (R269 check 2). -/
def Alu.ok (ru : AluRule) (o : Alu) : Bool :=
  (ru.u || !o.u) && (!ru.az || o.a == 0) &&
  match o.b with
  | .reg r => ru.r0 && (!ru.bz || r == 0)
  | .imm _ => ru.i1
  | .lit _ => ru.l2
  | .ext r e => ru.e3 && e.ok ru && (!ru.bz || r == 0 || e.dither)

/-- Whether a literal word is refused, optional or required (R338, R367, R392). -/
inductive LitRule where | refused | optional | required
  deriving DecidableEq, Repr

/-- What a MEM instruction accepts (R338). -/
structure MemRule where
  u : Bool := true
  z : Size → Bool
  dz : Bool := false
  az : Bool := false
  lit : LitRule := .optional
  litOk : Size → Word → Bool := fun _ _ => true
  sc : Scope → Bool := fun _ => true
  ord : Order → Bool := fun o => o == .rlx
  rt : RType → Bool := fun t => t == .dflt

/-- A literal against its rule. -/
def LitRule.ok (l : LitRule) (p : Word → Bool) (w : Option Word) : Bool :=
  match l, w with
  | .refused, none => true
  | .refused, some _ => false
  | .optional, none => true
  | .optional, some v => p v
  | .required, none => false
  | .required, some v => p v

/-- A MEM word against its rule (R269 check 2). -/
def MemOp.ok (ru : MemRule) (o : MemOp) : Bool :=
  (ru.u || !o.u) && ru.z o.z && (!ru.dz || o.d == 0) && (!ru.az || o.a == 0) &&
  ru.lit.ok (ru.litOk o.z) o.lit && ru.sc o.sc && ru.ord o.ord && ru.rt o.rt

/-- What an ENG or SYS instruction accepts (R357, R361, R365, R367, R392). The field predicates see whether a literal follows. -/
structure EngRule where
  u : Bool := false
  d : Reg → Bool := fun _ => true
  a : Bool → Reg → Bool := fun _ _ => true
  b : Bool → Reg → Bool := fun _ _ => true
  lit : LitRule := .refused
  litOk : Word → Bool := fun _ => true
  /-- U = 1 with this B (SRD of a register that is not uniform refuses it, R393). -/
  ub : Reg → Bool := fun _ => true

/-- An ENG or SYS word against its rule (R269 check 2). -/
def EngOp.ok (ru : EngRule) (o : EngOp) : Bool :=
  (!o.u || (ru.u && ru.ub o.b)) && ru.d o.d && ru.a o.lit.isSome o.a && ru.b o.lit.isSome o.b &&
  ru.lit.ok ru.litOk o.lit

/-- What a control instruction accepts (R312). -/
structure CtlRule where
  u : Bool := true
  off : Bool
  dz : Bool := true
  az : Bool := false

/-- A control word against its rule (R269 check 2, R312). -/
def CtlOp.ok (ru : CtlRule) (o : CtlOp) : Bool :=
  (ru.u || !o.u) && (o.off.isSome == ru.off) && (!ru.dz || o.d == 0) && (!ru.az || o.a == 0)

/-- An instruction as the encoding tables see it: a device step, or a word of one of the four shapes with its opcode and rule. -/
inductive Body where
  | dev
  | alu (k : Cls) (op : BitVec 8) (ru : AluRule) (o : Alu)
  | mem (n : BitVec 5) (ru : MemRule) (o : MemOp)
  | eng (k : Cls) (op : BitVec 8) (ru : EngRule) (o : EngOp)
  | ctl (op : BitVec 8) (ru : CtlRule) (o : CtlOp)

/-- The numbers of the special registers and which are 64 bits wide, writable and uniform (R275). -/
structure SpecialInfo where
  wide : Bool
  rw : Bool
  uniform : Bool
  deriving DecidableEq, Repr

/-- The special registers by number (R275). -/
def specialInfo : Nat → Option SpecialInfo
  | 0x00 => some ⟨false, false, false⟩  -- TID
  | 0x01 => some ⟨false, false, true⟩   -- TEAMID
  | 0x02 => some ⟨false, false, true⟩   -- CLUSTERID
  | 0x03 => some ⟨false, false, true⟩   -- CLUSTERRANK
  | 0x04 => some ⟨false, false, true⟩   -- GRIDID
  | 0x05 => some ⟨false, false, true⟩   -- CREWSIZE
  | 0x06 => some ⟨false, false, false⟩  -- LANE
  | 0x07 => some ⟨false, false, true⟩   -- CORE
  | 0x08 => some ⟨false, false, true⟩   -- PCORE
  | 0x09 => some ⟨false, false, true⟩   -- TOWER
  | 0x0A => some ⟨false, false, true⟩   -- STRATUM
  | 0x0B => some ⟨true, false, true⟩    -- PARAM
  | 0x0C => some ⟨true, false, false⟩   -- CLOCK
  | 0x0D => some ⟨false, false, true⟩   -- THSTATE
  | 0x0E => some ⟨false, false, true⟩   -- ACCBASE
  | 0x0F => some ⟨false, false, true⟩   -- ACCLIM
  | 0x10 => some ⟨true, false, true⟩    -- LOCALBASE
  | 0x20 => some ⟨false, true, false⟩   -- FPSTAT
  | 0x21 => some ⟨false, true, false⟩   -- DPHASE
  | 0x22 => some ⟨false, true, false⟩   -- UCHK
  | 0x23 => some ⟨false, true, false⟩   -- FTZ
  | 0x30 => some ⟨true, true, false⟩    -- TPC
  | 0x31 => some ⟨true, true, false⟩    -- TCLAUSE
  | 0x32 => some ⟨true, true, false⟩    -- TADDR
  | 0x33 => some ⟨false, true, false⟩   -- TCAUSE
  | 0x34 => some ⟨false, true, false⟩   -- TINFO
  | _ => none

/-- The code of a format (R279). -/
def Fmt.code : Fmt → BitVec 3
  | .f32 => 0 | .f16 => 1 | .bf16 => 2 | .e5m2 => 3 | .e4m3 => 4 | .e2m1 => 5

/-- The code of an integer type (R279). -/
def IType.code : IType → BitVec 3
  | .i8 => 0 | .i16 => 1 | .i32 => 2 | .i64 => 3 | .n8 => 4 | .n16 => 5 | .n32 => 6 | .n64 => 7

/-- The conversions of R261 that are exact (R330): to FP32 from any format, and FP8 and E2M1 into any format that holds them. -/
def Fmt.exactTo : Fmt → Fmt → Bool
  | .f16, .f32 | .bf16, .f32 | .e5m2, .f32 | .e4m3, .f32 | .e2m1, .f32 => true
  | .e5m2, .f16 | .e4m3, .f16 | .e2m1, .f16 => true
  | .e5m2, .bf16 | .e4m3, .bf16 | .e2m1, .bf16 => true
  | .e2m1, .e5m2 | .e2m1, .e4m3 => true
  | _, _ => false

/-- The largest position of PACK and UNPK (R332, R333). -/
def Fmt.maxPos : Fmt → Nat
  | .e5m2 | .e4m3 => 1
  | .e2m1 => 3
  | _ => 0

/-- SETC: FN[2:0] at most 5, FN[13:3] zero (R298). -/
def fnSetc (f : BitVec 14) : Bool := f.toNat ≤ 5
/-- TLOG: FN[13:8] zero (R304). -/
def fnTlog (f : BitVec 14) : Bool := f.toNat < 256
/-- LEA: FN[2:0] at most 4, FN[13:4] zero (R311). -/
def fnLea (f : BitVec 14) : Bool := f.toNat < 16 && f.toNat % 8 ≤ 4
/-- FSETC: FN[3:0] at most 13, FN[13:4] zero (R325). -/
def fnFsetc (f : BitVec 14) : Bool := f.toNat ≤ 13
/-- The lane selector: FN[13:2] zero (R328). -/
def fnLane (f : BitVec 14) : Bool := f.toNat < 4

/-- All four modes with saturation (R297, R300, R301, R302). -/
def ruSat : AluRule := { sat := true }
/-- M 00, 01 and 10. -/
def ruPlain : AluRule := { e3 := false }
/-- M 11 only, reading c (R299, R306, R309). -/
def ruExtC : AluRule := { r0 := false, i1 := false, l2 := false, c := true }
/-- M 00 with B zero (R308). -/
def ruUnary : AluRule := { i1 := false, l2 := false, e3 := false, bz := true }
/-- M 00 and 10 (R307). -/
def ruField : AluRule := { i1 := false, e3 := false }
/-- FP arithmetic of two operands (R322). -/
def ruFp2 : AluRule := { ma := true, mb := true, ro := true }
/-- FP arithmetic of three operands (R322, R328). -/
def ruFp3 (fn : BitVec 14 → Bool) : AluRule :=
  { r0 := false, i1 := false, l2 := false, ma := true, mb := true, mc := true, ro := true, c := true, fn := fn }
/-- FMIN and its kin (R323). -/
def ruFpMin : AluRule := { ma := true, mb := true }
/-- Packed arithmetic of two operands (R328). -/
def ruVec2 : AluRule := { ma := true, mb := true, ro := true, fn := fnLane }
/-- One FP operand, with or without a rounding field (R327, R334). -/
def ruFp1 (ro : Bool) : AluRule := { i1 := false, l2 := false, bz := true, ma := true, ro := ro }

/-- The operation codes of ATOM and RED, with the sizes they take (R346). -/
def atopOk (red : Bool) (z : Size) (w : Word) : Bool :=
  let op := (w >>> 24).toNat
  op ≤ 7 || (op == 8 && !red) || (op == 9 && z == .b32)

/-- LDS and STS: bits [30:24] of the literal are zero (R345). -/
def peerLitOk (_ : Size) (w : Word) : Bool := (w >>> 24).toNat % 128 == 0

/-- The literal of ACCLD and ACCST (R383). -/
def accLitOk (store : Bool) (w : Word) : Bool :=
  let f (hi lo : Nat) := w.toNat / 2 ^ lo % 2 ^ (hi + 1 - lo)
  let sp := f 31 31; let fmt := f 30 28; let rm := f 27 25; let ph := f 24 19
  let sc := f 12 11; let ty := f 10 8
  fmt ≤ 4 && (if store then (if fmt == 0 then rm == 0 else rm ≤ 5) else rm == 0 && ph == 0) &&
  (if sp == 1 then sc == 0 && ty == 0 else ty ≤ 4) && f 7 0 == 0

def anyPow (z : Size) : Bool := z == .b32 || z == .b64
def anyOrd (_ : Order) : Bool := true
def anyType (_ : RType) : Bool := true
def rlxAcq (o : Order) : Bool := o == .rlx || o == .acq
def rlxRel (o : Order) : Bool := o == .rlx || o == .rel
/-- B zero, as MAPS, UNMAPS and WBS ask (R338). -/
def bZero (s : Scope) : Bool := s == .team

/-- A field that must be zero when a literal follows (R357, R367, R392). -/
def zeroWithLit (lit : Bool) (r : Reg) : Bool := !lit || r == 0
def isZero (_ : Bool) (r : Reg) : Bool := r == 0

/-- U = 1 on SRD: the register is uniform (R393). -/
def srdUniform (b : Reg) : Bool := match specialInfo b.toNat with | some i => i.uniform | none => false

/-- Every instruction's shape, opcode and rule (R278 to R281, R297 to R400). -/
def Instr.body : Instr → Body
  -- R297 to R302
  | .add n o => .alu .int (if n then 0x01 else 0x00) ruSat o
  | .sub n o => .alu .int (if n then 0x03 else 0x02) ruSat o
  | .mullo n o => .alu .int (if n then 0x05 else 0x04) ruSat o
  | .mulhi n o => .alu .int (if n then 0x07 else 0x06) ruPlain o
  | .mad n o => .alu .int (if n then 0x09 else 0x08) ruSat o
  | .mulw n o => .alu .int (if n then 0x0B else 0x0A) ruPlain o
  | .madw n o => .alu .int (if n then 0x0D else 0x0C) ruSat o
  | .add64 n o => .alu .int (if n then 0x0F else 0x0E) ruSat o
  | .sub64 n o => .alu .int (if n then 0x11 else 0x10) ruSat o
  | .min n o => .alu .int (if n then 0x13 else 0x12) ruPlain o
  | .max n o => .alu .int (if n then 0x15 else 0x14) ruPlain o
  | .sad n o => .alu .int (if n then 0x17 else 0x16) ruSat o
  | .dp4i8 n o => .alu .int (if n then 0x19 else 0x18) ruSat o
  | .dp2i16 n o => .alu .int (if n then 0x1B else 0x1A) ruSat o
  | .setc n o => .alu .int (if n then 0x1D else 0x1C) { r0 := false, i1 := false, l2 := false, fn := fnSetc } o
  | .bfx n o => .alu .int (if n then 0x1F else 0x1E) ruField o
  | .neg o => .alu .int 0x20 { i1 := false, l2 := false, bz := true, sat := true } o
  | .abs o => .alu .int 0x21 { i1 := false, l2 := false, bz := true, sat := true } o
  -- R303 to R311
  | .and o => .alu .int 0x40 ruPlain o
  | .or o => .alu .int 0x41 ruPlain o
  | .xor o => .alu .int 0x42 ruPlain o
  | .andn o => .alu .int 0x43 ruPlain o
  | .orn o => .alu .int 0x44 ruPlain o
  | .not o => .alu .int 0x45 ruUnary o
  | .tlog o => .alu .int 0x46 { ruExtC with fn := fnTlog } o
  | .shl o => .alu .int 0x47 ruPlain o
  | .shr o => .alu .int 0x48 ruPlain o
  | .sar o => .alu .int 0x49 ruPlain o
  | .rol o => .alu .int 0x4A ruPlain o
  | .shf o => .alu .int 0x4B ruExtC o
  | .bfi o => .alu .int 0x4C ruField o
  | .popc o => .alu .int 0x4D ruUnary o
  | .clz o => .alu .int 0x4E ruUnary o
  | .ctz o => .alu .int 0x4F ruUnary o
  | .brev o => .alu .int 0x50 ruUnary o
  | .perm o => .alu .int 0x51 ruExtC o
  | .sel o => .alu .int 0x52 ruExtC o
  | .mov o => .alu .int 0x53 { ruPlain with az := true } o
  | .movh o => .alu .int 0x54 { ruUnary with u := false } o
  | .lea o => .alu .int 0x55 { fn := fnLea } o
  -- R322 to R333
  | .fadd o => .alu .flt 0x00 ruFp2 o
  | .fsub o => .alu .flt 0x01 ruFp2 o
  | .fmul o => .alu .flt 0x02 ruFp2 o
  | .ffma o => .alu .flt 0x03 (ruFp3 fun f => f == 0) o
  | .fmin o => .alu .flt 0x04 ruFpMin o
  | .fmax o => .alu .flt 0x05 ruFpMin o
  | .fminn o => .alu .flt 0x06 ruFpMin o
  | .fmaxn o => .alu .flt 0x07 ruFpMin o
  | .fsetc o => .alu .flt 0x08 { r0 := false, i1 := false, l2 := false, ma := true, mb := true, fn := fnFsetc } o
  | .frnd o => .alu .flt 0x09 (ruFp1 true) o
  | .fclass o => .alu .flt 0x0A ruUnary o
  | .fscale o => .alu .flt 0x0B { ma := true, ro := true } o
  | .fcpys o => .alu .flt 0x0C ruPlain o
  | .vaddh o => .alu .flt 0x10 ruVec2 o
  | .vmulh o => .alu .flt 0x11 ruVec2 o
  | .vfmah o => .alu .flt 0x12 (ruFp3 fnLane) o
  | .vaddb o => .alu .flt 0x13 ruVec2 o
  | .vmulb o => .alu .flt 0x14 ruVec2 o
  | .vfmab o => .alu .flt 0x15 (ruFp3 fnLane) o
  | .dot2b o => .alu .flt 0x16 ruFp2 o
  | .dot4e x y o => .alu .flt (0x18 + (if x then 2 else 0) + (if y then 1 else 0)) { ruFp2 with i1 := false } o
  | .pack f o => .alu .flt (0x20 + f.code.setWidth 8)
      { ma := true, mb := true, ro := true, sat := true, fn := fun p => p.toNat ≤ f.maxPos } o
  | .unpk f o => .alu .flt (0x28 + f.code.setWidth 8)
      { i1 := false, l2 := false, bz := true, fn := fun p => p.toNat ≤ f.maxPos } o
  | .cvt s t o => .alu .flt (0x40 + s.code.setWidth 8 * 8 + t.code.setWidth 8)
      (if s.exactTo t then ruFp1 true else { ruFp1 true with sat := true, dth := true }) o
  | .f2i s i o => .alu .flt (0x80 + s.code.setWidth 8 * 8 + i.code.setWidth 8) (ruFp1 true) o
  | .i2f t i o => .alu .flt (0xC0 + t.code.setWidth 8 * 8 + i.code.setWidth 8)
      { i1 := false, l2 := false, bz := true, ro := true, sat := true } o
  -- R334 to R337
  | .rcp o => .alu .xfn 0x00 (ruFp1 true) o
  | .rsq o => .alu .xfn 0x01 (ruFp1 false) o
  | .sqrt o => .alu .xfn 0x02 (ruFp1 true) o
  | .ex2 o => .alu .xfn 0x03 (ruFp1 false) o
  | .lg2 o => .alu .xfn 0x04 (ruFp1 false) o
  | .sin o => .alu .xfn 0x05 (ruFp1 false) o
  | .cos o => .alu .xfn 0x06 (ruFp1 false) o
  | .tanh o => .alu .xfn 0x07 (ruFp1 false) o
  | .div o => .alu .xfn 0x08 ruFp2 o
  | .idiv w n o => .alu .xfn (0x10 + (if w then 2 else 0) + (if n then 1 else 0)) ruPlain o
  | .irem w n o => .alu .xfn (0x14 + (if w then 2 else 0) + (if n then 1 else 0)) ruPlain o
  -- R338
  | .ld o => .mem 0 { z := fun _ => true, rt := anyType } o
  | .st o => .mem 1 { z := fun _ => true, rt := anyType } o
  | .lds o => .mem 2 { z := fun _ => true, ord := rlxAcq, litOk := peerLitOk } o
  | .sts o => .mem 3 { z := fun _ => true, ord := rlxRel, litOk := peerLitOk } o
  | .ldacq o => .mem 4 { z := fun _ => true, ord := fun r => r == .acq, rt := anyType } o
  | .strel o => .mem 5 { z := fun _ => true, ord := fun r => r == .rel, rt := anyType } o
  | .atom o => .mem 6 { z := anyPow, ord := anyOrd, lit := .required, litOk := atopOk false } o
  | .cas o => .mem 7 { z := anyPow, ord := anyOrd } o
  | .cas128 o => .mem 8 { z := fun z => z == .b128, ord := anyOrd } o
  | .red o => .mem 9 { z := anyPow, ord := rlxRel, lit := .required, litOk := atopOk true } o
  | .redc o => .mem 10 { z := anyPow, sc := fun s => s == .pkg } o
  | .pref o => .mem 11 { z := fun z => z == .b8, dz := true, rt := fun t => t == .dflt || t == .own } o
  | .fence o => .mem 12 { u := false, z := fun z => z == .b8, dz := true, az := true, lit := .refused, ord := fun r => r != .rlx } o
  | .cwb o => .mem 13 { z := fun z => z == .b8 } o
  | .cinv o => .mem 14 { z := fun z => z == .b8 } o
  | .maps o => .mem 15 { u := false, z := fun z => z == .b8, lit := .required, sc := bZero } o
  | .unmaps o => .mem 16 { u := false, z := fun z => z == .b8, dz := true, lit := .refused, sc := bZero } o
  | .wbs o => .mem 17 { u := false, z := fun z => z == .b8, dz := true, lit := .refused, sc := bZero } o
  | .ldh o => .mem 18 { u := false, z := fun z => z == .b32, ord := rlxAcq, rt := anyType } o
  | .sth o => .mem 19 { u := false, z := fun z => z == .b32, ord := rlxRel, rt := anyType } o
  -- R367
  | .copy o => .eng .eng 0x00 { b := isZero } o
  | .scld o => .eng .eng 0x01 { u := true, d := isZero false } o
  | .mma o => .eng .eng 0x02 { b := isZero } o
  | .accwin o => .eng .eng 0x03 { u := true, d := isZero false } o
  | .accz o => .eng .eng 0x04 { u := true, d := isZero false } o
  | .accld o => .eng .eng 0x05 { u := true, lit := .required, litOk := accLitOk false } o
  | .accst o => .eng .eng 0x06 { u := true, lit := .required, litOk := accLitOk true } o
  | .accrd o => .eng .eng 0x07 { u := true, b := fun _ b => b.toNat < 8 } o
  | .accwr o => .eng .eng 0x08 { u := true, b := fun _ b => b.toNat < 8 } o
  | .ftest o => .eng .eng 0x09 { u := true, b := isZero } o
  | .fcancel o => .eng .eng 0x0A { u := true, d := isZero false, b := isZero } o
  | .fwait o => .eng .eng 0x0B { u := true, b := isZero } o
  | .tbinit o => .eng .eng 0x0C { d := fun d => d == 0, b := zeroWithLit, lit := .optional } o
  | .tbinitRearm o => .eng .eng 0x0C { d := fun d => d == 1, b := zeroWithLit, lit := .optional } o
  | .tbarv o => .eng .eng 0x0D { d := isZero false, b := zeroWithLit, lit := .optional } o
  | .tbexp o => .eng .eng 0x0E { d := isZero false, b := zeroWithLit, lit := .optional } o
  | .tbwait o => .eng .eng 0x0F { u := true, b := zeroWithLit, lit := .optional, litOk := fun w => w.toNat < 16 } o
  | .stgwait o => .eng .eng 0x10 { u := true, lit := .required, litOk := fun w => w.toNat < 16 } o
  | .cont o => .eng .eng 0x11 { d := isZero false, lit := .required } o
  -- R357, R361, R365
  | .bararv o => .eng .eng 0x12 { d := isZero false, a := zeroWithLit, b := fun _ b => b.toNat < 16, lit := .optional } o
  | .barsync o => .eng .eng 0x13 { d := isZero false, a := zeroWithLit, b := fun _ b => b.toNat < 16, lit := .optional } o
  | .rdv o => .eng .eng 0x14 { d := isZero false, a := isZero, b := isZero } o
  | .rdvx o => .eng .eng 0x15 { b := zeroWithLit, lit := .optional } o
  | .rdvv o => .eng .eng 0x16 { b := isZero } o
  | .rdvs o => .eng .eng 0x17 { b := fun _ b => b.toNat ≤ 10 } o
  | .waita o => .eng .eng 0x18 { lit := .optional } o
  | .launch o => .eng .eng 0x19 { b := isZero } o
  | .resort o => .eng .eng 0x1A { d := isZero false, b := isZero, lit := .required } o
  | .idemx o => .eng .eng 0x1B { d := isZero false, a := isZero, b := isZero } o
  -- R392
  | .srd o => .eng .sys 0x00 { u := true, ub := srdUniform, a := isZero, b := fun _ b => (specialInfo b.toNat).isSome } o
  | .swr o => .eng .sys 0x01
      { d := isZero false, b := fun _ b => match specialInfo b.toNat with | some i => i.rw | none => false } o
  | .trap o => .eng .sys 0x02 { d := isZero false, a := isZero, b := zeroWithLit, lit := .optional } o
  | .tret o => .eng .sys 0x03 { d := isZero false, a := isZero, b := isZero } o
  | .brk o => .eng .sys 0x04 { d := isZero false, a := isZero } o
  | .nop o => .eng .sys 0x05 { d := isZero false, a := isZero, b := isZero } o
  | .sleep o => .eng .sys 0x06 { d := isZero false, a := zeroWithLit, b := isZero, lit := .optional } o
  | .chsel o => .eng .sys 0x07 { u := true, b := isZero, lit := .optional } o
  | .probe o => .eng .sys 0x08 { u := true, b := isZero, lit := .optional } o
  | .dbgmark o => .eng .sys 0x09 { u := true, d := isZero false, a := isZero, b := zeroWithLit, lit := .optional } o
  -- R312
  | .bra o => .ctl 0xF0 { u := false, off := true, az := true } o
  | .bz o => .ctl 0xF1 { off := true } o
  | .bnz o => .ctl 0xF2 { off := true } o
  | .bltz o => .ctl 0xF3 { off := true } o
  | .bgez o => .ctl 0xF4 { off := true } o
  | .brx o => .ctl 0xF5 { off := false } o
  | .call o => .ctl 0xF6 { u := false, off := true, dz := false, az := true } o
  | .callx o => .ctl 0xF7 { off := false, dz := false } o
  | .ret o => .ctl 0xF8 { off := false } o
  | .exit o => .ctl 0xF9 { u := false, off := false, az := true } o
  -- device steps
  | .moduleReset => .dev
  | .registerWrite _ _ => .dev
  | .roleCmdGo _ _ => .dev
  | .roleDrainDone _ => .dev
  | .roleFlushDone _ => .dev
  | .roleReenumerate _ => .dev
  | .tahrEvaluate _ _ _ => .dev
  | .tahrApply _ => .dev
  | .thcntTick _ => .dev
  | .chashWrite _ _ => .dev
  | .memctlQuiesceSet _ => .dev
  | .quiesceComplete _ => .dev
  | .memctlQuiesceClear _ => .dev
  | .dramZeroingDone _ => .dev
  | .rowRefresh _ _ _ => .dev
  | .refreshRetryReissue _ => .dev
  | .patrolScrub _ _ _ _ => .dev
  | .remapMissFill _ _ _ _ _ => .dev
  | .tsvDriftDetect _ _ => .dev
  | .tsvRealignStart _ _ => .dev
  | .tsvRealignEnd _ _ => .dev
  | .msecctlLock => .dev
  | .msecctlUnlock => .dev
  | .unlockWritebackDone => .dev
  | .keypolWrite _ _ => .dev
  | .syncSlot _ => .dev
  | .fabEmptyCell _ => .dev
  | .fabLoadCell _ => .dev
  | .fabAcquireLoadCell _ => .dev
  | .fabStoreCell _ => .dev
  | .fabReleaseCell _ => .dev
  | .fabReleaseApply _ => .dev
  | .fabOperationPacket _ => .dev
  | .fabReplyCell _ => .dev
  | .fabShootdownCell _ => .dev
  | .fabReservedCell _ => .dev
  | .bulkPacketArrive _ => .dev
  | .fabRequestResume _ => .dev
  | .fabEpochLock _ => .dev
  | .fabLinkDown _ => .dev
  | .fabcfgWrite _ => .dev
  | .fardecWrite _ _ => .dev
  | .farTierTimeout _ => .dev
  | .farTierLinkDown _ => .dev
  | .hostCxlMemRead _ _ => .dev
  | .hostCxlMemWrite _ _ => .dev
  | .hqctlWrite _ => .dev
  | .hqcmdEnable _ => .dev
  | .hqcmdDisable _ => .dev
  | .hqcmdReset _ => .dev
  | .queueDisableComplete _ => .dev
  | .wqDoorbell _ _ => .dev
  | .queueArbitrationSlot => .dev
  | .queueEntryFetch _ _ => .dev
  | .nopEntry _ _ => .dev
  | .launchEntry _ _ => .dev
  | .flushEntry _ _ => .dev
  | .flushComplete _ _ => .dev
  | .biasEntry _ _ => .dev
  | .biasPageFlip _ _ => .dev
  | .waitEntry _ _ => .dev
  | .waitPoll _ _ => .dev
  | .signalEntry _ _ => .dev
  | .signalStoreDone _ _ => .dev
  | .eventRecordWrite _ => .dev
  | .eventDoorbell _ _ => .dev
  | .eventInterruptTimer _ => .dev
  | .eventContextPoll _ => .dev
  | .hpincfgWrite _ => .dev
  | .hostCompletionTimeout _ => .dev
  | .doeDiscovery _ => .dev
  | .spdmNegotiateAlgorithms _ _ => .dev
  | .spdmKeyExchange _ _ _ => .dev
  | .spdmMeasurements _ _ _ => .dev
  | .keyLoad _ _ => .dev
  | .keyClear _ _ => .dev
  | .keyInstallDone _ => .dev
  | .spdmSessionEnd _ => .dev
  | .tpartWrite _ _ => .dev
  | .predRecordPoll _ => .dev
  | .unitEnterPlacement _ _ => .dev
  | .placewaitExpire _ _ => .dev
  | .teamPlace _ _ => .dev
  | .teamRestore _ => .dev
  | .preemptPriority _ _ => .dev
  | .timeSliceExpire _ _ => .dev
  | .teamSaveComplete _ => .dev
  | .teamComplete _ => .dev
  | .runStart _ _ => .dev
  | .loadComplete _ => .dev
  | .storeComplete _ => .dev
  | .atomicComplete _ => .dev
  | .redcCombined _ => .dev
  | .cacheOpComplete _ => .dev
  | .mapBound _ => .dev
  | .mapLineFill _ _ => .dev
  | .mapWritebackDone _ => .dev
  | .releasePrereqMet _ _ => .dev
  | .acquireCheckComplete _ _ => .dev
  | .invalidateVaRange _ => .dev
  | .invalidateAsid _ => .dev
  | .invalidateAll _ => .dev
  | .remoteLineDrop => .dev
  | .invalidationDone => .dev
  | .pageWalkComplete _ _ => .dev
  | .faultRecordWrite => .dev
  | .fqdoorWrite _ => .dev
  | .fqcfgWrite _ => .dev
  | .freplyRetry _ => .dev
  | .freplyFail _ _ => .dev
  | .faultWatchdog _ => .dev
  | .sideLogReplay _ => .dev
  | .saigaPiece _ _ => .dev
  | .scoutProbe _ => .dev
  | .copyCancelStop _ => .dev
  | .copyComplete _ => .dev
  | .continuationSpawn _ => .dev
  | .passStart _ => .dev
  | .passRetire _ => .dev
  | .accumOpComplete _ => .dev
  | .waitaTimeout _ _ => .dev
  | .sleepExpire _ _ => .dev
  | .hostSnoop _ _ => .dev
  | .fabEpochLoss => .dev

/-- The shape's own check. -/
def Body.ok : Body → Bool
  | .dev => true
  | .alu _ _ ru o => o.ok ru
  | .mem _ ru o => o.ok ru
  | .eng _ _ ru o => o.ok ru
  | .ctl _ ru o => o.ok ru

/-- Formats that an OP does not give (R279): a conversion of a format into itself, PACK and UNPK of FP32. -/
def Instr.fmtOk : Instr → Bool
  | .cvt s t _ => s != t
  | .pack f _ => f != .f32
  | .unpk f _ => f != .f32
  | _ => true

/-- A well-formed instruction: check 2 of R269. Every device step is well formed. -/
def Instr.wf (i : Instr) : Bool := i.fmtOk && i.body.ok

/-- The instruction is a word of Trelah, not a device step. -/
def Instr.isWord (i : Instr) : Bool := match i.body with | .dev => false | _ => true

/-- The U bit of a word (R142). -/
def Instr.uni (i : Instr) : Bool :=
  match i.body with
  | .dev => false
  | .alu _ _ _ o => o.u
  | .mem _ _ o => o.u
  | .eng _ _ _ o => o.u
  | .ctl _ _ o => o.u

/-- The word uses a literal or extension word. -/
def Instr.long (i : Instr) : Bool :=
  match i.body with
  | .dev => false
  | .alu _ _ _ o => match o.b with | .lit _ | .ext _ _ => true | _ => false
  | .mem _ _ o => o.lit.isSome
  | .eng _ _ _ o => o.lit.isSome
  | .ctl _ _ o => o.off.isSome

/-- The instruction is a control word (R277). -/
def Instr.isCtl (i : Instr) : Bool := match i.body with | .ctl _ _ _ => true | _ => false

end Sys2Proof
end

