-- ==== Sys2Proof/Decode.lean ====
section
/-!
DEFINITION. From words to instructions and back (R268 to R273, R277 to R281, R312): a total decoder under a clause's class, and an encoder.
-/
namespace Sys2Proof

/-- Why a word is no instruction; each raises ILLEGAL_OPCODE (R269 checks 1 and 2). -/
inductive Reject where
  /-- M selects a literal or extension word that lies outside LEN. -/
  | literalOutside
  /-- The pair of class and OP is not in the opcode map, or the size code is reserved. -/
  | unassigned
  /-- U, M, a field or a qualifier holds a value that the instruction does not accept. -/
  | unaccepted
  deriving DecidableEq, Repr

/-- The bits of an instruction word (R268). -/
structure Fields where
  op : BitVec 8
  u : Bool
  m1 : Bool
  m0 : Bool
  d : Reg
  a : Reg
  b : Reg
  deriving DecidableEq, Repr

/-- The fields of a word (R268). -/
def fieldsOf (w : Word) : Fields where
  op := w.extractLsb' 24 8
  u := w.getLsbD 23
  m1 := w.getLsbD 22
  m0 := w.getLsbD 21
  d := w.extractLsb' 14 7
  a := w.extractLsb' 7 7
  b := w.extractLsb' 0 7

/-- The word of its fields (R268). -/
def Fields.word (f : Fields) : Word :=
  f.op ++ BitVec.ofBool f.u ++ BitVec.ofBool f.m1 ++ BitVec.ofBool f.m0 ++ f.d ++ f.a ++ f.b

/-- The fields of an extension word (R271). -/
def extOf (w : Word) : Ext where
  c := w.extractLsb' 25 7
  na := w.getLsbD 24
  nb := w.getLsbD 23
  nc := w.getLsbD 22
  aa := w.getLsbD 21
  ab := w.getLsbD 20
  ac := w.getLsbD 19
  sat := w.getLsbD 18
  ro := w.getLsbD 17
  rm := w.extractLsb' 14 3
  fn := w.extractLsb' 0 14

/-- The extension word of its fields (R271). -/
def Ext.word (e : Ext) : Word :=
  e.c ++ BitVec.ofBool e.na ++ BitVec.ofBool e.nb ++ BitVec.ofBool e.nc ++ BitVec.ofBool e.aa ++ BitVec.ofBool e.ab ++
    BitVec.ofBool e.ac ++ BitVec.ofBool e.sat ++ BitVec.ofBool e.ro ++ e.rm ++ e.fn

/-- The format of a code (R279). -/
def fmtOf (c : BitVec 3) : Option Fmt :=
  match c with
  | 0 => some .f32 | 1 => some .f16 | 2 => some .bf16 | 3 => some .e5m2 | 4 => some .e4m3 | 5 => some .e2m1
  | _ => none

/-- The integer type of a code (R279). -/
def itypeOf (c : BitVec 3) : IType :=
  match c with
  | 0 => .i8 | 1 => .i16 | 2 => .i32 | 3 => .i64 | 4 => .n8 | 5 => .n16 | 6 => .n32 | _ => .n64

/-- The INT map (R278). -/
def intOp (op : BitVec 8) : Option (Alu → Instr) :=
  let n := op.getLsbD 0
  match op with
  | 0x00 | 0x01 => some (.add n)
  | 0x02 | 0x03 => some (.sub n)
  | 0x04 | 0x05 => some (.mullo n)
  | 0x06 | 0x07 => some (.mulhi n)
  | 0x08 | 0x09 => some (.mad n)
  | 0x0A | 0x0B => some (.mulw n)
  | 0x0C | 0x0D => some (.madw n)
  | 0x0E | 0x0F => some (.add64 n)
  | 0x10 | 0x11 => some (.sub64 n)
  | 0x12 | 0x13 => some (.min n)
  | 0x14 | 0x15 => some (.max n)
  | 0x16 | 0x17 => some (.sad n)
  | 0x18 | 0x19 => some (.dp4i8 n)
  | 0x1A | 0x1B => some (.dp2i16 n)
  | 0x1C | 0x1D => some (.setc n)
  | 0x1E | 0x1F => some (.bfx n)
  | 0x20 => some .neg
  | 0x21 => some .abs
  | 0x40 => some .and
  | 0x41 => some .or
  | 0x42 => some .xor
  | 0x43 => some .andn
  | 0x44 => some .orn
  | 0x45 => some .not
  | 0x46 => some .tlog
  | 0x47 => some .shl
  | 0x48 => some .shr
  | 0x49 => some .sar
  | 0x4A => some .rol
  | 0x4B => some .shf
  | 0x4C => some .bfi
  | 0x4D => some .popc
  | 0x4E => some .clz
  | 0x4F => some .ctz
  | 0x50 => some .brev
  | 0x51 => some .perm
  | 0x52 => some .sel
  | 0x53 => some .mov
  | 0x54 => some .movh
  | 0x55 => some .lea
  | _ => none

/-- The FLT map below 0x20 (R279). -/
def fltOp (op : BitVec 8) : Option (Alu → Instr) :=
  match op with
  | 0x00 => some .fadd
  | 0x01 => some .fsub
  | 0x02 => some .fmul
  | 0x03 => some .ffma
  | 0x04 => some .fmin
  | 0x05 => some .fmax
  | 0x06 => some .fminn
  | 0x07 => some .fmaxn
  | 0x08 => some .fsetc
  | 0x09 => some .frnd
  | 0x0A => some .fclass
  | 0x0B => some .fscale
  | 0x0C => some .fcpys
  | 0x10 => some .vaddh
  | 0x11 => some .vmulh
  | 0x12 => some .vfmah
  | 0x13 => some .vaddb
  | 0x14 => some .vmulb
  | 0x15 => some .vfmab
  | 0x16 => some .dot2b
  | 0x18 | 0x19 | 0x1A | 0x1B => some (.dot4e (op.getLsbD 1) (op.getLsbD 0))
  | _ => none

/-- The FLT map from 0x20 on: families that hold format and type codes (R279). -/
def fltFamily (op : BitVec 8) : Option (Alu → Instr) :=
  let s := op.extractLsb' 3 3
  let t := op.extractLsb' 0 3
  match op.extractLsb' 6 2 with
  | 0 => match s, fmtOf t with
    | 4, some f => some (.pack f)
    | 5, some f => some (.unpk f)
    | _, _ => none
  | 1 => match fmtOf s, fmtOf t with
    | some s, some t => some (.cvt s t)
    | _, _ => none
  | 2 => (fmtOf s).map fun s => .f2i s (itypeOf t)
  | _ => (fmtOf s).map fun s => .i2f s (itypeOf t)

/-- The XFN map (R279). -/
def xfnOp (op : BitVec 8) : Option (Alu → Instr) :=
  match op with
  | 0x00 => some .rcp
  | 0x01 => some .rsq
  | 0x02 => some .sqrt
  | 0x03 => some .ex2
  | 0x04 => some .lg2
  | 0x05 => some .sin
  | 0x06 => some .cos
  | 0x07 => some .tanh
  | 0x08 => some .div
  | 0x10 | 0x11 | 0x12 | 0x13 => some (.idiv (op.getLsbD 1) (op.getLsbD 0))
  | 0x14 | 0x15 | 0x16 | 0x17 => some (.irem (op.getLsbD 1) (op.getLsbD 0))
  | _ => none

/-- The MEM map by operation number OP[7:3] (R280). -/
def memOp (n : BitVec 5) : Option (MemOp → Instr) :=
  match n with
  | 0 => some .ld
  | 1 => some .st
  | 2 => some .lds
  | 3 => some .sts
  | 4 => some .ldacq
  | 5 => some .strel
  | 6 => some .atom
  | 7 => some .cas
  | 8 => some .cas128
  | 9 => some .red
  | 10 => some .redc
  | 11 => some .pref
  | 12 => some .fence
  | 13 => some .cwb
  | 14 => some .cinv
  | 15 => some .maps
  | 16 => some .unmaps
  | 17 => some .wbs
  | 18 => some .ldh
  | 19 => some .sth
  | _ => none

/-- The ENG map (R281); the two forms of TBINIT part by D[0] (R386). -/
def engOp (op : BitVec 8) (d : Reg) : Option (EngOp → Instr) :=
  match op with
  | 0x00 => some .copy
  | 0x01 => some .scld
  | 0x02 => some .mma
  | 0x03 => some .accwin
  | 0x04 => some .accz
  | 0x05 => some .accld
  | 0x06 => some .accst
  | 0x07 => some .accrd
  | 0x08 => some .accwr
  | 0x09 => some .ftest
  | 0x0A => some .fcancel
  | 0x0B => some .fwait
  | 0x0C => some (if d.getLsbD 0 then .tbinitRearm else .tbinit)
  | 0x0D => some .tbarv
  | 0x0E => some .tbexp
  | 0x0F => some .tbwait
  | 0x10 => some .stgwait
  | 0x11 => some .cont
  | 0x12 => some .bararv
  | 0x13 => some .barsync
  | 0x14 => some .rdv
  | 0x15 => some .rdvx
  | 0x16 => some .rdvv
  | 0x17 => some .rdvs
  | 0x18 => some .waita
  | 0x19 => some .launch
  | 0x1A => some .resort
  | 0x1B => some .idemx
  | _ => none

/-- The SYS map (R281). -/
def sysOp (op : BitVec 8) : Option (EngOp → Instr) :=
  match op with
  | 0x00 => some .srd
  | 0x01 => some .swr
  | 0x02 => some .trap
  | 0x03 => some .tret
  | 0x04 => some .brk
  | 0x05 => some .nop
  | 0x06 => some .sleep
  | 0x07 => some .chsel
  | 0x08 => some .probe
  | 0x09 => some .dbgmark
  | _ => none

/-- The control map, the same in every class (R277). -/
def ctlOp (op : BitVec 8) : Option (CtlOp → Instr) :=
  match op with
  | 0xF0 => some .bra
  | 0xF1 => some .bz
  | 0xF2 => some .bnz
  | 0xF3 => some .bltz
  | 0xF4 => some .bgez
  | 0xF5 => some .brx
  | 0xF6 => some .call
  | 0xF7 => some .callx
  | 0xF8 => some .ret
  | 0xF9 => some .exit
  | _ => none

/-- Scope, order and request type of the B field (R273). -/
def scopeOf (c : BitVec 2) : Scope := match c with | 0 => .team | 1 => .tower | 2 => .pkg | _ => .sys
def orderOf (c : BitVec 2) : Order := match c with | 0 => .rlx | 1 => .acq | 2 => .rel | _ => .ar
def rtypeOf (c : BitVec 3) : Option RType :=
  match c with | 0 => some .dflt | 1 => some .own | 2 => some .wt | 3 => some .si | 4 => some .nc | _ => none
/-- The size of OP[2:0] (R273). -/
def sizeOf? (c : BitVec 3) : Option Size :=
  match c with | 0 => some .b8 | 1 => some .b16 | 2 => some .b32 | 3 => some .b64 | 4 => some .b128 | _ => none

def Scope.code : Scope → BitVec 2 | .team => 0 | .tower => 1 | .pkg => 2 | .sys => 3
def Order.code : Order → BitVec 2 | .rlx => 0 | .acq => 1 | .rel => 2 | .ar => 3
def RType.code : RType → BitVec 3 | .dflt => 0 | .own => 1 | .wt => 2 | .si => 3 | .nc => 4
def Size.code : Size → BitVec 3 | .b8 => 0 | .b16 => 1 | .b32 => 2 | .b64 => 3 | .b128 => 4

/-- M selects a word after this one (R270, R272, R312). -/
def usesNext (k : Cls) (f : Fields) : Bool :=
  if (ctlOp f.op).isSome then f.m0
  else match k with
    | .int | .flt | .xfn => f.m1
    | .mem | .eng | .sys => f.m0

/-- The second operand of an INT, FLT or XFN word (R270). -/
def srcOf (f : Fields) (x : Word) : Except Reject Src :=
  match f.m1, f.m0 with
  | false, false => .ok (.reg f.b)
  | false, true => .ok (.imm f.b)
  | true, false => if f.b == 0 then .ok (.lit x) else .error .unaccepted
  | true, true => .ok (.ext f.b (extOf x))

/-- The candidate of a control word (R312). -/
def candCtl (f : Fields) (x : Word) (mk : CtlOp → Instr) : Except Reject Instr :=
  if f.m1 || f.b != 0 then .error .unaccepted
  else .ok (mk { u := f.u, off := if f.m0 then some x else none, d := f.d, a := f.a })

/-- The candidate of an INT, FLT or XFN word. -/
def candAlu (f : Fields) (x : Word) (mk : Alu → Instr) : Except Reject Instr :=
  match srcOf f x with
  | .ok b => .ok (mk { u := f.u, d := f.d, a := f.a, b := b })
  | .error e => .error e

/-- The candidate of a MEM word (R273). -/
def candMem (f : Fields) (x : Word) : Except Reject Instr :=
  match memOp (f.op.extractLsb' 3 5), sizeOf? (f.op.extractLsb' 0 3) with
  | some mk, some z =>
    match rtypeOf (f.b.extractLsb' 0 3) with
    | some rt => .ok (mk {
        z := z, u := f.u, g := f.m1, lit := if f.m0 then some x else none, d := f.d, a := f.a,
        sc := scopeOf (f.b.extractLsb' 5 2), ord := orderOf (f.b.extractLsb' 3 2), rt := rt })
    | none => .error .unaccepted
  | _, _ => .error .unassigned

/-- The candidate of an ENG or SYS word. -/
def candEng (f : Fields) (x : Word) (mk : EngOp → Instr) : Except Reject Instr :=
  .ok (mk { u := f.u, g := f.m1, lit := if f.m0 then some x else none, d := f.d, a := f.a, b := f.b })

/-- The instruction that the pair of class and OP names, with its fields filled in; x is the word after it (R268). -/
def candidate (k : Cls) (f : Fields) (x : Word) : Except Reject Instr :=
  match ctlOp f.op with
  | some mk => candCtl f x mk
  | none =>
    match k with
    | .int => match intOp f.op with | some mk => candAlu f x mk | none => .error .unassigned
    | .flt => match (fltOp f.op).or (fltFamily f.op) with | some mk => candAlu f x mk | none => .error .unassigned
    | .xfn => match xfnOp f.op with | some mk => candAlu f x mk | none => .error .unassigned
    | .mem => candMem f x
    | .eng => match engOp f.op f.d with | some mk => candEng f x mk | none => .error .unassigned
    | .sys => match sysOp f.op with | some mk => candEng f x mk | none => .error .unassigned

/-- Decode the word w of a clause of class k; x is the next word of the clause, if one lies within LEN (R269 checks 1 and 2). -/
def decode (k : Cls) (w : Word) (x : Option Word) : Except Reject Instr :=
  let f := fieldsOf w
  if usesNext k f && x.isNone then .error .literalOutside
  else
    match candidate k f (x.getD 0) with
    | .error e => .error e
    | .ok i => if i.wf then .ok i else .error .unaccepted

/-- The literal or extension word and the M bits of a second operand (R270). -/
def Src.parts : Src → Bool × Bool × Reg × Option Word
  | .reg r => (false, false, r, none)
  | .imm v => (false, true, v, none)
  | .lit v => (true, false, 0, some v)
  | .ext r e => (true, true, r, some e.word)

/-- The B field of a MEM word (R273). -/
def MemOp.bField (o : MemOp) : Reg := o.sc.code ++ o.ord.code ++ o.rt.code

/-- The fields and the following word of an instruction; none for a device step. -/
def Instr.fields (i : Instr) : Option (Fields × Option Word) :=
  match i.body with
  | .dev => none
  | .alu _ op _ o => some ({ op := op, u := o.u, m1 := o.b.parts.1, m0 := o.b.parts.2.1, d := o.d, a := o.a, b := o.b.parts.2.2.1 },
      o.b.parts.2.2.2)
  | .mem n _ o => some ({ op := n ++ o.z.code, u := o.u, m1 := o.g, m0 := o.lit.isSome, d := o.d, a := o.a, b := o.bField }, o.lit)
  | .eng _ op _ o => some ({ op := op, u := o.u, m1 := o.g, m0 := o.lit.isSome, d := o.d, a := o.a, b := o.b }, o.lit)
  | .ctl op _ o => some ({ op := op, u := o.u, m1 := false, m0 := o.off.isSome, d := o.d, a := o.a, b := 0 }, o.off)

/-- The words of an instruction (R268); none for a device step. -/
def encode (i : Instr) : List Word :=
  match i.fields with
  | none => []
  | some (f, x) => f.word :: x.toList

/-- The class whose clauses hold the instruction; none for device steps and for control words, which every class holds (R277). -/
def Instr.cls (i : Instr) : Option Cls :=
  match i.body with
  | .alu k _ _ _ => some k
  | .mem _ _ _ => some .mem
  | .eng k _ _ _ => some k
  | .dev | .ctl _ _ _ => none

/-- A clause of class k may hold the word i (R266, R277). -/
def Instr.inClass (i : Instr) (k : Cls) : Bool := i.isWord && (i.cls == none || i.cls == some k)

/-- The bytes of a word, lowest address first (R3). -/
def bytesOfWord (w : Word) : List Byte :=
  [w.extractLsb' 0 8, w.extractLsb' 8 8, w.extractLsb' 16 8, w.extractLsb' 24 8]

/-- The little-endian words of a byte list (R3). -/
def wordsOfBytes : List Byte → List Word
  | a :: b :: c :: d :: rest => (d ++ c ++ b ++ a) :: wordsOfBytes rest
  | _ => []

/-- Decode the first instruction of the bytes that lie in a clause of class k. -/
def decodeBytes (k : Cls) (bs : List Byte) : Except Reject Instr :=
  match wordsOfBytes bs with
  | [] => .error .literalOutside
  | [w] => decode k w none
  | w :: x :: _ => decode k w (some x)

/-- The order in which decodeTableWord tries the classes, for the table does not give a word's class (log entry 4). -/
def tableClasses : List Cls := [.int, .flt, .xfn, .mem, .eng, .sys]

/-- The first class under which the bytes decode. -/
def firstClass (bs : List Byte) : List Cls → Option (Cls × Instr)
  | [] => none
  | k :: ks => match decodeBytes k bs with
    | .ok i => some (k, i)
    | .error _ => firstClass bs ks

/-- The eight bytes of the table's word and of the word after it, all zero above nbits. -/
def tableBytes (nbits w : Nat) : List Byte :=
  let v := w % 2 ^ nbits
  bytesOfWord (BitVec.ofNat 32 v) ++ bytesOfWord (BitVec.ofNat 32 (v / 2 ^ 32))

/-- The class and instruction of a word numbered as spec/opcode_table.json numbers it (log entry 4). -/
def tableInstr (nbits w : Nat) : Option (Cls × Instr) := firstClass (tableBytes nbits w) tableClasses

/-- The instruction the decoder reads from a word numbered as spec/opcode_table.json numbers it (log entry 4). -/
def decodeTableWord (nbits w : Nat) : Option Instr := (tableInstr nbits w).map Prod.snd

end Sys2Proof
end

