-- ==== Sys2Proof/Machine/State.lean ====
section
/-!
DEFINITION. The state of one Z12 package as plain data: what 00 to 16 name, the turns still to take (log entry 2), and the state after module reset.
-/
namespace Sys2Proof.Machine

/-- No step of the specification stops the machine: nothing raises a fault. Safe, for there is none. -/
inductive Fault where
  deriving DecidableEq, Repr

/-- Why a step has no meaning in the model. -/
inductive Refusal where
  /-- Raised by a step whose meaning is not written. Safe: it stops where the hardware goes on. -/
  | notModelled (mnemonic : String)
  deriving DecidableEq, Repr

/-- A sparse map of numbers to values; keys rise strictly. -/
abbrev Table (α : Type) := List (Nat × α)

/-! ### Threads and teams (06, 16) -/

/-- Why a thread is WAITING, with the codes of R129. -/
inductive Wait where
  | flags | release | check | resource
  deriving DecidableEq, Repr

/-- Why a thread is BLOCKED, with the codes of R129. -/
inductive Block where
  /-- Reason 1: a future, named by its token (R148, R375). -/
  | future (tok : Word)
  /-- Reason 1: LAUNCH beyond 256 children of the partition, in order of issue, with the token it has taken (R389). -/
  | launch (n : Nat) (tok : Word)
  /-- Reason 2: named barrier n leaves phase p (R358). -/
  | barrier (n : Nat) (p : Bool)
  /-- Reason 3: a rendezvous (R360). -/
  | rendezvous
  /-- Reason 3: RESORT (R150). -/
  | resort
  /-- Reason 4: WAITA on the word at off, whose value is v (R366). -/
  | waita (off : Nat) (v : Word) (d : Reg) (next : DWord) (deadline : Option Nat)
  /-- Reason 5: the transaction barrier at bar leaves phase p (R222). -/
  | phase (bar : Nat) (p : Nat)
  /-- Reason 6: SLEEP until a cycle (R397). -/
  | sleep (till : Nat)
  deriving DecidableEq, Repr

/-- The states of R134. -/
inductive TState where
  | ready
  | running
  | waiting (w : Wait)
  | blocked (b : Block)
  /-- Held at its word by the fault of this FID; the address is that of R129, bytes 104 to 111. -/
  | held (fid : Nat) (va : DWord)
  | exited
  | halted
  | stopped
  deriving DecidableEq, Repr

/-- A cause with its TADDR and TINFO (R205). -/
structure Trap where
  cause : Byte
  addr : DWord
  info : Word
  deriving DecidableEq, Repr

/-- The agent of a tag (R163): a thread of a team on a tower of a node, a Saiga copy of a tower, the hub, a host agent. -/
inductive Agent where
  | thread (node : BitVec 12) (tower grid team : Nat)
  | saiga (node : BitVec 12) (tower : Nat)
  | hub (node : BitVec 12)
  | host
  deriving DecidableEq, Repr

/-- A scope-checker tag that is not NONE (R173). -/
abbrev Tag := Scope × Agent

/-- One general thread (R129, R130, R134, R135). -/
structure Thread where
  regs : Vector Word 128
  /-- Bit n: g[n] holds a pending future (R148). -/
  pend : BitVec 128
  flags : Vector (BitVec 6) 12
  pc : DWord
  /-- VA of the header of the clause that holds pc; pc = clause means at the header. -/
  clause : DWord
  fpstat : Word
  dphase : BitVec 6
  uchk : Bool
  ftz : Bool
  tpc : DWord
  tclause : DWord
  taddr : DWord
  tcause : Byte
  tinfo : Word
  inTrap : Bool
  fscope : Option Scope
  /-- Relaxed global reads of tagged lines since the last acquire fence: the address and the tag read (R174). -/
  reads : List (DWord × Tag)
  st : TState
  /-- Cycle at which the thread last entered READY (R138). -/
  since : Nat
  slot : Nat
  quad : BitVec 2
  lane : BitVec 5
  /-- Deferred and late traps with the numbers of their accesses, oldest first (R201, R413). -/
  later : List (Nat × Trap)
  /-- The failed check of an acquire, taken before its word executes again (R175). -/
  failed : Option Trap
  /-- The count that an arrival has read, while it waits for its release prerequisites (R358). -/
  arr : Nat := 0
  /-- The word that waits for its release prerequisites (R342), and under U the members that wait with this leader. -/
  word : Option Instr
  mates : List Nat
  /-- Words counted toward the 24 of the run (R136). -/
  used : Nat
  /-- The header of the clause that holds pc, as last fetched (R265). -/
  hdr : Word
  deriving DecidableEq, Repr

/-- A named barrier (R356). -/
structure NamedBar where
  exp : BitVec 16
  arr : BitVec 16
  phase : Bool
  deriving DecidableEq, Repr

/-- What a translation yields (R185, R190): where an access goes and under which attributes. -/
structure Place where
  /-- The peer node when the page is remote. -/
  node : Option (BitVec 12)
  pa : Nat
  /-- Bytes of the page. -/
  size : Nat
  key : BitVec 10
  home : BitVec 2
  cmp : Bool
  share : BitVec 2
  cfmt : BitVec 3
  /-- RMT = 1: performed under FABKEY.KEYID (R185). -/
  rmt : Bool
  /-- The leaf that gave it. -/
  entry : DWord := 0
  deriving DecidableEq, Repr

/-- A mapped scratchpad region (R159, R353): filled lines, lines being filled and dirty bytes, as scratchpad addresses. -/
structure SpadMap where
  off : Nat
  len : Nat
  va : DWord
  filled : List Nat
  filling : Table Place
  dirty : List Nat
  /-- The translations that the map unit keeps, by VA page (R192). -/
  pages : Table Place := []
  deriving DecidableEq, Repr

/-- A future-table entry (R371). -/
structure Future where
  kind : BitVec 2
  seq : Nat
  resolved : Bool
  status : Word
  deriving DecidableEq, Repr

/-- A member that has joined a rendezvous: its rank, the word, its value and its source rank (R360 to R363). -/
structure RdvJoin where
  tid : Nat
  word : Instr
  val : Word
  src : Word
  deriving DecidableEq, Repr

/-- A member that has arrived at RESORT (R150). -/
structure ResortJoin where
  tid : Nat
  key : Word
  mask : Word
  deriving DecidableEq, Repr

/-- A continuation that has been taken and waits for a crew (R153). -/
structure Spawn where
  off : Nat
  count : Nat
  arg : Word
  /-- VA and flags of the completed barrier need not be kept: the spawned threads observe it as TBWAIT does. -/
  bar : Nat
  deriving DecidableEq, Repr

/-- Where a team in progress stands (R120, R127). -/
inductive Status where
  | resident
  | saving
  | saved
  /-- Discarded: it restarts from ENTRY as a fresh team. -/
  | discarded
  /-- Its word is written or skipped; the record is kept only for late peer traffic (R158). -/
  | complete
  deriving DecidableEq, Repr

/-- A team in progress. -/
structure Team where
  key : Nat
  launch : Nat
  teamid : Nat
  rank : Nat
  /-- PCORE (R12). -/
  pcore : Nat
  /-- Index of its save slot (R120). -/
  slot : Nat
  status : Status
  /-- Order and cycle of its last placement (R126). -/
  placedAt : Nat
  /-- Cycles resident before the last save (R129). -/
  ran : Nat
  /-- Cycle of the last save (R128, R129). -/
  savedAt : Nat := 0
  threads : List Thread
  spad : Table Byte
  bars : Vector NamedBar 16
  /-- ACCBASE.BASE, ACCBASE.SIMG, ACCLIM.LIM (R236). -/
  base : BitVec 14
  simg : BitVec 14
  lim : BitVec 14
  maps : List SpadMap
  futures : List Future
  lastSeq : Nat
  rdvs : Table (List RdvJoin)
  resorts : List ResortJoin
  /-- Tids that RESORT does not wait for: spawned after the collective began (R150). -/
  fresh : List Nat
  /-- Barriers on which a continuation has been registered (R154). -/
  conts : List Nat
  spawns : List Spawn
  idemx : Bool
  cause : Option Byte
  /-- Scratchpad offsets of notify words that completed copies have written (R176). -/
  notes : List Nat := []
  deriving DecidableEq, Repr

/-! ### Launches (05) -/

/-- The launch record (R113). -/
structure LaunchRec where
  entry : DWord
  trapEntry : DWord
  params : DWord
  placetab : DWord
  compl : DWord
  pred : DWord
  gen : Word
  predgen : Word
  gridx : Nat
  gridy : Nat
  gridz : Nat
  teamsize : Nat
  crewlog : Nat
  regs : Nat
  spad : Nat
  clrows : Nat
  clcols : Nat
  placen : Nat
  prio : Nat
  idemp : Bool
  pref : Bool
  uchk : Bool
  ftz : Bool
  map : Nat
  win : Nat
  accrows : Nat
  placewait : Nat
  savepool : DWord
  saveslots : Nat
  deriving DecidableEq, Repr

/-- What a launch answers to when it completes: a queue entry, or a future of a team (R114, R125). -/
inductive Owner where
  | entry (q e : Nat)
  | future (team : Nat) (tok : Word)
  deriving DecidableEq, Repr

/-- A unit that has entered placement: its number, the cycle, its sums per tower (R120, R121). -/
structure PUnit where
  num : Nat
  since : Nat
  sums : Vector Nat 12
  /-- PLACEWAIT has passed with no best tower (R121). -/
  fallback : Bool
  deriving DecidableEq, Repr

/-- A launch that has started and not completed. -/
structure Launch where
  key : Nat
  lrec : LaunchRec
  /-- ROOT of its address space (R183). -/
  root : DWord
  /-- The work queue it belongs to (R88, R125). -/
  queue : Nat
  part : Nat
  ep : Nat
  quantum : Nat
  grid : Word
  owner : Owner
  /-- Units that have been dispatched at least once: their numbers. -/
  begun : List Nat
  /-- Units waiting for placement (R120). -/
  placing : List PUnit
  /-- Predecessor words seen final, and the predecessor's TEAMS once its header was read (R118). -/
  predSeen : List Nat
  predTeams : Option Nat
  predAll : Bool
  doneCnt : Nat
  haltCnt : Nat
  badWrite : Bool
  /-- Writes of its completion record that lie on a peer's page and are not answered, and those that come after them: offset, bytes, scope (R103, R117). -/
  recWaits : List Nat := []
  recTodo : List (Nat × List Byte × Scope) := []
  deriving DecidableEq, Repr

/-! ### Runs, accesses, faults (06, 07, 08, 15) -/

/-- One quadrant's run in progress (R136, R138): members still to issue the word, members that have issued it, members that left the leader's path. -/
structure Run where
  pcore : Nat
  quad : BitVec 2
  team : Nat
  todo : List Nat
  done : List Nat
  apart : List Nat
  /-- The last attempt to issue stalled (R139). -/
  stalled : Bool
  deriving DecidableEq, Repr

/-- The word being issued: its team, its members with the leader first, the header of its clause. -/
structure Cur where
  team : Nat
  tids : List Nat
  hdr : Word
  deriving DecidableEq, Repr

/-- Where the bytes of an access lie. -/
inductive Loc where
  | glob (va : DWord) (p : Place)
  /-- Scratchpad of a team, by its key. -/
  | spad (team : Nat) (off : Nat)
  deriving DecidableEq, Repr

/-- The operation of an atomic (R346, R347). -/
inductive AOp where
  | atop (op : BitVec 8)
  | cas (cmp : List Byte)
  deriving DecidableEq, Repr

/-- What an outstanding access does when it completes (R341). -/
inductive Act where
  | load (d : Reg) (handle : Bool)
  | store (data : List Byte)
  | atomic (d : Reg) (op : AOp) (data : List Byte) (ret : Bool)
  | redc (data : List Byte)
  /-- CWB and CINV: the lines and whether copies are dropped (R352). -/
  | cache (lines : List (Nat × Nat)) (drop : Bool)
  | maps (off len : Nat) (va : DWord)
  | unmap (off : Nat) (keep : Bool)
  /-- SCLD: entries and the image words read at issue (R379). -/
  | scld (e : Nat) (vals : List Word)
  | accz (row tiles : Nat)
  /-- ACCLD and ACCST: the first row, the stride, the literal, the base, and the places of the pages touched (R383). -/
  | accld (row stride : Nat) (w : Word) (base : DWord) (ps : Table Place)
  | accst (row stride : Nat) (w : Word) (base : DWord) (ps : Table Place)
  /-- An element of ACCLD, or with its bytes of ACCST, on a peer's page, and the access that it is part of (R63, R383). -/
  | elem (of : Nat) (data : Option (List Byte))
  | accrd (d : Reg) (x n : Nat)
  | accwr (x : Nat) (vals : List Word)
  deriving DecidableEq, Repr

/-- How far an access of acquire order has come. -/
inductive Phase where
  | pending
  /-- A peer's reply has come: status and data (R65). -/
  | replied (status : Byte) (data : List Byte)
  /-- Sent to a peer and not answered. -/
  | sent
  deriving DecidableEq, Repr

/-- An outstanding access (R146, R341). -/
structure Req where
  id : Nat
  team : Nat
  /-- The issuing thread, and the other members that receive its result under U (R142). -/
  tid : Nat
  mates : List Nat
  flag : Option (Fin 12)
  act : Act
  loc : Loc
  size : Nat
  sc : Scope
  ord : Order
  ty : RType
  phase : Phase
  /-- VA of the word, for the traps of a failed check. -/
  at_ : DWord
  /-- A tag that the write leaves: the thread's FSCOPE at issue (R173). -/
  fs : Option Scope
  /-- MMAs accepted before the word issued (R239). -/
  after : List Nat
  /-- Those of its threads that have exited, which receive nothing more (R317). -/
  dead : List Nat
  /-- The first word of its instruction, for ATOMIC_UNSUPPORTED (R106). -/
  iw : Word
  /-- A store that its own core or tower already reads, before its package instant (R171). -/
  early : Bool
  /-- The bytes that are visible so, by their addresses (R171). -/
  shown : List (Nat × List Byte) := []
  /-- Threads, by team and number, that have read a store in a race before its package instant (R167). -/
  seen : List (Nat × Nat)
  /-- Bytes that it has taken from such stores: their addresses and values (R167). -/
  peeked : List (Nat × Byte)
  /-- What a load has read, once one of its registers shows it, and the registers that do (R147). -/
  vals : Option (List Word)
  landed : List Nat
  /-- What an RMW has read, once its read is performed apart from its write (R168). -/
  got : Option (List Byte)
  deriving DecidableEq, Repr

/-- A side-log entry (R129, R199). -/
structure LogEntry where
  id : Nat
  team : Nat
  tid : Nat
  va : DWord
  reduction : Bool
  size : Nat
  /-- Operation and request type; the operation is the ATOP of RED, 0xFF for REDC, 0 for a store. -/
  op : Byte
  ty : RType
  sc : Scope
  ord : Order
  data : List Byte
  /-- The fault it waits on; none: it replays next (R200). -/
  fid : Option Nat
  /-- The tag scope of its thread at issue (R173). -/
  fs : Option Scope
  /-- Its thread has exited (R317). -/
  gone : Bool
  /-- The first word of its instruction, for ATOMIC_UNSUPPORTED (R106). -/
  iw : Word
  /-- A write-back of a map (R159, R195). -/
  wb : Bool := false
  deriving DecidableEq, Repr

/-- The kinds of R195. -/
inductive FKind where
  | load | store | reduction | fetch | fill | writeback | piece | scout
  deriving DecidableEq, Repr

/-- The answer to a fault (R196). -/
inductive Answer where
  | retry
  | fail (cause : Byte)
  deriving DecidableEq, Repr

/-- A fault-table entry (R193, R195). -/
structure FaultEntry where
  fid : Nat
  asid : BitVec 12
  va : DWord
  kind : FKind
  reason : BitVec 2
  level : BitVec 2
  need : BitVec 3
  grid : Word
  teamid : Nat
  pcore : Nat
  opened : Nat
  recorded : Bool
  answer : Option Answer
  deriving DecidableEq, Repr

/-! ### Saiga and Oryx (09, 10) -/

/-- How a copy ends (R225). -/
inductive Ending where
  | cancelled
  | failed (cause : Byte)
  deriving DecidableEq, Repr

/-- One destination of a copy: its team, elements moved, sectors counted (R218). -/
structure Dest where
  /-- The destination team's key; none: global memory or a FIFO. -/
  team : Option Nat
  moved : Nat
  counted : Nat
  dropped : Bool
  deriving DecidableEq, Repr

/-- An active copy (R207 to R227). -/
structure Copy where
  id : Nat
  team : Nat
  tid : Nat
  pcore : Nat
  tok : Word
  /-- The 64 bytes of its descriptor, read at issue. -/
  desc : List Byte
  dests : List Dest
  ending : Option Ending
  cancel : Bool
  /-- The fault it waits on (R197). -/
  fid : Option Nat
  /-- Pages probed by the scout, each with the fault it waits on (R217): a page number, plus 2^52 for a destination. -/
  probed : Table (Option Nat)
  /-- Pages whose probe was answered with a failure, and the cause (R198). -/
  refused : Table Byte
  /-- Global destination lines it owns (R176): the last element that writes the line, and the physical line number. -/
  owns : List (Nat × Nat)
  /-- A destination page did not translate when its owned lines were last named (R176). -/
  unowned : Bool
  /-- Its descriptor slot (R219). -/
  slot : Nat
  /-- Elements read from the source that some destination has not received: their destination bytes (R218). -/
  taken : Table (List Byte)
  /-- Destination bytes moved ahead of the rest of their piece: the destination and the place of the byte in its order (R168). -/
  ahead : List (Nat × Nat)
  deriving DecidableEq, Repr

/-- A reservation-table entry (R242). -/
structure Mma where
  id : Nat
  team : Nat
  quadIx : Nat
  tok : Word
  block : List Byte
  started : Nat
  retired : Nat
  ending : Option Ending
  deriving DecidableEq, Repr

/-- A pass in flight (R229). -/
structure Pass where
  mma : Nat
  quadIx : Nat
  team : Nat
  row : Nat
  start : Nat
  /-- The values the tile receives at retirement. -/
  vals : List (Nat × Word)
  deriving DecidableEq, Repr

/-- A team's stream on a FIFO of its quad (R234), and bytes still to be removed for dropped passes (R243): for which MMA, and how many. -/
structure Stream where
  team : Nat
  fifo : BitVec 3
  bytes : List Byte
  owed : List (Nat × Nat)
  deriving DecidableEq, Repr

/-! ### Memory (02, 07) -/

/-- A copy of a line in a core's L1 that a relaxed .wt or .si load may return (R161). -/
structure L1Line where
  pcore : Nat
  line : Nat
  key : BitVec 10
  bytes : List Byte
  deriving DecidableEq, Repr

/-- A cached leaf translation (R189): whose TLB, the address space, the first VA and size in bytes, the entry. -/
structure TlbEntry where
  /-- A core's L1 TLB by PCORE, or a tower's TLB. -/
  core : Option Nat
  tower : Nat
  asid : BitVec 12
  va : Nat
  size : Nat
  entry : DWord
  deriving DecidableEq, Repr

/-- A cached pointer entry of a tower's walk cache (R189). -/
structure WalkEntry where
  tower : Nat
  asid : BitVec 12
  level : Nat
  /-- VA bits above the level's index, with the index. -/
  tag : Nat
  entry : DWord
  deriving DecidableEq, Repr

/-- A tower's partial of an element of a combining page (R179). -/
structure Partial where
  tower : Nat
  pa : Nat
  /-- Bytes of the page, its format and its key ID. -/
  size : Nat
  cfmt : BitVec 3
  key : BitVec 10
  val : Nat
  deriving DecidableEq, Repr

/-- What the hub, and so the host in window mode, has of a byte that a device copy holds dirty (R97): its value there, and the tower whose caches hold the copy. -/
structure Hidden where
  byte : Byte
  tower : Nat
  deriving DecidableEq, Repr

/-- What device copies may still hold of a byte that the host wrote in window mode (R97): the value, the towers that may hold it, and the key ID and generation of the copies (R54). -/
structure Stale where
  byte : Byte
  towers : BitVec 12
  key : Nat × Nat
  deriving DecidableEq, Repr

/-- A write while launches run (R141): the model's next key at that moment, its first byte, and the bytes it replaced. -/
structure Past where
  at_ : Nat
  pa : Nat
  old : List Byte
  deriving DecidableEq, Repr

/-- The hub's copy of a host line: whether it is dirty, and its key ID (R54, R105). -/
structure HostCopy where
  dirty : Bool
  key : Nat
  deriving DecidableEq, Repr

/-- Memory and what lies with it. -/
structure MemSys where
  /-- One byte per package physical address; an unlisted address reads zero (log entry 3). -/
  bytes : List Host.Cell
  tags : Table Tag
  /-- Per 32-byte sector: the key ID and generation it was written under, when not key ID 0 in its region's base generation (R53, R54). -/
  sectorKey : Table (Nat × Nat)
  /-- Sectors of the far tier, by port and device address: the PA sector as which each was last written (R53, R81). -/
  farPa : Table Nat
  /-- Per region: the generation of key ID 0 under which sectors not listed in sectorKey stand (R43, R53). -/
  bases : Table Nat
  poison : List Nat
  /-- Far-tier sectors whose next read gets no completion, and those of which one has got none and whose event is to come (R82; log entry 42). -/
  lost : List Nat
  lapsed : List Nat
  /-- Lines of tower DRAM that are stored recoded: the metadata bit of R52. -/
  recoded : List Nat
  /-- Bytes that device copies hold dirty in window mode (R97). -/
  hidden : Table Hidden
  /-- Sectors whose device copy stands under another key than they do at the hub: the key ID and generation there (R54, R97). -/
  hiddenKey : Table (Nat × Nat)
  /-- In window mode, bytes that host writes replaced and that a device copy may still hold, the newest first (R97). -/
  stale : Table (List Stale)
  /-- Per 4 KiB page, its writes since the oldest running launch started, newest first (R141). -/
  past : Table (List Past)
  /-- Bytes of host memory that changed since the hub took its copy of their line, newest first: the address and the old byte (R105). -/
  hostPast : List (Nat × Byte)
  /-- Lines of host-bias pages and windows that the host holds through CXL.cache (R94, R98). -/
  hostLines : List Nat
  /-- Host lines whose copy the hub holds through CXL.cache (R105; log entry 17). -/
  hubHost : Table HostCopy
  /-- Bytes of read-only-shared peer lines held in this package (R78): keyed by node * 2^52 + address. -/
  remote : Table Byte
  l1 : List L1Line
  tlb : List TlbEntry
  walk : List WalkEntry
  /-- Pages in host bias, by PA div 2 MiB (R94). -/
  hostBias : List Nat
  partials : List Partial
  deriving DecidableEq, Repr

/-! ### Towers (01, 02) -/

/-- The phases of a role change (R22). -/
inductive RolePhase where
  | idle | drain | flush | enumerate
  deriving DecidableEq, Repr

/-- A repaired row of a bank and which copies of its entry are readable (R47, R49). -/
structure Repair where
  bank : Nat
  row : Nat
  spare : Nat
  aOk : Bool
  bOk : Bool
  cached : Bool
  deriving DecidableEq, Repr

/-- The last refresh of a row: its bank and row, the cycle, and the multiplier in force (R44). -/
structure RowRefresh where
  bank : Nat
  row : Nat
  at_ : Nat
  rmult : BitVec 2
  deriving DecidableEq, Repr

/-- A TSV interface (R51). -/
structure Tsv where
  drift : Bool
  pauseTill : Option Nat
  /-- The last cycle to which a detected drift defers its realignment. -/
  due : Nat := 0
  deriving DecidableEq, Repr

/-- What THSTATE and THSTAT show (R34, R35). -/
structure Thermal where
  hst : BitVec 3
  rmult : BitVec 2
  forced : Bool
  pref : Bool
  dtemp : BitVec 8
  ltemp : BitVec 8
  deriving DecidableEq, Repr

/-- One tower. -/
structure Tower where
  /-- ROLESET.COMPUTE and ROLESET.PINNED, bit n for stratum n (R20). -/
  compute : BitVec 4
  pinned : BitVec 4
  rolePhase : RolePhase
  roleBusy : Bool
  roleOverrun : Bool
  roleDone : Bool
  roleResult : Byte
  reqCompute : BitVec 4
  reqPinned : BitVec 4
  powerEnd : Nat
  therm : Thermal
  tahrNext : Option Thermal
  lastEval : Nat
  prefovr : BitVec 2
  hmin : BitVec 3
  thcnt : Word
  lastTick : Nat
  /-- CHASH as last written and as in effect: M2 in [15:8], M1 in [7:0] (R39, R43). -/
  chashW : Word
  chash : Word
  quiesce : Bool
  quiesced : Bool
  failed : Bool
  realign : Bool
  zeroing : Bool
  cherr : Bool
  /-- Banks condemned in the recorded map and in the map in effect (R47, R48). -/
  condemned : List Nat
  condemnedEff : List Nat
  /-- Rows inserted in the retention filters of 32 ms and 64 ms (R44). -/
  bin32 : List (Nat × Nat)
  bin64 : List (Nat × Nat)
  /-- Banks under refresh, and those whose retried requests still wait, each with the end of the refresh (R45). -/
  refresh : List (Nat × Nat)
  /-- Banks that have sent a retry to a read or write of a walker, a fetch or the hub (R45). -/
  retry : List Nat := []
  /-- Rows refreshed since module reset (R44). -/
  rows : List RowRefresh
  repairs : List Repair
  /-- Rows that need repair and have no spare (R47). -/
  badRows : List (Nat × Nat)
  tsv : Vector Tsv 5
  tevq : BitVec 10
  tpart : BitVec 4
  deriving DecidableEq, Repr

/-! ### Fabric (03) -/

/-- A bulk packet on its way (R71, R192): its number, whose write it is, and the page it writes there. -/
structure Flight where
  seq : Word
  team : Nat
  /-- The thread whose write it is; none: a copy's. -/
  tid : Option Nat
  page : Nat
  deriving DecidableEq, Repr

/-- A cell waiting in a queue or bulk bytes sent, per destination node (R67 to R71). -/
structure Peer where
  node : BitVec 12
  /-- Request cells, each with the model's request id (0: the hub's own); a tag is given at departure. -/
  requests : List (Nat × Cell)
  replies : List Cell
  /-- Outstanding request tags: (tag, request id). -/
  tags : List (Nat × Nat)
  /-- The last bulk number sent, acknowledged by the peer, and landed here in order. -/
  sent : Word
  acked : Word
  landed : Word
  /-- Bulk numbers that have landed beyond the first missing one. -/
  ahead : List Word
  /-- Cells received that wait, unexecuted: a release for bulk bytes, or a request for room in the reply queue, and those behind it (R68, R71). -/
  waiting : List Cell
  /-- Queue served last: true the reply queue (R68). -/
  lastReply : Bool
  /-- The tower, or 12 for the hub itself, and the core of each tower, that entered the request queue last (R68; log entry 14). -/
  lastTower : Nat
  lastCore : Table Nat
  /-- Accesses of the hub's own that have not entered the request queue, each with its cells and their numbers (R65, R68). -/
  hubCells : List (List (Nat × Cell))
  /-- Bulk packets sent and not acknowledged (R71). -/
  flights : List Flight
  deriving DecidableEq, Repr

/-- A cell of the hub's own whose reply matters (R63, R65): its number, where it goes, its bytes, whether it loads, with acquire order, or stores, and the STATUS and
data of its reply. -/
structure HubAsk where
  id : Nat
  /-- What it is for: the key of a launch, an entry or a LAUNCH. -/
  who : Nat
  node : BitVec 12
  pa : Nat
  n : Nat
  typ : BitVec 4
  reply : Option (Byte × List Byte)
  deriving DecidableEq, Repr

/-- The hub's fabric state. -/
structure Fabric where
  en : Bool
  domain : BitVec 12
  node : BitVec 12
  locked : Bool
  cfgerr : Bool
  linkdown : Bool
  proterr : Bool
  upmask : BitVec 64
  flat : BitVec 16
  key : BitVec 10
  /-- Cycle at which the slot epoch began (R66), and per up port the last slot time used. -/
  epoch : Nat
  slotUsed : Table Nat
  portDown : BitVec 64
  peers : List Peer
  /-- The hub's cells whose replies have not come or have not been used (R63, R65). -/
  asks : List HubAsk := []
  /-- Cells handed to the planes, and bulk packets with their destination and up port (an output; R70). -/
  cellsOut : List Cell
  bulkOut : List (BitVec 12 × BitVec 6 × Bulk)
  /-- FARDEC.n and FARBASE.n (R81), and CXL ports whose link is down (R82). -/
  fardec : Vector Word 4
  farbase : Vector Word 4
  farDown : List Nat
  deriving DecidableEq, Repr

/-! ### Host interface (04, 08) -/

/-- The state of a work queue (R88). -/
inductive QState where
  | disabled | active | disabling | error
  deriving DecidableEq, Repr

/-- A queue entry the hub has read and not completed (R90 to R93). -/
structure QEntry where
  /-- The model's number of the entry (log entry 2). -/
  num : Nat
  bytes : List Byte
  /-- It has been granted a slot and its header has passed (R91). -/
  granted : Bool
  /-- Its own row has begun: FLUSH, BIAS, WAIT or SIGNAL in progress, LAUNCH running. -/
  started : Bool
  /-- Pages of a BIAS entry already flipped. -/
  progress : Nat
  /-- Its place in the order of starts (R96). -/
  order : Nat
  deriving DecidableEq, Repr

/-- A work queue (R87 to R92). -/
structure Queue where
  num : Nat
  state : QState
  err : Byte
  /-- The 64 bytes of its context as read at enable. -/
  ctx : List Byte
  /-- The hub's index of the next unfetched entry, and the tail it last accepted. -/
  head : Nat
  tail : Nat
  entries : List QEntry
  /-- Slots granted to it whose entries are still to be fetched (R90, R119). -/
  due : Nat
  deriving DecidableEq, Repr

/-- An event queue as the hub holds it (R100 to R104, R414). -/
structure EventQ where
  num : Nat
  /-- Its context is held. -/
  held : Bool
  base : Nat
  log2n : Nat
  vec : Nat
  count : Nat
  time : Nat
  slot : Nat
  phase : Bool
  unreturned : Nat
  /-- Records without their PHASE byte. -/
  waiting : List (List Byte)
  unsignalled : Nat
  firstAt : Nat
  deriving DecidableEq, Repr

/-- An SPDM session (R108). -/
structure Session where
  num : Nat
  deriving DecidableEq, Repr

/-- A key load or clear that waits for its lines (R109, R110). -/
structure KeyWork where
  id : BitVec 10
  value : Option (BitVec 512)
  session : Nat
  deriving DecidableEq, Repr

/-- A command of the invalidation engine, as its registers held it at GO (R191). -/
structure InvCmd where
  kind : BitVec 2
  rdrop : Bool
  node : BitVec 12
  va : DWord
  pa : DWord
  asid : BitVec 12
  count : BitVec 20
  /-- The remote lines of RDROP have been dropped. -/
  dropped : Bool := false
  deriving DecidableEq, Repr

/-- The states of MSECSTAT (R55). -/
inductive MState where
  | opened | measured | keyed
  deriving DecidableEq, Repr

/-- The hub's registers. -/
structure Hub where
  /-- MSECCTL and MSECSTAT (R55). -/
  lock : Bool
  mBusy : Bool
  mErr : Bool
  mState : MState
  digest : BitVec 256
  runlog : BitVec 256
  /-- KEYPOL.n (R56). -/
  keypol : Vector Word 64
  /-- Keys loaded, and per ID the generation of its key (R53, R109, R110). -/
  keys : Table (BitVec 512)
  keyGen : Table Nat
  /-- The key pairs of IDs 1 to 1,023 by generation: ciphertext in memory outlives its key (R53, R54). -/
  keyPast : List (Nat × Nat × BitVec 512)
  keyWork : List KeyWork
  /-- HOSTKEY, HQCTL, HQBASE, HEQBASE, HSYSEQ, HBIASEN, HATOMCAP (R85, R86, R94, R106). -/
  hostKey : Word
  hqEn : Bool
  hqBase : Nat
  heqBase : Nat
  hsyseq : BitVec 10
  hbiasen : BitVec 12
  hatomcap : BitVec 5
  /-- HWIN.n (R98). -/
  hwin : Vector Word 4
  /-- Leaves that mapped a window when it moved, each with the unit of hub pinned memory that it maps and the other one that its reads may show (R98). -/
  winPast : List (DWord × Nat × Nat)
  /-- HPINCFG.UNITS (R99). -/
  units : BitVec 6
  /-- The fault queue (R194). -/
  fqBase : Nat
  fqEn : Bool
  fqTmo : BitVec 15
  fqVec : BitVec 11
  fqLog : BitVec 5
  badReply : Bool
  fqSlot : Nat
  fqPhase : Bool
  fqUnret : Nat
  /-- The invalidation engine (R191). -/
  invVa : DWord
  invPa : DWord
  invAsid : BitVec 12
  invCount : BitVec 20
  invBusy : Bool
  invOverrun : Bool
  invDone : Bool
  /-- The command in progress. -/
  invCmd : Option InvCmd
  /-- Words of the MSI-X table that have been written, by offset div 4, and the vectors pending (R84, R104). -/
  msix : Table Word
  msixPend : List Nat
  /-- Algorithms negotiated: ML-DSA-44 and SHA3-256 (R108). -/
  doeAlg : Option (Bool × Bool)
  sessions : List Session
  deriving DecidableEq, Repr

/-- What the package tells the host. -/
inductive HostMsg where
  | data (bytes : List Byte) (poisoned : Bool)
  | text (code : Nat) (words : List Nat)
  deriving DecidableEq, Repr

/-! ### The machine -/

/-- A row of a quad's accumulator, or an entry of its scale memory, with an uncorrectable soft error (R243; log entry 42). -/
structure SoftError where
  quadIx : Nat
  scale : Bool
  ix : Nat
  deriving DecidableEq, Repr

/-- A turn still to take (log entry 2), after so many cycles. Beside device steps and the next word of a run these are what the
outside does (log entries 17, 42, 45) and the freedoms of the memory model (log entry 44). -/
inductive Turn where
  | act (after : Nat) (i : Instr)
  | issue (after : Nat) (run : Nat)
  | hostStore (after : Nat) (pa : BitVec 52) (d : List Byte)
  | softError (after : Nat) (e : SoftError)
  | farPoison (after : Nat) (sector : Nat)
  /-- The next read of a sector of the far tier or of host memory gets no completion (R82, R106). -/
  | farLost (after : Nat) (sector : Nat)
  /-- The host gives back a line of device memory that it holds, with what it wrote there (R94, R98). -/
  | hostBack (after : Nat) (line : Nat) (data : List Byte)
  /-- PCIe completes an atomic of the non-coherent route as an Unsupported Request (R106). -/
  | hostRefuse (after : Nat) (id : Nat)
  /-- A store becomes visible to its core or tower before its package instant (R171). -/
  | early (after : Nat) (id : Nat)
  /-- A load takes bytes, by their offsets, from a store that it races with (R167). -/
  | peek (after : Nat) (load store : Nat) (offs : List Nat)
  /-- The read of an RMW is performed, and not yet its write (R168). -/
  | rmwRead (after : Nat) (id : Nat)
  /-- One destination register of a load shows what the load reads (R147). -/
  | land (after : Nat) (id reg : Nat)
  /-- One dirty byte of a map is written back (R168). -/
  | wbByte (after : Nat) (id off : Nat)
  /-- One byte of a copy's next piece is moved to a destination (R168, R176). -/
  | pieceByte (after : Nat) (id dest off : Nat)
  deriving DecidableEq, Repr

/-- One Z12 package. -/
structure State where
  /-- Cycles since module reset (R2). -/
  now : Nat
  agenda : List Turn
  /-- What has reached the package and memory keeps back, oldest first: taken again in each cycle (R43, R45, R51; log entry 46). -/
  kept : List Instr
  /-- Counter of free values (log entry 6). -/
  free : Nat
  /-- Next key of teams, launches, requests, copies, MMAs and side-log entries (log entry 2). -/
  nextKey : Nat
  /-- Interrupt vectors requested (R104, R194). -/
  irq : List Nat
  hostOut : List HostMsg
  /-- VA and code of each DBGMARK (R400). -/
  trace : List (DWord × Word)
  mem : MemSys
  towers : Vector Tower 12
  hub : Hub
  fab : Fabric
  wqs : List Queue
  /-- Last queue granted per level (R119), and the last slot arbitrated. -/
  rr : Table Nat
  lastSlot : Option Nat
  eqs : List EventQ
  launches : List Launch
  nextGrid : Word
  teams : List Team
  runs : List Run
  cur : Option Cur
  reqs : List Req
  sideLog : List LogEntry
  faults : List FaultEntry
  nextFid : Nat
  copies : List Copy
  /-- Per quad, the descriptor slot that its Saiga served last (R219). -/
  saigaLast : Table Nat
  /-- Accumulator words: quad index, row * 128 + column (R236). -/
  acc : Table (Table Word)
  scale : Table (Table Word)
  streams : List Stream
  mmas : List Mma
  passes : List Pass
  /-- Per quad: the last window of 256 cycles in which passes started, and how many (R30). -/
  passWin : Table (Nat × Nat)
  /-- Uncorrectable errors in the Oryxes (R243). -/
  soft : List SoftError
  deriving DecidableEq, Repr

/-- A thread at dispatch, but for what its launch and position give (R135). -/
def Thread.blank : Thread where
  regs := Vector.replicate 128 0
  pend := 0
  flags := Vector.replicate 12 0
  pc := 0
  clause := 0
  fpstat := 0
  dphase := 0
  uchk := false
  ftz := false
  tpc := 0
  tclause := 0
  taddr := 0
  tcause := 0
  tinfo := 0
  inTrap := false
  fscope := none
  reads := []
  st := .ready
  since := 0
  slot := 0
  quad := 0
  lane := 0
  later := []
  failed := none
  word := none
  mates := []
  used := 0
  hdr := 0

/-- A tower after module reset (R20, R22, R34, R39, R42, R111). -/
def Tower.reset : Tower where
  compute := 0b1100
  pinned := 0
  rolePhase := .idle
  roleBusy := false
  roleOverrun := false
  roleDone := false
  roleResult := 0
  reqCompute := 0
  reqPinned := 0
  powerEnd := 0
  therm := { hst := 0, rmult := 0, forced := false, pref := false, dtemp := 0, ltemp := 0 }
  tahrNext := none
  lastEval := 0
  prefovr := 0
  hmin := 0
  thcnt := 0
  lastTick := 0
  chashW := 0x3F00
  chash := 0x3F00
  quiesce := false
  quiesced := false
  failed := false
  realign := false
  zeroing := false
  cherr := false
  condemned := []
  condemnedEff := []
  bin32 := []
  bin64 := []
  refresh := []
  rows := []
  repairs := []
  badRows := []
  tsv := Vector.replicate 5 { drift := false, pauseTill := none }
  tevq := 0
  tpart := 0

/-- The hub after module reset. -/
def Hub.reset : Hub where
  lock := false
  mBusy := false
  mErr := false
  mState := .opened
  digest := 0
  runlog := 0
  keypol := (Vector.replicate 64 0).set 0 1
  keys := []
  keyGen := []
  keyPast := []
  keyWork := []
  hostKey := 0
  hqEn := false
  hqBase := 0
  heqBase := 0
  hsyseq := 0
  hbiasen := 0
  hatomcap := 0
  hwin := Vector.replicate 4 0
  winPast := []
  units := 0
  fqBase := 0
  fqEn := false
  fqTmo := 0
  fqVec := 0
  fqLog := 0
  badReply := false
  fqSlot := 0
  fqPhase := true
  fqUnret := 0
  invVa := 0
  invPa := 0
  invAsid := 0
  invCount := 0
  invBusy := false
  invOverrun := false
  invDone := false
  invCmd := none
  msix := []
  msixPend := []
  doeAlg := none
  sessions := []

/-- The fabric after module reset (R74, R81). -/
def Fabric.reset : Fabric where
  en := false
  domain := 0
  node := 0
  locked := false
  cfgerr := false
  linkdown := false
  proterr := false
  upmask := BitVec.allOnes 64
  flat := 0
  key := 0
  epoch := 0
  slotUsed := []
  portDown := 0
  peers := []
  cellsOut := []
  bulkOut := []
  fardec := Vector.replicate 4 0
  farbase := Vector.replicate 4 0
  farDown := []

/-- Memory after module reset (log entry 3). -/
def MemSys.reset : MemSys where
  bytes := []
  tags := []
  sectorKey := []
  farPa := []
  bases := []
  poison := []
  lost := []
  lapsed := []
  recoded := []
  hidden := []
  hiddenKey := []
  stale := []
  past := []
  hostPast := []
  hostLines := []
  hubHost := []
  remote := []
  l1 := []
  tlb := []
  walk := []
  hostBias := []
  partials := []

/-- The machine right after module reset. -/
def State.reset : State where
  now := 0
  agenda := []
  kept := []
  free := 0
  nextKey := 0
  irq := []
  hostOut := []
  trace := []
  mem := MemSys.reset
  towers := Vector.replicate 12 Tower.reset
  hub := Hub.reset
  fab := Fabric.reset
  wqs := []
  rr := []
  lastSlot := none
  eqs := []
  launches := []
  nextGrid := 1
  teams := []
  runs := []
  cur := none
  reqs := []
  sideLog := []
  faults := []
  nextFid := 1
  copies := []
  saigaLast := []
  acc := []
  scale := []
  streams := []
  mmas := []
  passes := []
  passWin := []
  soft := []

end Sys2Proof.Machine
end

