-- ==== Sys2Proof/Machine/Blocks.lean ====
section
/-!
DEFINITION. What a parameter block says of an MMA's passes (R230 to R234), and what dropped passes still owe in the streams of the FIFOs (R243).
-/
namespace Sys2Proof.Machine

/-! ### The parameter block (R230 to R232) -/

/-- An MMA's parameter block (R230). -/
structure Block64 where
  m : Nat
  n : Nat
  k : Nat
  af : BitVec 3
  bf : BitVec 3
  row : Nat
  asb : Nat
  bsb : Nat
  afmt : Nat
  bfmt : Nat
  zf : Bool
  deriving DecidableEq, Repr

/-- The block in 64 bytes (R230). -/
def blockOf (bs : List Byte) : Block64 :=
  let f := fieldAt bs
  { m := f 0 4, n := f 4 4, k := f 8 4, af := BitVec.ofNat 3 (f 12 1), bf := BitVec.ofNat 3 (f 13 1), row := f 14 2, asb := f 16 2
    bsb := f 18 2, afmt := f 20 1 % 4, bfmt := f 21 1 % 4, zf := bitOf (f 22 1) 0 }

/-- The fields of a block in order of their offsets, each with whether it passes (R230, R232). The bytes 23 to 63 are one field. -/
def blockFields (bs : List Byte) : List (Nat × Bool) :=
  let f := fieldAt bs
  let dim := fun x => 128 ≤ x && x ≤ 8192 && x % 128 == 0
  [ (0, dim (f 0 4)), (4, dim (f 4 4)), (8, 1 ≤ f 8 4 && f 8 4 ≤ 1048576), (12, f 12 1 < 8), (13, f 13 1 < 8 && f 13 1 != f 12 1),
    (14, f 14 2 % 128 == 0), (16, f 20 1 % 4 != 2 || f 16 2 == 0), (18, f 20 1 % 4 != 2 || f 18 2 == 0), (20, f 20 1 ≤ 2),
    (21, f 21 1 ≤ 2 && (f 21 1 % 4 == 2) == (f 20 1 % 4 == 2)), (22, f 22 1 < 2), (23, f 23 41 == 0) ]

/-- Tiles, depth and blocks of K (R231). -/
def Block64.mt (b : Block64) : Nat := b.m / 128
def Block64.nt (b : Block64) : Nat := b.n / 128
def Block64.bf16 (b : Block64) : Bool := b.afmt == 2
def Block64.depth (b : Block64) : Nat := if b.bf16 then 32 else 128
def Block64.kb (b : Block64) : Nat := ceilDiv b.k b.depth
/-- Passes (R231). -/
def Block64.passes (b : Block64) : Nat := b.mt * b.nt * b.kb
/-- (mi, ni, kb) of the p-th pass (R231). -/
def Block64.pass (b : Block64) (p : Nat) : Nat × Nat × Nat := (p / b.kb % b.mt, p / (b.kb * b.mt), p % b.kb)
/-- The first window row of the tile of the p-th pass (R231). -/
def Block64.tile (b : Block64) (p : Nat) : Nat := let (mi, ni, _) := b.pass p; b.row + 128 * (mi + b.mt * ni)
/-- Elements of K in the block of the p-th pass, and the bytes of each of its operand blocks (R234). -/
def Block64.dOf (b : Block64) (p : Nat) : Nat := let (_, _, kb) := b.pass p; if kb + 1 < b.kb then b.depth else b.k - b.depth * (b.kb - 1)
def Block64.eBytes (b : Block64) : Nat := if b.bf16 then 2 else 1
def Block64.blockBytes (b : Block64) (p : Nat) : Nat := 128 * b.dOf p * b.eBytes
/-- Window entries that the p-th pass reads: the first of A's 128, and that of B (R233). -/
def Block64.scaleA (b : Block64) (p : Nat) : Nat := let (mi, _, kb) := b.pass p; b.asb + kb * b.m + 128 * mi
def Block64.scaleB (b : Block64) (p : Nat) : Nat := let (_, ni, kb) := b.pass p; b.bsb + ni * b.kb + kb
/-- The p-th pass reads window entry x. -/
def Block64.reads (b : Block64) (p x : Nat) : Bool :=
  !b.bf16 && ((b.scaleA p ≤ x && x < b.scaleA p + 128) || x == b.scaleB p)

/-! ### Streams of the FIFOs (R234, R235, R243) -/

/-- Bytes that an MMA's passes not started will take from the team's stream on a FIFO. -/
def Mma.wants (m : Mma) (f : BitVec 3) : Nat :=
  let b := blockOf m.block
  if b.af == f || b.bf == f then sumNat ((List.range (b.passes - m.started)).map fun i => b.blockBytes (m.started + i)) else 0

/-- Bytes of a stream that stand before what a dropped MMA would have taken: the blocks of the team's earlier MMAs (R243). -/
def State.wantsBefore (s : State) (k : Nat) (f : BitVec 3) (id : Nat) : Nat :=
  sumNat ((s.mmas.filter fun m => m.team == k && m.id < id && m.ending.isNone).map fun m => m.wants f)

/-- Remove the bytes owed to dropped passes as far as they have come (R243): MMAs in their order, each behind the blocks that stand before its own. -/
def pullOwed (before : Nat → Nat) : List (Nat × Nat) → List Byte → List (Nat × Nat) × List Byte
  | [], bs => ([], bs)
  | (id, n) :: r, bs =>
    let p := before id
    let come := Nat.min n (bs.length - p)
    let (r, bs) := pullOwed before r (bs.take p ++ bs.drop (p + come))
    (if come < n then (id, n - come) :: r else r, bs)

/-- A team's stream on a FIFO. -/
def State.stream (s : State) (k : Nat) (f : BitVec 3) : Stream :=
  (s.streams.find? fun x => x.team == k && x.fifo == f).getD { team := k, fifo := f, bytes := [], owed := [] }

/-- Replace a team's stream, with what it owes removed. -/
def State.putStream (s : State) (x : Stream) : State :=
  let (o, b) := pullOwed (s.wantsBefore x.team x.fifo) x.owed x.bytes
  { s with streams := s.streams.filter (fun y => !(y.team == x.team && y.fifo == x.fifo)) ++ [{ x with owed := o, bytes := b }] }

/-- The blocks that an MMA's dropped passes would have taken from a FIFO are owed by the team's stream (R243). -/
def State.owe (s : State) (m : Mma) (f : BitVec 3) : State :=
  let x := s.stream m.team f
  let old := x.owed.filter fun o => o.1 < m.id
  s.putStream { x with owed := old ++ (m.id, m.wants f) :: x.owed.filter fun o => m.id < o.1 }

end Sys2Proof.Machine
end

