-- ==== Sys2Proof/Machine/Memory.lean ====
section
/-!
DEFINITION. Sparse maps in one canonical form: keys rise strictly. Memory is one whose unlisted bytes read zero and which lists no zero byte (log entry 3).
-/
namespace Sys2Proof.Machine

/-- The value at key k. -/
def Table.get? {α : Type} : Table α → Nat → Option α
  | [], _ => none
  | (j, v) :: r, k => if j = k then some v else Table.get? r k

/-- The value at key k, or d. -/
def Table.getD {α : Type} (t : Table α) (k : Nat) (d : α) : α := (t.get? k).getD d

/-- Write v at key k; the keys stay in rising order. -/
def Table.put {α : Type} : Table α → Nat → α → Table α
  | [], k, v => [(k, v)]
  | (j, w) :: r, k, v => if k < j then (k, v) :: (j, w) :: r else if k = j then (k, v) :: r else (j, w) :: Table.put r k v

/-- Remove key k. -/
def Table.erase {α : Type} (t : Table α) (k : Nat) : Table α := t.filter fun e => e.1 != k

/-- Write v at key k in a table that lists no value d. -/
def Table.putD {α : Type} [DecidableEq α] (d : α) (t : Table α) (k : Nat) (v : α) : Table α :=
  if v = d then t.erase k else t.put k v

/-- Remove the keys lo to hi - 1. -/
def Table.dropRange {α : Type} (t : Table α) (lo hi : Nat) : Table α := t.filter fun e => e.1 < lo || hi ≤ e.1

/-- Replace the keys lo to hi - 1 by new entries, which rise and lie there. -/
def Table.splice {α : Type} (t : Table α) (lo hi : Nat) (new : Table α) : Table α :=
  t.filter (fun e => e.1 < lo) ++ new ++ t.filter fun e => hi ≤ e.1

/-- Keys rise strictly. -/
def Table.rising {α : Type} : Table α → Bool
  | [] => true
  | (j, _) :: r => r.all (fun e => decide (j < e.1)) && Table.rising r

/-- The canonical form of memory: keys rise strictly and no byte is zero. -/
def Memory.wf (m : List Host.Cell) : Bool := Table.rising m && m.all fun e => e.2 != 0

/-- The byte at an address (log entry 3). -/
def Memory.read (m : List Host.Cell) (a : Nat) : Byte := Table.getD m a 0

/-- Write one byte. -/
def Memory.write (m : List Host.Cell) (a : Nat) (b : Byte) : List Host.Cell := Table.putD 0 m a b

/-- n bytes from an address on. -/
def Memory.readN (m : List Host.Cell) (a n : Nat) : List Byte := (List.range n).map fun i => Memory.read m (a + i)

/-- Write bytes from an address on. -/
def Memory.writeN (m : List Host.Cell) (a : Nat) : List Byte → List Host.Cell
  | [] => m
  | b :: bs => Memory.writeN (Memory.write m a b) (a + 1) bs

end Sys2Proof.Machine
end

