-- ==== Sys2Proof/Machine/Ops.lean ====
section
/-!
DEFINITION. Named operations on teams, threads and registers; counting flags (R146); taking a trap (R204) and returning from one (R206); resolving a future (R373).
-/
namespace Sys2Proof.Machine

/-! ### Positions (R12) -/

/-- Tower, stratum, quad, core of a PCORE. -/
def pcTower (p : Nat) : Nat := p / 96
def pcStratum (p : Nat) : Nat := p / 24 % 4
def pcQuad (p : Nat) : Nat := p / 4 % 6
def pcCore (p : Nat) : Nat := p % 4
/-- A quad of the package, counted as PCORE div 4. -/
def quadIx (p : Nat) : Nat := p / 4

/-! ### Registers of a thread -/

/-- g[r]. -/
def Thread.reg (t : Thread) (r : Reg) : Word := t.regs[r.toNat]'(by have := r.isLt; omega)

/-- G64(r): the pair whose low half is g[r] (R3). -/
def Thread.reg64 (t : Thread) (r : Reg) : DWord := t.reg (r + 1) ++ t.reg r

/-- g[r] to g[r + n - 1], low register first. -/
def Thread.regN (t : Thread) (r : Reg) (n : Nat) : List Word := (List.range n).map fun i => t.reg (r + BitVec.ofNat 7 i)

/-- Write g[r]; a pending mark clears (R148). -/
def Thread.setReg (t : Thread) (r : Reg) (v : Word) : Thread :=
  { t with regs := t.regs.set r.toNat v (by have := r.isLt; omega), pend := t.pend &&& ~~~(1#128 <<< r.toNat) }

/-- Write consecutive registers from g[r] on. -/
def Thread.setRegs (t : Thread) (r : Reg) : List Word → Thread
  | [] => t
  | v :: vs => (t.setReg r v).setRegs (r + 1) vs

/-- Write consecutive registers from g[r] on, but for some of them, by their places. -/
def Thread.setRegsBut (t : Thread) (skip : List Nat) (j : Nat) (r : Reg) : List Word → Thread
  | [] => t
  | v :: vs => (if skip.contains j then t else t.setReg r v).setRegsBut skip (j + 1) (r + 1) vs

/-- g[r] holds a pending future (R148). -/
def Thread.isPend (t : Thread) (r : Reg) : Bool := t.pend.getLsbD r.toNat

/-- Mark g[r] pending with its token (R148). -/
def Thread.setPend (t : Thread) (r : Reg) (tok : Word) : Thread :=
  let t := t.setReg r tok
  { t with pend := t.pend ||| (1#128 <<< r.toNat) }

/-- A 64-bit value as two words, low half first. -/
def words64 (v : DWord) : List Word := [v.extractLsb' 0 32, v.extractLsb' 32 32]

/-- OR flags into FPSTAT (R258). -/
def Thread.orFlags (t : Thread) (f : Word) : Thread := { t with fpstat := t.fpstat ||| f }

/-- The thread's state is final (R134). -/
def Thread.final (t : Thread) : Bool := match t.st with | .exited | .halted | .stopped => true | _ => false

/-- The thread becomes READY. -/
def Thread.wake (t : Thread) (now : Nat) : Thread := { t with st := .ready, since := now, used := 0 }

/-! ### Finding and changing teams, threads and launches -/

def State.team? (s : State) (k : Nat) : Option Team := s.teams.find? fun t => t.key == k
def State.launch? (s : State) (k : Nat) : Option Launch := s.launches.find? fun l => l.key == k
def State.req? (s : State) (r : Nat) : Option Req := s.reqs.find? fun q => q.id == r
def State.copy? (s : State) (c : Nat) : Option Copy := s.copies.find? fun q => q.id == c
def State.mma? (s : State) (m : Nat) : Option Mma := s.mmas.find? fun q => q.id == m
def State.fault? (s : State) (f : Nat) : Option FaultEntry := s.faults.find? fun q => q.fid == f
def State.queue? (s : State) (q : Nat) : Option Queue := s.wqs.find? fun w => w.num == q

/-- Change the team of a key. -/
def State.modTeam (s : State) (k : Nat) (f : Team → Team) : State :=
  { s with teams := s.teams.map fun t => if t.key == k then f t else t }

/-- Change the launch of a key. -/
def State.modLaunch (s : State) (k : Nat) (f : Launch → Launch) : State :=
  { s with launches := s.launches.map fun l => if l.key == k then f l else l }

/-- Change a copy. -/
def State.modCopy (s : State) (c : Nat) (f : Copy → Copy) : State :=
  { s with copies := s.copies.map fun q => if q.id == c then f q else q }

/-- Change an MMA. -/
def State.modMma (s : State) (m : Nat) (f : Mma → Mma) : State :=
  { s with mmas := s.mmas.map fun q => if q.id == m then f q else q }

/-- Change a fault-table entry. -/
def State.modFault (s : State) (n : Nat) (f : FaultEntry → FaultEntry) : State :=
  { s with faults := s.faults.map fun q => if q.fid == n then f q else q }

/-- Change a work queue. -/
def State.modQueue (s : State) (n : Nat) (f : Queue → Queue) : State :=
  { s with wqs := s.wqs.map fun q => if q.num == n then f q else q }

/-- Change one thread of a team. -/
def Team.modThread (t : Team) (i : Nat) (f : Thread → Thread) : Team := { t with threads := t.threads.modify i f }

/-- Thread i of team k. -/
def State.thread? (s : State) (k i : Nat) : Option Thread := (s.team? k).bind fun t => t.threads[i]?

/-- Change thread i of team k. -/
def State.modThread (s : State) (k i : Nat) (f : Thread → Thread) : State := s.modTeam k fun t => t.modThread i f

/-- Change several threads of team k. -/
def State.modThreads (s : State) (k : Nat) : List Nat → (Thread → Thread) → State
  | [], _ => s
  | i :: is, f => (s.modThread k i f).modThreads k is f

/-- The launch record of a team. -/
def State.lrec? (s : State) (t : Team) : Option LaunchRec := (s.launch? t.launch).map (·.lrec)

/-- REGS, SPAD, TEAMSIZE and the like of a team; zero when its launch is gone. -/
def State.lfield (s : State) (t : Team) (f : LaunchRec → Nat) : Nat := ((s.lrec? t).map f).getD 0

/-- Teams per cluster (R113). -/
def LaunchRec.cluster (r : LaunchRec) : Nat := r.clrows * r.clcols

/-- Teams of the launch (R113). -/
def LaunchRec.teams (r : LaunchRec) : Nat := r.gridx * r.gridy * r.gridz

/-- A fresh key of the model (log entry 2). -/
def State.fresh (s : State) : Nat × State := (s.nextKey, { s with nextKey := s.nextKey + 1 })

/-- A turn so many cycles later. -/
def Turn.after : Turn → Nat
  | .act n _ | .issue n _ | .hostStore n _ _ | .softError n _ | .farPoison n _ | .farLost n _ | .hostBack n _ _ | .hostRefuse n _ | .early n _
  | .peek n _ _ _ | .rmwRead n _ | .land n _ _ | .wbByte n _ _ | .pieceByte n _ _ _ => n
def Turn.setAfter (n : Nat) : Turn → Turn
  | .act _ i => .act n i
  | .issue _ r => .issue n r
  | .hostStore _ a d => .hostStore n a d
  | .softError _ e => .softError n e
  | .farPoison _ x => .farPoison n x
  | .farLost _ x => .farLost n x
  | .hostBack _ l d => .hostBack n l d
  | .hostRefuse _ i => .hostRefuse n i
  | .early _ i => .early n i
  | .peek _ l r o => .peek n l r o
  | .rmwRead _ i => .rmwRead n i
  | .land _ i r => .land n i r
  | .wbByte _ i o => .wbByte n i o
  | .pieceByte _ i d o => .pieceByte n i d o

/-- What reaches the package while memory holds it back is kept, and taken again in each cycle in the order in which it came (R43, R45, R51; log entry 46). -/
def State.again (s : State) (i : Instr) : State := { s with kept := s.kept ++ [i] }

/-- The next free 32-bit value (log entry 6). -/
def State.freeWord (s : State) : Word × State := (Config.freeWord s.free, { s with free := s.free + 1 })

/-- The next n free bytes (log entry 6). -/
def State.freeBytes (s : State) (n : Nat) : List Byte × State :=
  ((List.range n).map fun i => (Config.freeWord (s.free + i)).extractLsb' 0 8, { s with free := s.free + n })

/-- The next free choice (log entry 11). -/
def State.freeChoice (s : State) : Bool × State := (Config.freeChoice s.free, { s with free := s.free + 1 })

/-! ### Futures (R371 to R373) -/

/-- The future-table entry that a token names, if the token is valid (R373). -/
def Team.future? (t : Team) (tok : Word) : Option Future :=
  let kind : BitVec 2 := tok.extractLsb' 30 2
  let seq := (tok.extractLsb' 0 30).toNat
  if kind == 0 then none else t.futures.find? fun f => f.seq == seq && f.kind == kind

/-- The team's next future entry holds no unresolved future (R372). -/
def Team.futureFree (t : Team) : Bool :=
  let next := (t.lastSeq + 1) % 2 ^ 30
  t.futures.all fun f => f.seq % 64 != next % 64 || f.resolved

/-- Create a future of a kind: its token, and the team with the entry taken (R372). -/
def Team.newFuture (t : Team) (kind : BitVec 2) : Word × Team :=
  let seq := (t.lastSeq + 1) % 2 ^ 30
  let old := t.futures.filter fun f => f.seq % 64 != seq % 64
  (kind ++ BitVec.ofNat 30 seq,
    { t with lastSeq := seq, futures := old ++ [{ kind := kind, seq := seq, resolved := false, status := 0 }] })

/-- The registers of a thread that are pending on a token. -/
def Thread.pendingOn (t : Thread) (tok : Word) : List (Fin 128) := (List.finRange 128).filter fun r => t.pend.getLsbD r.val && t.regs[r] == tok

/-- Deliver a status to a thread's registers that are pending on a token, and wake it if it waits for that future (R148, R373). -/
def Thread.deliver (t : Thread) (tok st : Word) (now : Nat) : Thread :=
  let t := (t.pendingOn tok).foldl (fun t r => t.setReg (BitVec.ofNat 7 r.val) st) t
  if t.st == .blocked (.future tok) then t.wake now else t

/-- A future resolves with its status word (R373). A saved thread receives it in its saved registers (R149) and learns at its restore that it need not wait. -/
def State.resolve (s : State) (k : Nat) (tok st : Word) : State :=
  s.modTeam k fun t =>
    { t with
      futures := t.futures.map fun f =>
        if f.seq == (tok.extractLsb' 0 30).toNat && f.kind == tok.extractLsb' 30 2 then { f with resolved := true, status := st } else f
      threads := t.threads.map fun th => if t.status == .saved then { th.deliver tok st s.now with st := th.st, since := th.since } else th.deliver tok st s.now }

/-! ### Traps, halting (R117, R134, R201, R204) -/

/-- The trap causes of R205. -/
def cIllegalClause : Byte := 0x01
def cIllegalOpcode : Byte := 0x02
def cIllegalRegister : Byte := 0x03
def cMisaligned : Byte := 0x04
def cAccess : Byte := 0x05
def cScope : Byte := 0x06
def cBarrierCount : Byte := 0x07
def cUniform : Byte := 0x08
def cFutureInvalid : Byte := 0x09
def cEngineParam : Byte := 0x0A
def cAccumWindow : Byte := 0x0B
def cDivZero : Byte := 0x0C
def cBreakpoint : Byte := 0x0D
def cSoftware : Byte := 0x0E
def cMulticast : Byte := 0x0F
def cSharing : Byte := 0x10
def cUncorrectable : Byte := 0x11
def cWatchdog : Byte := 0x12
def cAtomic : Byte := 0x13
def cRendezvous : Byte := 0x14

/-- A thread takes a trap at its pc: TPC, TCLAUSE, TCAUSE, TADDR and TINFO are set, and the thread enters its trap routine or halts (R204). -/
def Thread.enterTrap (t : Thread) (tr : Trap) (entry : DWord) (now : Nat) : Thread :=
  let t := { t with tpc := t.pc, tclause := t.clause, tcause := tr.cause, taddr := tr.addr, tinfo := tr.info, word := none, mates := [] }
  if t.inTrap || entry == 0 then { t with st := .halted }
  else { t with inTrap := true, pc := entry, clause := entry, st := .ready, since := now, used := 0 }

/-- A thread that is not final and not RUNNING is STOPPED at once; a RUNNING one at the end of its run (R134). -/
def Thread.stop (t : Thread) : Thread := if t.final || t.st == .running then t else { t with st := .stopped }

/-- A team halts with a cause: the first cause counts, its other threads stop, its continuations go (R117, R154). -/
def Team.halt (t : Team) (cause : Byte) : Team :=
  { t with cause := t.cause.or (some cause), threads := t.threads.map Thread.stop, conts := [], spawns := [] }

/-- The status word of an MMA's future (R243). -/
def mmaStatus : Option Ending → Word
  | none => 0
  | some .cancelled => 256
  | some (.failed c) => 512 + c.setWidth 32

/-- MMAs whose passes are all retired or dropped leave the reservation table, and their futures resolve (R242, R243). -/
def State.sweepMmas (s : State) : List Mma → State
  | [] => s
  | m :: ms =>
    if m.ending.isSome && m.started == m.retired then
      (({ s with mmas := s.mmas.filter fun x => x.id != m.id }).resolve m.team m.tok (mmaStatus m.ending)).sweepMmas ms
    else s.sweepMmas ms

/-- An MMA ends with its passes not started dropped (R243): their blocks go from the team's streams. -/
def State.dropRest (s : State) (m : Mma) (e : Ending) : State :=
  let b := blockOf m.block
  let s := s.modMma m.id fun x => { x with ending := some e }
  if m.started < b.passes then (s.owe m b.af).owe m b.bf else s

/-- MMAs that have not ended end CANCELLED. -/
def State.dropAll (s : State) : List Mma → State
  | [] => s
  | m :: ms => (if m.ending.isNone then s.dropRest m .cancelled else s).dropAll ms

/-- Drop the passes a halted team's MMAs have not started (R243): the MMA ends CANCELLED once its started passes have retired. -/
def State.dropPasses (s : State) (k : Nat) : State :=
  let s := s.dropAll (s.mmas.filter (·.team == k))
  s.sweepMmas s.mmas

/-- Halt team k (R117, R201). -/
def State.haltTeam (s : State) (k : Nat) (cause : Byte) : State := (s.modTeam k fun t => t.halt cause).dropPasses k

/-- TRAPENTRY of a team's launch. -/
def State.trapEntry (s : State) (k : Nat) : DWord := (((s.team? k).bind s.lrec?).map (·.trapEntry)).getD 0

/-- Thread i of team k takes a trap (R204); a thread that halts halts its team (R117). -/
def State.takeTrap (s : State) (k i : Nat) (tr : Trap) : State :=
  let s := s.modThread k i fun t => t.enterTrap tr (s.trapEntry k) s.now
  match s.thread? k i with
  | some t => if t.st == .halted then s.haltTeam k tr.cause else s
  | none => s

/-- Several threads take the same trap (R142). -/
def State.trapAll (s : State) (k : Nat) : List Nat → Trap → State
  | [], _ => s
  | i :: is, tr => (s.takeTrap k i tr).trapAll k is tr

/-- The return from a trap (R206): the thread leaves its routine and becomes READY at a target, whose clause header is given; a new run begins there. -/
def Thread.leaveTrap (t : Thread) (pc clause : DWord) (now : Nat) : Thread :=
  { t with inTrap := false, pc := pc, clause := clause, st := .ready, since := now, used := 0 }

/-- Queue a trap among others by the number of its access: the oldest access first (R201). -/
def laterPut (n : Nat) (tr : Trap) : List (Nat × Trap) → List (Nat × Trap)
  | [] => [(n, tr)]
  | x :: xs => if n < x.1 then (n, tr) :: x :: xs else x :: laterPut n tr xs

/-- A cause of access n that reaches a thread after its word: queued for its next run, or the team halts when the thread has exited (R201, R413). -/
def State.lateTrap (s : State) (k i n : Nat) (tr : Trap) : State :=
  match s.thread? k i with
  | none => s
  | some t =>
    if t.st == .exited then s.haltTeam k tr.cause
    else if t.final then s
    else s.modThread k i fun t => { t with later := laterPut n tr t.later }

/-! ### Flags (R146) -/

/-- The counter that M[22] selects from the clause header (R146, R265); none for 15. -/
def flagOf (hdr : Word) (g : Bool) : Option (Fin 12) :=
  let n := if g then bitsOf hdr.toNat 8 5 else bitsOf hdr.toNat 12 9
  if h : n < 12 then some ⟨n, h⟩ else none

/-- The counter can take one more (R146). -/
def Thread.flagRoom (t : Thread) : Option (Fin 12) → Bool
  | none => true
  | some f => t.flags[f] != 63

/-- Count a flag up or down. -/
def Thread.flagUp (t : Thread) : Option (Fin 12) → Thread
  | none => t
  | some f => { t with flags := t.flags.set f (t.flags[f] + 1) }
def Thread.flagDown (t : Thread) : Option (Fin 12) → Thread
  | none => t
  | some f => { t with flags := t.flags.set f (t.flags[f] - 1) }

/-- Every counter that the WAIT mask of a header names is zero (R136, R265). -/
def Thread.waitOk (t : Thread) (hdr : Word) : Bool :=
  (List.finRange 12).all fun n => !hdr.getLsbD (13 + n.val) || t.flags[n] == 0

/-! ### The word being issued -/

/-- VA of the word after i in a thread's clause (R268). -/
def Thread.after (t : Thread) (i : Instr) : DWord := t.pc + (if i.long then 8 else 4)

/-- LEN of a header (R265). -/
def hdrLen (h : Word) : Nat := bitsOf h.toNat 31 28

/-- VA of the header after the clause that holds pc (R267, R314). -/
def Thread.nextClause (t : Thread) : DWord := t.clause + BitVec.ofNat 64 (4 * (hdrLen t.hdr + 1))

/-- The pc moves within the clause, or to the header that follows it (R136, R267). -/
def Thread.moveTo (t : Thread) (pc : DWord) : Thread := { t with pc := pc, clause := if pc == t.nextClause then pc else t.clause }

/-- The pc moves to a clause header (R314). -/
def Thread.goto (t : Thread) (target : DWord) : Thread := { t with pc := target, clause := target }

/-- The thread has completed the word i: its pc moves past it (R136). -/
def Thread.step (t : Thread) (i : Instr) : Thread := t.moveTo (t.after i)

/-- The members of team k in the list complete the word i with effect f. -/
def State.finish (s : State) (k : Nat) (is : List Nat) (i : Instr) (f : Thread → Thread) : State :=
  s.modThreads k is fun t => (f t).step i

/-- The first word of an instruction, as TINFO holds it (R205). -/
def wordOf (i : Instr) : Word := (encode i).headD 0

end Sys2Proof.Machine
end

