-- ==== Sys2Proof/Machine/Operands.lean ====
section
/-!
DEFINITION. Operand forms (R270 to R273, R292, R319, R339): the second operand, the registers each word reads and writes, and the checks of a word that is issued (R142, R144, R148, R269).
-/
namespace Sys2Proof.Machine

/-! ### The second operand -/

/-- b as 32 bits (R270, R292). -/
def Thread.b32 (t : Thread) : Src → Word
  | .reg r => t.reg r
  | .imm v => v.signExtend 32
  | .lit v => v
  | .ext r _ => t.reg r

/-- b as 64 bits: a pair, or the immediate or literal sign-extended (R292). -/
def Thread.b64 (t : Thread) : Src → DWord
  | .reg r => t.reg64 r
  | .imm v => v.signExtend 64
  | .lit v => v.signExtend 64
  | .ext r _ => t.reg64 r

/-- LEA's index: b sign-extended to 64 bits, or g[B] extended as FN[3] says (R311). -/
def Thread.leaIndex (t : Thread) : Src → DWord
  | .reg r => (t.reg r).signExtend 64
  | .imm v => v.signExtend 64
  | .lit v => v.signExtend 64
  | .ext r e => if e.fn.getLsbD 3 then (t.reg r).setWidth 64 else (t.reg r).signExtend 64

/-- The extension word, or one of zeros under another M (R271). -/
def srcExt : Src → Ext
  | .ext _ e => e
  | _ => { c := 0, na := false, nb := false, nc := false, aa := false, ab := false, ac := false, sat := false, ro := false, rm := 0, fn := 0 }

/-! ### Registers a word names (R269 check 4) -/

/-- Registers named by one field: the first, how many, and whether the field must be even. -/
structure RegUse where
  r : Reg
  n : Nat
  even : Bool
  deriving DecidableEq, Repr

/-- A single register, a pair, a 128-bit operand. -/
def one (r : Reg) : RegUse := ⟨r, 1, false⟩
def pair (r : Reg) : RegUse := ⟨r, 2, true⟩
def quad (r : Reg) : RegUse := ⟨r, 4, true⟩

/-- The register B of an operand, if it names one. -/
def srcReg : Src → Option Reg
  | .reg r => some r
  | .ext r _ => some r
  | _ => none

/-- The registers that hold an operand of a size (R339). -/
def sized (z : Size) (r : Reg) : RegUse :=
  match z with
  | .b64 => pair r
  | .b128 => quad r
  | _ => one r

/-- An integer type that takes a pair (R331). -/
def itypeWide : IType → Bool
  | .i64 | .n64 => true
  | _ => false

/-- Registers read and registers written. -/
structure Uses where
  src : List RegUse
  dst : List RegUse
  deriving DecidableEq, Repr

/-- g[A], b 32 bits wide, to g[D]. -/
def usesAB (o : Alu) : Uses := ⟨one o.a :: (srcReg o.b).toList.map one, [one o.d]⟩
/-- As usesAB with g[D] read (R292). -/
def usesABD (o : Alu) : Uses := ⟨one o.d :: (usesAB o).src, [one o.d]⟩
/-- As usesAB with c read. -/
def usesABC (o : Alu) : Uses := ⟨(usesAB o).src ++ [one (srcExt o.b).c], [one o.d]⟩
/-- g[A] to g[D]; B is zero and names nothing. -/
def usesA (o : Alu) : Uses := ⟨[one o.a], [one o.d]⟩
/-- Pairs throughout. -/
def uses64 (o : Alu) : Uses := ⟨pair o.a :: (srcReg o.b).toList.map pair, [pair o.d]⟩

/-- The address operand of LDS and STS: an offset, or a pair when PEER = 1 (R345). -/
def peerBit (lit : Option Word) : Bool := match lit with | some w => w.getLsbD 31 | none => false
def usesSpad (o : MemOp) : RegUse := if peerBit o.lit then pair o.a else one o.a

/-- The swap and compare registers of CAS (R347). -/
def casRegs (z : Size) (r : Reg) : RegUse :=
  match z with
  | .b64 => ⟨r, 4, true⟩
  | .b128 => ⟨r, 8, true⟩
  | _ => ⟨r, 2, true⟩

/-- A count register that a literal replaces. -/
def unlessLit (lit : Option Word) (r : Reg) : List RegUse := if lit.isSome then [] else [one r]

/-- The address operand of ACCLD and ACCST (R383). -/
def usesAcc (o : EngOp) : RegUse :=
  match o.lit with
  | some w => if w.getLsbD 31 then one o.d else pair o.d
  | none => pair o.d

/-- A special register's operand (R275). -/
def usesSpecial (b r : Reg) : RegUse :=
  match specialInfo b.toNat with
  | some i => if i.wide then pair r else one r
  | none => one r

/-- The registers that each word reads and writes; nothing for a device step. -/
def usesOf : Instr → Uses
  | .add _ o | .sub _ o | .mullo _ o | .mulhi _ o | .min _ o | .max _ o | .setc _ o | .bfx _ o => usesAB o
  | .mad _ o | .sad _ o | .dp4i8 _ o | .dp2i16 _ o => usesABD o
  | .mulw _ o => ⟨(usesAB o).src, [pair o.d]⟩
  | .madw _ o => ⟨pair o.d :: (usesAB o).src, [pair o.d]⟩
  | .add64 _ o | .sub64 _ o => uses64 o
  | .neg o | .abs o | .not o | .popc o | .clz o | .ctz o | .brev o | .movh o => usesA o
  | .and o | .or o | .xor o | .andn o | .orn o | .shl o | .shr o | .sar o | .rol o => usesAB o
  | .bfi o => usesABD o
  | .tlog o | .shf o | .perm o | .sel o => usesABC o
  | .mov o => ⟨(srcReg o.b).toList.map one, [one o.d]⟩
  | .lea o => ⟨pair o.a :: (srcReg o.b).toList.map one, [pair o.d]⟩
  | .fadd o | .fsub o | .fmul o | .fmin o | .fmax o | .fminn o | .fmaxn o | .fsetc o | .fscale o | .fcpys o => usesAB o
  | .vaddh o | .vmulh o | .vaddb o | .vmulb o | .div o => usesAB o
  | .ffma o | .vfmah o | .vfmab o => usesABC o
  | .frnd o | .fclass o => usesA o
  | .dot2b o | .dot4e _ _ o => usesABD o
  | .pack f o => match f with
    | .e5m2 | .e4m3 | .e2m1 => usesABD o
    | _ => usesAB o
  | .unpk _ o => ⟨[one o.a], [pair o.d]⟩
  | .cvt _ _ o => if (srcExt o.b).dither then usesAB o else usesA o
  | .f2i _ i o => ⟨[one o.a], [if itypeWide i then pair o.d else one o.d]⟩
  | .i2f _ i o => ⟨[if itypeWide i then pair o.a else one o.a], [one o.d]⟩
  | .rcp o | .rsq o | .sqrt o | .ex2 o | .lg2 o | .sin o | .cos o | .tanh o => usesA o
  | .idiv w _ o | .irem w _ o => if w then uses64 o else usesAB o
  | .ld o | .ldacq o => ⟨[pair o.a], [sized o.z o.d]⟩
  | .st o | .strel o | .red o | .redc o => ⟨[pair o.a, sized o.z o.d], []⟩
  | .lds o => ⟨[usesSpad o], [sized o.z o.d]⟩
  | .sts o => ⟨[usesSpad o, sized o.z o.d], []⟩
  | .atom o => ⟨[pair o.a, sized o.z o.d], [sized o.z o.d]⟩
  | .cas o | .cas128 o => ⟨[pair o.a, casRegs o.z o.d], [sized o.z o.d]⟩
  | .pref o | .cwb o | .cinv o => ⟨[pair o.a], []⟩
  | .fence _ => ⟨[], []⟩
  | .maps o => ⟨[one o.a, pair o.d], []⟩
  | .unmaps o | .wbs o => ⟨[one o.a], []⟩
  | .ldh o => ⟨[pair o.a], [one o.d]⟩
  | .sth o => ⟨[pair o.a, one o.d], []⟩
  | .copy o | .mma o => ⟨[one o.a], [one o.d]⟩
  | .scld o | .accwin o | .accz o => ⟨[one o.a, one o.b], []⟩
  | .accld o | .accst o => ⟨[one o.a, one o.b, usesAcc o], []⟩
  | .accrd o => ⟨[one o.a], [⟨o.d, o.b.toNat % 8 + 1, false⟩]⟩
  | .accwr o => ⟨[one o.a, ⟨o.d, o.b.toNat % 8 + 1, false⟩], []⟩
  | .ftest o | .fwait o => ⟨[one o.a], [one o.d]⟩
  | .fcancel o => ⟨[one o.a], []⟩
  | .tbinit o | .tbinitRearm o | .tbarv o | .tbexp o => ⟨one o.a :: unlessLit o.lit o.b, []⟩
  | .tbwait o => ⟨one o.a :: unlessLit o.lit o.b, [one o.d]⟩
  | .stgwait o => ⟨[one o.a, one o.b], [one o.d]⟩
  | .cont o => ⟨[one o.a, one o.b], []⟩
  | .bararv o | .barsync o => ⟨unlessLit o.lit o.a, []⟩
  | .rdv _ | .idemx _ => ⟨[], []⟩
  | .rdvx o => ⟨one o.a :: unlessLit o.lit o.b, [one o.d]⟩
  | .rdvv o | .rdvs o => ⟨[one o.a], [one o.d]⟩
  | .waita o => ⟨[one o.a, one o.b], [one o.d]⟩
  | .launch o => ⟨[pair o.a], [one o.d]⟩
  | .resort o => ⟨[one o.a], []⟩
  | .srd o => ⟨[], [usesSpecial o.b o.d]⟩
  | .swr o => ⟨[usesSpecial o.b o.a], []⟩
  | .trap _ | .tret _ | .brk _ | .nop _ | .dbgmark _ => ⟨[], []⟩
  | .sleep o => ⟨unlessLit o.lit o.a, []⟩
  | .chsel o | .probe o => ⟨[pair o.a], [one o.d]⟩
  | .bra _ | .exit _ => ⟨[], []⟩
  | .bz o | .bnz o | .bltz o | .bgez o => ⟨[one o.a], []⟩
  | .brx o | .ret o => ⟨[pair o.a], []⟩
  | .call o => ⟨[], [pair o.d]⟩
  | .callx o => ⟨[pair o.a], [pair o.d]⟩
  | _ => ⟨[], []⟩

/-- The registers of one use. -/
def RegUse.regs (u : RegUse) : List Reg := (List.range u.n).map fun i => u.r + BitVec.ofNat 7 i

/-- Check 4 of R269 for one field: below REGS, and even where a pair or 128-bit operand is named. -/
def RegUse.ok (regs : Nat) (u : RegUse) : Bool := u.r.toNat + u.n ≤ regs && (!u.even || !u.r.getLsbD 0)

/-- Check 4 of R269. -/
def regsOk (regs : Nat) (i : Instr) : Bool := (usesOf i).src.all (·.ok regs) && (usesOf i).dst.all (·.ok regs)

/-- The source registers whose pending mark does not block (R148, R355, R374, R376). -/
def tokenReg : Instr → Option Reg
  | .movh o => some o.a
  | .sth o => some o.d
  | .ftest o | .fcancel o => some o.a
  | _ => none

/-- All source registers of a word. -/
def srcRegs (i : Instr) : List Reg := ((usesOf i).src.map RegUse.regs).flatten

/-- The source registers whose pending mark blocks: all but the token register itself (R148). -/
def blockRegs (i : Instr) : List Reg :=
  match tokenReg i with
  | none => srcRegs i
  | some r =>
    match i with
    | .sth o => (pair o.a).regs
    | _ => (srcRegs i).filter (· != r)

/-- The token on which a read by this word blocks (R148). -/
def Thread.pendTok (t : Thread) (i : Instr) : Option Word := ((blockRegs i).find? t.isPend).map t.reg

/-! ### Issuing a word (R142, R144, R269 checks 4 and 5) -/

/-- Members that read a pending future block at the word and leave the convoy (R142, R148); the others remain. -/
def State.blockPending (s : State) (k : Nat) (i : Instr) : List Nat → State × List Nat
  | [] => (s, [])
  | m :: ms =>
    match (s.thread? k m).bind (·.pendTok i) with
    | some tok => (s.modThread k m fun t => { t with st := .blocked (.future tok) }).blockPending k i ms
    | none => let (s', r) := s.blockPending k i ms; (s', m :: r)

/-- A member's operands agree with the leader's (R144). -/
def Thread.agrees (t l : Thread) (i : Instr) : Bool := (srcRegs i).all fun r => t.reg r == l.reg r

/-- Members with UCHK = 1 whose operands differ from the leader's take UNIFORM_VIOLATION (R144); the others remain. -/
def State.checkUniform (s : State) (k : Nat) (i : Instr) (l : Thread) : List Nat → State × List Nat
  | [] => (s, [])
  | m :: ms =>
    match s.thread? k m with
    | none => s.checkUniform k i l ms
    | some t =>
      if t.uchk && !t.agrees l i then
        (s.takeTrap k m { cause := cUniform, addr := t.pc, info := wordOf i }).checkUniform k i l ms
      else let (s', r) := s.checkUniform k i l ms; (s', m :: r)

/-- A word that has passed its common checks: its team, the leader, the further members, the header of its clause. -/
structure Issue where
  k : Nat
  lead : Nat
  mates : List Nat
  hdr : Word
  team : Team
  thr : Thread
  /-- The word. -/
  w : Word
  deriving DecidableEq, Repr

/-- All members, leader first. -/
def Issue.all (c : Issue) : List Nat := c.lead :: c.mates

/-- Checks 4 and 5 of R269 and the block of R148 for the word being issued; none: nothing is left to execute. -/
def State.gate (s : State) (i : Instr) : State × Option Issue :=
  match s.cur with
  | none => (s, none)
  | some c =>
    match s.team? c.team with
    | none => (s, none)
    | some tm =>
      match c.tids with
      | [] => (s, none)
      | m :: ms =>
        let ms := if i.uni then ms else []
        if !regsOk (s.lfield tm (·.regs)) i then
          (s.trapAll c.team (m :: ms) { cause := cIllegalRegister, addr := ((s.thread? c.team m).map (·.pc)).getD 0, info := wordOf i }, none)
        else
          let (s, live) := s.blockPending c.team i (m :: ms)
          match live with
          | [] => (s, none)
          | l :: rest =>
            match s.thread? c.team l with
            | none => (s, none)
            | some t =>
              let (s, ok) := s.checkUniform c.team i t rest
              (s, some { k := c.team, lead := l, mates := ok, hdr := c.hdr, team := tm, thr := t, w := wordOf i })

/-- What an INT, FLT or XFN word yields: words for its destination and flags for FPSTAT, or a trap. -/
inductive AluOut where
  | val (ws : List Word) (flags : Word)
  | trap (t : Trap)
  deriving DecidableEq, Repr

/-- A word that writes registers and FPSTAT only (R293, R320): computed once from the leader, given to every member (R142). -/
def State.alu (s : State) (i : Instr) (d : Reg) (f : Thread → AluOut) : State :=
  match s.gate i with
  | (s, none) => s
  | (s, some c) =>
    match f c.thr with
    | .val ws fl => s.finish c.k c.all i fun t => (t.setRegs d ws).orFlags fl
    | .trap tr => s.trapAll c.k c.all tr

end Sys2Proof.Machine
end

