-- ==== Sys2Proof/Machine/Crew.lean ====
section
/-!
DEFINITION. What the threads of one team do together: named barriers (R356 to R359), rendezvous (R360 to R364), RESORT (R150, R151), the exit of a thread (R317), and flags that count down (R146).
-/
namespace Sys2Proof.Machine

/-! ### Named barriers -/

/-- BARRIER_COUNT of a named barrier (R358). -/
def barTrap (pc : DWord) (n : Nat) (cnt : Nat) : Trap where
  cause := cBarrierCount
  addr := pc
  info := BitVec.ofNat 32 (Nat.min cnt 0xFFFF + n % 16 * 2 ^ 16)

/-- One arrival at named barrier n with count cnt (R358): the barrier after it, or none on a mismatch. -/
def NamedBar.arrive (b : NamedBar) (cnt : Nat) : Option NamedBar :=
  if b.arr != 0 && cnt != b.exp.toNat then none
  else
    let exp := if b.arr == 0 then BitVec.ofNat 16 cnt else b.exp
    let arr := b.arr + 1
    if arr == exp then some { exp := exp, arr := 0, phase := !b.phase } else some { exp := exp, arr := arr, phase := b.phase }

/-- Threads that wait for phase p of barrier n to end become READY (R358). -/
def Team.freeBar (t : Team) (n : Nat) (p : Bool) (now : Nat) : Team :=
  { t with threads := t.threads.map fun th => if th.st == .blocked (.barrier n p) then th.wake now else th }

/-- BARARV and BARSYNC once their release prerequisites hold (R358): thread i arrives, and with sync waits for its phase to end. -/
def State.arriveBar (s : State) (k i : Nat) (w : Instr) (n : Fin 16) (cnt : Nat) (sync : Bool) : State :=
  match s.team? k with
  | none => s
  | some t =>
    let b := t.bars[n]
    match b.arrive cnt with
    | none => s.takeTrap k i (barTrap (((t.threads[i]?).map (·.pc)).getD 0) n.val cnt)
    | some b' =>
      let s := s.modTeam k fun t => { t with bars := t.bars.set n b' }
      if b'.phase != b.phase then
        (s.modThread k i fun th => { (th.step w).wake s.now with word := none }).modTeam k fun t => t.freeBar n.val b.phase s.now
      else if sync then s.modThread k i fun th => { th.step w with st := .blocked (.barrier n.val b.phase), word := none }
      else s.modThread k i fun th => { (th.step w).wake s.now with word := none }

/-! ### Rendezvous -/

/-- CREWSIZE of a team (R131). -/
def State.crewSize (s : State) (t : Team) : Nat := 2 ^ s.lfield t (·.crewlog)

/-- The live members of a crew (R360). -/
def Team.liveCrew (t : Team) (size c : Nat) : List Nat :=
  (List.range size).map (c * size + ·) |>.filter fun i => match t.threads[i]? with | some th => !th.final | none => false

/-- Which rendezvous word it is, and the operation of RDVS (R361). -/
def rdvKind : Instr → Nat × Nat
  | .rdv _ => (0, 0)
  | .rdvx _ => (1, 0)
  | .rdvv _ => (2, 0)
  | .rdvs o => (3, o.b.toNat)
  | _ => (4, 0)

/-- One step of RDVS (R362). -/
def rdvOp (op : Nat) (x y : Word) : Word × Word :=
  match op with
  | 0 => (x + y, 0)
  | 1 => (if x.toInt ≤ y.toInt then x else y, 0)
  | 2 => (if x ≤ y then x else y, 0)
  | 3 => (if y.toInt ≤ x.toInt then x else y, 0)
  | 4 => (if y ≤ x then x else y, 0)
  | 5 => (x &&& y, 0)
  | 6 => (x ||| y, 0)
  | 7 => (x ^^^ y, 0)
  | 8 => let r := faddOf .f32 .rne false x.toNat y.toNat; (BitVec.ofNat 32 r.1, r.2)
  | 9 => let r := fminOf .f32 true true x.toNat y.toNat; (BitVec.ofNat 32 r.1, r.2)
  | _ => let r := fminOf .f32 false true x.toNat y.toNat; (BitVec.ofNat 32 r.1, r.2)

/-- The reduction of RDVS over the members in ascending rank, with the flags of its steps (R362). -/
def rdvReduce (op : Nat) : List Word → Word × Word
  | [] => (0, 0)
  | x :: xs => xs.foldl (fun a y => let r := rdvOp op a.1 y; (r.1, a.2 ||| r.2)) (x, 0)

/-- The member of a rank among those that joined. -/
def rdvFind (joins : List RdvJoin) (base r : Nat) : Option RdvJoin := joins.find? fun j => j.tid == base + r

/-- The mask of RDVV (R362). -/
def rdvVote (joins : List RdvJoin) (base : Nat) : Word :=
  joins.foldl (fun (a : Word) j => if j.val != 0 then a ||| (1#32 <<< (j.tid - base)) else a) 0

/-- A thread leaves a rendezvous or collective past its word. -/
def Thread.leave (t : Thread) (w : Instr) (now : Nat) : Thread := { (t.step w).wake now with word := none }

/-- A member receives the result of a completed instance (R362, R363); one that has been stopped meanwhile stays so (R134). -/
def State.rdvGive (s : State) (k base size : Nat) (joins : List RdvJoin) (j : RdvJoin) : State :=
  if ((s.thread? k j.tid).map (·.st)) != some (.blocked .rendezvous) then s
  else
  let pc := ((s.thread? k j.tid).map (·.pc)).getD 0
  let trap (info : Nat) := s.takeTrap k j.tid { cause := cRendezvous, addr := pc, info := BitVec.ofNat 32 info }
  if joins.any fun x => rdvKind x.word != rdvKind j.word then trap 2
  else
    match j.word with
    | .rdvx o =>
      match rdvFind joins base (j.src.toNat % size) with
      | some x => s.modThread k j.tid fun t => (t.setReg o.d x.val).leave j.word s.now
      | none => trap (1 + j.src.toNat % size * 2 ^ 8)
    | .rdvv o => s.modThread k j.tid fun t => (t.setReg o.d (rdvVote joins base)).leave j.word s.now
    | .rdvs o =>
      let r := rdvReduce o.b.toNat (joins.map (·.val))
      s.modThread k j.tid fun t => ((t.setReg o.d r.1).orFlags r.2).leave j.word s.now
    | w => s.modThread k j.tid fun t => t.leave w s.now

/-- Every member that joined receives its result. -/
def State.rdvGiveAll (s : State) (k base size : Nat) (joins : List RdvJoin) : List RdvJoin → State
  | [] => s
  | j :: js => (s.rdvGive k base size joins j).rdvGiveAll k base size joins js

/-- The instance of crew c completes once every live member has joined (R360). -/
def State.tryRdv (s : State) (k c : Nat) : State :=
  match s.team? k with
  | none => s
  | some t =>
    let size := s.crewSize t
    let joins := sortBy (fun a b => a.tid < b.tid) (t.rdvs.getD c [])
    if !joins.isEmpty && (t.liveCrew size c).all fun i => joins.any (·.tid == i) then
      (s.modTeam k fun t => { t with rdvs := t.rdvs.erase c }).rdvGiveAll k (c * size) size joins joins
    else s

/-- A member joins its crew's instance and waits (R360). -/
def State.joinRdv (s : State) (k i : Nat) (w : Instr) (val src : Word) : State :=
  match s.team? k with
  | none => s
  | some t =>
    let c := i / s.crewSize t
    let s := s.modTeam k fun t =>
      { t.modThread i (fun th => { th with st := .blocked .rendezvous, word := none }) with
        rdvs := t.rdvs.put c (t.rdvs.getD c [] ++ [{ tid := i, word := w, val := val, src := src }]) }
    s.tryRdv k c

/-! ### RESORT (R150, R151) -/

/-- A home position: copy index, quadrant, lane (R150). -/
abbrev Position := Nat × BitVec 2 × BitVec 5

/-- The positions of the participants, each with the number of those already listed at the same quadrant and lane. -/
def positions : List (BitVec 2 × BitVec 5) → List (BitVec 2 × BitVec 5) → List Position
  | _, [] => []
  | seen, p :: ps => (seen.countP (· == p), p) :: positions (p :: seen) ps

/-- Ascending order of (copy index, quadrant, lane). -/
def posLt (a b : Position) : Bool :=
  a.1 < b.1 || (a.1 == b.1 && (a.2.1 < b.2.1 || (a.2.1 == b.2.1 && a.2.2 < b.2.2)))

/-- Registers outside the live mask become undefined and lose their pending mark (R151): each takes a free value. -/
def Thread.keepLive (t : Thread) (mask : Word) (free : Nat) : Thread :=
  (List.range 128).foldl (fun t n =>
    if mask.getLsbD (n / 4) then t else t.setReg (BitVec.ofNat 7 n) (Config.freeWord (free + n))) t

/-- A participant leaves the collective at its new position (R151). -/
def State.resortGive (s : State) (k : Nat) (j : ResortJoin) (w : Instr) (p : BitVec 2 × BitVec 5) : State :=
  let s' := s.modThread k j.tid fun t => { (t.keepLive j.mask s.free).leave w s.now with quad := p.1, lane := p.2 }
  { s' with free := s.free + 128 }

/-- Give the sorted participants the sorted positions. -/
def State.resortAll (s : State) (k : Nat) : List ResortJoin → List Position → State
  | j :: js, p :: ps =>
    let w := ((s.thread? k j.tid).bind (·.word)).getD (.resort { u := false, g := false, lit := some j.mask, d := 0, a := 0, b := 0 })
    (s.resortGive k j w p.2).resortAll k js ps
  | _, _ => s

/-- Complete RESORT for the participants (R150). -/
def State.resortDone (s : State) (k : Nat) (js : List ResortJoin) : State :=
  let at' := js.filterMap fun j => (s.thread? k j.tid).map fun t => (t.quad, t.lane)
  let ps := sortBy posLt (positions [] at')
  let js := sortBy (fun a b => a.key < b.key || (a.key == b.key && a.tid < b.tid)) js
  s.resortAll k js ps

/-- What a thread gives that executes RESORT in its trap routine, alone, once every flag is zero (R150). -/
def Thread.alone (t : Thread) (i : Nat) : Option ResortJoin :=
  match t.word with
  | some (.resort o) =>
    if t.st == .blocked .resort && t.inTrap && t.flags.all (· == 0) then some { tid := i, key := t.reg o.a, mask := o.lit.getD 0 } else none
  | _ => none

/-- RESORT completes for threads that execute it alone (R150). -/
def State.resortAlone (s : State) (k : Nat) : List Nat → State
  | [] => s
  | i :: is =>
    match (s.thread? k i).bind (·.alone i) with
    | some j => (s.resortDone k [j]).resortAlone k is
    | none => s.resortAlone k is

/-- The collective completes when every thread that is neither final nor spawned since it began has arrived, with every flag at zero (R150). -/
def State.tryResort (s : State) (k : Nat) : State :=
  match s.team? k with
  | none => s
  | some t =>
    let s := s.resortAlone k (List.range t.threads.length)
    let arrived := t.resorts.filter fun j => match t.threads[j.tid]? with | some th => th.flags.all (· == 0) | none => false
    let need := (List.range t.threads.length).filter fun i => match t.threads[i]? with | some th => !th.final && !t.fresh.contains i | none => false
    if !t.resorts.isEmpty && need.all fun i => arrived.any (·.tid == i) then
      (s.modTeam k fun t => { t with resorts := t.resorts.filter fun j => !arrived.any (·.tid == j.tid), fresh := [] }).resortDone k arrived
    else s

/-! ### Flags that count down (R146) -/

/-- The counter falls, and a thread whose WAIT is satisfied by it becomes READY (R134). -/
def Thread.countDown (t : Thread) (f : Option (Fin 12)) (now : Nat) : Thread :=
  let t := t.flagDown f
  if t.st == .waiting .flags && t.waitOk t.hdr then t.wake now else t

/-- The counters of the members fall (R142, R146). -/
def State.flagsDown (s : State) (k : Nat) (is : List Nat) (f : Option (Fin 12)) : State :=
  (s.modThreads k is fun t => t.countDown f s.now).tryResort k

/-! ### Exit (R317) -/

/-- The accesses and log entries of a thread that exits have memory effects only from now on (R317). -/
def State.orphan (s : State) (k i : Nat) : State :=
  { s with
    reqs := s.reqs.map fun r => if r.team == k && (r.tid :: r.mates).contains i && !r.dead.contains i then { r with dead := i :: r.dead } else r
    sideLog := s.sideLog.map fun e => if e.team == k && e.tid == i then { e with gone := true } else e }

/-- Thread i becomes EXITED; its crew and its team's collective need it no longer, and a cause it has not taken halts its team (R201, R360, R150). -/
def State.exitThread (s : State) (k i : Nat) : State :=
  let later := ((s.thread? k i).map (·.later)).getD []
  let s := (s.orphan k i).modThread k i fun t => { t with st := .exited, word := none, mates := [], later := [], failed := none }
  match later with
  | tr :: _ => s.haltTeam k tr.2.cause
  | [] =>
    match s.team? k with
    | none => s
    | some t => (s.tryRdv k (i / s.crewSize t)).tryResort k

end Sys2Proof.Machine
end

