-- ==== Sys2Proof/Machine/Crypto.lean ====
section
/-!
DEFINITION. SHA3-256, which R58 names, as FIPS 202 gives it, and AES-256-XTS, which R53 names, as FIPS 197 and IEEE 1619 give them (log entry 10).
-/
namespace Sys2Proof.Machine

/-! ### SHA3-256 -/

/-- Rotation offset of lane (x, y), at index x + 5y. -/
def rhoOffsets : List Nat := [0, 1, 62, 28, 27, 36, 44, 6, 55, 20, 3, 10, 43, 25, 39, 41, 45, 15, 21, 8, 18, 2, 61, 56, 14]

/-- The constants of the 24 rounds. -/
def iotaConstants : List DWord :=
  [0x0000000000000001, 0x0000000000008082, 0x800000000000808A, 0x8000000080008000, 0x000000000000808B, 0x0000000080000001, 0x8000000080008081, 0x8000000000008009] ++
  [0x000000000000008A, 0x0000000000000088, 0x0000000080008009, 0x000000008000000A, 0x000000008000808B, 0x800000000000008B, 0x8000000000008089, 0x8000000000008003] ++
  [0x8000000000008002, 0x8000000000000080, 0x000000000000800A, 0x800000008000000A, 0x8000000080008081, 0x8000000000008080, 0x0000000080000001, 0x8000000080008008]

/-- Lane (x, y) of a Keccak state of 25 lanes; coordinates count modulo 5. -/
def lane (a : List DWord) (x y : Nat) : DWord := a.getD (x % 5 + 5 * (y % 5)) 0

/-- Lanes from a function of their coordinates. -/
def lanes (f : Nat → Nat → DWord) : List DWord := (List.range 25).map fun i => f (i % 5) (i / 5)

/-- theta: each lane takes the parity of two neighbouring columns. -/
def theta (a : List DWord) : List DWord :=
  let c := (List.range 5).map fun x => lane a x 0 ^^^ lane a x 1 ^^^ lane a x 2 ^^^ lane a x 3 ^^^ lane a x 4
  lanes fun x y => lane a x y ^^^ c.getD ((x + 4) % 5) 0 ^^^ (c.getD ((x + 1) % 5) 0).rotateLeft 1

/-- rho and pi: lane (x, y) turns and moves to (y, 2x + 3y). -/
def rhoPi (a : List DWord) : List DWord :=
  lanes fun x y => (lane a (x + 3 * y) x).rotateLeft (rhoOffsets.getD ((x + 3 * y) % 5 + 5 * x) 0)

/-- chi: each lane takes in the two that follow it in its row. -/
def chi (a : List DWord) : List DWord := lanes fun x y => lane a x y ^^^ (~~~(lane a (x + 1) y) &&& lane a (x + 2) y)

/-- iota: a constant into lane (0, 0). -/
def iota : DWord → List DWord → List DWord
  | _, [] => []
  | c, l :: r => (l ^^^ c) :: r

/-- The permutation of 24 rounds. -/
def keccak (a : List DWord) : List DWord := iotaConstants.foldl (fun a c => iota c (chi (rhoPi (theta a)))) a

/-- The padding of a message of n bytes to a multiple of 136. -/
def sha3Pad (n : Nat) : List Byte :=
  let k := 136 - n % 136
  if k == 1 then [0x86] else 0x06 :: (List.replicate (k - 2) 0 ++ [0x80])

/-- Take in one block of 136 bytes. -/
def absorb (a : List DWord) (b : List Byte) : List DWord :=
  keccak (lanes fun x y => lane a x y ^^^ if x + 5 * y < 17 then BitVec.ofNat 64 (fieldAt b (8 * (x + 5 * y)) 8) else 0)

/-- The state after n blocks. -/
def sponge : Nat → List DWord → List Byte → List DWord
  | 0, a, _ => a
  | n + 1, a, bs => sponge n (absorb a (bs.take 136)) (bs.drop 136)

/-- SHA3-256 of a byte list; byte 0 of the digest is its least significant byte here. -/
def sha3 (bs : List Byte) : BitVec 256 :=
  let a := sponge (bs.length / 136 + 1) (List.replicate 25 0) (bs ++ sha3Pad bs.length)
  lane a 3 0 ++ lane a 2 0 ++ lane a 1 0 ++ lane a 0 0

/-! ### AES-256 -/

/-- Product in GF(2^8) modulo x^8 + x^4 + x^3 + x + 1, by the bits of b from the top. -/
def gmul (a b : Byte) : Byte :=
  (List.range 8).foldl (fun r i => (r <<< 1) ^^^ (if r.msb then 0x1B else 0) ^^^ (if b.getLsbD (7 - i) then a else 0)) 0

/-- The inverse in GF(2^8), b^254; 0 for 0. -/
def ginv (b : Byte) : Byte := ((List.range 7).foldl (fun (x : Byte × Byte) _ => let p := gmul x.1 x.1; (p, gmul x.2 p)) (b, 1)).2

/-- SubBytes of one byte, and its inverse. -/
def subByte (b : Byte) : Byte :=
  let i := ginv b
  i ^^^ i.rotateLeft 1 ^^^ i.rotateLeft 2 ^^^ i.rotateLeft 3 ^^^ i.rotateLeft 4 ^^^ 0x63
def subByteInv (b : Byte) : Byte := ginv (b.rotateLeft 1 ^^^ b.rotateLeft 3 ^^^ b.rotateLeft 6 ^^^ 0x05)

/-- Byte-wise sum. -/
def xorBytes (a b : List Byte) : List Byte := List.zipWith (· ^^^ ·) a b

/-- The next n words of the key schedule, whose number i is given; ws holds the words so far, newest first. -/
def keyWords : Nat → Nat → List (List Byte) → List (List Byte)
  | 0, _, ws => ws
  | n + 1, i, ws =>
    let t := ws.headD []
    let t := if i % 8 == 0 then xorBytes ((t.drop 1 ++ t.take 1).map subByte) [BitVec.ofNat 8 (2 ^ (i / 8 - 1)), 0, 0, 0]
      else if i % 8 == 4 then t.map subByte else t
    keyWords n (i + 1) (xorBytes (ws.getD 7 []) t :: ws)

/-- The 15 round keys of a key of 32 bytes. -/
def roundKeys (key : List Byte) : List (List Byte) :=
  let ws := (keyWords 52 8 ((List.range 8).map fun i => (key.drop (4 * i)).take 4).reverse).reverse
  (List.range 15).map fun r => ((ws.drop (4 * r)).take 4).flatten

/-- ShiftRows: row r of the state, byte r of each column, turns by r columns; and its inverse. -/
def shiftRows (s : List Byte) : List Byte := (List.range 16).map fun i => s.getD ((i + 4 * (i % 4)) % 16) 0
def shiftRowsInv (s : List Byte) : List Byte := (List.range 16).map fun i => s.getD ((i + 12 * (i % 4)) % 16) 0

/-- Every column times a circulant matrix whose first row is m. -/
def mixWith (m : List Byte) (s : List Byte) : List Byte :=
  (List.range 16).map fun i => (List.range 4).foldl (fun r j => r ^^^ gmul (m.getD ((j + 4 - i % 4) % 4) 0) (s.getD (4 * (i / 4) + j) 0)) 0

/-- One block of 16 bytes enciphered under a key of 32. -/
def aesEncrypt (key b : List Byte) : List Byte :=
  let ks := roundKeys key
  let s := ((ks.drop 1).take 13).foldl (fun s k => xorBytes (mixWith [2, 3, 1, 1] (shiftRows (s.map subByte))) k) (xorBytes b (ks.headD []))
  xorBytes (shiftRows (s.map subByte)) (ks.getD 14 [])

/-- One block deciphered. -/
def aesDecrypt (key b : List Byte) : List Byte :=
  let ks := roundKeys key
  let s := ((ks.drop 1).take 13).reverse.foldl (fun s k => mixWith [14, 11, 13, 9] (xorBytes ((shiftRowsInv s).map subByteInv) k)) (xorBytes b (ks.getD 14 []))
  xorBytes ((shiftRowsInv s).map subByteInv) (ks.headD [])

/-! ### XTS over a sector of 32 bytes (R53) -/

/-- The tweak of the next block. -/
def nextTweak (t : List Byte) : List Byte :=
  let v := leNat t * 2
  leBytes 16 (if v < 2 ^ 128 then v else (v - 2 ^ 128) ^^^ 0x87)

/-- The data key and the tweak key of a key pair, laid out as KEY_LOAD gives them (R109). -/
def dataKey (p : BitVec 512) : List Byte := leBytes 32 p.toNat
def tweakKey (p : BitVec 512) : List Byte := leBytes 32 (p.toNat / 2 ^ 256)

/-- A sector through a block cipher under its tweaks. -/
def xtsWith (cipher : List Byte → List Byte → List Byte) (p : BitVec 512) (n : Nat) (bs : List Byte) : List Byte :=
  let t := aesEncrypt (tweakKey p) (leBytes 16 n)
  let u := nextTweak t
  xorBytes (cipher (dataKey p) (xorBytes (bs.take 16) t)) t ++ xorBytes (cipher (dataKey p) (xorBytes (bs.drop 16) u)) u

/-- The ciphertext of sector number n (R53). -/
def xtsEncrypt (p : BitVec 512) (n : Nat) (bs : List Byte) : List Byte := xtsWith aesEncrypt p n bs

/-- The plaintext of sector number n (R53). -/
def xtsDecrypt (p : BitVec 512) (n : Nat) (bs : List Byte) : List Byte := xtsWith aesDecrypt p n bs

end Sys2Proof.Machine
end

