-- ==== Sys2Proof/Machine/Recode.lean ====
section
/-!
DEFINITION. BF16 recoding of a line of 128 bytes (R52): which lines have an image, the image, and the line that an image holds.
-/
namespace Sys2Proof.Machine

/-- The 64 BF16 fields of a line. -/
def bf16Fields (bs : List Byte) : List Nat := (List.range 64).map fun k => fieldAt bs (2 * k) 2

/-- The exponent field of a BF16 value. -/
def bf16Exp (v : Nat) : Nat := bitsOf v 14 7

/-- E0: the smallest exponent field. -/
def leastExp (vs : List Nat) : Nat := vs.foldl (fun e v => Nat.min e (bf16Exp v)) 255

/-- Every exponent field lies in E0 to E0 + 3. -/
def recodable (bs : List Byte) : Bool := (bf16Fields bs).all fun v => bf16Exp v ≤ leastExp (bf16Fields bs) + 3

/-- The ten bits of a field: sign, exponent offset, fraction. -/
def recodeField (e0 v : Nat) : Nat := bitsOf v 15 15 * 2 ^ 9 + (bf16Exp v - e0) % 4 * 2 ^ 7 + bitsOf v 6 0

/-- The field that ten bits hold. -/
def unrecodeField (e0 x : Nat) : Nat := bitsOf x 9 9 * 2 ^ 15 + (e0 + bitsOf x 8 7) % 256 * 2 ^ 7 + bitsOf x 6 0

/-- The fields from bit 0 on, ten bits each. -/
def packFields (e0 : Nat) : List Nat → Nat
  | [] => 0
  | v :: vs => recodeField e0 v + 2 ^ 10 * packFields e0 vs

/-- The image of a line: the header, the fields and zeros, as three sectors. -/
def recode (bs : List Byte) : List Byte :=
  let e0 := leastExp (bf16Fields bs)
  leBytes 96 (0x0100 + e0 + 2 ^ 16 * packFields e0 (bf16Fields bs))

/-- An image carries its format marker. -/
def marked (img : List Byte) : Bool := img.getD 1 0 == 0x01

/-- The line that an image holds. -/
def unrecode (img : List Byte) : List Byte :=
  let v := leNat img
  (List.range 64).flatMap fun k => leBytes 2 (unrecodeField (v % 2 ^ 8) (bitsOf v (16 + 10 * k + 9) (16 + 10 * k)))

end Sys2Proof.Machine
end

