-- ==== Sys2Proof/Machine/Phys.lean ====
section
/-!
DEFINITION. Package physical memory: regions, the tower address map, encryption per sector, poison, and what the host does not yet see (R19, R37, R46, R53, R54, R81, R97, R99, R105).
-/
namespace Sys2Proof.Machine

/-! ### Regions -/

/-- PA[51:48] and PA[47:0]. -/
def paRegion (pa : Nat) : Nat := pa / 2 ^ 48
def paLocal (pa : Nat) : Nat := pa % 2 ^ 48

/-- The size of a bank set: 3 GiB (R37). -/
def setBytes : Nat := 3 * 2 ^ 30

/-- The tower t of the package; tower 0 for a number that names none. -/
def State.tower (s : State) (t : Nat) : Tower := if h : t < 12 then s.towers[t] else s.towers[0]

/-- Change tower t. -/
def State.modTower (s : State) (t : Nat) (f : Tower → Tower) : State :=
  if h : t < 12 then { s with towers := s.towers.set t (f s.towers[t]) } else s

/-- Live banks of a pseudo-channel under a list of condemned banks (R48). -/
def liveBanks (condemned : List Nat) (pc : Nat) : Nat :=
  sumNat ((List.range 16).map fun b => if condemned.contains (pc * 16 + b) then 0 else 1)

/-- The least number of live banks over the pseudo-channels (R48). -/
def minLive (condemned : List Nat) : Nat :=
  if condemned.isEmpty then 16 else (List.range 64).foldl (fun m pc => Nat.min m (liveBanks condemned pc)) 16

/-- MEMCAP.SETS and MEMCAP.NEXTSETS (R48). -/
def Tower.sets (t : Tower) : Nat := minLive t.condemnedEff
def Tower.nextSets (t : Tower) : Nat := minLive t.condemned

/-- The bank of a DRAM address: its index in BANKMAP (R37, R38, R48). -/
def Tower.sel (t : Tower) (pa : Nat) : Nat :=
  (bitsOf pa 12 7) ^^^ ((bitsOf pa 18 13) &&& (bitsOf t.chash.toNat 5 0)) ^^^ ((bitsOf pa 24 19) &&& (bitsOf t.chash.toNat 13 8))
def Tower.bankOf (t : Tower) (ta : Nat) : Nat :=
  let pc := t.sel ta
  let live := (List.range 16).filter fun b => !t.condemnedEff.contains (pc * 16 + b)
  pc * 16 + live.getD (ta / setBytes) 0

/-- The pinned-slice window that a tower-local address falls in, and the offset within it (R19). -/
def pinnedWindow (ta : Nat) : Option (Nat × Nat) :=
  if 0x080000000000 ≤ ta && ta < 0x080000000000 + 4 * 0x10000000 then
    some ((ta - 0x080000000000) / 0x10000000, (ta - 0x080000000000) % 0x10000000)
  else none

/-- A pinned slice holds 192 MiB (R19). -/
def pinnedBytes : Nat := 192 * 2 ^ 20

/-- The address lies in tower DRAM under the bank sets in effect (R37). -/
def State.inDram (s : State) (pa : Nat) : Bool := paRegion pa < 12 && paLocal pa < (s.tower (paRegion pa)).sets * setBytes

/-- The address lies in a pinned slice in pinned mode (R19). -/
def State.inPinned (s : State) (pa : Nat) : Bool :=
  paRegion pa < 12 &&
  match pinnedWindow (paLocal pa) with
  | some (w, o) => (s.tower (paRegion pa)).pinned.getLsbD w && o < pinnedBytes
  | none => false

/-- The bank and row of a DRAM address (R37, R47; log entry 48). -/
def Tower.rowAt (t : Tower) (ta : Nat) : Nat × Nat := (t.bankOf ta, Config.rowOf (ta % setBytes / 8192))

/-- An address lies in a row that needs repair and has no spare (R47). -/
def State.inBadRow (s : State) (pa : Nat) : Bool :=
  let t := s.tower (paRegion pa)
  !t.badRows.isEmpty && s.inDram pa && t.badRows.contains (t.rowAt (paLocal pa))

/-- Far-tier decoder n: enabled, with its range (R81). -/
def Fabric.decodes (f : Fabric) (n : Nat) (o : Nat) : Bool :=
  if h : n < 4 then
    let d := f.fardec[n].toNat
    let b := f.farbase[n].toNat % 2 ^ 13 * 2 ^ 30
    bitOf d 31 && b ≤ o && o < b + d % 2 ^ 14 * 2 ^ 30
  else false

/-- The decoder that maps an offset of region 0xD (R81): the lowest-numbered enabled one. -/
def Fabric.decoder (f : Fabric) (o : Nat) : Option Nat := (List.range 4).find? fun n => f.decodes n o

/-- The CXL port and the device address of an offset of region 0xD (R81). -/
def Fabric.farPort (f : Fabric) (o : Nat) : Option (Nat × Nat) :=
  (f.decoder o).map fun n =>
    let d := (if h : n < 4 then f.fardec[n] else 0).toNat
    let b := (if h : n < 4 then f.farbase[n] else 0).toNat % 2 ^ 13 * 2 ^ 30
    let ways := 2 ^ (bitsOf d 30 29)
    let gran := match bitsOf d 28 27 with | 0 => 2 ^ 12 | 1 => 2 ^ 16 | _ => 2 ^ 21
    ((bitsOf d 23 22 + (o - b) / gran % ways) % 4, (o - b) / (gran * ways) * gran + (o - b) % gran)

/-- The check of R19, R37, R81, R105 and R99 on a local address: the TINFO code of ACCESS_VIOLATION, if it fails. -/
def State.paCheck (s : State) (pa : Nat) : Option Nat :=
  let r := paRegion pa
  let o := paLocal pa
  if r < 12 then
    match pinnedWindow o with
    | some _ => if s.inPinned pa then none else some 8
    | none => if s.inDram pa then none else some 4
  else if r == 0xC then (if o < s.hub.units.toNat * 2 ^ 26 then none else some 4)
  else if r == 0xD then (if (s.fab.decoder o).isSome then none else some 4)
  else if r == 0xE then (if bitsOf o 47 46 ≤ 1 then none else some 4)
  else some 4

/-- Host memory on the coherent route (R105). -/
def hostCoherent (pa : Nat) : Bool := paRegion pa == 0xE && bitsOf pa 47 46 == 0

/-- The host's own byte lies at the address of the non-coherent route; the hub's copy of a line, while it holds one, at that of the coherent route (R105; log entry 17). -/
def hostOwn (pa : Nat) : Nat := if hostCoherent pa then pa + 2 ^ 46 else pa

/-- Where the bytes of a far-tier address lie: its port and device address, as an address of the model (R81; log entry 47). -/
def State.farSeat (s : State) (pa : Nat) : Nat :=
  if paRegion pa == 0xD then
    match s.fab.farPort (paLocal pa) with
    | some (p, d) => 0xD * 2 ^ 48 + p * 2 ^ 44 + d
    | none => pa
  else pa

/-- Where the bytes lie that an access to an address reaches (R81, R105). -/
def State.seat (s : State) (pa : Nat) : Nat :=
  if hostCoherent pa && (s.mem.hubHost.get? (pa / 128)).isNone then hostOwn pa else s.farSeat pa

/-- The memory is encrypted: tower DRAM and the far tier (R53). -/
def State.encrypted (s : State) (pa : Nat) : Bool := s.inDram pa || paRegion pa == 0xD

/-! ### Keys (R53, R54, R56) -/

/-- The generation of a key ID. -/
def Hub.gen (h : Hub) (k : Nat) : Nat := Table.getD h.keyGen k 0

/-- The KEYPOL entry of a key ID (R56). -/
def Hub.policy (h : Hub) (k : Nat) : Nat :=
  if hk : k / 16 < 64 then bitsOf (h.keypol[k / 16]).toNat (2 * (k % 16) + 1) (2 * (k % 16)) else 0

/-- The key ID is loaded (R53, R109). -/
def Hub.loaded (h : Hub) (k : Nat) : Bool := k == 0 || (h.keys.get? k).isSome

/-- An access under a key ID is allowed at an address (R54). -/
def Hub.keyOk (h : Hub) (k pa : Nat) : Bool :=
  h.loaded k && (h.policy k == 1 || (h.policy k == 2 && paRegion pa != 0xD))

/-- What a sector not listed stands under: key ID 0 in its region's base generation (R43, R53). -/
def MemSys.baseOf (m : MemSys) (sector : Nat) : Nat × Nat := (0, m.bases.getD (paRegion (32 * sector)) 0)

/-- The key and generation a sector was written under (R53). -/
def MemSys.keyOf (m : MemSys) (sector : Nat) : Nat × Nat := m.sectorKey.getD sector (m.baseOf sector)

/-- The plaintext bytes of a sector as last written. -/
def MemSys.sector (m : MemSys) (sector : Nat) : List Byte := Memory.readN m.bytes (32 * sector) 32

/-- The key pair of a generation of an ID (R53, R109). -/
def Hub.pair (h : Hub) (k : Nat × Nat) : BitVec 512 :=
  if k.1 == 0 then Config.entropyPair k.2 else ((h.keyPast.find? fun x => x.1 == k.1 && x.2.1 == k.2).map (·.2.2)).getD 0

/-- What stands encrypted under one key as sector m, read under another as sector n (R54). -/
def State.garble (s : State) (wr rd : Nat × Nat) (m n : Nat) (bs : List Byte) : List Byte := xtsDecrypt (s.hub.pair rd) n (xtsEncrypt (s.hub.pair wr) m bs)

/-- A line of tower DRAM is stored recoded (R52). -/
def State.isRecoded (s : State) (line : Nat) : Bool := s.mem.recoded.contains line && s.inDram (128 * line)

/-- The image of a recoded line as its sectors read under a key (R52, R53: recoded first, encrypted second). -/
def State.imageUnder (s : State) (k line : Nat) : List Byte :=
  let img := recode (Memory.readN s.mem.bytes (128 * line) 128)
  (List.range 3).flatMap fun i => s.garble (s.mem.keyOf (4 * line + i)) (k, s.hub.gen k) (4 * line + i) (4 * line + i) ((img.drop (32 * i)).take 32)

/-- A recoded line that a key other than its own reads without its marker: it is uncorrectable (R52). -/
def State.unmarked (s : State) (k line : Nat) : Bool := s.isRecoded line && s.mem.keyOf (4 * line) != (k, s.hub.gen k) && !marked (s.imageUnder k line)

/-- The PA sector as which a sector was last written (R53, R81). -/
def MemSys.writtenAs (m : MemSys) (sector pa : Nat) : Nat := m.farPa.getD sector pa

/-- A sector of encrypted memory as a key other than its own, or a PA other than its own, reads it (R52 to R54). -/
def State.sectorUnder (s : State) (k sector pa : Nat) : List Byte :=
  if s.isRecoded (sector / 4) then ((unrecode (s.imageUnder k (sector / 4))).drop (32 * (sector % 4))).take 32
  else s.garble (s.mem.keyOf sector) (k, s.hub.gen k) (s.mem.writtenAs sector pa) pa (s.mem.sector sector)

/-- A sector reads otherwise than it was written: under another key or generation, or as another PA (R54, R81). -/
def State.foreign (s : State) (k sector pa : Nat) : Bool :=
  s.encrypted (32 * sector) && (s.mem.keyOf sector != (k, s.hub.gen k) || s.mem.writtenAs sector pa != pa)

/-- One byte as read under a key: plain, or garbled when its sector was written otherwise (R54). -/
def State.byteUnder (s : State) (k pa : Nat) : Byte :=
  let a := s.seat pa
  if s.foreign k (a / 32) (pa / 32) then (s.sectorUnder k (a / 32) (pa / 32)).getD (a % 32) 0
  else Memory.read s.mem.bytes a

/-- n bytes as read under a key. -/
def State.readUnder (s : State) (k a n : Nat) : List Byte := (List.range n).map fun i => s.byteUnder k (a + i)

/-- Sectors become poisoned. -/
def State.addPoison (s : State) (xs : List Nat) : State :=
  { s with mem := { s.mem with poison := s.mem.poison ++ xs.filter fun x => !s.mem.poison.contains x } }

/-- The sectors of a line. -/
def lineSectors (line : Nat) : List Nat := [4 * line, 4 * line + 1, 4 * line + 2, 4 * line + 3]

/-- A recoded line is read whole under a key and stands plainly under it: what a write of part of it does first (R52). -/
def State.unpack (s : State) (k line : Nat) : State :=
  let s := if s.unmarked k line then s.addPoison (lineSectors line) else s
  { s with mem := { s.mem with
      bytes := Memory.writeN s.mem.bytes (128 * line) (s.readUnder k (128 * line) 128)
      sectorKey := (lineSectors line).foldl (fun t x => t.putD (s.mem.baseOf x) x (k, s.hub.gen k)) s.mem.sectorKey
      recoded := s.mem.recoded.filter fun x => x != line } }

/-- The lines that n bytes from a touch. -/
def linesAt (a n : Nat) : List Nat := if n == 0 then [] else (List.range ((a + n - 1) / 128 - a / 128 + 1)).map fun i => a / 128 + i

/-! ### What the host does not yet see, and what device copies still hold (R94, R97, R98) -/

/-- DRAM of a tower in window mode (R94). -/
def State.windowed (s : State) (a : Nat) : Bool := s.inDram a && !s.hub.hbiasen.getLsbD (paRegion a)

/-- Device copies of lines lo to hi - 1, by their first bytes, have been written back to the hub (R97). -/
def MemSys.settle (m : MemSys) (lo hi : Nat) : MemSys :=
  { m with hidden := m.hidden.dropRange lo hi, hiddenKey := m.hiddenKey.dropRange (lo / 32) (hi / 32) }

/-- What the caches of one tower hold has been written back to the hub (R25, R97). -/
def MemSys.settleTower (m : MemSys) (t : Nat) : MemSys :=
  { m with
    hidden := m.hidden.filter fun e => e.2.tower != t
    hiddenKey := m.hiddenKey.filter fun e => !m.hidden.any fun h => h.1 / 32 == e.1 && h.2.tower == t }

/-- A tower's caches hold no more those of what the host has replaced in a byte that come after the first j, the newest first (R97). -/
def staleLess (t j : Nat) (l : List Stale) : List Stale :=
  l.take j ++ ((l.drop j).map fun x => { x with towers := x.towers &&& ~~~(1#12 <<< t) }).filter fun x => x.towers != 0

/-- The same for the bytes in lo to hi - 1. -/
def MemSys.staleDrop (m : MemSys) (t j lo hi : Nat) : MemSys :=
  { m with stale := (m.stale.map fun e => (e.1, if lo ≤ e.1 && e.1 < hi then staleLess t j e.2 else e.2)).filter fun e => !e.2.isEmpty }

/-- The caches of one tower hold no copy of what the host has replaced (R25). -/
def MemSys.dropTower (m : MemSys) (t : Nat) : MemSys :=
  { m with stale := (m.stale.map fun e => (e.1, staleLess t 0 e.2)).filter fun e => !e.2.isEmpty }

/-- Device copies of lines lo to hi - 1, by their first bytes, have been written back and dropped (R25, R43, R95). -/
def MemSys.recall (m : MemSys) (lo hi : Nat) : MemSys := { m.settle lo hi with stale := m.stale.dropRange lo hi }

/-- Device copies of lines lo to hi - 1, by their first bytes, are dropped with what is dirty in them (R50): memory is as it stands at the hub. -/
def MemSys.discard (m : MemSys) (lo hi : Nat) : MemSys :=
  let mine := fun (a : Nat) => decide (lo ≤ a) && decide (a < hi)
  { m.recall lo hi with
    bytes := (m.hidden.filter fun e => mine e.1).foldl (fun b e => Memory.write b e.1 e.2.byte) m.bytes
    sectorKey := (m.hiddenKey.filter fun e => mine (32 * e.1)).foldl (fun t e => t.putD (m.baseOf e.1) e.1 e.2) m.sectorKey }

/-- Write bytes back to the hub line by line. -/
def MemSys.settleLines (m : MemSys) : List Nat → MemSys
  | [] => m
  | l :: ls => (m.settle (128 * l) (128 * l + 128)).settleLines ls

/-- A device write of one byte by an agent of a tower stays invisible to the host until it is written back to the hub (R97). -/
def State.hide (s : State) (t a : Nat) (old : Byte) : MemSys :=
  let m := s.mem
  if s.windowed a then { m with hidden := m.hidden.put a { byte := ((m.hidden.get? a).map (·.byte)).getD old, tower := t } } else m

/-- A sector takes another key in a device copy: at the hub it stands as it did (R54, R97). -/
def State.hideSector (s : State) (t sector : Nat) : MemSys :=
  if s.windowed (32 * sector) then
    let m := s.mem.settle (sector / 4 * 128) (sector / 4 * 128 + 128)
    let old := m.keyOf sector
    { m with
      hidden := (List.range 32).foldl (fun h i => h.put (32 * sector + i) { byte := Memory.read m.bytes (32 * sector + i), tower := t }) m.hidden
      hiddenKey := m.hiddenKey.put sector old }
  else s.mem

/-- Memory as it stands at the hub in one line: what device copies hold is not yet there (R97). -/
def MemSys.hubView (m : MemSys) (line : Nat) : MemSys :=
  { m with
    bytes := (m.hidden.filter fun e => e.1 / 128 == line).foldl (fun b e => Memory.write b e.1 e.2.byte) m.bytes
    sectorKey := (m.hiddenKey.filter fun e => e.1 / 4 == line).foldl (fun t e => t.putD (m.baseOf e.1) e.1 e.2) m.sectorKey }

/-- A line of device memory that the host may cache and that is coherent with the device: in a page in host bias, or in a window (R94, R98). -/
def State.hostMayHold (s : State) (a : Nat) : Bool :=
  (s.inDram a && s.hub.hbiasen.getLsbD (paRegion a) && s.mem.hostBias.contains (a / 2 ^ 21)) ||
    (paRegion a == 0xC && (List.finRange 4).any fun i => (s.hub.hwin[i]).getLsbD 31 && bitsOf (s.hub.hwin[i]).toNat 5 0 == paLocal a / 2 ^ 26)

/-- A device access to lines that the host holds has the host give them back first (R94; log entry 45). -/
def State.fromHost (s : State) (ls : List Nat) : State :=
  if ls.any fun l => s.mem.hostLines.contains l then { s with mem := { s.mem with hostLines := s.mem.hostLines.filter fun l => !ls.contains l } } else s

/-! ### The hub's copies of host lines (R105) -/

/-- What bytes at the host held before a write of them: a non-coherent read may still return it while the hub holds a copy of the line (R105). -/
def MemSys.noteHost (m : MemSys) (a n : Nat) : MemSys :=
  if paRegion a == 0xE && bitsOf a 47 46 == 1 && (m.hubHost.get? ((a - 2 ^ 46) / 128)).isSome then
    { m with hostPast := ((List.range n).map fun i => (a + i, Memory.read m.bytes (a + i))) ++ m.hostPast }
  else m

/-- What a byte of memory holds, for who reads it: on the coherent route to the host what the host holds, while the hub has no copy (R105). -/
def State.seenByte (s : State) (a : Nat) : Byte :=
  Memory.read s.mem.bytes (if hostCoherent a && (s.mem.hubHost.get? (a / 128)).isNone then hostOwn a else s.seat a)

/-- What a write of n bytes replaces is kept while launches run (R141). -/
def State.noteAt (s : State) (a n : Nat) : State :=
  if s.launches.isEmpty then (if s.mem.past.isEmpty then s else { s with mem := { s.mem with past := [] } })
  else
    let e : Past := { at_ := s.nextKey, pa := a, old := (List.range n).map fun i => s.seenByte (a + i) }
    { s with mem := { s.mem with
      past := ((List.range ((a + n - 1) / 4096 - a / 4096 + 1)).map (a / 4096 + ·)).foldl (fun t p => t.put p (e :: t.getD p [])) s.mem.past } }

/-- The address of host bytes on the other route (R105). -/
def otherRoute (a : Nat) : Nat := if hostCoherent a then a + 2 ^ 46 else a - 2 ^ 46

/-- What a write replaces is kept (R141): for host memory, which two routes reach (R105), at both its addresses. -/
def State.notePast (s : State) (a n : Nat) : State := if paRegion a == 0xE then (s.noteAt a n).noteAt (otherRoute a) n else s.noteAt a n

/-- The hub writes its dirty copy of a host line back to the host, and drops the copy if asked (R105, R352). -/
def State.cleanHost (s : State) (line : Nat) (drop : Bool) : State :=
  match s.mem.hubHost.get? line with
  | none => s
  | some c =>
    let s := s.notePast (line * 128) 128
    let m := if c.dirty then s.mem.noteHost (hostOwn (line * 128)) 128 else s.mem
    let b := m.bytes
    let b := if c.dirty then Memory.writeN b (hostOwn (line * 128)) (Memory.readN b (line * 128) 128) else b
    { s with mem := { m with
        bytes := if drop then Memory.writeN b (line * 128) (List.replicate 128 0) else b
        hostPast := if drop then m.hostPast.filter fun e => e.1 / 128 != hostOwn (line * 128) / 128 else m.hostPast
        hubHost := if drop then m.hubHost.erase line else m.hubHost.put line { c with dirty := false } } }

/-- The hub writes back and drops its copies of host lines (R57, R99). -/
def State.cleanHosts (s : State) : List Nat → State
  | [] => s
  | l :: ls => (s.cleanHost l true).cleanHosts ls

/-- The hub takes the copy of a host line on the coherent route under a key; one under another key goes back first (R54, R105). -/
def State.takeHost (s : State) (k a : Nat) : State :=
  if !hostCoherent a then s
  else
    let line := a / 128
    let s := if ((s.mem.hubHost.get? line).map (·.key)).getD k == k then s else s.cleanHost line true
    if (s.mem.hubHost.get? line).isSome then s
    else { s with mem := { s.mem with
        hubHost := s.mem.hubHost.put line { dirty := false, key := k }
        hostPast := s.mem.hostPast.filter fun e => e.1 / 128 != hostOwn (line * 128) / 128
        bytes := Memory.writeN s.mem.bytes (line * 128) (Memory.readN s.mem.bytes (hostOwn (line * 128)) 128) } }

/-- The hub's copy of a host line becomes dirty (R105). -/
def State.dirtyHost (s : State) (a : Nat) : State :=
  match s.mem.hubHost.get? (a / 128) with
  | some c => { s with mem := { s.mem with hubHost := s.mem.hubHost.put (a / 128) { c with dirty := true } } }
  | none => s

/-! ### Writing -/

/-- Bring a sector under a key, and as a PA sector, before part of it is written (R53, R54). -/
def State.rekey (s : State) (via : Option Nat) (k sector pa : Nat) : State :=
  if s.isRecoded (sector / 4) then s.unpack k (sector / 4)
  else if s.foreign k sector pa then
    let bs := s.sectorUnder k sector pa
    let m := match via with | some t => s.hideSector t sector | none => s.mem
    { s with mem := { m with
        bytes := Memory.writeN m.bytes (32 * sector) bs
        sectorKey := m.sectorKey.putD (m.baseOf sector) sector (k, s.hub.gen k)
        farPa := if paRegion (32 * sector) == 0xD then m.farPa.put sector pa else m.farPa } }
  else if paRegion (32 * sector) == 0xD && (s.mem.farPa.get? sector).isNone then { s with mem := { s.mem with farPa := s.mem.farPa.put sector pa } }
  else s

/-- Write one byte under a key, by an agent whose tower's caches take it, or, with none, at the hub. -/
def State.writeByte (s : State) (via : Option Nat) (k pa : Nat) (b : Byte) : State :=
  let s := if hostCoherent pa then (s.takeHost k pa).dirtyHost pa else s
  let a := s.seat pa
  let s := s.rekey via k (a / 32) (pa / 32)
  let m := s.mem.noteHost a 1
  let m := match via with
    | some t => if Memory.read m.bytes a != b then ({ s with mem := m } : State).hide t a (Memory.read m.bytes a) else m
    | none => m
  { s with mem := { m with bytes := Memory.write m.bytes a b } }

/-- Write bytes under a key, in ascending order. -/
def State.writeBytes (s : State) (via : Option Nat) (k a : Nat) : List Byte → State
  | [] => s
  | b :: bs => (s.writeByte via k a b).writeBytes via k (a + 1) bs

/-- Sectors that n bytes from a touch. -/
def sectorsOf (a n : Nat) : List Nat := if n == 0 then [] else (List.range ((a + n - 1) / 32 - a / 32 + 1)).map fun i => a / 32 + i

/-- A write clears the poison of the sectors it covers whole (R46). -/
def State.clearPoison (s : State) (a n : Nat) : State :=
  { s with mem := { s.mem with poison := s.mem.poison.filter fun x => !(decide (a ≤ 32 * x) && decide (32 * x + 32 ≤ a + n)) } }

/-- Writes of single bytes, by their addresses, clear the poison of the sectors that they cover whole together (R46). -/
def State.clearWritten (s : State) (as : List Nat) : State :=
  if s.mem.poison.isEmpty then s
  else
    let xs := as.map s.farSeat
    { s with mem := { s.mem with poison := s.mem.poison.filter fun x => !((List.range 32).all fun i => xs.contains (32 * x + i)) } }

/-- Write memory: bytes, poison, under a key; what was recoded is stored plainly (R52). -/
def State.writePhys (s : State) (via : Option Nat) (k a : Nat) (bs : List Byte) : State :=
  ((s.notePast a bs.length).writeBytes via k a bs).clearPoison (s.farSeat a) bs.length

/-- A line of a CMP page is stored recoded, under one key, when its fields allow it (R52). -/
def State.packLine (s : State) (via : Option Nat) (k line : Nat) : State :=
  if s.inDram (128 * line) then
    let s := (lineSectors line).foldl (fun s x => s.rekey via k x x) s
    if recodable (Memory.readN s.mem.bytes (128 * line) 128) then { s with mem := { s.mem with recoded := line :: s.mem.recoded.filter fun x => x != line } } else s
  else s

/-- The lines of a write in a CMP page (R52). -/
def State.packLines (s : State) (via : Option Nat) (k : Nat) : List Nat → State
  | [] => s
  | l :: ls => (s.packLine via k l).packLines via k ls

/-- A read of n bytes that gets no completion from the far tier has had its timeout (R82). -/
def State.lapse (s : State) (a n : Nat) : State :=
  match s.mem.lost.filter fun x => (List.range n).any fun i => s.farSeat (a + i) / 32 == x with
  | [] => s
  | xs => { s with mem := { s.mem with lost := s.mem.lost.filter fun x => !xs.contains x, lapsed := s.mem.lapsed ++ xs } }

/-- What a failed read of n bytes under a key leaves (R46, R52, R82): lines that it finds unmarked become uncorrectable, and a timeout of the far tier has passed. -/
def State.spoil (s : State) (k a n : Nat) : State :=
  let s := s.lapse a n
  match (linesAt a n).filter fun l => s.unmarked k l with
  | [] => s
  | ls => s.addPoison (ls.flatMap lineSectors)

/-- A read of n bytes under a key meets a poisoned sector, a failed tower, a row without repair, a far-tier port whose link is down, or a recoded line without its marker, or gets no completion from the far tier (R46, R47, R50, R52, R82): the first failing byte. -/
def State.badByte (s : State) (k a n : Nat) : Option Nat :=
  (List.range n).map (a + ·) |>.find? fun x =>
    s.mem.poison.contains (s.farSeat x / 32) || s.mem.lost.contains (s.farSeat x / 32) || s.unmarked k (x / 128) || (s.inDram x && (s.tower (paRegion x)).failed) || s.inBadRow x ||
      (paRegion x == 0xD && (match s.fab.farPort (paLocal x) with | some (p, _) => s.fab.farDown.contains p | none => false))

/-- Read a little-endian number of n bytes under key ID 0, as the hub and the walkers do. -/
def State.peek (s : State) (a n : Nat) : Nat := leNat (s.readUnder 0 a n)

/-! ### Tags (R173) -/

/-- The line of an address. -/
def lineOf (a : Nat) : Nat := a / 128

/-- The tag of a line; every line of host memory carries (.sys, host) (R173). -/
def State.tagOf (s : State) (a : Nat) : Option Tag := if paRegion a == 0xE then some (.sys, .host) else s.mem.tags.get? (lineOf (s.farSeat a))

/-- Tag a line; host memory keeps its tag (R173). -/
def State.setTag (s : State) (a : Nat) (t : Tag) : State :=
  if paRegion a == 0xE then s else { s with mem := { s.mem with tags := s.mem.tags.put (lineOf (s.farSeat a)) t } }

/-- B lies in scope(A, S) (R163). -/
def inScope (a : Agent) (sc : Scope) (b : Agent) : Bool :=
  match sc with
  | .sys => true
  | .pkg => match a, b with
    | .thread n _ _ _, .thread m _ _ _ | .thread n _ _ _, .saiga m _ | .thread n _ _ _, .hub m => n == m
    | .saiga n _, .thread m _ _ _ | .saiga n _, .saiga m _ | .saiga n _, .hub m => n == m
    | .hub n, .thread m _ _ _ | .hub n, .saiga m _ | .hub n, .hub m => n == m
    | _, _ => false
  | .tower => match a, b with
    | .thread n t _ _, .thread m u _ _ | .thread n t _ _, .saiga m u => n == m && t == u
    | .saiga n t, .thread m u _ _ | .saiga n t, .saiga m u => n == m && t == u
    | _, _ => false
  | .team => match a, b with
    | .thread n _ g t, .thread m _ h u => n == m && g == h && t == u
    | _, _ => false

/-- The check of R174: an acquire by b at scope sb of a line with a tag. -/
def tagPasses (t : Option Tag) (sb : Scope) (b : Agent) : Bool :=
  match t with
  | none => true
  | some (sa, a) => inScope a sa b && inScope b sb a

/-- The code of a scope in TINFO (R175). -/
def scopeCode : Scope → Nat
  | .team => 0 | .tower => 1 | .pkg => 2 | .sys => 3

/-- A scope from its code (R65). -/
def scopeAt (n : Nat) : Scope := match n % 4 with | 0 => .team | 1 => .tower | 2 => .pkg | _ => .sys

/-- The tag's agent lies outside the package of node n (R175). -/
def outside (n : BitVec 12) : Agent → Bool
  | .thread m _ _ _ | .saiga m _ | .hub m => m != n
  | .host => true

/-- The trap of a failed check (R175). -/
def scopeTrap (n : BitVec 12) (t : Tag) (sb : Scope) (fence : Bool) (addr : DWord) : Trap where
  cause := cScope
  addr := addr
  info := BitVec.ofNat 32 (scopeCode t.1 + 4 * scopeCode sb + 16 * b2n (outside n t.2) + 32 * b2n fence)

end Sys2Proof.Machine
end

