-- ==== Sys2Proof/Machine/Reads.lean ====
section
/-!
DEFINITION. Reading package memory as a device agent does: which copies answer (R54, R94, R97, R98, R105), and what keeps a request back (R25, R43, R45, R51, R176).
-/
namespace Sys2Proof.Machine

/-! ### Which bytes a read returns -/

/-- A device access under a key that differs from the one its lines stand under: their copies are written back and fetched anew (R54). -/
def State.meetKey (s : State) (k : Nat) : List Nat → State
  | [] => s
  | l :: ls =>
    let s : State := if s.windowed (128 * l) && (lineSectors l).any fun x => s.mem.keyOf x != (k, s.hub.gen k) then
        { s with mem := s.mem.recall (128 * l) (128 * l + 128) } else s
    s.meetKey k ls

/-- The first of some values that a free choice takes; the last when none is taken (R6). -/
def State.pickOf {α : Type} (s : State) (x : α) : List α → α × State
  | [] => (x, s)
  | y :: ys => let (b, s) := s.freeChoice; if b then s.pickOf y ys else (x, s)

/-- What a tower's caches may hold, under a key, of a byte in place of what the host wrote: the newest first (R97). -/
def State.staleAt (s : State) (tower k a : Nat) : List Byte :=
  ((s.mem.stale.getD a []).filter fun x => x.towers.getLsbD tower && x.key == (k, s.hub.gen k)).map (·.byte)

/-- Bytes that a tower's copies may still hold in place of what the host wrote (R97): a free choice takes one of the older values, or fetches the line anew; what is
older than a value read is not read again. -/
def State.readStale (s : State) (tower : Option Nat) (k pa n : Nat) (bs : List Byte) : List Byte × State :=
  match tower with
  | none => (bs, s)
  | some t =>
    let old := (List.range n).map fun i => s.staleAt t k (pa + i)
    match old.foldl (fun m l => Nat.max m l.length) 0 with
    | 0 => (bs, s)
    | m =>
      let (j, s) := s.pickOf 0 ((List.range m).map (· + 1))
      ((List.range n).map fun i => let l := old.getD i []; if j == 0 then bs.getD i 0 else l.getD (j - 1) (l.getLast?.getD (bs.getD i 0)),
        { s with mem := s.mem.staleDrop t j pa (pa + n) })

/-- The values that a byte has held at the host since the hub took the copy of the line that it still holds: the newest first (R105). -/
def State.hostHeld (s : State) (a : Nat) : List Byte :=
  if (s.mem.hubHost.get? ((a - 2 ^ 46) / 128)).isSome then (s.mem.hostPast.filter fun e => e.1 == a).map (·.2) else []

/-- A read on the non-coherent route: per byte any value held at the host since the hub took its copy (R105). -/
def State.readHost (s : State) (pa : Nat) : List Byte → List Byte × State
  | [] => ([], s)
  | b :: bs =>
    let (x, s) := s.pickOf b (s.hostHeld pa)
    let (xs, s) := s.readHost (pa + 1) bs
    (x :: xs, s)

/-- Pages that mapped a window as it moved or was disabled read as either location holds (R98): where a read through a leaf goes. -/
def State.windowAt (s : State) (entry : DWord) (pa : Nat) : Nat × State :=
  if paRegion pa == 0xC then
    s.pickOf pa ((s.hub.winPast.filter fun w => w.1 == entry && w.2.1 == paLocal pa / 2 ^ 26).map fun w =>
      0xC * 2 ^ 48 + w.2.2 * 2 ^ 26 + paLocal pa % 2 ^ 26)
  else (pa, s)

/-- Read n bytes of local memory under a key, through a leaf, for an agent of a tower or for the hub: the host gives back what it holds, the hub takes a host line on
the coherent route, copies under another key go, and copies of what the host has replaced may answer (R54, R94, R97, R98, R105). -/
def State.plainRead (s : State) (tower : Option Nat) (k : Nat) (entry : DWord) (pa n : Nat) : List Byte × State :=
  let s := (s.takeHost k pa).fromHost (linesAt pa n)
  let s := s.meetKey k (linesAt pa n)
  let (pa, s) := s.windowAt entry pa
  let (bs, s) := s.readStale tower k pa n (s.readUnder k pa n)
  if s.mem.hostPast.isEmpty then (bs, s) else s.readHost pa bs

/-! ### What keeps a request back -/

/-- Two byte ranges share a byte. -/
def overlap (a n b m : Nat) : Bool := a < b + m && b < a + n

/-- The tower's memory holds requests: quiesced, zeroing, a flush of its L2, a refresh of the bank, a realignment (R25, R43, R45, R51). -/
def State.towerHolds (s : State) (pa : Nat) : Bool :=
  let t := s.tower (paRegion pa)
  paRegion pa < 12 &&
    (t.quiesced || t.zeroing || (t.rolePhase == .flush && t.reqPinned != t.pinned) ||
      (s.inDram pa && (t.tsv[4].pauseTill.isSome || t.refresh.any fun b => b.1 == t.bankOf (paLocal pa) && s.now < b.2)) ||
      (match pinnedWindow (paLocal pa) with
        | some (w, _) => if h : w < 4 then (t.tsv[w]).pauseTill.isSome else false
        | none => false))

/-- A copy owns a line that the access touches (R176): any copy, or for an access of a copy one that issued before it. -/
def State.owned (s : State) (own : Option Nat) (pa n : Nat) : Bool :=
  s.copies.any fun c => (match own with | some x => c.id < x | none => true) && c.owns.any fun l => overlap (l.2 * 128) 128 pa n

/-- A bank under refresh sends a retry to a request for an address (R45): the bank does not refresh again until the request has been reissued. -/
def State.retryAt (s : State) (pa : Nat) : State :=
  let t := paRegion pa
  let b := (s.tower t).bankOf (paLocal pa)
  if s.inDram pa && ((s.tower t).refresh.any fun x => x.1 == b && s.now < x.2) && !(s.tower t).retry.contains b then
    s.modTower t fun w => { w with retry := w.retry ++ [b] }
  else s

/-- The same for some addresses. -/
def State.retriesAt (s : State) : List Nat → State
  | [] => s
  | a :: r => (s.retryAt a).retriesAt r

end Sys2Proof.Machine
end

