-- ==== Sys2Proof/Machine/Xlate.lean ====
section
/-!
DEFINITION. Translation: the walk, the entries, the checks in their order, the cached translations, and opening a fault (R73, R77, R183 to R190, R193; log entries 12, 13).
-/
namespace Sys2Proof.Machine

/-- The result of reading page tables. -/
inductive Walk where
  /-- A well-formed leaf: the entry, its first VA and its size. -/
  | leaf (e : DWord) (va size : Nat)
  /-- Not present (1) or malformed (3), and the level (R195). -/
  | miss (reason level : Nat)
  /-- An entry cannot be read (R46, R50, R82). -/
  | lost
  /-- Memory keeps the read of an entry back (R43, R45, R51, R176). -/
  | held
  deriving DecidableEq, Repr

/-- A level of the table (R184): its number, the lowest VA bit of its index and the bits of the index. -/
structure Level where
  n : Nat
  lo : Nat
  w : Nat
  deriving DecidableEq, Repr

/-- The four levels (R184). -/
def levels : List Level := [⟨0, 43, 13⟩, ⟨1, 30, 13⟩, ⟨2, 21, 9⟩, ⟨3, 12, 9⟩]

/-- An entry of the table (R185). -/
def eValid (e : Nat) : Bool := bitOf e 0
def eLeaf (e : Nat) : Bool := bitsOf e 3 1 != 0
def ePa (e : Nat) : Nat := bitsOf e 51 12 * 2 ^ 12
def eSize (e : Nat) : Nat := bitsOf e 5 4
/-- Bytes of a page by SIZE (R185). -/
def pageBytes (sz : Nat) : Nat := match sz with | 0 => 2 ^ 12 | 1 => 2 ^ 16 | 2 => 2 ^ 21 | _ => 2 ^ 30

/-- A pointer entry is well formed at a level (R185, R186). -/
def pointerOk (lv e : Nat) : Bool :=
  lv != 3 && bitsOf e 63 52 == 0 && bitsOf e 11 4 == 0 && paRegion (ePa e) ≤ 0xD

/-- A leaf is well formed at a level (R184, R186). -/
def leafOk (lv e : Nat) : Bool :=
  (match lv with | 0 => false | 1 => eSize e == 3 | 2 => eSize e == 2 | _ => eSize e ≤ 1) &&
  !(bitOf e 2 && !bitOf e 1) && ePa e % pageBytes (eSize e) == 0 && (bitOf e 11 || bitsOf e 63 62 == 0)

/-- Where a walk stops: at a leaf, or one of the sixteen entries of a 64 KiB page that differ (R188), or a fault; pointers it used on the way. -/
structure WalkOut where
  res : Walk
  /-- The sixteen entries of a 64 KiB page when they differ (R188). -/
  alts : List DWord
  ptrs : List WalkEntry
  deriving DecidableEq, Repr

/-- The cached pointer of a tower for a level and VA (R189). -/
def State.cachedPtr (s : State) (tower : Nat) (asid : BitVec 12) (lv : Level) (va : Nat) : Option DWord :=
  (s.mem.walk.find? fun w => w.tower == tower && w.asid == asid && w.level == lv.n && w.tag == va / 2 ^ lv.lo).map (·.entry)

/-- One of two values: the first when they agree, else a free choice (R189, R192; log entry 12). -/
def State.chooseOf {α : Type} [DecidableEq α] (s : State) (x y : α) : α × State :=
  if x = y then (x, s)
  else let (b, s) := s.freeChoice; (if b then x else y, s)

/-- The sixteen entries of the 64 KiB page whose level-3 entries a line of a table holds, when they differ; none when no entry there has SIZE 01 (R188). -/
def sixteen (line : List Byte) : List DWord :=
  let es := (List.range 16).map fun i => leNat ((line.drop (8 * i)).take 8)
  if (es.any fun e => eValid e && eLeaf e && eSize e == 1) && es.any (· != es.getD 0 0) then es.map (BitVec.ofNat 64) else []

/-- A pointer or leaf that a walk has found at a level (R184 to R186): where it goes on, or the end of the walk. -/
def stepOf (lv : Level) (va : Nat) (x : DWord) : Walk ⊕ Nat :=
  let e := x.toNat
  if !eValid e then .inl (.miss 1 lv.n)
  else if eLeaf e then
    if leafOk lv.n e then .inl (.leaf x (va / pageBytes (eSize e) * pageBytes (eSize e)) (pageBytes (eSize e))) else .inl (.miss 3 lv.n)
  else if pointerOk lv.n e then .inr (ePa e)
  else .inl (.miss 3 lv.n)

/-- Walk the levels from a table on (R184): each entry is a relaxed load under key ID 0 by the tower's walker, which waits as such a load does (R189), or a pointer from the walk cache. -/
def State.walkFrom (s : State) (tower : Nat) (asid : BitVec 12) (va : Nat) : List Level → Nat → List WalkEntry → WalkOut × State
  | [], _, ps => (⟨.miss 3 3, [], ps⟩, s)
  | lv :: rest, base, ps =>
    let at' := base + 8 * (va / 2 ^ lv.lo % 2 ^ lv.w)
    let hit := s.cachedPtr tower asid lv va
    let held := s.towerHolds at' || s.owned none at' 8
    if held && hit.isNone then (⟨.held, [], ps⟩, s.retryAt at')
    else if !held && (s.badByte 0 at' 8).isSome then (⟨.lost, [], ps⟩, s.spoil 0 at' 8)
    else
      -- of the last level the whole line, which holds the sixteen entries of R188
      let (lo, n) := if lv.n == 3 then (at' / 128 * 128, 128) else (at', 8)
      let (line, s) := if held then ([], s) else s.plainRead (some tower) 0 0 lo n
      let mem := BitVec.ofNat 64 (leNat ((line.drop (at' - lo)).take 8))
      let (x, s) := if held then (hit.getD 0, s) else s.chooseOf (hit.getD mem) mem
      match stepOf lv va x with
      | .inl w => (⟨w, if lv.n == 3 then sixteen line else [], ps⟩, s)
      | .inr next => s.walkFrom tower asid va rest next (⟨tower, asid, lv.n, va / 2 ^ lv.lo, x⟩ :: ps)

/-- ROOT's table base and ASID (R183). -/
def rootBase (root : DWord) : Nat := bitsOf root.toNat 51 16 * 2 ^ 16
def rootAsid (root : DWord) : BitVec 12 := root.extractLsb' 0 12

/-- A cached leaf that covers a VA, in a core's L1 TLB or a tower's TLB (R189). -/
def State.tlbHit (s : State) (core : Option Nat) (tower : Nat) (asid : BitVec 12) (va : Nat) : Option Walk :=
  (s.mem.tlb.find? fun t => t.core == core && t.tower == tower && t.asid == asid && decide (t.va ≤ va) && decide (va < t.va + t.size)).map
    fun t => .leaf t.entry t.va t.size

/-- One of the sixteen entries of a 64 KiB page that differ (R188): a free value picks it. -/
def State.pickAlt (s : State) (va : Nat) (o : WalkOut) : Walk × State :=
  if o.alts.isEmpty then (o.res, s)
  else
    let (w, s) := s.freeWord
    let e := o.alts.getD (w.toNat % 16) 0
    if eValid e.toNat && eLeaf e.toNat && leafOk 3 e.toNat then
      (.leaf e (va / pageBytes (eSize e.toNat) * pageBytes (eSize e.toNat)) (pageBytes (eSize e.toNat)), s)
    else (.miss (if eValid e.toNat then 3 else 1) 3, s)

/-- The address spaces in progress: those of the queues' contexts and of the launches (R87, R113). -/
def State.rootsInUse (s : State) : List DWord :=
  (s.wqs.filter fun q => q.state != .disabled).map (fun q => BitVec.ofNat 64 (leNat ((q.ctx.drop 24).take 8))) ++ s.launches.map (·.root)

/-- The leaves under a table (R184). -/
def State.leavesAt (s : State) : List Level → Nat → List DWord
  | [], _ => []
  | lv :: rest, base => (List.range (2 ^ lv.w)).flatMap fun i =>
    match stepOf lv 0 (BitVec.ofNat 64 (s.peek (base + 8 * i) 8)) with
    | .inl (.leaf e _ _) => [e]
    | .inl _ => []
    | .inr next => s.leavesAt rest next

/-- The leaves that map pages now: of the address spaces in progress, and those that TLBs hold (R189). -/
def State.leaves (s : State) : List DWord := s.rootsInUse.flatMap (fun r => s.leavesAt levels (rootBase r)) ++ s.mem.tlb.map (·.entry)

/-- A leaf maps bytes of unit u, of 64 MiB, of region 0xC (R98). -/
def mapsUnit (e : DWord) (u : Nat) : Bool :=
  let lo := 0xC * 2 ^ 48 + u * 2 ^ 26
  decide (ePa e.toNat < lo + 2 ^ 26) && decide (lo < ePa e.toNat + pageBytes (eSize e.toNat))

/-- Leaves that map pages no more read what they map when they do so again (R98). -/
def State.forgetWindows (s : State) : State :=
  if s.hub.winPast.isEmpty then s
  else
    let ls := s.leaves
    { s with hub := { s.hub with winPast := s.hub.winPast.filter fun w => ls.contains w.1 } }

/-- A write to HWIN n (R98): the pages that map a window which moves read values of either location. -/
def State.setWindow (s : State) (n : Fin 4) (v : Word) : State :=
  let old := s.hub.hwin[n]
  let a := bitsOf old.toNat 5 0
  let b := bitsOf v.toNat 5 0
  let s := s.forgetWindows
  { s with hub := { s.hub with
    hwin := s.hub.hwin.set n (v &&& 0x8000003F)
    winPast := if old.getLsbD 31 && a != b then ((s.leaves.filter (mapsUnit · a)).map fun e => (e, a, b)) ++ s.hub.winPast else s.hub.winPast } }

/-- A cached leaf or what a walk has found: a free choice where they differ, and whether the cache answers (R189; log entry 12). -/
def State.useTlb (s : State) (hit : Option Walk) (w : Walk) (before : Bool) : (Walk × Bool) × State :=
  match hit with
  | none => ((w, before), s)
  | some x =>
    if x = w || w = .held then ((x, true), s)
    else let (b, s) := s.freeChoice; (if b then (x, true) else (w, before), s)

/-- A walk in one address space, and where another in progress holds the same ASID with another table, of either (R183). -/
def State.walkRoots (s : State) (tower : Nat) (va : Nat) (w : Walk) (ps : List WalkEntry) : List DWord → Walk × List WalkEntry × State
  | [] => (w, ps, s)
  | root :: rs =>
    let (o, s) := s.walkFrom tower (rootAsid root) va levels (rootBase root) []
    let (x, s) := s.pickAlt va o
    let (w, s) := if x = .held || w = .held then (w, s) else s.chooseOf x w
    s.walkRoots tower va w (o.ptrs ++ ps) rs

/-- The first n of the entries of one kind, and all others. -/
def keepFirst {α : Type} (p : α → Bool) : (n : Nat) → List α → List α
  | _, [] => []
  | 0, x :: xs => if p x then keepFirst p 0 xs else x :: keepFirst p 0 xs
  | n + 1, x :: xs => x :: keepFirst p (if p x then n else n + 1) xs

/-- A leaf enters a TLB: a core's L1 TLB of 128 entries, or a tower's of 4,096; the oldest goes (R189; log entry 12). -/
def tlbPut (e : TlbEntry) (l : List TlbEntry) : List TlbEntry :=
  let size := if e.core.isSome then 128 else 4096
  let l := e :: l
  if l.length ≤ size then l else keepFirst (fun x => x.core == e.core && x.tower == e.tower) size l

/-- Pointers enter a tower's walk cache of 256 entries; the oldest go (R189; log entry 12). -/
def walkPut (tower : Nat) (ps l : List WalkEntry) : List WalkEntry :=
  let l := (ps.filter fun p => !l.any fun q => q.tower == p.tower && q.asid == p.asid && q.level == p.level && q.tag == p.tag) ++ l
  if l.length ≤ 256 then l else keepFirst (·.tower == tower) 256 l

/-- The leaf for a VA: a walk, or a cached leaf; where they differ the choice is free, and a cached leaf answers while memory keeps the walk back (log entry 12). -/
def State.lookup (s : State) (core : Option Nat) (tower : Nat) (root : DWord) (va : Nat) : Walk × State :=
  let asid := rootAsid root
  let (o, s1) := s.walkFrom tower asid va levels (rootBase root) []
  let (w, s1) := s1.pickAlt va o
  let others := s.rootsInUse.filter fun r => rootAsid r == asid && rootBase r != rootBase root
  let (w, ps, s1) := s1.walkRoots tower va w o.ptrs others
  let ((w, hit), s1) := s1.useTlb (s.tlbHit none tower asid va) w false
  let ((w, hit), s1) := match core with
    | some _ => s1.useTlb (s.tlbHit core tower asid va) w hit
    | none => ((w, hit), s1)
  -- a cached leaf that answers leaves memory as it was before the walk
  let s1 : State := if hit then { s with free := s1.free } else s1
  let fill := match w with
    | .leaf e v z =>
      let add := fun (c : Option Nat) (l : List TlbEntry) =>
        if (s.tlbHit c tower asid va).isSome then l else tlbPut ⟨c, tower, asid, v, z, e⟩ l
      let l := add none s.mem.tlb
      if core.isSome then add core l else l
    | .miss _ _ | .lost | .held => s.mem.tlb
  (w, { s1 with mem := { s1.mem with tlb := fill, walk := if hit then s.mem.walk else walkPut tower ps s.mem.walk } })

/-- The place that a leaf gives a VA (R185). -/
def State.placeOf (s : State) (e : DWord) (base size va : Nat) : Place :=
  let n := e.toNat
  let rmt := bitOf n 11
  let node : BitVec 12 := e.extractLsb' 52 12
  let share : BitVec 2 := e.extractLsb' 6 2
  { node := if rmt && node != s.fab.node then some node else none
    pa := ePa n + (va - base)
    size := size
    key := if rmt then s.fab.key else e.extractLsb' 52 10
    home := if share == 3 then 0 else e.extractLsb' 9 2
    cmp := share != 3 && bitOf n 8
    share := share
    cfmt := e.extractLsb' 8 3
    rmt := rmt
    entry := e }

/-- What an access is, for the checks of R77 and R190. -/
inductive Kind where
  | load | store | atomic | red | redc | fetch
  deriving DecidableEq, Repr

/-- Permission bits needed: [0] read, [1] write, [2] execute (R190, R195). -/
def needOf : Kind → BitVec 3
  | .load => 1
  | .store | .red | .redc => 2
  | .atomic => 3
  | .fetch => 4

/-- The entry grants what an access needs (R190 step 3). -/
def permits (e : DWord) (need : BitVec 3) : Bool := (e.extractLsb' 1 3 &&& need) == need

/-- R77: the sharing class refuses a remote access. -/
def sharingBad (share : BitVec 2) (k : Kind) (ty : RType) : Bool :=
  match share.toNat, k with
  | 0, .load | 0, .store | 0, .fetch => ty != .nc
  | 0, .redc | 1, .redc => true
  | 2, .store | 2, .atomic | 2, .red | 2, .redc => true
  | 3, _ => true
  | _, _ => false

/-- The HOME that the memory at an address asks for agrees with the leaf (R187); a combining frame in a pinned slice or region 0xC has code 7. -/
def homeBad (p : Place) : Option Nat :=
  let pinned := paRegion p.pa < 12 && (pinnedWindow (paLocal p.pa)).isSome
  let hub := paRegion p.pa == 0xC
  if p.share == 3 then (if pinned || hub then some 7 else none)
  else if pinned then (if p.home == 2 then none else some 8)
  else if hub then (if p.home == 3 then none else some 8)
  else if p.home.toNat ≤ 1 then none else some 8

/-- Step 4 of R190: the cause and TINFO code of the first check that fails. -/
def State.step4 (s : State) (p : Place) (k : Kind) (ty : RType) : Option (Byte × Nat) :=
  if p.share == 3 && 5 ≤ p.cfmt.toNat then some (cAccess, 7)
  else
    match p.node with
    | some n =>
      if n.toNat ≥ s.fab.domain.toNat || !s.fab.en || paRegion p.pa ≥ 0xE then some (cAccess, 6)
      else if sharingBad p.share k ty then some (cSharing, 0)
      else (homeBad p).map fun c => (cAccess, c)
    | none =>
      match s.paCheck p.pa with
      | some c => some (cAccess, c)
      | none =>
        match homeBad p with
        | some c => some (cAccess, c)
        | none => if s.hub.keyOk p.key.toNat p.pa then none else some (cAccess, 5)

/-- What a translation comes to (R190). -/
inductive XRes where
  | ok (p : Place)
  | trap (cause : Byte) (code : Nat)
  /-- Faults: reason and level (R195). -/
  | fault (reason level : Nat)
  /-- Memory keeps the walk back: the access is translated again (R43, R45, R51, R176). -/
  | held
  deriving DecidableEq, Repr

/-- Bits [63:56] are zero (R157). -/
def canonical (va : DWord) : Bool := va.extractLsb' 56 8 == 0

/-- Translate an access (R190). -/
def State.translate (s : State) (core : Option Nat) (tower : Nat) (root va : DWord) (k : Kind) (ty : RType) : XRes × State :=
  if !canonical va then (.trap cAccess 1, s)
  else
    match s.lookup core tower root va.toNat with
    | (.miss r l, s) => (.fault r l, s)
    | (.lost, s) => (.trap cUncorrectable 0, s)
    | (.held, s) => (.held, s)
    | (.leaf e base size, s) =>
      if !permits e (needOf k) then
        (.fault 2 (if size == 2 ^ 30 then 1 else if size == 2 ^ 21 then 2 else 3), s)
      else
        let p := s.placeOf e base size va.toNat
        match s.step4 p k ty with
        | some (c, n) => (.trap c n, s)
        | none => (.ok p, s)

/-- What a translation without a fault or a permission check finds (R121, R351, R398): a leaf, none, or none yet. -/
inductive Probe where
  | leaf (e : DWord) (p : Place)
  | none
  | held
  deriving DecidableEq, Repr

/-- Translate without faulting and without a permission check (R121, R351, R398). -/
def State.probe (s : State) (core : Option Nat) (tower : Nat) (root va : DWord) : Probe × State :=
  if !canonical va then (.none, s)
  else
    match s.lookup core tower root va.toNat with
    | (.leaf e base size, s) => (.leaf e (s.placeOf e base size va.toNat), s)
    | (.miss _ _, s) | (.lost, s) => (.none, s)
    | (.held, s) => (.held, s)

/-- The place of a leaf that a probe has found. -/
def Probe.place : Probe → Option Place
  | .leaf _ p => some p
  | _ => Option.none

/-- The place that a VA of a team translates to now; none when it does not (R342). -/
def State.placeAt (s : State) (t : Team) (va : DWord) : Option Place :=
  (s.probe (some t.pcore) (pcTower t.pcore) (((s.launch? t.launch).map (·.root)).getD 0) va).1.place

/-! ### Faults (R193) -/

/-- The next FID that no entry bears (R193, R195). -/
def State.freeFid (s : State) : Nat :=
  if s.faults.any fun f => f.fid == s.nextFid then
    (((List.range (s.faults.length + 1)).map fun i => (s.nextFid + i) % 2 ^ 24).find? fun n => !s.faults.any fun f => f.fid == n).getD s.nextFid
  else s.nextFid

/-- HELD without a fault of its own: while the fault table is full (R193), or for an atomic of so many bytes until entries of its thread have replayed (R199). -/
def heldTable : Nat := 2 ^ 24
def heldAtomic (n : Nat) : Nat := 2 ^ 24 + n

/-- The fault table holds 16,384 entries. -/
def faultMax : Nat := 16384

/-- Open a fault, or join the unanswered one of its page (R193); none: the table is full. -/
def State.openFault (s : State) (root va : DWord) (k : FKind) (reason level : Nat) (need : BitVec 3) (grid : Word) (teamid pcore : Nat) :
    Option Nat × State :=
  let asid := rootAsid root
  match s.faults.find? fun f => f.asid == asid && f.va.toNat / 2 ^ 12 == va.toNat / 2 ^ 12 && f.answer.isNone with
  | some f => (some f.fid, s)
  | none =>
    if s.faults.length < faultMax then
      let e : FaultEntry := {
        fid := s.freeFid, asid := asid, va := va, kind := k, reason := BitVec.ofNat 2 reason, level := BitVec.ofNat 2 level
        need := need, grid := grid, teamid := teamid, pcore := pcore, opened := s.now, recorded := false, answer := none }
      (some s.freeFid, { s with nextFid := (s.freeFid + 1) % 2 ^ 24, faults := s.faults ++ [e] })
    else (none, s)

/-- The address space of a team (R183). -/
def State.root (s : State) (t : Team) : DWord := ((s.launch? t.launch).map (·.root)).getD 0

/-- GRIDID of a team. -/
def State.grid (s : State) (t : Team) : Word := ((s.launch? t.launch).map (·.grid)).getD 0

/-- A fault of a team's access (R193). -/
def State.teamFault (s : State) (t : Team) (va : DWord) (k : FKind) (reason level : Nat) (need : BitVec 3) : Option Nat × State :=
  s.openFault (s.root t) va k reason level need (s.grid t) t.teamid t.pcore

/-- Translate an access of a team's thread through its core's L1 TLB (R189). -/
def State.xteam (s : State) (t : Team) (va : DWord) (k : Kind) (ty : RType) : XRes × State :=
  s.translate (some t.pcore) (pcTower t.pcore) (s.root t) va k ty

/-- The agent of a thread of a team (R163). -/
def State.agentOf (s : State) (t : Team) : Agent := .thread s.fab.node (pcTower t.pcore) (s.grid t).toNat t.teamid

end Sys2Proof.Machine
end

