-- ==== Sys2Proof/Machine/Access.lean ====
section
/-!
DEFINITION. What an access does when it is performed: scratchpad with the waiters it wakes (R158, R159, R366), L1 copies (R161), combining pages (R179), reads and writes of memory by device agents, atomic operations (R346), and what holds an access back.
-/
namespace Sys2Proof.Machine

/-! ### Copies in a core's L1 (R161) -/

/-- The copy of a line under a key ID in a core's L1. -/
def State.l1Copy (s : State) (pcore line : Nat) (key : BitVec 10) : Option (List Byte) :=
  (s.mem.l1.find? fun c => c.pcore == pcore && c.line == line && c.key == key).map (·.bytes)

/-- Put a copy into a core's L1; it replaces the copy it had of the line. -/
def State.l1Put (s : State) (pcore line : Nat) (key : BitVec 10) (bs : List Byte) : State :=
  { s with mem := { s.mem with
      l1 := { pcore := pcore, line := line, key := key, bytes := bs } :: s.mem.l1.filter fun c => !(c.pcore == pcore && c.line == line) } }

/-- An acquire of tower scope or wider drops every .wt and .si line of the core (R161). -/
def State.l1Drop (s : State) (pcore : Nat) : State :=
  { s with mem := { s.mem with l1 := s.mem.l1.filter fun c => c.pcore != pcore } }

/-- An acquire at a scope by a thread of a core (R161). -/
def State.l1Acquire (s : State) (pcore : Nat) (sc : Scope) : State := if sc == .team then s else s.l1Drop pcore

/-- A core's copy of a line takes bytes that the core's threads have read or written under its key; a copy under another key goes (R54). -/
def State.l1Note (s : State) (pcore pa : Nat) (key : BitVec 10) (bs : List Byte) : State :=
  { s with mem := { s.mem with
      l1 := s.mem.l1.filterMap fun c =>
        if c.pcore == pcore && c.line == pa / 128 then (if c.key == key then some { c with bytes := overlay c.bytes (pa % 128) bs } else none) else some c } }

/-! ### Scratchpad (R158, R159, R366) -/

/-- n bytes of a team's scratchpad. -/
def Team.spadN (t : Team) (a n : Nat) : List Byte := (List.range n).map fun i => t.spad.getD (a + i) 0
/-- The word at a scratchpad offset. -/
def Team.spadWord (t : Team) (a : Nat) : Word := BitVec.ofNat 32 (leNat (t.spadN a 4))
/-- Write bytes to scratchpad. -/
def spadPut (sp : Table Byte) (a : Nat) : List Byte → Table Byte
  | [] => sp
  | b :: bs => spadPut (sp.putD 0 a b) (a + 1) bs

/-- The map that holds a scratchpad offset (R159). -/
def Team.mapAt (t : Team) (a : Nat) : Option SpadMap := t.maps.find? fun m => m.off ≤ a && a < m.off + m.len

/-- Bytes of a mapped region become dirty (R159). -/
def SpadMap.soil (m : SpadMap) (a n : Nat) : SpadMap :=
  { m with dirty := m.dirty ++ ((List.range n).map (a + ·)).filter fun x => m.off ≤ x && x < m.off + m.len && !m.dirty.contains x }

/-- A write of n bytes at a wakes a thread that sleeps on a word it touched and left different from its value (R366), and one that waits on a barrier whose phase it changed (R222). -/
def Thread.stir (th : Thread) (t : Team) (a n now : Nat) : Thread :=
  match th.st with
  | .blocked (.waita off v d next _) =>
    if a < off + 4 && off < a + n && t.spadWord off != v then ((th.setReg d (t.spadWord off)).wake now).moveTo next else th
  | .blocked (.phase bar p) =>
    if a < bar + 16 && bar < a + n && (t.spad.getD (bar + 15) 0).toNat / 16 != p then th.wake now else th
  | _ => th

/-- An outstanding store of thread i of team k to bytes of its scratchpad (R164). -/
def State.ownSts (s : State) (k i a n : Nat) : Bool :=
  s.reqs.any fun q => q.team == k && (q.tid :: q.mates).contains i && match q.loc, q.act with
    | .spad j b, .store _ => j == k && overlap a n b q.size
    | _, _ => false

/-- Threads of team k that a write to its scratchpad wakes (R366): none whose own earlier store to its word is still to come (R164). -/
def State.stirAll (s : State) (k a n : Nat) : State :=
  match s.team? k with
  | none => s
  | some t =>
    let ths := (List.range t.threads.length).zipWith (fun i th => match th.st with
      | .blocked (.waita off _ _ _ _) => if s.ownSts k i off 4 then th else th.stir t a n s.now
      | _ => th.stir t a n s.now) t.threads
    if ths == t.threads then s else (s.modTeam k fun t => { t with threads := ths }).l1Drop t.pcore

/-- A write to team k's scratchpad by an agent: bytes, dirty bits, waiters. -/
def State.spadWrite (s : State) (k a : Nat) (bs : List Byte) : State :=
  (s.modTeam k fun t => { t with
      spad := spadPut t.spad a bs
      maps := t.maps.map (·.soil a bs.length)
      notes := t.notes.filter fun x => !overlap x 4 a bs.length }).stirAll k a bs.length

/-- A line fill of a mapped region: bytes and waiters, no dirty bits (R159); bytes that are dirty already stay. -/
def State.spadFill (s : State) (k a : Nat) (bs : List Byte) : State :=
  (s.modTeam k fun t => { t with
      spad := ((List.range bs.length).zip bs).foldl (fun sp e =>
        if (t.mapAt a).any fun m => m.dirty.contains (a + e.1) then sp else sp.putD 0 (a + e.1) e.2) t.spad
      maps := t.maps.map fun m => if m.off ≤ a && a < m.off + m.len then
          { m with filled := m.filled ++ [a], filling := m.filling.erase a } else m }).stirAll k a bs.length

/-- The team that a cluster rank names, seen from team t (R158). -/
def State.peer? (s : State) (t : Team) (rank : Nat) : Option Team :=
  if rank == t.rank then some t
  else
    match s.lrec? t with
    | none => none
    | some r => s.teams.find? fun u => u.launch == t.launch && u.teamid / r.cluster == t.teamid / r.cluster && u.rank == rank

/-! ### Combining pages (R179) -/

/-- Bytes of an element of a combining page. -/
def cfmtBytes (c : Nat) : Nat := if c == 2 then 8 else 4

/-- The fold operation of a format (R179). -/
def foldOp (c x y : Nat) : Nat :=
  match c with
  | 0 => (faddOf .f32 .rne false x y).1
  | 1 => (x + y) % 2 ^ 32
  | 2 => (x + y) % 2 ^ 64
  | 3 => (fminOf .f32 true true x y).1
  | _ => (fminOf .f32 false true x y).1

/-- Fold one partial into its home value. -/
def State.foldOne (s : State) (q : Partial) : State :=
  let n := cfmtBytes q.cfmt.toNat
  let home := leNat (s.readUnder q.key.toNat q.pa n)
  ({ s with mem := s.mem.settleLines (linesAt q.pa n) }).writePhys none q.key.toNat q.pa (leBytes n (foldOp q.cfmt.toNat home q.val))

/-- Fold partials in the order given. -/
def State.foldList (s : State) : List Partial → State
  | [] => s
  | q :: qs => (s.foldOne q).foldList qs

/-- Fold the page of size bytes that holds an address: tower 0's partials first (R179). -/
def State.foldPage (s : State) (pa size : Nat) : State :=
  let inside := fun (q : Partial) => q.pa / size == pa / size
  let mine := sortBy (fun a b => a.tower < b.tower) (s.mem.partials.filter inside)
  ({ s with mem := { s.mem with partials := s.mem.partials.filter fun q => !inside q } }).foldList mine

/-- Fold every page in which a tower holds partials (R179). -/
def State.foldPages (s : State) : List Partial → State
  | [] => s
  | q :: qs => (s.foldPage q.pa q.size).foldPages qs
def State.foldTower (s : State) (tower : Nat) : State := s.foldPages (s.mem.partials.filter fun q => q.tower == tower)

/-- REDC combines a value into the tower's partial (R179, R348). -/
def State.combine (s : State) (tower : Nat) (p : Place) (v : Nat) : State :=
  match s.mem.partials.find? fun q => q.tower == tower && q.pa == p.pa with
  | some q =>
    { s with mem := { s.mem with
        partials := s.mem.partials.map fun x => if x == q then { q with val := foldOp p.cfmt.toNat q.val v } else x } }
  | none =>
    let q : Partial := { tower := tower, pa := p.pa, size := p.size, cfmt := p.cfmt, key := p.key, val := v }
    { s with mem := { s.mem with partials := s.mem.partials ++ [q] } }

/-! ### Reads and writes of memory by device agents -/

/-- Read local memory at a place for an agent of a tower, or for the hub: a combining page folds first, the hub takes a host line on the coherent route. -/
def State.devRead (s : State) (tower : Option Nat) (p : Place) (n : Nat) : List Byte × State :=
  (if p.share == 3 then s.foldPage p.pa p.size else s).plainRead tower p.key.toNat p.entry p.pa n

/-- Write local memory at a place, into the caches of a tower or at the hub. -/
def State.devWrite (s : State) (via : Option Nat) (p : Place) (bs : List Byte) : State :=
  let ls := linesAt p.pa bs.length
  let s := if p.share == 3 then s.foldPage p.pa p.size else s
  let s := (s.fromHost ls).meetKey p.key.toNat ls
  let s : State := if via.isNone then { s with mem := s.mem.settleLines ls } else s
  let s := s.writePhys via p.key.toNat p.pa bs
  let s := if p.cmp then s.packLines via p.key.toNat ls else s
  { s with mem := { s.mem with stale := s.mem.stale.dropRange p.pa (p.pa + bs.length) } }

/-- The place of an access that the hub makes itself at a physical address, under key ID 0. -/
def hubPlace (pa : Nat) : Place where
  node := none
  pa := pa
  size := 4096
  key := 0
  home := 0
  cmp := false
  share := 0
  cfmt := 0
  rmt := false

/-- An access to a tower's caches: at the hub, its point of coherence, when its page says so or its scope is that wide and it is .nc or atomic (R160, R162). -/
def atHub (tower : Nat) (nc : Bool) (sc : Scope) : Option Nat := if nc && (sc == .pkg || sc == .sys) then none else some tower

/-- The request type by which an access is performed (R160); on the non-coherent route to the host nothing is cached (R180). -/
def Place.eff (p : Place) (ty : RType) : RType :=
  if p.share == 3 || p.home == 1 || p.node.isSome || (paRegion p.pa == 0xE && !hostCoherent p.pa) then .nc else if ty == .dflt then .own else ty

/-- A load of this type leaves copies of a read-only-shared peer line in this package (R77, R78). -/
def Place.keeps (p : Place) (ty : RType) : Bool := p.node.isSome && p.share == 2 && p.home != 1 && ty != .nc

/-- Bytes of a peer's line that this package holds (R78). -/
def State.remoteBytes (s : State) (p : Place) (n : Nat) : Option (List Byte) :=
  match p.node with
  | none => none
  | some w =>
    let at' := fun i => s.mem.remote.get? (w.toNat * 2 ^ 52 + p.pa + i)
    if (List.range n).all fun i => (at' i).isSome then some ((List.range n).map fun i => (at' i).getD 0) else none

/-- A line of a peer's memory enters the caches of this package (R77, R78): bytes that have come, bytes that are there, and for the others what the peer sends (log entry 18). -/
def State.keepLine (s : State) (node : BitVec 12) (pa : Nat) (bs : List Byte) : State :=
  let at' := node.toNat * 2 ^ 52 + pa / 128 * 128
  let o := pa % 128
  let (more, s) := s.freeBytes 128
  let line := (List.range 128).map fun i =>
    (at' + i, if o ≤ i && i < o + bs.length then bs.getD (i - o) 0 else (s.mem.remote.get? (at' + i)).getD (more.getD i 0))
  { s with mem := { s.mem with remote := s.mem.remote.splice at' (at' + 128) line } }

/-- The lines of a stretch of a peer's memory enter the caches of this package. -/
def State.keepLines (s : State) (node : BitVec 12) (pa : Nat) (bs : List Byte) : List Nat → State
  | [] => s
  | l :: ls =>
    let lo := Nat.max pa (128 * l)
    (s.keepLine node lo ((bs.drop (lo - pa)).take (128 * l + 128 - lo))).keepLines node pa bs ls

/-- What an access that is no thread's load reads of a peer's memory: copies that this package holds, or what the peer sends (R63, R77, R78; log entry 18). -/
def State.remoteRead (s : State) (p : Place) (n : Nat) : List Byte × State :=
  match p.node with
  | none => ([], s)
  | some w =>
    if p.keeps .dflt then
      match s.remoteBytes p n with
      | some bs => (bs, s)
      | none => let (bs, s) := s.freeBytes n; (bs, s.keepLines w p.pa bs (linesAt p.pa n))
    else s.freeBytes n

/-- What a thread's load of local memory returns (R161): a relaxed .wt or .si load may return the copy in its core's L1. -/
def State.loadBytes (s : State) (pcore : Nat) (p : Place) (ty : RType) (relaxed : Bool) (n : Nat) : List Byte × State :=
  let (now, s) := s.devRead (some (pcTower pcore)) p n
  let line := p.pa / 128
  if relaxed && (p.eff ty == .wt || p.eff ty == .si) then
    let fresh := s.readUnder p.key.toNat (line * 128) 128
    match s.l1Copy pcore line p.key with
    | none => (now, s.l1Put pcore line p.key fresh)
    | some c =>
      let (b, s) := s.freeChoice
      if b then ((c.drop (p.pa % 128)).take n, s) else (now, s.l1Put pcore line p.key fresh)
  else (now, s.l1Note pcore p.pa p.key now)

/-- A thread's write to local memory, into its tower's caches or at the hub. -/
def State.storeBytes (s : State) (pcore : Nat) (via : Option Nat) (p : Place) (bs : List Byte) : State :=
  (s.devWrite via p bs).l1Note pcore p.pa p.key bs

/-- The tag that a write leaves (R173). -/
def State.tagWrite (s : State) (pa : Nat) (ord : Order) (sc : Scope) (fs : Option Scope) (a : Agent) : State :=
  match ord with
  | .rel | .ar => s.setTag pa (sc, a)
  | _ => match fs with
    | some f => s.setTag pa (f, a)
    | none => s

/-! ### Atomic operations (R346, R347) -/

/-- The new value of ATOM and RED. -/
def atopVal (op n old v : Nat) : Nat :=
  let w := 8 * n
  match op with
  | 0 => (old + v) % 2 ^ w
  | 1 => if signed w old ≤ signed w v then old else v
  | 2 => if old ≤ v then old else v
  | 3 => if signed w v ≤ signed w old then old else v
  | 4 => if v ≤ old then old else v
  | 5 => old &&& v
  | 6 => old ||| v
  | 7 => old ^^^ v
  | 8 => v
  | _ => (faddOf .f32 .rne false old v).1

/-- What an RMW writes: none when a CAS fails (R347). -/
def AOp.apply (op : AOp) (old data : List Byte) : Option (List Byte) :=
  match op with
  | .atop c => some (leBytes data.length (atopVal c.toNat data.length (leNat old) (leNat data)))
  | .cas c => if old == c then some data else none

/-! ### What holds an access back -/

/-- Two accesses share a byte. -/
def Loc.overlaps (x : Loc) (n : Nat) (y : Loc) (m : Nat) : Bool :=
  match x, y with
  | .glob va p, .glob vb q => (p.node == q.node && overlap p.pa n q.pa m) || overlap va.toNat n vb.toNat m
  | .spad k a, .spad j b => k == j && overlap a n b m
  | _, _ => false

/-- The scope in which an access to a place is ordered: system scope for host memory, whatever its suffix (R180). -/
def Place.wide (p : Place) (sc : Scope) : Scope := if p.node.isNone && paRegion p.pa == 0xE then .sys else sc

/-- The scope in which an access is ordered. -/
def Req.wide (r : Req) : Scope :=
  match r.loc with
  | .glob _ p => p.wide r.sc
  | .spad _ _ => r.sc

/-- The threads of an access that still receive its result (R317). -/
def Req.threads (r : Req) : List Nat := (r.tid :: r.mates).filter fun i => !r.dead.contains i

/-- The access is one of thread i of a team, as it is now or, with gone, as it was before it exited. -/
def Req.isOf (r : Req) (k i : Nat) (gone : Bool) : Bool := r.team == k && (r.tid :: r.mates).contains i && r.dead.contains i == gone

/-- Two accesses of one thread. -/
def Req.kin (r q : Req) : Bool := (r.tid :: r.mates).any fun i => q.isOf r.team i (r.dead.contains i)

/-- A load. -/
def Act.isLoad : Act → Bool
  | .load _ _ => true
  | _ => false

/-- An access that only reads memory. -/
def Act.onlyReads : Act → Bool
  | .load _ _ | .accld _ _ _ _ _ | .elem _ none => true
  | _ => false

/-- The operation of an act, when it is an RMW. -/
def Act.rmw : Act → Bool
  | .atomic _ _ _ _ | .redc _ => true
  | _ => false
def Act.aop : Act → Option AOp
  | .atomic _ op _ _ => some op
  | _ => none

/-- An access touches local bytes. -/
def Req.touches (r : Req) (pa n : Nat) : Bool :=
  match r.loc with
  | .glob _ p => p.node.isNone && overlap p.pa r.size pa n
  | .spad _ _ => false

/-- The first byte of a tile operand in a page that it touches (R383, R413). -/
def tileFirst (stride : Nat) (w : Word) (base : DWord) (page : Nat) : DWord :=
  let es := match bitsOf w.toNat 30 28 with | 0 => 4 | 1 | 2 => 2 | _ => 1
  let lo := 4096 * page
  if lo ≤ base.toNat then base
  else
    let row := base.toNat + (lo - base.toNat) / stride * stride
    BitVec.ofNat 64 (if lo < row + 128 * es then lo else row + stride)

/-- The VAs and places of an access: for a tile operand, one a page, with the first byte of the operand there. -/
def Req.places (r : Req) : List (DWord × Place) :=
  match r.loc, r.act with
  | .glob va _, .accld _ st w _ ps | .glob va _, .accst _ st w _ ps => ps.map fun e => (tileFirst st w va e.1, e.2)
  | .glob va p, _ => [(va, p)]
  | .spad _ _, _ => []

/-- The VAs of the dirty bytes that a map word will write back (R159). -/
def State.backVas (s : State) (q : Req) : List Nat :=
  match q.act with
  | .unmap off _ => (((s.team? q.team).bind fun t => t.maps.find? (·.off == off)).map fun m => m.dirty.map fun x => (m.va + BitVec.ofNat 64 (x - m.off)).toNat).getD []
  | _ => []

/-- A map word writes back bytes that another access touches. -/
def State.backMeets (s : State) (q r : Req) : Bool :=
  match r.loc with
  | .glob va _ => (s.backVas q).any fun a => overlap va.toNat r.size a 1
  | .spad _ _ => false

/-- An access waits for an older one of its thread to the same location, write-backs of its maps among them; an element for none of its own word's (R164). -/
def State.waitsFor (s : State) (r q : Req) : Bool :=
  q.id < r.id && q.kin r && !(match r.act with | .elem p _ => p == q.id | _ => false) &&
    (q.loc.overlaps q.size r.loc r.size || s.backMeets q r || s.backMeets r q)

/-- Same-thread accesses to one location are performed in program order (R164). -/
def State.inOrder (s : State) (r : Req) : Bool := s.reqs.all fun q => !s.waitsFor r q

/-- Cycles in which runs and sector transfers may start, as the tower's throttle state allows (R29, R30). -/
def State.runCycle (s : State) (tower : Nat) : Bool := s.now % 8 < 8 - (s.tower tower).therm.hst.toNat

/-- A write to a failed tower or through a far-tier port whose link is down (R50, R82). -/
def State.writeFails (s : State) (p : Place) : Bool :=
  p.node.isNone && ((s.inDram p.pa && (s.tower (paRegion p.pa)).failed) ||
    (paRegion p.pa == 0xD && (match s.fab.farPort (paLocal p.pa) with | some (q, _) => s.fab.farDown.contains q | none => false)))

/-- Transfers between a core's stratum and its base die are held (R51). -/
def State.stratumHolds (s : State) (pcore : Nat) : Bool :=
  let st := pcStratum pcore
  if h : st < 5 then ((s.tower (pcTower pcore)).tsv[st]).pauseTill.isSome else false

/-- Memory keeps back an access from a core (R25, R43, R45, R51, R110, R176). -/
def State.memHolds (s : State) (pcore : Nat) (own : Option Nat) (p : Place) (n : Nat) : Bool :=
  s.towerHolds p.pa || s.stratumHolds pcore || s.owned own p.pa n || s.hub.keyWork.any fun w => w.id == p.key

/-! ### Stores that are visible early, and RMWs whose read is performed (R168, R171) -/

/-- The agent of an access. -/
def State.reqAgent (s : State) (r : Req) : Agent :=
  match s.team? r.team with
  | some t => s.agentOf t
  | none => .hub s.fab.node

/-- Two agents are mutually scoped at their scopes (R163). -/
def bothScoped (a : Agent) (sa : Scope) (b : Agent) (sb : Scope) : Bool := inScope a sa b && inScope b sb a

/-- An RMW that has read and not written keeps back the writes with which it is mutually scoped (R168). -/
def State.rmwHeld (s : State) (a : Agent) (sc : Scope) (pa n : Nat) : Bool :=
  s.reqs.any fun q => q.got.isSome && q.touches pa n && bothScoped (s.reqAgent q) q.wide a sc

/-- Memory keeps back an access that the hub makes, and a RMW between its read and its write does (R25, R43, R45, R51, R110, R168, R176). -/
def State.hubHolds (s : State) (key : BitVec 10) (pa n : Nat) : Bool :=
  s.towerHolds pa || s.owned none pa n || s.rmwHeld (.hub s.fab.node) .sys pa n || s.hub.keyWork.any fun w => w.id == key

/-- A write is visible before its package instant on a core: its own, or those of its tower (R171). -/
def State.earlyOn (s : State) (q : Req) (pcore : Nat) : Bool :=
  q.early && match s.team? q.team with
    | some t => if q.sc == .team then t.pcore == pcore else pcTower t.pcore == pcTower pcore
    | none => false

/-- An access shows bytes before its package instant. -/
def Req.shows (q : Req) (pa n : Nat) : Bool := q.shown.any fun e => overlap e.1 e.2.length pa n

/-- Bytes of which a core already reads a write that is not performed (R171). -/
def State.earlyAt (s : State) (pcore pa n : Nat) : Bool := s.reqs.any fun q => q.shows pa n && s.earlyOn q pcore

/-- An access reads a write that is visible early on its core: one of no wider scope than the write's (R171). -/
def readsEarly (r q : Req) : Bool := r.act.onlyReads && (r.sc == .team || r.sc == q.sc)

/-- Another access keeps this one from n bytes: an RMW between its read and its write, a write that is visible early to others, or one that its thread has read in a race (R164, R167, R168, R171). -/
def State.clash (s : State) (r : Req) (pcore pa n : Nat) : Bool :=
  s.reqs.any fun q => q.id != r.id &&
    ((q.touches pa n && q.got.isSome && !r.act.onlyReads && bothScoped (s.reqAgent q) q.wide (s.reqAgent r) r.wide) ||
      (q.shows pa n && s.earlyOn q pcore && !readsEarly r q) ||
      (q.touches pa n || q.shows pa n) && (q.seen.any fun x => x.1 == r.team && (r.tid :: r.mates).contains x.2) &&
        -- the read that has taken bytes of it goes on
        !(r.act.onlyReads && r.peeked.any fun e => q.touches e.1 1 || q.shows e.1 1))

/-- An access to local memory under a key cannot be performed yet (R25, R43, R45, R51, R110, R171, R176). -/
def State.holds (s : State) (pcore : Nat) (own : Option Nat) (p : Place) (n : Nat) : Bool :=
  s.memHolds pcore own p n || s.earlyAt pcore p.pa n

/-- Accesses outstanding on a core (R139). -/
def State.coreLoad (s : State) (pcore : Nat) : Nat :=
  s.reqs.countP fun r => (match r.act with | .elem _ _ => false | _ => true) && match s.team? r.team with | some t => t.pcore == pcore | none => false

/-! ### The side log (R178, R199, R200) -/

/-- A team holds its place on a core (R120). -/
def Team.placed (t : Team) : Bool := t.status == .resident || t.status == .saving

/-- Entries of a core's log: those of a saved team are in its save slot (R202). -/
def State.coreLog (s : State) (pcore : Nat) : Nat :=
  s.sideLog.countP fun e => match s.team? e.team with | some t => t.pcore == pcore && t.placed | none => false

/-- The log of a core is full (R199). -/
def State.logFull (s : State) (pcore : Nat) : Bool := 256 ≤ s.coreLog pcore

/-- Pending entries of a thread, as it now is, that overlap bytes. -/
def State.logOver (s : State) (k i : Nat) (va : DWord) (n : Nat) : List LogEntry :=
  s.sideLog.filter fun e => e.team == k && e.tid == i && !e.gone && overlap e.va.toNat e.size va.toNat n

/-- Pending entries of the thread of an access, as it was when that issued, that overlap bytes (R178, R317). -/
def State.reqLog (s : State) (r : Req) (va : DWord) (n : Nat) : List LogEntry :=
  s.sideLog.filter fun e => e.team == r.team && e.tid == r.tid && e.gone == r.dead.contains r.tid && overlap e.va.toNat e.size va.toNat n

/-- The thread's pending stores over bytes read from memory, oldest first; those older than id (R200). -/
def State.overLog (s : State) (k i : Nat) (va : DWord) (before : Nat) (bs : List Byte) : List Byte :=
  ((s.logOver k i va bs.length).filter fun e => !e.reduction && e.id < before).foldl
    (fun b e => (List.range b.length).map fun x =>
      let a := va.toNat + x
      if e.va.toNat ≤ a && a < e.va.toNat + e.size then e.data.getD (a - e.va.toNat) 0 else b.getD x 0) bs

/-- A tile store or a write-back of the thread that is still to come writes some of the bytes (R164, R178). -/
def State.writeAhead (s : State) (k i : Nat) (va : DWord) (n : Nat) : Bool :=
  s.reqs.any fun q => q.isOf k i false && match q.act, q.loc with
    | .accst _ _ _ _ _, .glob vb _ => overlap va.toNat n vb.toNat q.size
    | .unmap _ _, _ => (s.backVas q).any fun a => overlap va.toNat n a 1
    | _, _ => false

/-- Every byte is covered by pending stores of the thread, none by a pending reduction (R200), and no write of the thread over them is still to come. -/
def State.covered (s : State) (k i : Nat) (va : DWord) (n : Nat) : Bool :=
  let es := s.logOver k i va n
  !es.isEmpty && !s.writeAhead k i va n && es.all (!·.reduction) &&
    (List.range n).all fun x => es.any fun e => e.va.toNat ≤ va.toNat + x && va.toNat + x < e.va.toNat + e.size

end Sys2Proof.Machine
end

