-- ==== Sys2Proof/Machine/Cells.lean ====
section
/-!
DEFINITION. Cells and bulk packets on their way to peers (R63 to R71, R76): their fields, the queues per destination, and what the hub itself writes to a peer.
-/
namespace Sys2Proof.Machine

/-! ### The queues of a pair (R67, R68, R71) -/

/-- A pair of nodes between which nothing has passed: its first slot with both queues holding cells serves the replies, and its round-robins begin at tower 0
and each tower's lowest core (log entry 14). -/
def Peer.blank (n : BitVec 12) : Peer where
  node := n
  requests := []
  replies := []
  tags := []
  sent := 0
  acked := 0
  landed := 0
  ahead := []
  waiting := []
  lastReply := false
  lastTower := 12
  lastCore := []
  hubCells := []
  flights := []

/-- The state of the pair with node n. -/
def State.pairOf (s : State) (n : BitVec 12) : Peer := (s.fab.peers.find? fun p => p.node == n).getD (Peer.blank n)

/-- Replace the state of a pair. -/
def State.putPair (s : State) (p : Peer) : State :=
  { s with fab := { s.fab with
      peers := if s.fab.peers.any (fun q => q.node == p.node) then s.fab.peers.map fun q => if q.node == p.node then p else q
        else s.fab.peers ++ [p] } }

/-- A request tag that no outstanding request of the pair uses (R64): the lowest (log entry 14). -/
def Peer.freeTag (p : Peer) : Option Nat := (List.range 256).find? fun t => !p.tags.any fun x => x.1 == t

/-! ### Cells (R64, R65, R76) -/

/-- A payload from its bytes, byte 0 in bits [7:0]. -/
def payloadOf (bs : List Byte) : BitVec 512 := BitVec.ofNat 512 (leNat bs)
/-- Bytes lo to lo + n - 1 of a payload. -/
def cellBytes (c : Cell) (lo n : Nat) : List Byte := leBytes n (c.payload.toNat / 2 ^ (8 * lo))
/-- A little-endian field of a payload. -/
def cellField (c : Cell) (lo n : Nat) : Nat := leNat (cellBytes c lo n)

/-- A cell to a peer with its header (R64). -/
def State.cellTo (s : State) (p : Peer) (typ : BitVec 4) (tag : Nat) (rel : Bool) (pay : List Byte) : Cell where
  src := s.fab.node
  dst := p.node
  typ := typ
  bseq := if rel then p.sent else 0
  ack := p.landed
  tag := BitVec.ofNat 8 tag
  status := 0
  payload := payloadOf pay

/-- The payload of a load (R65). -/
def loadPay (pa size : Nat) (sc : Scope) : List Byte := leBytes 8 pa ++ leBytes 1 size ++ leBytes 1 (scopeCode sc)

/-- The payload of a store within one sector (R65). -/
def storePay (pa : Nat) (data : List Byte) (sc : Scope) : List Byte :=
  let o := pa % 32
  leBytes 8 (pa - o) ++ leBytes 4 ((2 ^ data.length - 1) * 2 ^ o) ++ leBytes 1 (scopeCode sc) ++ leBytes 3 0 ++
    overlay (List.replicate 32 0) o data

/-- The code of an order in an operation packet (R76). -/
def orderCode : Order → Nat
  | .rlx => 0 | .acq => 1 | .rel => 2 | .ar => 3

/-- The payload of an operation packet (R76). -/
def opPay (pa op size : Nat) (sc : Scope) (ord : Order) (ret : Bool) (x y : List Byte) : List Byte :=
  leBytes 8 pa ++ leBytes 1 op ++ leBytes 1 size ++ leBytes 1 (scopeCode sc + 4 * orderCode ord) ++ leBytes 1 (b2n ret) ++
    leBytes 4 0 ++ overlay (List.replicate 16 0) 0 x ++ overlay (List.replicate 16 0) 0 y

/-- Queue a request cell for request id of the model (0: the hub's own) (R64, R68). -/
def State.queueCell (s : State) (n : BitVec 12) (id : Nat) (typ : BitVec 4) (rel : Bool) (pay : List Byte) : State :=
  let p := s.pairOf n
  s.putPair { p with requests := p.requests ++ [(id, s.cellTo p typ 0 rel pay)] }

/-- An access of the hub to a peer waits for the request queue with its cells, each with the number of its ask (R65, R68). -/
def State.queueHub (s : State) (n : BitVec 12) (cs : List (Nat × Cell)) : State :=
  let p := s.pairOf n
  s.putPair { p with hubCells := p.hubCells ++ [cs] }

/-- The cells of a store to a peer, one a sector (R65); a release marks the last. -/
def State.storeCells (s : State) (p : Peer) (sc : Scope) (rel : Bool) : (fuel : Nat) → Nat → List Byte → List Cell
  | 0, _, _ => []
  | f + 1, pa, bs =>
    let room := 32 - pa % 32
    if bs.length ≤ room then [s.cellTo p (if rel then 5 else 2) 0 rel (storePay pa bs sc)]
    else s.cellTo p 2 0 false (storePay pa (bs.take room) sc) :: s.storeCells p sc rel f (pa + room) (bs.drop room)

/-- The 64-byte blocks that n bytes touch: the first byte and the bytes of each (R65). -/
def blocksAt : (fuel : Nat) → Nat → Nat → List (Nat × Nat)
  | 0, _, _ => []
  | f + 1, pa, n =>
    let room := 64 - pa % 64
    if n ≤ room then [(pa, n)] else (pa, room) :: blocksAt f (pa + room) (n - room)

/-! ### Bulk packets (R63, R70, R71) -/

/-- UPCOUNT (R74). -/
def Fabric.upCount (f : Fabric) : Nat := (List.range 64).countP fun p => f.upmask.getLsbD p

/-- The j-th up port in ascending order (R66). -/
def Fabric.upPort (f : Fabric) (j : Nat) : Option Nat := ((List.range 64).filter fun p => f.upmask.getLsbD p)[j]?

/-- The port of the packet for the line at a peer address: up port (A div 128) mod U, or the next that has its link (R70, R75). -/
def Fabric.bulkPort (f : Fabric) (pa : Nat) : BitVec 6 :=
  let ports := ((List.range f.upCount).map fun i => f.upPort ((pa / 128 + i) % f.upCount)).filterMap id
  BitVec.ofNat 6 (((ports.find? fun p => !f.portDown.getLsbD p).or ports.head?).getD 0)

/-- Send bytes of the line at a peer address on the bulk plane, numbered; x says whose write it is. -/
def State.bulkSend (s : State) (n : BitVec 12) (line : Nat) (bs : List (Nat × Byte)) (x : Flight) : State :=
  let p := s.pairOf n
  let b : Bulk := {
    src := s.fab.node, seq := p.sent + 1, line := BitVec.ofNat 52 line
    mask := BitVec.ofNat 128 (bs.foldl (fun m e => m ||| 2 ^ e.1) 0), data := bs.foldl (fun l e => l.set e.1 e.2) (List.replicate 128 0) }
  let s := s.putPair { p with sent := p.sent + 1, flights := p.flights ++ [{ x with seq := p.sent + 1 }] }
  { s with fab := { s.fab with bulkOut := s.fab.bulkOut ++ [(n, s.fab.bulkPort line, b)] } }

/-- Send a stretch of bytes on the bulk plane, a packet for each line. -/
def State.bulkRange (s : State) (n : BitVec 12) (pa : Nat) (bs : List Byte) (x : Flight) : List Nat → State
  | [] => s
  | l :: ls =>
    let cut := ((List.range bs.length).zip bs).filterMap fun e => if (pa + e.1) / 128 == l then some ((pa + e.1) % 128, e.2) else none
    (s.bulkSend n (128 * l) cut x).bulkRange n pa bs x ls

/-- A write that no thread makes. -/
def hubFlight : Flight where
  seq := 0
  team := 0
  tid := none
  page := 0

/-- Cells of the hub's own enter its queue toward a peer together, and their replies are awaited for who (R65): each cell with its first byte and its bytes. -/
def State.sendAsks (s : State) (n : BitVec 12) (who : Nat) (xs : List (Nat × Nat × Cell)) : List Nat × State :=
  let ys := (List.range xs.length).zip xs |>.map fun e => (s.nextKey + e.1, e.2)
  let s := s.queueHub n (ys.map fun e => (e.1, e.2.2.2))
  (ys.map (·.1), { s with
    nextKey := s.nextKey + xs.length
    fab := { s.fab with asks := s.fab.asks ++ ys.map fun e =>
      { id := e.1, who := who, node := n, pa := e.2.1, n := e.2.2.1, typ := e.2.2.2.typ, reply := none } } })

/-- The hub stores bytes to a peer for who (R63): up to 64 bytes, or with release order, on the sync plane, else on the bulk plane; the numbers of its cells. -/
def State.hubSend (s : State) (n : BitVec 12) (who : Nat) (sc : Scope) (rel : Bool) (pa : Nat) (bs : List Byte) : List Nat × State :=
  if rel || bs.length ≤ 64 then
    s.sendAsks n who ((s.storeCells (s.pairOf n) sc rel (bs.length + 1) pa bs).map fun c => (pa, bs.length, c))
  else ([], s.bulkRange n pa bs hubFlight (linesAt pa bs.length))

/-- Nothing is asked for who any more: replies that have come go, and those still to come count for nothing. -/
def State.forgetAsks (s : State) (who : Nat) : State :=
  if s.fab.asks.all fun a => a.who != who then s
  else { s with fab := { s.fab with asks := (s.fab.asks.filter fun a => a.who != who || a.reply.isNone).map fun a => if a.who == who then { a with who := 0 } else a } }

/-- The ask of a load of some bytes of a peer for who, with or without acquire order. -/
def State.askOf (s : State) (who : Nat) (n : BitVec 12) (acq : Bool) (x : Nat × Nat) : Option HubAsk :=
  s.fab.asks.find? fun a => a.who == who && a.node == n && a.pa == x.1 && a.n == x.2 && a.typ == (if acq then 6 else 1)

/-- Copies that this package holds answer a load of the hub (R77, R78). -/
def State.keptBytes (s : State) (p : Place) (m : Nat) (acq : Bool) : Option (List Byte) :=
  if acq || !p.keeps .dflt then none else s.remoteBytes p m

/-- A load of m bytes of a peer by the hub for who has been answered, or needs no cell: it finds copies, or is longer than 64 bytes and goes on the bulk plane, of which
nothing more is known (R63; log entry 18). -/
def State.asked (s : State) (who : Nat) (acq : Bool) (p : Place) (m : Nat) : Bool :=
  64 < m || (s.keptBytes p m acq).isSome ||
    (blocksAt 65 p.pa m).all fun x => ((s.askOf who (p.node.getD 0) acq x).bind (·.reply)).isSome

/-- Ask a peer for m bytes: a load cell for each 64-byte block that has none yet (R63, R65). -/
def State.askBytes (s : State) (who : Nat) (acq : Bool) (p : Place) (m : Nat) : State :=
  let n := p.node.getD 0
  if s.asked who acq p m then s
  else
    match (blocksAt 65 p.pa m).filter fun x => (s.askOf who n acq x).isNone with
    | [] => s
    | xs => (s.sendAsks n who (xs.map fun x => (x.1, x.2, s.cellTo (s.pairOf n) (if acq then 6 else 1) 0 false (loadPay x.1 x.2 .pkg)))).2

/-- What the hub has read of a peer: the copies that it holds, what the replies brought, or what comes on the bulk plane (log entry 18); none when the peer refused it. -/
def State.takeAsked (s : State) (who : Nat) (acq : Bool) (p : Place) (m : Nat) : Option (List Byte) × State :=
  match s.keptBytes p m acq with
  | some bs => (some bs, s)
  | none =>
    if 64 < m then let (bs, s) := s.remoteRead p m; (some bs, s)
    else
      let n := p.node.getD 0
      let as := (blocksAt 65 p.pa m).filterMap (s.askOf who n acq)
      let s : State := { s with fab := { s.fab with asks := s.fab.asks.filter fun a => !as.any fun b => b.id == a.id } }
      if as.length != (blocksAt 65 p.pa m).length || as.any fun a => ((a.reply.map (·.1)).getD cUncorrectable) != 0 then (none, s)
      else
        let bs := as.flatMap fun a => ((a.reply.map (·.2)).getD []).take a.n
        (some bs, if p.keeps .dflt then s.keepLines n p.pa bs (linesAt p.pa m) else s)

/-! ### What the hub reads and writes in an address space (R114, R116, R118, R129) -/

/-- The hub's own TLB stands after those of the twelve towers (R189). -/
def hubTlb : Nat := 12

/-- The hub's access to n bytes at a VA, for who, cannot be made yet: memory keeps it back (R25, R43, R45, R51, R110, R172, R176), or a peer has not answered. -/
def State.hubBusy (s : State) (who : Nat) (acq : Bool) (root : DWord) : (fuel : Nat) → DWord → Nat → Bool
  | 0, _, _ => false
  | f + 1, va, n =>
    if n == 0 then false
    else
      let m := Nat.min n (4096 - va.toNat % 4096)
      match (s.translate none hubTlb root va .load .dflt).1 with
      | .ok p => (if p.node.isNone then s.hubHolds p.key p.pa m else !s.asked who acq p m) || s.hubBusy who acq root f (va + BitVec.ofNat 64 m) (n - m)
      | .held => true
      | _ => false

/-- A step of the hub on n bytes at an address under key ID 0: memory may keep it back, which sends it a retry (R45). -/
def State.hubTry (s : State) (a n : Nat) (f : State → State) : State := if s.hubHolds 0 a n then s.retryAt a else f s

/-- What the hub does while it cannot make such an access: it asks the peers, and a bank under refresh sends it a retry (R45, R65). -/
def State.hubWant (s : State) (who : Nat) (acq : Bool) (root : DWord) : (fuel : Nat) → DWord → Nat → State
  | 0, _, _ => s
  | f + 1, va, n =>
    if n == 0 then s
    else
      let m := Nat.min n (4096 - va.toNat % 4096)
      match s.translate none hubTlb root va .load .dflt with
      | (.ok p, _) => (if p.node.isNone then s.retryAt p.pa else s.askBytes who acq p m).hubWant who acq root f (va + BitVec.ofNat 64 m) (n - m)
      | (.held, s) => s
      | _ => s

/-- The hub reads n bytes at a VA without faulting, page by page: none when a byte is not translated, refused or poisoned (R114). -/
def State.hubRead (s : State) (who : Nat) (acq : Bool) (root : DWord) : (fuel : Nat) → DWord → Nat → Option (List Byte) × State
  | 0, _, _ => (some [], s)
  | f + 1, va, n =>
    if n == 0 then (some [], s)
    else
      let m := Nat.min n (4096 - va.toNat % 4096)
      match s.translate none hubTlb root va .load .dflt with
      | (.ok p, s) =>
        let r : Option (List Byte) × State :=
          if p.node.isSome then s.takeAsked who acq p m
          else if (s.badByte p.key.toNat p.pa m).isSome then (none, s.spoil p.key.toNat p.pa m)
          else let (bs, s) := s.devRead none p m; (some bs, s)
        match r with
        | (none, s) => (none, s)
        | (some bs, s) =>
          match s.hubRead who acq root f (va + BitVec.ofNat 64 m) (n - m) with
          | (some cs, s) => (some (bs ++ cs), s)
          | (none, s) => (none, s)
      | (_, s) => (none, s)

/-- The hub's write of n bytes at a VA cannot be made yet: memory keeps it back (R25, R43, R45, R51, R110, R168, R176). -/
def State.hubStoreBusy (s : State) (root : DWord) : (fuel : Nat) → DWord → Nat → Bool
  | 0, _, _ => false
  | f + 1, va, n =>
    if n == 0 then false
    else
      let m := Nat.min n (4096 - va.toNat % 4096)
      match (s.translate none hubTlb root va .store .dflt).1 with
      | .ok p => (p.node.isNone && s.hubHolds p.key p.pa m) || s.hubStoreBusy root f (va + BitVec.ofNat 64 m) (n - m)
      | .held => true
      | _ => false

/-- A bank under refresh sends a retry to such a write (R45). -/
def State.hubStoreWant (s : State) (root : DWord) : (fuel : Nat) → DWord → Nat → State
  | 0, _, _ => s
  | f + 1, va, n =>
    if n == 0 then s
    else
      let m := Nat.min n (4096 - va.toNat % 4096)
      match s.translate none hubTlb root va .store .dflt with
      | (.ok p, _) => (if p.node.isNone then s.retryAt p.pa else s).hubStoreWant root f (va + BitVec.ofNat 64 m) (n - m)
      | (.held, s) => s
      | _ => s

/-- What a write of the hub comes to: refused, done, or sent to a peer in some cells. -/
inductive HubOut where
  | refused
  | done
  | sent (ids : List Nat)
  deriving DecidableEq, Repr

/-- The hub writes bytes that lie in one page at a VA for who, with release order at a scope when sc names one (R116, R173). -/
def State.hubWrite (s : State) (who : Nat) (root va : DWord) (bs : List Byte) (sc : Option Scope) : HubOut × State :=
  match s.translate none hubTlb root va .store .dflt with
  | (.ok p, s) =>
    match p.node with
    | some n => let (ids, s) := s.hubSend n who (sc.getD .pkg) sc.isSome p.pa bs; (.sent ids, s)
    | none =>
      if s.writeFails p then (.refused, s)
      else
        let s := s.devWrite none p bs
        (.done, match sc with | some x => s.setTag p.pa (x, .hub s.fab.node) | none => s)
  | (_, s) => (.refused, s)

/-- The hub writes bytes across pages. -/
def State.hubWriteN (s : State) (who : Nat) (root : DWord) : (fuel : Nat) → DWord → List Byte → Bool × State
  | 0, _, _ => (true, s)
  | f + 1, va, bs =>
    if bs.isEmpty then (true, s)
    else
      let m := 4096 - va.toNat % 4096
      match s.hubWrite who root va (bs.take m) none with
      | (.refused, s) => (false, s)
      | (_, s) => s.hubWriteN who root f (va + BitVec.ofNat 64 m) (bs.drop m)

end Sys2Proof.Machine
end

