-- ==== Sys2Proof/Machine/Integer.lean ====
section
/-!
DEFINITION. The INT class: arithmetic, comparison, logic, shifts, bit fields, permutation and moves (R292 to R311).
-/
namespace Sys2Proof.Machine

/-- A word's outcome: the next state. -/
abbrev Out := Host.Outcome State Fault Refusal

/-- Lo and Hi of a type (R295). -/
def loOf (n : Bool) (w : Nat) : Int := if n then 0 else -(2 ^ (w - 1) : Nat)
def hiOf (n : Bool) (w : Nat) : Int := if n then (2 ^ w : Nat) - 1 else (2 ^ (w - 1) : Nat) - 1

/-- Clamp into [lo, hi]. -/
def clampInt (lo hi r : Int) : Int := if r < lo then lo else if hi < r then hi else r

/-- The bits an exact result leaves in a destination of w bits (R295); n selects the unsigned type. -/
def narrow (n sat : Bool) (w : Nat) (r : Int) : Nat := wrapN w (if sat then clampInt (loOf n w) (hiOf n w) r else r)

/-- Bits read under a type: n unsigned, else two's complement (R292). -/
def intOf (n : Bool) {w : Nat} (v : BitVec w) : Int := if n then (v.toNat : Int) else v.toInt

/-- A 32-bit result. -/
def out32 (n sat : Bool) (r : Int) : AluOut := .val [BitVec.ofNat 32 (narrow n sat 32 r)] 0
/-- A 64-bit result, in a pair. -/
def out64 (n sat : Bool) (r : Int) : AluOut := .val (words64 (BitVec.ofNat 64 (narrow n sat 64 r))) 0
/-- Raw bits. -/
def outWord (w : Word) : AluOut := .val [w] 0

/-- SAT of a word (R295). -/
def satOf (o : Alu) : Bool := (srcExt o.b).sat

/-- A word of two 32-bit integers under a type. -/
def State.int2 (s : State) (i : Instr) (n : Bool) (o : Alu) (f : Int → Int → Int) : State :=
  s.alu i o.d fun t => out32 n (satOf o) (f (intOf n (t.reg o.a)) (intOf n (t.b32 o.b)))

/-- A word of two 32-bit integers and the old g[D] (R292). -/
def State.int3 (s : State) (i : Instr) (n : Bool) (o : Alu) (f : Int → Word → Word → Int) : State :=
  s.alu i o.d fun t => out32 n (satOf o) (f (intOf n (t.reg o.d)) (t.reg o.a) (t.b32 o.b))

/-- A word of raw bits (R303). -/
def State.logic2 (s : State) (i : Instr) (o : Alu) (f : Word → Word → Word) : State :=
  s.alu i o.d fun t => outWord (f (t.reg o.a) (t.b32 o.b))

/-- A word of raw bits that reads c too. -/
def State.logic3 (s : State) (i : Instr) (o : Alu) (f : Word → Word → Word → Word) : State :=
  s.alu i o.d fun t => outWord (f (t.reg o.a) (t.b32 o.b) (t.reg (srcExt o.b).c))

/-- ADD (R297). -/
def execAdd (n : Bool) (o : Alu) (s : State) : Out := .next (s.int2 (.add n o) n o fun a b => a + b)
/-- SUB (R297). -/
def execSub (n : Bool) (o : Alu) (s : State) : Out := .next (s.int2 (.sub n o) n o fun a b => a - b)
/-- NEG (R297). -/
def execNeg (o : Alu) (s : State) : Out :=
  .next (s.alu (.neg o) o.d fun t => out32 false (satOf o) (-(t.reg o.a).toInt))
/-- ABS (R297). -/
def execAbs (o : Alu) (s : State) : Out :=
  .next (s.alu (.abs o) o.d fun t => out32 false (satOf o) ((t.reg o.a).toInt.natAbs : Int))
/-- MIN (R297). -/
def execMin (n : Bool) (o : Alu) (s : State) : Out := .next (s.int2 (.min n o) n o fun a b => if a ≤ b then a else b)
/-- MAX (R297). -/
def execMax (n : Bool) (o : Alu) (s : State) : Out := .next (s.int2 (.max n o) n o fun a b => if a ≤ b then b else a)

/-- The condition of SETC (R298). -/
def condInt (c : Nat) (a b : Int) : Bool :=
  match c with
  | 0 => a == b
  | 1 => a != b
  | 2 => decide (a < b)
  | 3 => decide (a ≤ b)
  | 4 => decide (b < a)
  | _ => decide (b ≤ a)

/-- SETC (R298). -/
def execSetc (n : Bool) (o : Alu) (s : State) : Out :=
  .next (s.alu (.setc n o) o.d fun t =>
    outWord (if condInt ((srcExt o.b).fn.toNat % 8) (intOf n (t.reg o.a)) (intOf n (t.b32 o.b)) then 1 else 0))

/-- SEL (R299). -/
def execSel (o : Alu) (s : State) : Out := .next (s.logic3 (.sel o) o fun a b c => if c != 0 then a else b)

/-- MULLO (R300). -/
def execMullo (n : Bool) (o : Alu) (s : State) : Out := .next (s.int2 (.mullo n o) n o fun a b => a * b)
/-- MULHI: the floor of the product over 2^32 (R300). -/
def execMulhi (n : Bool) (o : Alu) (s : State) : Out := .next (s.int2 (.mulhi n o) n o fun a b => Int.fdiv (a * b) (2 ^ 32 : Nat))
/-- MAD (R300). -/
def execMad (n : Bool) (o : Alu) (s : State) : Out :=
  .next (s.int3 (.mad n o) n o fun d a b => d + intOf n a * intOf n b)
/-- MULW (R300). -/
def execMulw (n : Bool) (o : Alu) (s : State) : Out :=
  .next (s.alu (.mulw n o) o.d fun t => out64 n false (intOf n (t.reg o.a) * intOf n (t.b32 o.b)))
/-- MADW (R300). -/
def execMadw (n : Bool) (o : Alu) (s : State) : Out :=
  .next (s.alu (.madw n o) o.d fun t =>
    out64 n (satOf o) (intOf n (t.reg64 o.d) + intOf n (t.reg o.a) * intOf n (t.b32 o.b)))

/-- ADD64 (R301). -/
def execAdd64 (n : Bool) (o : Alu) (s : State) : Out :=
  .next (s.alu (.add64 n o) o.d fun t => out64 n (satOf o) (intOf n (t.reg64 o.a) + intOf n (t.b64 o.b)))
/-- SUB64 (R301). -/
def execSub64 (n : Bool) (o : Alu) (s : State) : Out :=
  .next (s.alu (.sub64 n o) o.d fun t => out64 n (satOf o) (intOf n (t.reg64 o.a) - intOf n (t.b64 o.b)))

/-- Part k of a word, w bits wide, under a type (R302). -/
def partOf (n : Bool) (w k : Nat) (v : Word) : Int := intOf n (v.extractLsb' (w * k) w)

/-- SAD (R302). -/
def execSad (n : Bool) (o : Alu) (s : State) : Out :=
  .next (s.int3 (.sad n o) n o fun d a b => d + ((intOf n a - intOf n b).natAbs : Int))
/-- DP4I8 (R302). -/
def execDp4i8 (n : Bool) (o : Alu) (s : State) : Out :=
  .next (s.int3 (.dp4i8 n o) n o fun d a b =>
    d + partOf n 8 0 a * partOf n 8 0 b + partOf n 8 1 a * partOf n 8 1 b +
      partOf n 8 2 a * partOf n 8 2 b + partOf n 8 3 a * partOf n 8 3 b)
/-- DP2I16 (R302). -/
def execDp2i16 (n : Bool) (o : Alu) (s : State) : Out :=
  .next (s.int3 (.dp2i16 n o) n o fun d a b => d + partOf n 16 0 a * partOf n 16 0 b + partOf n 16 1 a * partOf n 16 1 b)

/-- AND (R303). -/
def execAnd (o : Alu) (s : State) : Out := .next (s.logic2 (.and o) o fun a b => a &&& b)
/-- OR (R303). -/
def execOr (o : Alu) (s : State) : Out := .next (s.logic2 (.or o) o fun a b => a ||| b)
/-- XOR (R303). -/
def execXor (o : Alu) (s : State) : Out := .next (s.logic2 (.xor o) o fun a b => a ^^^ b)
/-- ANDN (R303). -/
def execAndn (o : Alu) (s : State) : Out := .next (s.logic2 (.andn o) o fun a b => a &&& ~~~b)
/-- ORN (R303). -/
def execOrn (o : Alu) (s : State) : Out := .next (s.logic2 (.orn o) o fun a b => a ||| ~~~b)
/-- NOT (R303). -/
def execNot (o : Alu) (s : State) : Out := .next (s.alu (.not o) o.d fun t => outWord (~~~(t.reg o.a)))

/-- The word whose bit i is p i. -/
def wordOfBits (p : Nat → Bool) : Word := BitVec.ofNat 32 (sumNat ((List.range 32).map fun i => if p i then 2 ^ i else 0))

/-- TLOG: bit i is FN[a_i + 2 b_i + 4 c_i] (R304). -/
def tlogOf (fn : BitVec 14) (a b c : Word) : Word :=
  wordOfBits fun i => fn.getLsbD (b2n (a.getLsbD i) + 2 * b2n (b.getLsbD i) + 4 * b2n (c.getLsbD i))
def execTlog (o : Alu) (s : State) : Out := .next (s.logic3 (.tlog o) o (tlogOf (srcExt o.b).fn))

/-- SHL (R305). -/
def shlOf (a b : Word) : Word := if 32 ≤ b.toNat then 0 else a <<< b.toNat
def execShl (o : Alu) (s : State) : Out := .next (s.logic2 (.shl o) o shlOf)
/-- SHR (R305). -/
def shrOf (a b : Word) : Word := if 32 ≤ b.toNat then 0 else a >>> b.toNat
def execShr (o : Alu) (s : State) : Out := .next (s.logic2 (.shr o) o shrOf)
/-- SAR (R305). -/
def sarOf (a b : Word) : Word := a.sshiftRight (Nat.min b.toNat 31)
def execSar (o : Alu) (s : State) : Out := .next (s.logic2 (.sar o) o sarOf)
/-- ROL (R305). -/
def rolOf (a b : Word) : Word := a.rotateLeft (b.toNat % 32)
def execRol (o : Alu) (s : State) : Out := .next (s.logic2 (.rol o) o rolOf)
/-- SHF: the low word of a:b shifted right by c mod 64 (R306). -/
def shfOf (a b c : Word) : Word := BitVec.ofNat 32 ((a.toNat * 2 ^ 32 + b.toNat) / 2 ^ (c.toNat % 64))
def execShf (o : Alu) (s : State) : Out := .next (s.logic3 (.shf o) o shfOf)

/-- pos and len of BFX and BFI (R307). -/
def fieldPos (b : Word) : Nat := b.toNat % 32
def fieldLen (b : Word) : Nat := Nat.min (bitsOf b.toNat 13 8) (32 - fieldPos b)

/-- BFX (R307). -/
def bfxOf (n : Bool) (a b : Word) : Word :=
  let len := fieldLen b
  let f := a.toNat / 2 ^ fieldPos b % 2 ^ len
  if len == 0 then 0 else BitVec.ofNat 32 (if n then f else wrapN 32 (signed len f))
def execBfx (n : Bool) (o : Alu) (s : State) : Out := .next (s.logic2 (.bfx n o) o (bfxOf n))

/-- BFI (R307). -/
def bfiOf (d a b : Word) : Word :=
  let m : Word := BitVec.ofNat 32 ((2 ^ fieldLen b - 1) * 2 ^ fieldPos b)
  (d &&& ~~~m) ||| ((a <<< fieldPos b) &&& m)
def execBfi (o : Alu) (s : State) : Out :=
  .next (s.alu (.bfi o) o.d fun t => outWord (bfiOf (t.reg o.d) (t.reg o.a) (t.b32 o.b)))

/-- POPC (R308). -/
def popcOf (a : Word) : Word := BitVec.ofNat 32 (sumNat ((List.range 32).map fun i => b2n (a.getLsbD i)))
def execPopc (o : Alu) (s : State) : Out := .next (s.alu (.popc o) o.d fun t => outWord (popcOf (t.reg o.a)))
/-- CLZ (R308). -/
def clzOf (a : Word) : Word := BitVec.ofNat 32 (if a == 0 then 32 else 31 - a.toNat.log2)
def execClz (o : Alu) (s : State) : Out := .next (s.alu (.clz o) o.d fun t => outWord (clzOf (t.reg o.a)))
/-- CTZ (R308). -/
def ctzOf (a : Word) : Word := BitVec.ofNat 32 (((List.range 32).find? fun i => a.getLsbD i).getD 32)
def execCtz (o : Alu) (s : State) : Out := .next (s.alu (.ctz o) o.d fun t => outWord (ctzOf (t.reg o.a)))
/-- BREV (R308). -/
def brevOf (a : Word) : Word := wordOfBits fun i => a.getLsbD (31 - i)
def execBrev (o : Alu) (s : State) : Out := .next (s.alu (.brev o) o.d fun t => outWord (brevOf (t.reg o.a)))

/-- One byte of PERM from its selector (R309). -/
def permByte (a b : Word) (sel : Nat) : Byte :=
  let x : DWord := b ++ a
  let v : Byte := x.extractLsb' (8 * (sel % 8)) 8
  let v := if bitOf sel 4 then v.reverse else v
  let v := if bitOf sel 5 then ~~~v else v
  if bitOf sel 3 then 0 else v
/-- PERM (R309). -/
def permOf (a b c : Word) : Word :=
  permByte a b (bitsOf c.toNat 31 24) ++ permByte a b (bitsOf c.toNat 23 16) ++
    permByte a b (bitsOf c.toNat 15 8) ++ permByte a b (bitsOf c.toNat 7 0)
def execPerm (o : Alu) (s : State) : Out := .next (s.logic3 (.perm o) o permOf)

/-- MOV (R310). -/
def execMov (o : Alu) (s : State) : Out := .next (s.alu (.mov o) o.d fun t => outWord (t.b32 o.b))
/-- MOVH: the raw bits of g[A], pending or not (R310). -/
def execMovh (o : Alu) (s : State) : Out := .next (s.alu (.movh o) o.d fun t => outWord (t.reg o.a))
/-- LEA (R311). -/
def execLea (o : Alu) (s : State) : Out :=
  .next (s.alu (.lea o) o.d fun t =>
    .val (words64 (t.reg64 o.a + (t.leaIndex o.b <<< ((srcExt o.b).fn.toNat % 8)))) 0)

end Sys2Proof.Machine
end

