-- ==== Sys2Proof/Machine/Mem.lean ====
section
/-!
DEFINITION. The MEM class as its words issue (R338 to R355): addresses, checks, translation, requests, the side log, fences, cache control and maps.
-/
namespace Sys2Proof.Machine

/-! ### Shared parts -/

/-- Bytes of a size code (R339). -/
def sizeBytes : Size → Nat
  | .b8 => 1 | .b16 => 2 | .b32 => 4 | .b64 => 8 | .b128 => 16

/-- The signed byte offset of a literal word (R338). -/
def litOff (lit : Option Word) : DWord := (lit.getD 0).signExtend 64
/-- The 24-bit offset of ATOM and RED (R346). -/
def atopOff (lit : Option Word) : DWord := ((lit.getD 0).extractLsb' 0 24).signExtend 64
/-- ATOP (R346). -/
def atopOf (lit : Option Word) : BitVec 8 := (lit.getD 0).extractLsb' 24 8

/-- The data that a store of n bytes takes from registers on from d (R339). -/
def Thread.data (t : Thread) (d : Reg) (n : Nat) : List Byte := (bytesOfWords (t.regN d ((n + 3) / 4))).take n

/-- The registers that n loaded bytes give (R339). -/
def loadWords (n : Nat) (bs : List Byte) : List Word := leWords ((n + 3) / 4) (bs.take n)

/-- Order annotations (R342). -/
def isRel : Order → Bool | .rel | .ar => true | _ => false
def isAcq : Order → Bool | .acq | .ar => true | _ => false

/-- The word is not issued in this cycle and nothing changes but time (R139). -/
def State.stall (s : State) : State := { s with cur := none }

/-- Every counter has room and the core has room for one more access (R139, R146). -/
def State.room (s : State) (c : Issue) (f : Option (Fin 12)) : Bool :=
  (c.all.all fun i => match s.thread? c.k i with | some t => t.flagRoom f | none => true) && s.coreLoad c.team.pcore < 1024

/-- The members wait before the word (R134 reason 9, R139). -/
def State.awaitResource (s : State) (c : Issue) (i : Instr) : State :=
  s.modThreads c.k c.all fun t => { t with st := .waiting .resource, word := some i }

/-- The members wait for the release prerequisites of the word (R134 reason 7, R342). -/
def State.awaitRelease (s : State) (c : Issue) (i : Instr) : State :=
  (s.modThreads c.k c.mates fun t => { t with st := .waiting .release, word := none, mates := [] }).modThread c.k c.lead fun t =>
    { t with st := .waiting .release, word := some i, mates := c.mates }

/-- The members wait for the completion and check of the word (R134 reason 8). -/
def State.awaitCheck (s : State) (c : Issue) (i : Instr) : State :=
  s.modThreads c.k c.all fun t => { t with st := .waiting .check, word := some i }

/-- The members complete the word and go on in their run. -/
def State.goOn (s : State) (c : Issue) (i : Instr) : State := s.finish c.k c.all i id

/-- The members complete the word, which ends their run (R342). -/
def State.goReady (s : State) (c : Issue) (i : Instr) : State :=
  s.modThreads c.k c.all fun t => t.leave i s.now

/-- The agent that tags a line for a member's access: the leader (R173). -/
def Issue.fs (c : Issue) : Option Scope := c.thr.fscope

/-- Put an access among those outstanding; the members' flags count it (R146, R341). -/
def State.addReq (s : State) (c : Issue) (f : Option (Fin 12)) (act : Act) (loc : Loc) (n : Nat) (sc : Scope) (ord : Order) (ty : RType) : State :=
  let r : Req := {
    id := s.nextKey, team := c.k, tid := c.lead, mates := c.mates, flag := f, act := act, loc := loc, size := n
    sc := sc, ord := ord, ty := ty, phase := .pending, at_ := c.thr.pc, fs := c.fs
    after := (s.mmas.filter fun m => m.team == c.k).map (·.id)
    dead := [], iw := c.w, early := false, seen := [], peeked := [], vals := none, landed := [], got := none }
  { s.modThreads c.k c.all (·.flagUp f) with nextKey := s.nextKey + 1, reqs := s.reqs ++ [r] }

/-- The trap of an address that is not a multiple of n (R340). -/
def misaligned (addr : DWord) (n : Nat) : Trap where
  cause := cMisaligned
  addr := addr
  info := BitVec.ofNat 32 n.log2

/-- ACCESS_VIOLATION with a TINFO code (R205). -/
def accessTrap (addr : DWord) (code : Nat) : Trap where
  cause := cAccess
  addr := addr
  info := BitVec.ofNat 32 code

/-- The members are held at the word by a fault (R197), or until the fault table has a free entry (R193). -/
def State.holdFault (s : State) (c : Issue) (va : DWord) (k : FKind) (reason level : Nat) (need : BitVec 3) : State :=
  match s.teamFault c.team va k reason level need with
  | (some fid, s) => s.modThreads c.k c.all fun t => { t with st := .held fid va }
  | (none, s) => s.modThreads c.k c.all fun t => { t with st := .held heldTable va }

/-- Translate an access that holds its thread when it faults (R190, R197): the place, if it may be sent. -/
def State.reach (s : State) (c : Issue) (va : DWord) (k : Kind) (ty : RType) : Option Place × State :=
  match s.xteam c.team va k ty with
  | (.ok p, s) => (some p, s)
  | (.trap cause code, s) => (none, s.trapAll c.k c.all { cause := cause, addr := va, info := BitVec.ofNat 32 code })
  | (.fault r l, s) => (none, s.holdFault c va .load r l (needOf k))
  | (.held, s) => (none, s.stall)

/-- The alignment check of a global access (R340). -/
def alignTrap (c : Issue) (o : MemOp) (off : DWord) : Option Trap :=
  if (c.thr.reg64 o.a + off).toNat % sizeBytes o.z != 0 then some (misaligned (c.thr.reg64 o.a + off) (sizeBytes o.z)) else none

/-- An access at its act, which reads its registers (R147): its checks hold for what it reads. -/
def State.checked (s : State) (c : Issue) (tr : Option Trap) (act : State) : State := match tr with | some tr => s.trapAll c.k c.all tr | none => act

/-- A gated word with its effective address: the alignment check (R340), room (R139), and the release half of its order (R342), then act. -/
def State.globalWord (s : State) (i : Instr) (o : MemOp) (off : DWord) (act : State → Issue → State) : State :=
  match s.gate i with
  | (s, none) => s
  | (s, some c) =>
    match alignTrap c o off with
    | some tr => s.trapAll c.k c.all tr
    | none =>
    if isRel o.ord then s.awaitRelease c i
    else if !s.room c (flagOf c.hdr o.g) then s.stall
    else act s c

/-! ### Loads -/

/-- What LDH makes of the loaded word x for thread i (R355, R374). -/
def State.handle (s : State) (k i : Nat) (d : Reg) (x : Word) : State :=
  match s.team? k with
  | none => s
  | some t =>
    if x.extractLsb' 30 2 == 0 then s.modThread k i (·.setReg d x)
    else
      match t.future? x with
      | some f => if f.resolved then s.modThread k i (·.setReg d f.status) else s.modThread k i (·.setPend d x)
      | none => s.takeTrap k i { cause := cFutureInvalid, addr := ((t.threads[i]?).map (·.pc)).getD 0, info := x }

/-- A load issues: bytes wholly in the thread's pending stores come at once (R200); otherwise it is translated and sent. -/
def State.sendLoad (s : State) (i : Instr) (c : Issue) (f : Option (Fin 12)) (d : Reg) (n : Nat) (va : DWord) (o : MemOp) (hnd : Bool) : State :=
  if s.covered c.k c.lead va n then
    let bs := s.overLog c.k c.lead va s.nextKey (List.replicate n 0)
    let x : Word := BitVec.ofNat 32 (leNat bs)
    if hnd then
      -- a handle that is no token of the team traps at the word
      if x.extractLsb' 30 2 == 0 || (c.team.future? x).isSome then
        let s := (s.handle c.k c.lead d x).goReady c i
        if isAcq o.ord then s.l1Acquire c.team.pcore o.sc else s
      else s.handle c.k c.lead d x
    else
      let s := s.modThreads c.k c.all fun t => t.setRegs d (loadWords n bs)
      if isAcq o.ord then (s.goReady c i).l1Acquire c.team.pcore o.sc else s.goOn c i
  else
    match s.reach c va .load o.rt with
    | (none, s) => s
    | (some p, s) =>
      let s := s.addReq c f (.load d hnd) (.glob va p) n o.sc o.ord o.rt
      if isAcq o.ord || hnd then s.awaitCheck c i else s.goOn c i

/-- LD and its kin at their act. -/
def actLoad (i : Instr) (o : MemOp) (hnd : Bool) (s : State) (c : Issue) : State :=
  s.sendLoad i c (flagOf c.hdr o.g) o.d (sizeBytes o.z) (c.thr.reg64 o.a + litOff o.lit) o hnd

/-- LD (R344). -/
def execLd (o : MemOp) (s : State) : Out := .next (s.globalWord (.ld o) o (litOff o.lit) (actLoad (.ld o) o false))
/-- LDACQ (R344). -/
def execLdacq (o : MemOp) (s : State) : Out := .next (s.globalWord (.ldacq o) o (litOff o.lit) (actLoad (.ldacq o) o false))
/-- LDH (R355). -/
def execLdh (o : MemOp) (s : State) : Out := .next (s.globalWord (.ldh o) o (litOff o.lit) (actLoad (.ldh o) o true))

/-! ### Stores and reductions -/

/-- A store or reduction retires into the side log (R197, R199), or its thread waits while the log is full. -/
def State.toLog (s : State) (i : Instr) (c : Issue) (va : DWord) (red : Bool) (op : Byte) (data : List Byte) (o : MemOp) (fid : Option Nat) : State :=
  if s.logFull c.team.pcore then s.awaitResource c i
  else
    let e : LogEntry := {
      id := s.nextKey, team := c.k, tid := c.lead, va := va, reduction := red, size := data.length, op := op, ty := o.rt
      sc := o.sc, ord := o.ord, data := data, fid := fid, fs := c.fs, gone := false, iw := c.w }
    ({ s with nextKey := s.nextKey + 1, sideLog := s.sideLog ++ [e] }).goOn c i

/-- The CFMT check of REDC (R348). -/
def redcOk (p : Place) (n : Nat) : Bool := p.share == 3 && p.cfmt.toNat ≤ 4 && cfmtBytes p.cfmt.toNat == n

/-- The bit of HATOMCAP that lets an atomic of n bytes travel on the non-coherent route (R106). -/
def atomBit (op : AOp) (n : Nat) : Option Nat :=
  match op, n with
  | .cas _, 4 => some 1
  | .cas _, 8 => some 2
  | .cas _, 16 => some 3
  | .atop 0, 4 => some 4
  | .atop 0, 8 => some 5
  | _, _ => none

/-- An atomic on the non-coherent host route that PCIe cannot carry (R106). -/
def State.atomRefused (s : State) (p : Place) (op : Option AOp) (n : Nat) : Bool :=
  p.node.isNone && paRegion p.pa == 0xE && bitsOf p.pa 47 46 == 1 &&
    match op.bind fun x => atomBit x n with
    | some b => !s.hub.hatomcap.getLsbD (b - 1)
    | none => true

/-- ATOMIC_UNSUPPORTED (R205). -/
def atomTrap (va : DWord) (i : Instr) : Trap where
  cause := cAtomic
  addr := va
  info := wordOf i

/-- A store or reduction issues (R344, R348, R349): behind a pending entry of its thread it enters the log (R178); a fault sends it there (R197). -/
def State.sendStore (s : State) (i : Instr) (c : Issue) (f : Option (Fin 12)) (va : DWord) (k : Kind) (act : Act) (op : Byte) (data : List Byte) (o : MemOp) : State :=
  let red := k != .store
  if !(s.logOver c.k c.lead va data.length).isEmpty then s.toLog i c va red op data o none
  else
    match s.xteam c.team va k o.rt with
    | (.trap cause code, s) => s.trapAll c.k c.all { cause := cause, addr := va, info := BitVec.ofNat 32 code }
    | (.held, s) => s.stall
    | (.fault r l, s) =>
      if s.logFull c.team.pcore then s.awaitResource c i
      else
        match s.teamFault c.team va (if red then .reduction else .store) r l (needOf k) with
        | (none, s) => s.modThreads c.k c.all fun t => { t with st := .held heldTable va }
        | (some fid, s) => s.toLog i c va red op data o (some fid)
    | (.ok p, s) =>
      if k == .redc && !redcOk p data.length then s.trapAll c.k c.all (accessTrap va 7)
      else if act.rmw && s.atomRefused p act.aop data.length then s.trapAll c.k c.all (atomTrap va i)
      else if s.writeFails p then s.trapAll c.k c.all { cause := cUncorrectable, addr := va, info := 0 }
      else (s.addReq c f act (.glob va p) data.length o.sc o.ord o.rt).goOn c i

/-- ST, STREL and STH at their act. -/
def actStore (i : Instr) (o : MemOp) (s : State) (c : Issue) : State :=
  let data := c.thr.data o.d (sizeBytes o.z)
  s.checked c (alignTrap c o (litOff o.lit)) (s.sendStore i c (flagOf c.hdr o.g) (c.thr.reg64 o.a + litOff o.lit) .store (.store data) 0 data o)

/-- RED at its act. -/
def actRed (o : MemOp) (s : State) (c : Issue) : State :=
  let data := c.thr.data o.d (sizeBytes o.z)
  s.checked c (alignTrap c o (atopOff o.lit))
    (s.sendStore (.red o) c (flagOf c.hdr o.g) (c.thr.reg64 o.a + atopOff o.lit) .red (.atomic o.d (.atop (atopOf o.lit)) data false) (atopOf o.lit) data o)

/-- REDC at its act. -/
def actRedc (o : MemOp) (s : State) (c : Issue) : State :=
  let data := c.thr.data o.d (sizeBytes o.z)
  s.sendStore (.redc o) c (flagOf c.hdr o.g) (c.thr.reg64 o.a + litOff o.lit) .redc (.redc data) 0xFF data o

/-- ST (R344). -/
def execSt (o : MemOp) (s : State) : Out := .next (s.globalWord (.st o) o (litOff o.lit) (actStore (.st o) o))
/-- STREL (R344). -/
def execStrel (o : MemOp) (s : State) : Out := .next (s.globalWord (.strel o) o (litOff o.lit) (actStore (.strel o) o))
/-- STH (R355). -/
def execSth (o : MemOp) (s : State) : Out := .next (s.globalWord (.sth o) o (litOff o.lit) (actStore (.sth o) o))
/-- RED (R346). -/
def execRed (o : MemOp) (s : State) : Out := .next (s.globalWord (.red o) o (atopOff o.lit) (actRed o))
/-- REDC (R348). -/
def execRedc (o : MemOp) (s : State) : Out := .next (s.globalWord (.redc o) o (litOff o.lit) (actRedc o))

/-! ### Atomics -/

/-- An ATOM or CAS issues: over a pending entry of its thread it is held until the entry has replayed (R199). -/
def State.sendAtomic (s : State) (i : Instr) (c : Issue) (o : MemOp) (va : DWord) (op : AOp) (data : List Byte) : State :=
  if !(s.logOver c.k c.lead va data.length).isEmpty then s.modThreads c.k c.all fun t => { t with st := .held (heldAtomic data.length) va }
  else
    match s.reach c va .atomic o.rt with
    | (none, s) => s
    | (some p, s) =>
      if s.atomRefused p (some op) data.length then s.trapAll c.k c.all (atomTrap va i)
      else
        let s := s.addReq c (flagOf c.hdr o.g) (.atomic o.d op data true) (.glob va p) data.length o.sc o.ord o.rt
        if isAcq o.ord then s.awaitCheck c i else s.goOn c i

/-- ATOM at its act. -/
def actAtom (o : MemOp) (s : State) (c : Issue) : State :=
  s.checked c (alignTrap c o (atopOff o.lit))
    (s.sendAtomic (.atom o) c o (c.thr.reg64 o.a + atopOff o.lit) (.atop (atopOf o.lit)) (c.thr.data o.d (sizeBytes o.z)))

/-- The registers that hold the swap value (R347). -/
def swapReg (z : Size) (d : Reg) : Reg := match z with | .b64 => d + 2 | .b128 => d + 4 | _ => d + 1

/-- CAS and CAS128 at their act. -/
def actCas (i : Instr) (o : MemOp) (s : State) (c : Issue) : State :=
  let n := sizeBytes o.z
  s.checked c (alignTrap c o (litOff o.lit)) (s.sendAtomic i c o (c.thr.reg64 o.a + litOff o.lit) (.cas (c.thr.data o.d n)) (c.thr.data (swapReg o.z o.d) n))

/-- ATOM (R346). -/
def execAtom (o : MemOp) (s : State) : Out := .next (s.globalWord (.atom o) o (atopOff o.lit) (actAtom o))
/-- CAS (R347). -/
def execCas (o : MemOp) (s : State) : Out := .next (s.globalWord (.cas o) o (litOff o.lit) (actCas (.cas o) o))
/-- CAS128 (R347). -/
def execCas128 (o : MemOp) (s : State) : Out := .next (s.globalWord (.cas128 o) o (litOff o.lit) (actCas (.cas128 o) o))

/-! ### Scratchpad (R345) -/

/-- The effective offset (R345). -/
def Thread.spadOff (t : Thread) (o : MemOp) : Nat :=
  (t.reg o.a + ((o.lit.getD 0).extractLsb' 0 24).signExtend 32).toNat
/-- The cluster rank that the word names (R345). -/
def Thread.spadRank (t : Thread) (o : MemOp) (own : Nat) : Nat :=
  if peerBit o.lit then (t.reg (o.a + 1)).toNat % 16 else own

/-- Scratchpad bytes of a team's launch. -/
def State.spadSize (s : State) (t : Team) : Nat := s.lfield t (·.spad)

/-- Teams of a cluster of the team's launch. -/
def State.clusterSize (s : State) (t : Team) : Nat := s.lfield t (·.cluster)

/-- The line of a mapped region whose fill the access must wait for (R159): none when there is nothing to fill. -/
def Team.needsFill (t : Team) (off : Nat) : Option (SpadMap × Nat) :=
  match t.mapAt off with
  | none => none
  | some m =>
    let line := off / 128 * 128
    if m.filled.contains line || (m.filling.get? line).isSome then none else some (m, line)

/-- Start the fill of a mapped line for a team (R159): its global place is fixed at that moment, and the map unit keeps the translation (R192). -/
def State.startFill (s : State) (k line : Nat) (p : Place) : State :=
  s.modTeam k fun t => { t with maps := t.maps.map fun m =>
    let va := (m.va + BitVec.ofNat 64 (line - m.off)).toNat
    if m.off ≤ line && line < m.off + m.len then
      { m with filling := m.filling.put line p, pages := m.pages.put (va / 4096) { p with pa := p.pa - va % 4096 } }
    else m }

/-- The fill that an access by the members to team u at an offset needs; none: the members trapped or are held. -/
def State.fillFor (s : State) (c : Issue) (u : Team) (off : Nat) : Option Unit × State :=
  match u.needsFill off with
  | none => (some (), s)
  | some (m, line) =>
    let va := m.va + BitVec.ofNat 64 (line - m.off)
    match s.xteam u va .load .dflt with
    | (.ok p, s) => (some (), s.startFill u.key line p)
    | (.trap cause code, s) => (none, s.trapAll c.k c.all { cause := cause, addr := va, info := BitVec.ofNat 32 code })
    | (.fault r l, s) => (none, s.holdFault c va .fill r l 1)
    | (.held, s) => (none, s.stall)

/-- Lines of mapped regions that a word reads as it issues are filled first, as any local access fills them (R159; log entry 27); false: the members
wait for a fill, trapped or are held. -/
def State.fillNow (s : State) (c : Issue) (i : Instr) : List Nat → Bool → Bool × State
  | [], w => if w then (false, s.awaitResource c i) else (true, s)
  | l :: r, w =>
    match (s.team? c.k).bind fun t => (t.mapAt l).map fun m => (t, m) with
    | none => s.fillNow c i r w
    | some (t, m) =>
      if m.filled.contains l then s.fillNow c i r w
      else if (m.filling.get? l).isSome then s.fillNow c i r true
      else
        let va := m.va + BitVec.ofNat 64 (l - m.off)
        match s.xteam t va .load .dflt with
        | (.trap cause code, s) => (false, s.trapAll c.k c.all { cause := cause, addr := va, info := BitVec.ofNat 32 code })
        | (.fault r l, s) => (false, s.holdFault c va .fill r l 1)
        | (.held, s) => (false, s.stall)
        | (.ok p, s) =>
          if p.node.isNone && (s.badByte p.key.toNat p.pa 128).isSome then
            (false, (s.spoil p.key.toNat p.pa 128).trapAll c.k c.all { cause := cUncorrectable, addr := va, info := 0 })
          else (s.startFill t.key l p).fillNow c i r true

/-- The lines of n scratchpad bytes from an offset. -/
def spadLines (off n : Nat) : List Nat := (linesAt off n).map (128 * ·)

/-- The lines that a word of the ENG class reads of its team's scratchpad as it issues. -/
def wordLines (t : Team) (th : Thread) : Instr → List Nat
  | .waita o | .copy o | .mma o => spadLines ((th.reg o.a).toNat) 1
  | .tbinit o | .tbinitRearm o | .tbarv o | .tbexp o | .tbwait o | .cont o => spadLines ((th.reg o.a).toNat) 16
  | .stgwait o => spadLines ((th.reg o.a).toNat) (16 * ((o.lit.getD 0).toNat % 16 + 1))
  | .scld o => spadLines (16 * t.simg.toNat + 4 * (th.reg o.a).toNat) (4 * (th.reg o.b).toNat)
  | _ => []

/-- n bytes of a team's scratchpad as its thread i reads them at a word: its own earlier stores that are still to come are over them (R164, R166). -/
def State.spadSee (s : State) (t : Team) (i a n : Nat) : List Byte :=
  s.reqs.foldl (fun bs q =>
    match q.loc, q.act with
    | .spad k b, .store d =>
      if k == t.key && q.team == t.key && (q.tid :: q.mates).contains i then
        (List.range n).map fun j => if b ≤ a + j && a + j < b + d.length then d.getD (a + j - b) 0 else bs.getD j 0
      else bs
    | _, _ => bs) (t.spadN a n)

/-- The checks of a scratchpad access: alignment, bounds and rank (R158, R340). -/
def State.spadOpTrap (s : State) (c : Issue) (o : MemOp) : Option Trap :=
  let off := c.thr.spadOff o
  let n := sizeBytes o.z
  if off % n != 0 then some (misaligned (BitVec.ofNat 64 off) n)
  else if s.spadSize c.team < off + n || s.clusterSize c.team ≤ c.thr.spadRank o c.team.rank then some (accessTrap (BitVec.ofNat 64 off) 3)
  else none

/-- LDS and STS at their act: the access to the home of the bytes (R158). -/
def State.sendSpad (s : State) (i : Instr) (c : Issue) (o : MemOp) (act : Act) : State :=
  let off := c.thr.spadOff o
  let rank := c.thr.spadRank o c.team.rank
  let sc : Scope := if rank == c.team.rank then .team else .tower
  match s.peer? c.team rank with
  | none =>
    let s := s.addReq c (flagOf c.hdr o.g) act (.spad s.nextKey off) (sizeBytes o.z) sc o.ord o.rt
    if isAcq o.ord then s.awaitCheck c i else s.goOn c i
  | some u =>
    match s.fillFor c u off with
    | (none, s) => s
    | (some _, s) =>
      let s := s.addReq c (flagOf c.hdr o.g) act (.spad u.key off) (sizeBytes o.z) sc o.ord o.rt
      if isAcq o.ord then s.awaitCheck c i else s.goOn c i

/-- LDS at its act. -/
def actLds (o : MemOp) (s : State) (c : Issue) : State := s.checked c (s.spadOpTrap c o) (s.sendSpad (.lds o) c o (.load o.d false))
/-- STS at its act. -/
def actSts (o : MemOp) (s : State) (c : Issue) : State :=
  s.checked c (s.spadOpTrap c o) (s.sendSpad (.sts o) c o (.store (c.thr.data o.d (sizeBytes o.z))))

/-- LDS and STS: alignment, bounds and rank (R158, R340), room, the release half, then act. -/
def State.spadAccess (s : State) (i : Instr) (o : MemOp) (act : State → Issue → State) : State :=
  match s.gate i with
  | (s, none) => s
  | (s, some c) =>
    match s.spadOpTrap c o with
    | some tr => s.trapAll c.k c.all tr
    | none =>
    if isRel o.ord then s.awaitRelease c i
    else if !s.room c (flagOf c.hdr o.g) then s.stall
    else act s c

/-- LDS (R345). -/
def execLds (o : MemOp) (s : State) : Out := .next (s.spadAccess (.lds o) o (actLds o))
/-- STS (R345). -/
def execSts (o : MemOp) (s : State) : Out := .next (s.spadAccess (.sts o) o (actSts o))

/-! ### Hints, fences, cache control -/

/-- PREF (R351): it translates without faulting and changes no value. -/
def execPref (o : MemOp) (s : State) : Out :=
  .next (match s.gate (.pref o) with
    | (s, none) => s
    | (s, some c) =>
      ((s.probe (some c.team.pcore) (pcTower c.team.pcore) (s.root c.team) (c.thr.reg64 o.a + litOff o.lit)).2).goOn c (.pref o))

/-- FENCE after the release half, if it has one (R350). -/
def actFence (o : MemOp) (s : State) (c : Issue) : State :=
  let s := if isRel o.ord then s.modThreads c.k c.all fun t => { t with fscope := some o.sc } else s
  if isAcq o.ord then s.awaitCheck c (.fence o) else s.goReady c (.fence o)

/-- FENCE (R350). -/
def execFence (o : MemOp) (s : State) : Out :=
  .next (match s.gate (.fence o) with
    | (s, none) => s
    | (s, some c) => if isRel o.ord then s.awaitRelease c (.fence o) else actFence o s c)

/-- The lines that CWB and CINV act on: those that translate and are not refused (R352), as an address and a key ID; none while memory keeps a walk back. -/
def State.cacheLines (s : State) (t : Team) (va : DWord) : (n : Nat) → Option (List (Nat × Nat)) × State
  | 0 => (some [], s)
  | n + 1 =>
    match s.probe (some t.pcore) (pcTower t.pcore) (s.root t) va with
    | (.leaf _ p, s) =>
      let (l, s) := s.cacheLines t (va + 128) n
      if p.node.isNone && (s.step4 p .load .dflt).isNone then (l.map ((p.pa / 128 * 128, p.key.toNat) :: ·), s) else (l, s)
    | (.none, s) => s.cacheLines t (va + 128) n
    | (.held, s) => (none, s)

/-- CWB and CINV (R352). -/
def State.cacheWord (s : State) (i : Instr) (o : MemOp) (drop : Bool) : State :=
  match s.gate i with
  | (s, none) => s
  | (s, some c) =>
    let f := flagOf c.hdr o.g
    if !s.room c f then s.stall
    else
      let va := c.thr.reg64 o.a + litOff o.lit
      let first := BitVec.ofNat 64 (va.toNat / 128 * 128)
      match s.cacheLines c.team first (o.d.toNat + 1) with
      | (none, s) => s.stall
      -- the location of a cache operation covers no byte: it orders nothing
      | (some ls, s) => (s.addReq c f (.cache ls drop) (.spad c.k 0) 0 o.sc .rlx .dflt).goOn c i

/-- CWB (R352). -/
def execCwb (o : MemOp) (s : State) : Out := .next (s.cacheWord (.cwb o) o false)
/-- CINV (R352). -/
def execCinv (o : MemOp) (s : State) : Out := .next (s.cacheWord (.cinv o) o true)

/-! ### Maps (R353, R354) -/

/-- The maps of a team once the map words already issued have been performed: first offset and length (R354). -/
def State.mapsAhead (s : State) (t : Team) : List (Nat × Nat) :=
  (s.reqs.filter (·.team == t.key)).foldl (fun l r =>
    match r.act with
    | .maps off len _ => l ++ [(off, len)]
    | .unmap off false => l.filter (·.1 != off)
    | _ => l) (t.maps.map fun m => (m.off, m.len))

/-- The checks of MAPS in their order (R353). -/
def State.mapsTrap (s : State) (t : Team) (off len : Nat) (va : DWord) : Option Trap :=
  if off % 128 != 0 then some (misaligned (BitVec.ofNat 64 off) 128)
  else if len % 128 != 0 then some (misaligned (BitVec.ofNat 64 len) 128)
  else if va.toNat % 128 != 0 then some (misaligned va 128)
  else if len < 128 || s.spadSize t < off + len || (s.mapsAhead t).any (fun m => overlap m.1 m.2 off len) || 16 ≤ (s.mapsAhead t).length then
    some (accessTrap (BitVec.ofNat 64 off) 3)
  else if 2 ^ 56 < va.toNat + len then some (accessTrap va 1)
  else none

/-- MAPS (R353). -/
def execMaps (o : MemOp) (s : State) : Out :=
  .next (match s.gate (.maps o) with
    | (s, none) => s
    | (s, some c) =>
      let off := (c.thr.reg o.a).toNat
      let len := (o.lit.getD 0).toNat
      let va := c.thr.reg64 o.d
      match s.mapsTrap c.team off len va with
      | some tr => s.trapAll c.k c.all tr
      | none =>
        let f := flagOf c.hdr o.g
        if !s.room c f then s.stall
        else (s.addReq c f (.maps off len va) (.spad c.k off) 0 .team .rlx .dflt).goOn c (.maps o))

/-- The dirty lines of a map: lines, as scratchpad offsets, that hold a dirty byte. -/
def SpadMap.dirtyLines (m : SpadMap) : List Nat :=
  (List.range (m.len / 128)).map (fun j => m.off + 128 * j) |>.filter fun l => m.dirty.any fun x => l ≤ x && x < l + 128

/-- What lets a map word wait, trap or go on (R354): the first refusal at step 1 or 4 of R190 among lines that a write-back will store; none: memory keeps a walk back. -/
def State.linesTrap (s : State) (t : Team) (m : SpadMap) : List Nat → Option (Option Trap) × State
  | [] => (some none, s)
  | l :: ls =>
    let va := m.va + BitVec.ofNat 64 (l - m.off)
    match s.xteam t va .store .dflt with
    | (.trap cause code, s) => (some (some { cause := cause, addr := va, info := BitVec.ofNat 32 code }), s)
    | (.held, s) => (none, s)
    | (_, s) => s.linesTrap t m ls

/-- UNMAPS and WBS (R354). -/
def State.unmapWord (s : State) (i : Instr) (o : MemOp) (keep : Bool) : State :=
  match s.gate i with
  | (s, none) => s
  | (s, some c) =>
    let off := (c.thr.reg o.a).toNat
    if !(s.mapsAhead c.team).any (·.1 == off) then s.trapAll c.k c.all (accessTrap (BitVec.ofNat 64 off) 3)
    else
      match (match c.team.maps.find? (·.off == off) with
        | some m => s.linesTrap c.team m m.dirtyLines
        | none => (some none, s)) with
      | (none, s) => s.stall
      | (some (some tr), s) => s.trapAll c.k c.all tr
      | (some none, s) =>
        let f := flagOf c.hdr o.g
        if !s.room c f then s.stall
        else
          let s := s.addReq c f (.unmap off keep) (.spad c.k off) 0 .pkg .rlx .dflt
          -- the numbers of its write-backs as accesses of their own follow that of the word
          ({ s with nextKey := s.nextKey + s.spadSize c.team }).goOn c i

/-- UNMAPS (R354). -/
def execUnmaps (o : MemOp) (s : State) : Out := .next (s.unmapWord (.unmaps o) o false)
/-- WBS (R354). -/
def execWbs (o : MemOp) (s : State) : Out := .next (s.unmapWord (.wbs o) o true)

end Sys2Proof.Machine
end

