-- ==== Sys2Proof/Machine/Complete.lean ====
section
/-!
DEFINITION. Completion of memory accesses (R341): loads, stores, atomics, reductions, cache operations, maps and their fills, late traps (R413), and the replay of the side log (R199 to R201).
-/
namespace Sys2Proof.Machine

/-- An access is another, or an element of it. -/
def Req.within (q r : Req) : Bool := q.id == r.id || match q.act with | .elem of _ => of == r.id | _ => false

/-- An access leaves the outstanding ones, with its elements. -/
def State.dropReq (s : State) (r : Req) : State := { s with reqs := s.reqs.filter fun q => !q.within r }

/-- A thread that waits for the completion and check of its word goes on at the next word (R175). -/
def Thread.pass (t : Thread) (now : Nat) : Thread :=
  if t.st == .waiting .check then
    match t.word with
    | some i => t.leave i now
    | none => t
  else t

/-- The word of the access waits for it: an access of acquire order (R175), or LDH (R355). -/
def Req.awaited (r : Req) : Bool :=
  isAcq r.ord || match r.act with
    | .load _ hnd => hnd
    | _ => false

/-- The access ends: it is no longer outstanding, its flag counts down, and its members go on if their word waits for it. -/
def State.endReq (s : State) (r : Req) : State :=
  ((s.dropReq r).modThreads r.team r.threads fun t => if r.awaited then t.pass s.now else t).flagsDown r.team r.threads r.flag

/-- A member that waits for a release leaves its convoy's wait: the next member takes its place. -/
def State.leaveRelease (s : State) (k i : Nat) : State :=
  match s.thread? k i with
  | none => s
  | some t =>
    match t.word, t.mates with
    | some w, m :: ms => s.modThread k m fun u => { u with word := some w, mates := ms }
    | some _, [] => s
    | none, _ => s.modTeam k fun tm => { tm with threads := tm.threads.map fun u => { u with mates := u.mates.filter (· != i) } }

/-- A deferred trap of access n reaches its thread (R201): at once at the word of a release that waits, else as a late one. -/
def State.deferTrap (s : State) (k i n : Nat) (tr : Trap) : State :=
  match s.thread? k i with
  | none => s
  | some t => if t.st == .waiting .release then (s.leaveRelease k i).takeTrap k i tr else s.lateTrap k i n tr

/-- A cause that a store brings back once its thread has retired it is a deferred trap (R65, R201); any other is late (R76, R413). -/
def Req.defers (r : Req) : Bool :=
  match r.loc, r.act with
  | .glob _ _, .store _ | .glob _ _, .redc _ => true
  | .glob _ p, .atomic _ _ _ false => p.node.isNone
  | _, _ => false

/-- A deferred trap for every member (R201). -/
def State.deferAll (s : State) (k n : Nat) : List Nat → Trap → State
  | [], _ => s
  | i :: is, tr => (s.deferTrap k i n tr).deferAll k n is tr

/-- A late trap for every member (R413). -/
def State.lateAll (s : State) (k n : Nat) : List Nat → Trap → State
  | [], _ => s
  | i :: is, tr => (s.lateTrap k i n tr).lateAll k n is tr

/-- The TINFO of a cause that comes after the word, or as the answer to a fault: code 2 beside ACCESS_VIOLATION, and bit 8 when it is late or deferred (R205). -/
def failInfo (cause : Byte) (late : Bool) : Word :=
  BitVec.ofNat 32 ((if cause == cAccess then 2 else 0) + (if late then 256 else 0))

/-- The VA of an access. -/
def Loc.va : Loc → DWord
  | .glob va _ => va
  | .spad _ o => BitVec.ofNat 64 o

/-- A cause with its first failing address, as it comes after the word (R201, R205, R413). -/
def lateOf (cause : Byte) (addr : DWord) : Trap where
  cause := cause
  addr := addr
  info := failInfo cause true

/-- An access under a key ID whose key has gone while it was held (R54, R110). -/
def lateKey (addr : DWord) : Trap where
  cause := cAccess
  addr := addr
  info := 5 + 256

/-- An access ends with a late or deferred trap: no register of its threads changes, and a thread that has exited halts its team (R201, R413). -/
def State.failWith (s : State) (r : Req) (tr : Trap) : State :=
  let s := s.endReq r
  let s := if r.dead.isEmpty then s else s.haltTeam r.team tr.cause
  if r.defers then s.deferAll r.team r.id r.threads tr else s.lateAll r.team r.id r.threads tr

/-- An access ends with a cause (R201, R413). -/
def State.failReq (s : State) (r : Req) (cause : Byte) (addr : DWord) : State := s.failWith r (lateOf cause addr)

/-- The cause in a peer's reply (R65, R76): a failed check names its acquire's scope, and nothing of the tag. -/
def State.replyTrap (s : State) (r : Req) (cause : Byte) (va : DWord) : Trap × State :=
  if cause == cScope then
    let (x, s) := s.freeWord
    ({ cause := cScope, addr := va, info := BitVec.ofNat 32 (256 + 4 * scopeCode r.sc) ||| (x &&& 0x13) }, s)
  else (lateOf cause va, s)

/-- An access that a peer has refused. -/
def State.failReply (s : State) (r : Req) (cause : Byte) (va : DWord) : State := let (tr, s) := s.replyTrap r cause va; s.failWith r tr

/-- Older pending entries of its thread let an access pass: a load all but reductions, whose bytes it would read, any other access none (R178, R200). -/
def State.pastLog (s : State) (r : Req) (va : DWord) : Bool :=
  (s.reqLog r va r.size).all fun e => r.id < e.id || (r.act.onlyReads && !e.reduction)

/-- An access may be performed now: in program order with its thread's other accesses, after a pending reduction it would read, and with no hold on its memory. -/
def State.canPerform (s : State) (r : Req) : Bool :=
  match s.team? r.team with
  | none => false
  | some t =>
    s.inOrder r &&
    match r.loc with
    | .glob va p =>
      s.pastLog r va &&
      (match p.node with
        | some _ => (match r.phase with
          | .replied _ _ => true
          | .pending => r.act.isLoad && p.keeps r.ty && !isAcq r.ord && (s.remoteBytes p r.size).isSome
          | .sent => false)
        | none => !s.memHolds t.pcore none p r.size && !s.clash r t.pcore p.pa r.size)
    | .spad k off =>
      match s.team? k with
      | none => true
      | some u => (match u.mapAt off with | some m => (m.filling.get? (off / 128 * 128)).isNone | none => true)

/-- The tag of the line that a read meets; a peer does not say how its line is tagged, or whether it is (R174; log entry 35). -/
def State.readTag (s : State) (p : Place) : Option Tag × State :=
  match p.node with
  | none => (s.tagOf p.pa, s)
  | some n =>
    let (b, s) := s.freeChoice
    if b then let (x, s) := s.freeWord; (some (scopeAt x.toNat, .thread n 0 0 0), s) else (none, s)

/-- A relaxed read of a tagged line is remembered for the thread's next acquire fence (R174). -/
def State.noteRead (s : State) (r : Req) (va : DWord) (p : Place) : State :=
  if isAcq r.ord then s
  else
    match s.readTag p with
    | (none, s) => s
    | (some tg, s) => s.modThreads r.team r.threads fun t => { t with reads := t.reads ++ [(va, tg)] }

/-- The bytes at an address with others, at theirs, over them. -/
def bytesOver (pa : Nat) (bs : List Byte) (xs : List (Nat × List Byte)) : List Byte :=
  xs.foldl (fun b x => (List.range b.length).map fun i =>
    if x.1 ≤ pa + i && pa + i < x.1 + x.2.length then x.2.getD (pa + i - x.1) 0 else b.getD i 0) bs

/-- The bytes of a read with those of writes that its core reads early (R171), and those it has taken in a race (R167). -/
def State.earlyOver (s : State) (r : Req) (pcore pa : Nat) (bs : List Byte) : List Byte :=
  let bs := (s.reqs.filter fun q => q.shows pa bs.length && s.earlyOn q pcore && readsEarly r q).foldl (fun b q => bytesOver pa b q.shown) bs
  (List.range bs.length).map fun i => ((r.peeked.find? fun e => e.1 == pa + i).map (·.2)).getD (bs.getD i 0)

/-- What a read of global memory comes to: a trap, or the bytes, with the thread's own pending stores over them (R200). -/
def State.readGlobal (s : State) (r : Req) (pcore : Nat) (va : DWord) (p : Place) : (Trap ⊕ List Byte) × State :=
  match p.node with
  | some n =>
    match r.phase with
    | .replied 0 bs =>
      let s := if p.keeps r.ty then s.keepLine n p.pa (bs.take r.size) else s
      (.inr (s.overLog r.team r.tid va r.id (bs.take r.size)), s)
    | .replied c _ => let (tr, s) := s.replyTrap r c va; (.inl tr, s)
    | _ => (.inr (s.overLog r.team r.tid va r.id ((s.remoteBytes p r.size).getD (List.replicate r.size 0))), s)
  | none =>
    if !s.hub.keyOk p.key.toNat p.pa then (.inl (lateKey va), s)
    else
      match s.badByte p.key.toNat p.pa r.size with
      | some x => (.inl (lateOf cUncorrectable (va + BitVec.ofNat 64 (x - p.pa))), s.spoil p.key.toNat p.pa r.size)
      | none =>
        let (bs, s) := s.loadBytes pcore p r.ty (!isAcq r.ord) r.size
        let xs := s.earlyOver r pcore p.pa bs
        let s := if xs == bs then s else s.l1Note pcore p.pa p.key xs
        (.inr (s.overLog r.team r.tid va r.id xs), s)

/-- Write the destination of every member, but for registers that show the value already (R147). -/
def State.give (s : State) (r : Req) (d : Reg) (ws : List Word) : State :=
  s.modThreads r.team r.threads fun t => t.setRegsBut r.landed 0 d ws

/-- What a peer's scratchpad read gives: zeros once its team has completed (R158). -/
def State.readSpad (s : State) (k off n : Nat) : List Byte :=
  match s.team? k with
  | some u => if u.status == .complete then List.replicate n 0 else u.spadN off n
  | none => List.replicate n 0

/-- A store to scratchpad: dropped once its team has completed (R158). -/
def State.writeSpad (s : State) (k off : Nat) (bs : List Byte) : State :=
  match s.team? k with
  | some u => if u.status == .complete then s else s.spadWrite k off bs
  | none => s

/-- A load that meets the notify word of a completed copy observes its completion (R176): as an acquire, by the reader's core. -/
def State.seeNote (s : State) (k off n pcore : Nat) : State :=
  match s.team? k with
  | some u => if u.notes.any fun x => overlap x 4 off n then s.l1Drop pcore else s
  | none => s

/-- What a load reads as it is performed: a trap, or bytes (R341). -/
def State.readOf (s : State) (r : Req) (t : Team) : (Trap ⊕ List Byte) × State :=
  match r.loc with
  | .spad k off => (.inr (s.readSpad k off r.size), s.seeNote k off r.size t.pcore)
  | .glob va p =>
    match s.readGlobal r t.pcore va p with
    | (.inl tr, s) => (.inl tr, s)
    | (.inr bs, s) => (.inr bs, s.noteRead r va p)

/-- LDH waits at its word: the test of its handle may trap there (R355). -/
def State.handleDone (s : State) (r : Req) (t : Team) (d : Reg) (bs : List Byte) : State :=
  let x : Word := BitVec.ofNat 32 (leNat bs)
  if x.extractLsb' 30 2 == 0 || (t.future? x).isSome then (s.handle r.team r.tid d x).endReq r
  else (((s.dropReq r).handle r.team r.tid d x)).flagsDown r.team r.threads r.flag

/-- The data of a load reaches its destination (R147, R341, R355). -/
def State.loadDone (s : State) (r : Req) (d : Reg) (hnd : Bool) : State :=
  match s.team? r.team with
  | none => s
  | some t =>
    match r.vals with
    | some ws => (s.give r d ws).endReq r
    | none =>
      match s.readOf r t with
      | (.inl tr, s) => s.failWith r tr
      | (.inr bs, s) => if hnd then s.handleDone r t d bs else (s.give r d (loadWords r.size bs)).endReq r

/-- LOAD_COMPLETE (R341): a load that is no acquire. -/
def execLoadComplete (n : Nat) (s : State) : Out :=
  .next (match s.req? n with
    | some r =>
      match r.act with
      | .load d hnd => if !isAcq r.ord && s.canPerform r then s.loadDone r d hnd else s
      | _ => s
    | none => s)

/-- The caches that take an access's write, or the hub (R160, R162). -/
def Req.via (r : Req) (t : Team) (p : Place) : Option Nat := atHub (pcTower t.pcore) (p.eff r.ty == .nc || r.act.rmw) r.sc

/-- What an RMW reads: before its write when its read was performed apart, else now (R168). -/
def State.rmwOld (s : State) (r : Req) (t : Team) (p : Place) : List Byte × State :=
  match r.got with
  | some bs => (bs, s)
  | none => s.devRead (r.via t p) p r.size

/-- The first failing byte of an RMW that has not read (R46). -/
def State.rmwBad (s : State) (r : Req) (p : Place) : Option Nat := if r.got.isSome then none else s.badByte p.key.toNat p.pa r.size

/-- A write at its place: bytes and tag (R173). -/
def State.putAt (s : State) (r : Req) (t : Team) (p : Place) (bs : List Byte) : State :=
  (s.storeBytes t.pcore (r.via t p) p bs).tagWrite p.pa r.ord r.sc r.fs (s.reqAgent r)

/-- A store or RED is performed (R341, R173). -/
def State.storeDone (s : State) (r : Req) (data : List Byte) (op : Option AOp) : State :=
  match s.team? r.team with
  | none => s
  | some t =>
    match r.loc with
    | .spad k off => (s.writeSpad k off data).endReq r
    | .glob va p =>
      match p.node with
      | some _ =>
        match r.phase with
        | .replied 0 _ => ((if op.isSome then s.noteRead r va p else s)).endReq r
        | .replied c _ => s.failReply r c va
        | _ => s
      | none =>
        if !s.hub.keyOk p.key.toNat p.pa then s.failWith r (lateKey va)
        else if s.writeFails p then s.failReq r cUncorrectable va
        else
          match op with
          | none => (s.putAt r t p data).endReq r
          | some a =>
            match s.rmwBad r p with
            | some x => (s.spoil p.key.toNat p.pa r.size).failReq r cUncorrectable (va + BitVec.ofNat 64 (x - p.pa))
            | none =>
              let (old, s) := (s.noteRead r va p).rmwOld r t p
              (s.putAt r t p ((a.apply old data).getD old)).endReq r

/-- STORE_COMPLETE (R341). -/
def execStoreComplete (n : Nat) (s : State) : Out :=
  .next (match s.req? n with
    | some r =>
      match r.act with
      | .store data => if s.canPerform r then s.storeDone r data none else s
      | .atomic _ op data false => if s.canPerform r then s.storeDone r data (some op) else s
      | _ => s
    | none => s)

/-- An ATOM or CAS is performed: an RMW, and the old value to the destination (R168, R346, R347). -/
def State.atomicDone (s : State) (r : Req) (d : Reg) (op : AOp) (data : List Byte) : State :=
  match s.team? r.team with
  | none => s
  | some t =>
    match r.loc with
    | .spad _ _ => s
    | .glob va p =>
      match p.node with
      | some _ =>
        match r.phase with
        | .replied 0 bs => ((s.noteRead r va p).give r d (loadWords r.size bs)).endReq r
        | .replied c _ => s.failReply r c va
        | _ => s
      | none =>
        if !s.hub.keyOk p.key.toNat p.pa then s.failWith r (lateKey va)
        else
          match s.rmwBad r p with
          | some x => (s.spoil p.key.toNat p.pa r.size).failReq r cUncorrectable (va + BitVec.ofNat 64 (x - p.pa))
          | none =>
            let (old, s) := (s.noteRead r va p).rmwOld r t p
            let s := match op.apply old data with
              | some new => s.putAt r t p new
              | none => s
            (s.give r d (loadWords r.size old)).endReq r

/-- ATOMIC_COMPLETE (R341): an atomic that is no acquire. -/
def execAtomicComplete (n : Nat) (s : State) : Out :=
  .next (match s.req? n with
    | some r =>
      match r.act with
      | .atomic d op data true => if !isAcq r.ord && s.canPerform r then s.atomicDone r d op data else s
      | _ => s
    | none => s)

/-- A REDC is performed: its operand is combined, and its line is read and tagged as an RMW (R168, R173, R174, R179). -/
def State.redcDone (s : State) (r : Req) (t : Team) (va : DWord) (p : Place) (data : List Byte) : State :=
  if !s.hub.keyOk p.key.toNat p.pa then s.failWith r (lateKey va)
  else if s.writeFails p then s.failReq r cUncorrectable va
  else (((s.noteRead r va p).combine (pcTower t.pcore) p (leNat data)).tagWrite p.pa r.ord r.sc r.fs (s.reqAgent r)).endReq r

/-- REDC_COMBINED (R179, R341). -/
def execRedcCombined (n : Nat) (s : State) : Out :=
  .next (match s.req? n with
    | some r =>
      match r.act, r.loc, s.team? r.team with
      | .redc data, .glob va p, some t => if s.canPerform r then s.redcDone r t va p data else s
      | _, _, _ => s
    | none => s)

/-! ### Cache operations (R352) -/

/-- Treat one line: from package scope on what the host sees catches up, for the dirty bytes reach the hub (R97, R162); at system scope the hub's copy of a host line is
written back; CINV drops the copies. -/
def State.treatLine (s : State) (pcore : Nat) (sc : Scope) (drop : Bool) (line : Nat) : State :=
  let s := if drop && sc != .team then
      { s with mem := { s.mem with l1 := s.mem.l1.filter fun c => !(c.pcore == pcore && c.line == line / 128) } } else s
  let s := if drop && (sc == .pkg || sc == .sys) then
      { s with mem := { s.mem with stale := s.mem.stale.dropRange line (line + 128) } } else s
  let s : State := if sc == .pkg || sc == .sys then { s with mem := s.mem.settle line (line + 128) } else s
  if sc == .sys && hostCoherent line then s.cleanHost (line / 128) drop else s

/-- Treat the lines of a range. -/
def State.treatLines (s : State) (pcore : Nat) (sc : Scope) (drop : Bool) : List (Nat × Nat) → State
  | [] => s
  | l :: ls => (s.treatLine pcore sc drop l.1).treatLines pcore sc drop ls

/-- CACHE_OP_COMPLETE (R352): after the recall of every line that a copy owns. -/
def execCacheOpComplete (n : Nat) (s : State) : Out :=
  .next (match s.req? n with
    | some r =>
      match r.act, s.team? r.team with
      | .cache ls drop, some t =>
        if ls.any fun l => s.owned none l.1 128 || s.towerHolds l.1 then s
        else (s.treatLines t.pcore r.sc drop ls).endReq r
      | _, _ => s
    | none => s)

/-! ### Maps (R159, R353, R354) -/

/-- The map words of a team are performed in the order they issue (R354). -/
def State.mapTurn (s : State) (r : Req) : Bool :=
  s.reqs.all fun q => q.team != r.team || !(q.id < r.id) || (match q.act with | .maps _ _ _ | .unmap _ _ => false | _ => true)

/-- MAP_BOUND (R353): every line of the region is unfilled. -/
def execMapBound (n : Nat) (s : State) : Out :=
  .next (match s.req? n with
    | some r =>
      match r.act with
      | .maps off len va =>
        if s.mapTurn r then
          let m : SpadMap := { off := off, len := len, va := va, filled := [], filling := [], dirty := [] }
          (s.modTeam r.team fun t => { t with maps := t.maps ++ [m] }).endReq r
        else s
      | _ => s
    | none => s)

/-- What a map unit reads of a line: a late cause, or its bytes (R159, R413). -/
def State.readLine (s : State) (pcore : Nat) (p : Place) (va : DWord) : (Trap ⊕ List Byte) × State :=
  if p.node.isSome then let (bs, s) := s.remoteRead p 128; (.inr bs, s)
  else if !s.hub.keyOk p.key.toNat p.pa then (.inl (lateKey va), s)
  else
    match s.badByte p.key.toNat p.pa 128 with
    | some x => (.inl (lateOf cUncorrectable (va + BitVec.ofNat 64 (x - p.pa))), s.spoil p.key.toNat p.pa 128)
    | none => let (bs, s) := s.loadBytes pcore p .dflt true 128; (.inr bs, s)

/-- Accesses that wait for the fill of a line (R159). -/
def State.fillWaiters (s : State) (k line : Nat) : List Req :=
  s.reqs.filter fun r => match r.loc with | .spad j off => j == k && off / 128 * 128 == line && r.size != 0 | .glob _ _ => false

/-- Accesses that wait for the fill of a line fail with its cause (R413). -/
def State.failWaiters (s : State) (tr : Trap) : List Req → State
  | [] => s
  | r :: rs => (s.failWith r tr).failWaiters tr rs

/-- The fill of a line ends with a cause (R413). -/
def State.failFill (s : State) (k line : Nat) (tr : Trap) : State :=
  let s := s.modTeam k fun t => { t with maps := t.maps.map fun m => { m with filling := m.filling.erase line } }
  s.failWaiters tr (s.fillWaiters k line)

/-- MAP_LINE_FILL (R159): the global line replaces the scratchpad line; a read that fails reaches the accesses that wait for it (R413). -/
def execMapLineFill (k line : Nat) (s : State) : Out :=
  .next (match s.team? k with
    | none => s
    | some t =>
      match t.mapAt line with
      | none => s
      | some m =>
        match m.filling.get? line with
        | none => s
        | some p =>
          let va := m.va + BitVec.ofNat 64 (line - m.off)
          if p.node.isNone && s.holds t.pcore none p 128 then s
          else
            match s.readLine t.pcore p va with
            | (.inl tr, s) => s.failFill k line tr
            | (.inr bs, s) => s.spadFill k line bs)

/-- An engine's access to a line of a map fills it at once where it can be read (R159); where it cannot, the bytes that the engine writes stay when the line is filled
later (log entry 27). -/
def State.fillSync (s : State) (k off : Nat) : State :=
  match s.team? k with
  | none => s
  | some t =>
    match t.mapAt off with
    | none => s
    | some m =>
      let line := off / 128 * 128
      let va := m.va + BitVec.ofNat 64 (line - m.off)
      if m.filled.contains line then s
      else
        let (p, s') : Option Place × State := match m.filling.get? line with
          | some p => (some p, s)
          | none => match s.xteam t va .load .dflt with
            | (.ok p, s') => (some p, s'.startFill k line p)
            | _ => (none, s)
        match p with
        | none => s
        | some p =>
          if p.node.isNone && s'.holds t.pcore none p 128 then s
          else
            match s'.readLine t.pcore p va with
            | (.inl _, _) => s
            | (.inr bs, s') => s'.spadFill k line bs

/-- The dirty bytes of a line as runs within 16-byte blocks: offset and bytes of each. -/
def runsOf (t : Team) (dirty : List Nat) (line : Nat) : List (Nat × List Byte) :=
  (List.range 128).foldr (fun i acc =>
    let x := line + i
    if dirty.contains x then
      match acc with
      | (y, bs) :: rest => if y == x + 1 && y % 16 != 0 then (x, t.spadN x 1 ++ bs) :: rest else (x, t.spadN x 1) :: acc
      | [] => [(x, t.spadN x 1)]
    else acc) []

/-- An entry takes the place in the log that its number gives it (R178, R200). -/
def logPut (e : LogEntry) : List LogEntry → List LogEntry
  | [] => [e]
  | x :: xs => if e.id < x.id then e :: x :: xs else x :: logPut e xs

/-- Put runs of a line into the side log (R159, R178, R197), numbered by their places from base on. -/
def State.logRuns (s : State) (t : Team) (tid : Nat) (m : SpadMap) (base : Nat) (fid : Option Nat) : List (Nat × List Byte) → State
  | [] => s
  | (x, bs) :: rs =>
    let e : LogEntry := {
      id := base + (x - m.off), team := t.key, tid := tid, va := m.va + BitVec.ofNat 64 (x - m.off), reduction := false, size := bs.length, op := 0
      ty := .dflt, sc := .pkg, ord := .rlx, data := bs, fid := fid, fs := none, gone := false, iw := 0, wb := true }
    ({ s with sideLog := logPut e s.sideLog }).logRuns t tid m base fid rs

/-- Store the runs of a line as relaxed stores at package scope (R159). -/
def State.storeRuns (s : State) (t : Team) (p : Place) (line : Nat) : List (Nat × List Byte) → State
  | [] => s
  | (x, bs) :: rs =>
    (s.storeBytes t.pcore (atHub (pcTower t.pcore) (p.eff .dflt == .nc) .pkg) { p with pa := p.pa + (x - line) } bs).storeRuns t p line rs

/-- Stores of the runs of a line to a peer, 64 bytes or less in all, leave as cells of a thread (R63, R159), numbered by their places from base on. -/
def State.sendRuns (s : State) (t : Team) (tid : Nat) (m : SpadMap) (base : Nat) (p : Place) (line : Nat) : List (Nat × List Byte) → State
  | [] => s
  | (x, bs) :: rs =>
    let r : Req := {
      id := base + (x - m.off), team := t.key, tid := tid, mates := [], flag := none, act := .store bs
      loc := .glob (m.va + BitVec.ofNat 64 (x - m.off)) { p with pa := p.pa + (x - line) }, size := bs.length, sc := .pkg, ord := .rlx, ty := .dflt
      phase := .pending, at_ := 0, fs := none, after := []
      dead := (match t.threads[tid]? with | some th => if th.st == .exited then [tid] else [] | none => [])
      iw := 0, early := false, seen := [], peeked := [], vals := none, landed := [], got := none }
    ({ s with reqs := s.reqs ++ [r] }).sendRuns t tid m base p line rs

/-- Dirty bits clear. -/
def State.cleanBytes (s : State) (k : Nat) (xs : List Nat) : State :=
  s.modTeam k fun t => { t with maps := t.maps.map fun m => { m with dirty := m.dirty.filter fun x => !xs.contains x } }

/-- Write back dirty bytes of one line of a map at its place, as relaxed stores at package scope (R159); false: they must wait. -/
def State.backAt (s : State) (t : Team) (tid : Nat) (m : SpadMap) (base : Nat) (xs : List Nat) (l : Nat) (p : Place) : Bool × State :=
  let va := m.va + BitVec.ofNat 64 (l - m.off)
  let runs := runsOf t xs l
  match p.node with
  | some n =>
    -- a write-back of a line travels on the bulk plane, stores of 64 bytes or less on the sync plane (R63)
    let s := if 64 < xs.length then
        s.bulkSend n p.pa (xs.map fun y => (y - l, t.spad.getD y 0)) { seq := 0, team := t.key, tid := some tid, page := va.toNat / 4096 }
      else s.sendRuns t tid m base p l runs
    (true, s.cleanBytes t.key xs)
  | none =>
    if s.holds t.pcore none p 128 || s.rmwHeld (s.agentOf t) (p.wide .pkg) p.pa 128 then (false, s)
    else if s.writeFails p then (true, (s.lateTrap t.key tid (base + (l - m.off)) (lateOf cUncorrectable va)).cleanBytes t.key xs)
    else (true, ((s.storeRuns t p l runs).clearWritten (xs.map fun y => p.pa + (y - l))).cleanBytes t.key xs)

/-- Write back dirty bytes of one line of a map under a translation of it (R159): behind a pending entry of the thread over the same bytes they enter the side log too
(R178), but for what the invalidation engine writes (R192); false: they must wait. As accesses of their own they are numbered by their places from base on. -/
def State.backLine (s : State) (t : Team) (tid : Nat) (m : SpadMap) (base : Nat) (dirty : List Nat) (l : Nat) (behind : Bool) (x : State → XRes × State) : Bool × State :=
  let va := m.va + BitVec.ofNat 64 (l - m.off)
  let xs := dirty.filter fun y => l ≤ y && y < l + 128
  let runs := runsOf t xs l
  let full := 256 < s.coreLog t.pcore + runs.length
  if behind && runs.any fun y => !(s.logOver t.key tid (m.va + BitVec.ofNat 64 (y.1 - m.off)) y.2.length).isEmpty then
    if full then (false, s) else (true, (s.logRuns t tid m base none runs).cleanBytes t.key xs)
  else
    match x s with
    | (.ok p, s) => s.backAt t tid m base xs l p
    | (.held, s) => (false, s)
    | (.trap c n, s) => (true, (s.lateTrap t.key tid (base + (l - m.off)) { cause := c, addr := va, info := BitVec.ofNat 32 (n + 256) }).cleanBytes t.key xs)
    | (.fault r lv, s) =>
      if full then (false, s)
      else
        match s.teamFault t va .writeback r lv 2 with
        | (none, s) => (false, s)
        | (some fid, s) => (true, (s.logRuns t tid m base (some fid) runs).cleanBytes t.key xs)

/-- Numbers for the write-backs of a map as accesses of their own. -/
def State.takeKeys (s : State) (n : Nat) : Nat × State := (s.nextKey, { s with nextKey := s.nextKey + n })

/-- Write back the dirty bytes of lines of a map (R159); false: some of them must wait. -/
def State.writeBack (s : State) (t : Team) (tid : Nat) (m : SpadMap) (base : Nat) : List Nat → Bool × State
  | [] => (true, s)
  | l :: ls =>
    let (a, s) := s.backLine t tid m base m.dirty l true fun s => s.xteam t (m.va + BitVec.ofNat 64 (l - m.off)) .store .dflt
    let (b, s) := s.writeBack t tid m base ls
    (a && b, s)

/-- Lines of a map that WBS has written count as filled (R354). -/
def State.fillWritten (s : State) (k off : Nat) (ls : List Nat) : State :=
  s.modTeam k fun t => { t with maps := t.maps.map fun m =>
    if m.off == off then { m with filled := m.filled ++ ls.filter fun l => !m.filled.contains l } else m }

/-- MAP_WRITEBACK_DONE (R354): in the order in which the team's map words issued, the dirty bytes are written or in the side log, and UNMAPS unbinds the map; the word waits
for its thread's earlier accesses to those bytes (R164). -/
def execMapWritebackDone (n : Nat) (s : State) : Out :=
  .next (match s.req? n with
    | some r =>
      match r.act, s.team? r.team with
      | .unmap off keep, some t =>
        if !s.mapTurn r then s
        else
          match t.maps.find? (·.off == off) with
          | none => s.endReq r
          | some m =>
            if !m.filling.isEmpty || !s.inOrder r then s
            else
              let (done, s) := s.writeBack t r.tid m (r.id + 1) m.dirtyLines
              let s := s.fillWritten r.team off (m.dirtyLines.filter fun l => !(((s.team? r.team).bind fun t => t.maps.find? (·.off == off)).any fun m => m.dirtyLines.contains l))
              if !done then s
              else if keep then s.endReq r
              else (s.modTeam r.team fun t => { t with maps := t.maps.filter (·.off != off) }).endReq r
      | _, _ => s
    | none => s)

/-! ### The side log (R199 to R201) -/

/-- An entry leaves the log. -/
def State.dropEntry (s : State) (e : LogEntry) : State := { s with sideLog := s.sideLog.filter fun x => x.id != e.id }

/-- A thread that is held may be reissued: its fault has been answered with a retry, or the fault table has an entry again, and none of its pending entries lies on the page, or over the bytes of its atomic (R193, R199, R200). -/
def State.mayReissue (s : State) (k i fid : Nat) (va : DWord) : Bool :=
  let mine := s.sideLog.filter fun e => e.team == k && e.tid == i && !e.gone
  if fid == heldTable then s.faults.length < faultMax
  else if heldTable < fid then mine.all fun e => !overlap e.va.toNat e.size va.toNat (fid - heldTable)
  else (match s.fault? fid with | some f => f.answer == some .retry | none => true) && mine.all fun e => e.va.toNat / 4096 != va.toNat / 4096

/-- A held thread that may be reissued becomes READY (R134). -/
def State.reissue (s : State) (k i : Nat) (th : Thread) : Thread :=
  match th.st with
  | .held fid va => if s.mayReissue k i fid va then th.wake s.now else th
  | _ => th

/-- Held threads of a team that may be reissued become READY (R134). -/
def State.wakeHeld (s : State) (k : Nat) : State :=
  match s.team? k with
  | none => s
  | some t => s.modTeam k fun u => { u with threads := (List.range t.threads.length).zipWith (s.reissue k) u.threads }

/-- A failed entry leaves the log without effect, and its thread receives the cause; one that has exited halts its team (R201). -/
def State.failEntry (s : State) (e : LogEntry) (cause : Byte) (info : Word) : State :=
  let s := s.dropEntry e
  let s := if e.gone then s.haltTeam e.team cause else s.deferTrap e.team e.tid e.id { cause := cause, addr := e.va, info := info }
  s.wakeHeld e.team

/-- Entries replay in log order: before an entry go the earlier ones of its team on its page, of its thread on its bytes, and those of its core that replay too on its page (R178, R200). -/
def State.replayTurn (s : State) (e : LogEntry) : Bool :=
  let page (x : LogEntry) := (s.team? x.team).map fun t => (t.pcore, rootAsid (s.root t), x.va.toNat / 4096)
  (s.sideLog.takeWhile fun x => x.id != e.id).all fun x =>
    if x.team == e.team then !(x.va.toNat / 4096 == e.va.toNat / 4096 || (x.tid == e.tid && overlap x.va.toNat x.size e.va.toNat e.size))
    else !(x.fid.isNone && page x == page e && (match s.team? x.team with | some t => t.status == .resident | none => false))

/-- Older accesses of the thread to the bytes of an entry have been performed (R164). -/
def State.replayOrder (s : State) (e : LogEntry) (p : Place) : Bool :=
  s.reqs.all fun q => !(q.id < e.id && q.isOf e.team e.tid e.gone && q.loc.overlaps q.size (.glob e.va p) e.size)

/-- The kind of an entry for the checks of R190. -/
def LogEntry.kind (e : LogEntry) : Kind := if !e.reduction then .store else if e.op == 0xFF then .redc else .red

/-- The agent, of an entry's team. -/
def State.teamAgent (s : State) (k : Nat) : Agent := match s.team? k with | some t => s.agentOf t | none => .hub s.fab.node

/-- A relaxed read of a tagged line by a thread's replayed reduction is remembered for its next acquire fence (R174). -/
def State.noteReplay (s : State) (e : LogEntry) (p : Place) : State :=
  if e.gone || isAcq e.ord then s
  else
    match s.readTag p with
    | (none, s) => s
    | (some tg, s) => s.modThread e.team e.tid fun t => { t with reads := t.reads ++ [(e.va, tg)] }

/-- A replayed entry's write is performed at its local place (R178, R200). -/
def State.replayAt (s : State) (e : LogEntry) (t : Team) (p : Place) : State :=
  let via := atHub (pcTower t.pcore) (e.reduction || p.eff e.ty == .nc) e.sc
  if !e.reduction then ((s.storeBytes t.pcore via p e.data).tagWrite p.pa e.ord e.sc e.fs (s.teamAgent e.team))
  else if e.op == 0xFF then
    ((s.noteReplay e p).combine (pcTower t.pcore) p (leNat e.data)).tagWrite p.pa e.ord e.sc e.fs (s.teamAgent e.team)
  else
    let (old, s) := (s.noteReplay e p).devRead via p e.size
    ((s.storeBytes t.pcore via p (((AOp.atop e.op).apply old e.data).getD old)).tagWrite p.pa e.ord e.sc e.fs (s.teamAgent e.team))

/-- A replayed entry that is not performed in one step becomes a request: to a peer (R76), or over PCIe to the host (R106); it keeps its number, and so its place among the
accesses of its thread (R164, R200). -/
def State.replaySend (s : State) (e : LogEntry) (p : Place) : State :=
  let act : Act := if e.reduction then .atomic 0 (.atop e.op) e.data false else .store e.data
  let r : Req := {
    id := e.id, team := e.team, tid := e.tid, mates := [], flag := none, act := act, loc := .glob e.va p
    size := e.size, sc := e.sc, ord := e.ord, ty := e.ty, phase := .pending, at_ := 0, fs := e.fs, after := []
    dead := if e.gone then [e.tid] else [], iw := e.iw, early := false, seen := [], peeked := [], vals := none, landed := [], got := none }
  { s with reqs := s.reqs ++ [r] }

/-- A place on the non-coherent route to the host (R105). -/
def Place.pcie (p : Place) : Bool := p.node.isNone && paRegion p.pa == 0xE && !hostCoherent p.pa

/-- SIDE_LOG_REPLAY (R200): an entry that waits on no fault translates afresh and is performed. -/
def execSideLogReplay (n : Nat) (s : State) : Out :=
  .next (match s.sideLog.find? fun e => e.id == n with
    | none => s
    | some e =>
      match s.team? e.team with
      | none => s.dropEntry e
      | some t =>
        if e.fid.isSome || !s.replayTurn e || t.status != .resident then s
        else
          match s.xteam t e.va e.kind e.ty with
          | (.trap c code, s) => s.failEntry e c (BitVec.ofNat 32 (code + 256))
          | (.held, s) => s
          | (.fault r l, s) =>
            match s.teamFault t e.va (if e.wb then .writeback else if e.reduction then .reduction else .store) r l (needOf e.kind) with
            | (none, s) => s
            | (some fid, s) => { s with sideLog := s.sideLog.map fun x => if x.id == n then { x with fid := some fid } else x }
          | (.ok p, s) =>
            if e.kind == .redc && !redcOk p e.size then s.failEntry e cAccess (BitVec.ofNat 32 (7 + 256))
            else if s.writeFails p then s.failEntry e cUncorrectable 256
            else if e.reduction && e.op != 0xFF && (s.badByte p.key.toNat p.pa e.size).isSome && p.node.isNone then (s.spoil p.key.toNat p.pa e.size).failEntry e cUncorrectable 256
            else if e.reduction && e.op != 0xFF && s.atomRefused p (some (.atop e.op)) e.size then s.failEntry e cAtomic (e.iw ||| 256)
            else if !s.replayOrder e p then s
            else if p.node.isSome || (p.pcie && e.reduction) then ((s.replaySend e p).dropEntry e).wakeHeld e.team
            else if s.holds t.pcore none p e.size || s.rmwHeld (s.teamAgent e.team) (p.wide e.sc) p.pa e.size then s
            else ((s.replayAt e t p).dropEntry e).wakeHeld e.team)

end Sys2Proof.Machine
end

