-- ==== Sys2Proof/Machine/Control.lean ====
section
/-!
DEFINITION. The control words of every class (R312 to R317).
-/
namespace Sys2Proof.Machine

/-- The target of a direct branch (R314). -/
def Thread.target (t : Thread) (off : Option Word) : DWord := t.pc + (off.getD 0).signExtend 64 * 4

/-- The members go to the leader's target (R314, R316). -/
def State.jump (s : State) (i : Instr) (f : Thread → Thread → Thread) : State :=
  match s.gate i with
  | (s, none) => s
  | (s, some c) => s.modThreads c.k c.all (f c.thr)

/-- A conditional branch (R314). -/
def State.branch (s : State) (i : Instr) (o : CtlOp) (p : Word → Bool) : State :=
  s.jump i fun l t => t.goto (if p (l.reg o.a) then l.target o.off else l.nextClause)

/-- An indirect target: one that is not a multiple of 4 traps before anything is written (R315). -/
def State.indirect (s : State) (i : Instr) (o : CtlOp) (f : Thread → Thread) : State :=
  match s.gate i with
  | (s, none) => s
  | (s, some c) =>
    let tgt := c.thr.reg64 o.a
    if tgt.extractLsb' 0 2 != 0 then s.trapAll c.k c.all { cause := cMisaligned, addr := tgt, info := 2 }
    else s.modThreads c.k c.all fun t => (f t).goto tgt

/-- BRA (R314). -/
def execBra (o : CtlOp) (s : State) : Out := .next (s.jump (.bra o) fun l t => t.goto (l.target o.off))
/-- BZ (R314). -/
def execBz (o : CtlOp) (s : State) : Out := .next (s.branch (.bz o) o fun v => v == 0)
/-- BNZ (R314). -/
def execBnz (o : CtlOp) (s : State) : Out := .next (s.branch (.bnz o) o fun v => v != 0)
/-- BLTZ (R314). -/
def execBltz (o : CtlOp) (s : State) : Out := .next (s.branch (.bltz o) o fun v => v.msb)
/-- BGEZ (R314). -/
def execBgez (o : CtlOp) (s : State) : Out := .next (s.branch (.bgez o) o fun v => !v.msb)
/-- BRX (R314, R315). -/
def execBrx (o : CtlOp) (s : State) : Out := .next (s.indirect (.brx o) o id)
/-- CALL (R314). -/
def execCall (o : CtlOp) (s : State) : Out :=
  .next (s.jump (.call o) fun l t => (t.setRegs o.d (words64 l.nextClause)).goto (l.target o.off))
/-- CALLX (R314, R315). -/
def execCallx (o : CtlOp) (s : State) : Out :=
  .next (s.indirect (.callx o) o fun t => t.setRegs o.d (words64 t.nextClause))
/-- RET (R314, R315). -/
def execRet (o : CtlOp) (s : State) : Out := .next (s.indirect (.ret o) o id)
/-- EXIT (R317). -/
def execExit (o : CtlOp) (s : State) : Out :=
  .next (match s.gate (.exit o) with
    | (s, none) => s
    | (s, some c) => s.exitThread c.k c.lead)

end Sys2Proof.Machine
end

