-- ==== Sys2Proof/Machine/Launch.lean ====
section
/-!
DEFINITION. Starting a launch: the record and its checks (R113, R114), its priority (R115), the header of its completion record (R116), and device-side launches (R125).
-/
namespace Sys2Proof.Machine

/-- The launch record in 256 bytes (R113). -/
def recOf (bs : List Byte) : LaunchRec :=
  let va (o : Nat) : DWord := BitVec.ofNat 64 (fieldAt bs o 8)
  let fl := fieldAt bs 76 1
  { entry := va 0
    trapEntry := va 8
    params := va 16
    placetab := va 24
    compl := va 32
    pred := va 40
    gen := BitVec.ofNat 32 (fieldAt bs 48 4)
    predgen := BitVec.ofNat 32 (fieldAt bs 52 4)
    gridx := fieldAt bs 56 4
    gridy := fieldAt bs 60 2
    gridz := fieldAt bs 62 2
    teamsize := fieldAt bs 64 2
    crewlog := fieldAt bs 66 1
    regs := fieldAt bs 67 1
    spad := fieldAt bs 68 4
    clrows := fieldAt bs 72 1
    clcols := fieldAt bs 73 1
    placen := fieldAt bs 74 1
    prio := fieldAt bs 75 1 % 8
    idemp := bitOf fl 0
    pref := bitOf fl 1
    uchk := bitOf fl 2
    ftz := bitOf fl 3
    map := bitsOf fl 5 4
    win := fieldAt bs 78 2
    accrows := fieldAt bs 80 2
    placewait := fieldAt bs 84 4
    savepool := va 88
    saveslots := fieldAt bs 96 4 }

/-- Every zero field and zero bit of a record holds zero (R114, check 2). -/
def recZeros (bs : List Byte) : Bool :=
  fieldAt bs 75 1 < 8 && fieldAt bs 76 1 < 64 && fieldAt bs 77 1 == 0 && fieldAt bs 82 2 == 0 && fieldAt bs 100 156 == 0

/-- Every field of a record is within its limits (R114, check 3). -/
def LaunchRec.inLimits (r : LaunchRec) : Bool :=
  r.entry.toNat % 4 == 0 && r.trapEntry.toNat % 4 == 0 && r.params.toNat % 8 == 0 &&
  r.placetab.toNat % 8 == 0 && (r.placetab != 0 || r.placen == 0) && r.compl.toNat % 64 == 0 && r.pred.toNat % 64 == 0 &&
  1 ≤ r.gridx && 1 ≤ r.gridy && 1 ≤ r.gridz &&
  1 ≤ r.clrows && r.clrows ≤ 4 && 1 ≤ r.clcols && r.clcols ≤ 6 && r.cluster ≤ 12 &&
  r.teams ≤ 2 ^ 32 && r.teams % r.cluster == 0 &&
  1 ≤ r.teamsize && r.teamsize ≤ 1024 && r.crewlog ≤ 5 &&
  8 ≤ r.regs && r.regs ≤ 128 && r.regs % 8 == 0 && r.spad % 1024 == 0 && r.spad ≤ 262144 &&
  r.placen ≤ 8 && r.accrows % 128 == 0 && r.accrows ≤ 8192 && r.savepool.toNat % 4096 == 0 && r.cluster ≤ r.saveslots

/-- Some tower belongs to a partition (R111). -/
def State.partHasTower (s : State) (p : Nat) : Bool := (List.range 12).any fun t => (s.tower t).tpart.toNat == p

/-- The header of the completion record as a launch starts (R116). -/
def LaunchRec.header (r : LaunchRec) : List Byte :=
  leBytes 4 r.gen.toNat ++ leBytes 4 1 ++ leBytes 8 0 ++ leBytes 8 0 ++ leBytes 8 r.teams ++ leBytes 32 0

/-- The status with which the record in some bytes fails its checks 2 to 4 (R114); 0 when it passes. -/
def State.recStatus (s : State) (bs : List Byte) (part : Nat) : Nat :=
  if !recZeros bs then 0x11 else if !(recOf bs).inLimits then 0x12 else if 11 < part || !s.partHasTower part then 0x13 else 0

/-- The cells of the header toward a peer's page that have been sent for who (R65, R116). -/
def State.headAsks (s : State) (who : Nat) (p : Place) : List HubAsk :=
  s.fab.asks.filter fun a => a.who == who && p.node == some a.node && a.pa == p.pa && (a.typ == 2 || a.typ == 5)

/-- The header of a completion record cannot be written yet, or the peer where it goes has not answered (R114, R176). -/
def State.headBusy (s : State) (who : Nat) (root va : DWord) : Bool :=
  match (s.translate none hubTlb root va .store .dflt).1 with
  | .ok p => if p.node.isNone then s.hubHolds p.key p.pa 64 else (s.headAsks who p).isEmpty || (s.headAsks who p).any (·.reply.isNone)
  | .held => true
  | _ => false

/-- Memory keeps back the record of a launch, or the header of its completion record, or a peer has still to answer (R114, R176). -/
def State.launchBusy (s : State) (who : Nat) (root va : DWord) (part : Nat) : Bool :=
  s.hubBusy who false root 2 va 256 || match s.hubRead who false root 256 va 256 with
    | (some bs, s) => s.recStatus bs part == 0 && s.headBusy who root (recOf bs).compl
    | (none, _) => false

/-- What the hub does meanwhile: it asks for the record, and once that has passed its checks sends the header to a peer (R65, R114). -/
def State.launchAsk (s : State) (who : Nat) (root va : DWord) (part : Nat) : State :=
  if s.hubBusy who false root 2 va 256 then s.hubWant who false root 2 va 256
  else
    match (s.hubRead who false root 256 va 256).1 with
    | none => s
    | some bs =>
      if s.recStatus bs part != 0 then s
      else
        match s.translate none hubTlb root (recOf bs).compl .store .dflt with
        | (.ok p, s') =>
          match p.node with
          | none => s.retryAt p.pa
          | some n => if (s.headAsks who p).isEmpty then (s'.hubSend n who .pkg true p.pa (recOf bs).header).2 else s
        | (.held, s') => s'
        | _ => s

/-- The header of the completion record is written, with release order at package scope (R116); false: it cannot be. -/
def State.writeHead' (s : State) (who : Nat) (root va : DWord) (bs : List Byte) : Bool × State :=
  match (s.translate none hubTlb root va .store .dflt).1 with
  | .ok p =>
    if p.node.isSome then
      let as := s.headAsks who p
      (as.all fun a => a.reply.any (·.1 == 0), { s with fab := { s.fab with asks := s.fab.asks.filter fun a => !as.contains a } })
    else match s.hubWrite who root va bs (some .pkg) with | (.refused, s) => (false, s) | (_, s) => (true, s)
  | _ => (false, s)

/-- A GRIDID that no launch in progress bears: the next in a count (R131; log entry 16). -/
def State.freeGrid (s : State) : Word :=
  (((List.range (s.launches.length + 1)).map fun i => s.nextGrid + BitVec.ofNat 32 i).find? fun g => !s.launches.any fun l => l.grid == g).getD s.nextGrid

/-- Start the launch whose record lies at a VA: its checks in order with their statuses (R114), else the launch joins those in progress, with status 0. -/
def State.startLaunch (s : State) (who : Nat) (root va : DWord) (queue part cap quantum : Nat) (owner : Owner) : Nat × State :=
  match s.hubRead who false root 256 va 256 with
  | (none, s) => (0x10, s)
  | (some bs, s) =>
    let r := recOf bs
    if s.recStatus bs part != 0 then (s.recStatus bs part, s)
    else
      match s.writeHead' who root r.compl r.header with
      | (false, s) => (0x14, s)
      | (true, s) =>
        let l : Launch := {
          key := s.nextKey, lrec := r, root := root, queue := queue, part := part, ep := Nat.min r.prio cap
          quantum := quantum, grid := s.freeGrid, owner := owner, begun := [], placing := [], predSeen := []
          predTeams := none, predAll := false, doneCnt := 0, haltCnt := 0, badWrite := false }
        (0, { s with nextKey := s.nextKey + 1, nextGrid := s.freeGrid + 1, launches := s.launches ++ [l] })

/-! ### Device-side launches (R125, R389) -/

/-- Device-side launches of a partition in progress (R125). -/
def State.children (s : State) (part : Nat) : Nat :=
  s.launches.countP fun l => l.part == part && (match l.owner with | .future _ _ => true | .entry _ _ => false)

/-- A child starts for the token that its word has taken; a failed check resolves the future with its status (R125, R389). -/
def State.startChild (s : State) (n : Nat) (t : Team) (va : DWord) (tok : Word) : State :=
  match s.launch? t.launch with
  | none => s
  | some l =>
    match s.startLaunch n l.root va l.queue l.part l.ep l.quantum (.future t.key tok) with
    | (0, s) => s
    | (st, s) => s.resolve t.key tok (BitVec.ofNat 32 st)

/-- The LAUNCH of thread i proceeds with its token: the register is pending before the child can resolve it, and the thread is READY at the next word. -/
def State.goLaunch (s : State) (n k i : Nat) (o : EngOp) (tok : Word) : State :=
  match s.team? k, s.thread? k i with
  | some t, some th =>
    let va := th.reg64 o.a
    (s.modThread k i fun th => { (th.setPend o.d tok).step (.launch o) with st := .ready, since := s.now, used := 0, word := none }).startChild n t va tok
  | _, _ => s

/-- A thread blocked in LAUNCH. -/
structure Blocked where
  team : Nat
  tid : Nat
  n : Nat
  tok : Word
  o : EngOp
  deriving DecidableEq, Repr

/-- The LAUNCH that a thread is blocked in. -/
def Thread.blockedLaunch (th : Thread) (k i : Nat) : Option Blocked :=
  match th.st, th.word with
  | .blocked (.launch n tok), some (.launch o) => some { team := k, tid := i, n := n, tok := tok, o := o }
  | _, _ => none

/-- The threads of a partition blocked in LAUNCH, those of teams that are being saved or are saved among them, in order of issue (R125). -/
def State.blockedLaunches (s : State) (part : Nat) : List Blocked :=
  sortBy (fun a b => a.n < b.n) ((s.teams.filter fun t =>
      (t.placed || t.status == .saved) && ((s.launch? t.launch).map (·.part)) == some part).flatMap fun t =>
    (List.range t.threads.length).filterMap fun i => (t.threads[i]?).bind fun th => th.blockedLaunch t.key i)

/-- A blocked LAUNCH cannot go on: its team is not resident, or memory keeps back what it reads. -/
def State.blockedBusy (s : State) (b : Blocked) : Bool :=
  match s.team? b.team, s.thread? b.team b.tid with
  | some t, some th => t.status != .resident || s.launchBusy b.n (s.root t) (th.reg64 b.o.a) (((s.launch? t.launch).map (·.part)).getD 0)
  | _, _ => false

/-- What the hub does for a LAUNCH that cannot go on. -/
def State.blockedAsk (s : State) (b : Blocked) : State :=
  match s.team? b.team, s.thread? b.team b.tid with
  | some t, some th => if t.status == .resident then s.launchAsk b.n (s.root t) (th.reg64 b.o.a) (((s.launch? t.launch).map (·.part)).getD 0) else s
  | _, _ => s

/-- LAUNCHes that wait go on in order of issue, at most n of them, while fewer than 256 children of the partition are in progress (R125, R389): one whose check fails
is none of them. -/
def State.nextChildren (s : State) (part : Nat) : (n : Nat) → State
  | 0 => s
  | n + 1 =>
    if 256 ≤ s.children part then s
    else
      match s.blockedLaunches part with
      | [] => s
      | b :: _ => if s.blockedBusy b then s.blockedAsk b else (s.goLaunch b.n b.team b.tid b.o b.tok).nextChildren part n

/-- Once a device-side launch has completed, the LAUNCHes that wait and find room go on (R125, R389). -/
def State.nextChild (s : State) (part : Nat) : State := s.nextChildren part (s.blockedLaunches part).length

/-- LAUNCHes of some partitions that memory kept back go on (R176). -/
def State.wakeLaunches (s : State) : List Nat → State
  | [] => s
  | p :: ps => (if (s.blockedLaunches p).isEmpty then s else s.nextChild p).wakeLaunches ps

end Sys2Proof.Machine
end

