-- ==== Sys2Proof/Machine/Flags.lean ====
section
/-!
DEFINITION. What an FLT or XFN word takes from FPSTAT, FTZ, DPHASE and its extension word, and the FPSTAT flags it leaves (R250, R252, R258, R319, R321).
-/
namespace Sys2Proof.Machine

/-- FPSTAT.RM (R258). -/
def Thread.rm (t : Thread) : Nat := bitsOf t.fpstat.toNat 10 8

/-- The rounding mode of a word: its override, else FPSTAT.RM (R250, R321). -/
def Thread.mode (t : Thread) (o : Alu) : RMode :=
  let e := srcExt o.b
  rmodeOf (if e.ro then e.rm.toNat else t.rm)

/-- What SWR stores into FPSTAT: reserved bits are ignored, RM 5 to 7 stores 0 (R258, R394). -/
def fpstatOf (v : Word) : Word :=
  let rm := bitsOf v.toNat 10 8
  BitVec.ofNat 32 (bitsOf v.toNat 4 0 + (if rm ≤ 4 then rm * 256 else 0))

/-- b of an FP32 word: the bits of g[B], the exact value of an immediate, or a literal (R270). -/
def Thread.bF32 (t : Thread) : Src → Nat
  | .imm v => (i2fOf .f32 .rne false false v.toInt).1
  | b => (t.b32 b).toNat

/-- b of a packed word: an immediate reads as its value in each half (R270). -/
def Thread.bPacked (t : Thread) (f : Fmt) : Src → Nat
  | .imm v => let h := (i2fOf f .rne false false v.toInt).1; h + h * 2 ^ 16
  | b => (t.b32 b).toNat

/-- Operand a as read in a format (R319). -/
def Thread.fa (t : Thread) (f : Fmt) (o : Alu) : Nat :=
  let e := srcExt o.b
  fprep f t.ftz e.aa e.na (t.reg o.a).toNat
/-- Operand b of an FP32 word as read (R319). -/
def Thread.fb (t : Thread) (o : Alu) : Nat :=
  let e := srcExt o.b
  fprep .f32 t.ftz e.ab e.nb (t.bF32 o.b)
/-- Operand c of an FP32 word as read (R319). -/
def Thread.fc (t : Thread) (o : Alu) : Nat :=
  let e := srcExt o.b
  fprep .f32 t.ftz e.ac e.nc (t.reg e.c).toNat

/-- A 32-bit result with flags. -/
def outF (r : FOut) : AluOut := .val [BitVec.ofNat 32 r.1] r.2

/-- Element k, w bits wide, of a number. -/
def elem (w k v : Nat) : Nat := v / 2 ^ (w * k) % 2 ^ w

/-- Two packed lanes with their flags ORed (R328). -/
def outLanes (x y : FOut) : AluOut := .val [BitVec.ofNat 32 (x.1 + y.1 * 2 ^ 16)] (x.2 ||| y.2)

/-- The lane of b that lane k of the result reads (R328). -/
def laneSel (ls k : Nat) : Nat :=
  match ls with
  | 1 => 1 - k
  | 2 => 0
  | 3 => 1
  | _ => k

end Sys2Proof.Machine
end

