-- ==== Sys2Proof/Machine/Float.lean ====
section
/-!
DEFINITION. The FLT class: FP32 arithmetic, minimum and maximum, comparison, packed arithmetic, dot products, conversions (R319 to R333).
-/
namespace Sys2Proof.Machine

/-- An FP32 word of a and b (R322, R323). -/
def State.fp2 (s : State) (i : Instr) (o : Alu) (f : RMode → Bool → Nat → Nat → FOut) : State :=
  s.alu i o.d fun t => outF (f (t.mode o) t.ftz (t.fa .f32 o) (t.fb o))

/-- FADD (R322). -/
def execFadd (o : Alu) (s : State) : Out := .next (s.fp2 (.fadd o) o (faddOf .f32))
/-- FSUB (R322). -/
def execFsub (o : Alu) (s : State) : Out := .next (s.fp2 (.fsub o) o (fsubOf .f32))
/-- FMUL (R322). -/
def execFmul (o : Alu) (s : State) : Out := .next (s.fp2 (.fmul o) o (fmulOf .f32))
/-- FFMA (R322). -/
def execFfma (o : Alu) (s : State) : Out :=
  .next (s.alu (.ffma o) o.d fun t => outF (ffmaOf .f32 (t.mode o) t.ftz (t.fa .f32 o) (t.fb o) (t.fc o)))
/-- FMIN (R323). -/
def execFmin (o : Alu) (s : State) : Out := .next (s.fp2 (.fmin o) o fun _ _ => fminOf .f32 false false)
/-- FMAX (R323). -/
def execFmax (o : Alu) (s : State) : Out := .next (s.fp2 (.fmax o) o fun _ _ => fminOf .f32 true false)
/-- FMINN (R323). -/
def execFminn (o : Alu) (s : State) : Out := .next (s.fp2 (.fminn o) o fun _ _ => fminOf .f32 false true)
/-- FMAXN (R323). -/
def execFmaxn (o : Alu) (s : State) : Out := .next (s.fp2 (.fmaxn o) o fun _ _ => fminOf .f32 true true)

/-- FSETC (R325). -/
def execFsetc (o : Alu) (s : State) : Out :=
  .next (s.alu (.fsetc o) o.d fun t =>
    let r := fsetcOf ((srcExt o.b).fn.toNat % 16) (t.fa .f32 o) (t.fb o)
    .val [if r.1 then 1 else 0] r.2)
/-- FRND (R327). -/
def execFrnd (o : Alu) (s : State) : Out := .next (s.alu (.frnd o) o.d fun t => outF (frndOf (t.mode o) (t.fa .f32 o)))
/-- FCLASS: the raw bits, whatever FTZ (R326). -/
def execFclass (o : Alu) (s : State) : Out :=
  .next (s.alu (.fclass o) o.d fun t => outWord (BitVec.ofNat 32 (fclassOf (t.reg o.a).toNat)))
/-- FSCALE: b is an integer (R322). -/
def execFscale (o : Alu) (s : State) : Out :=
  .next (s.alu (.fscale o) o.d fun t => outF (fscaleOf (t.mode o) t.ftz (t.fa .f32 o) (t.b32 o.b).toInt))
/-- FCPYS: the raw bits of a with the sign of b (R324). -/
def execFcpys (o : Alu) (s : State) : Out :=
  .next (s.alu (.fcpys o) o.d fun t =>
    outWord (((BitVec.ofNat 32 (t.bF32 o.b)).extractLsb' 31 1) ++ ((t.reg o.a).extractLsb' 0 31)))

/-- A packed lane's operands: a, b through the lane selector, c (R328). -/
def Thread.packedLane (t : Thread) (f : Fmt) (o : Alu) (k : Nat) : Nat × Nat × Nat :=
  let e := srcExt o.b
  let pr := fun (aa na : Bool) (v k : Nat) => fprep f t.ftz aa na (elem 16 k v)
  (pr e.aa e.na (t.reg o.a).toNat k, pr e.ab e.nb (t.bPacked f o.b) (laneSel (e.fn.toNat % 4) k), pr e.ac e.nc (t.reg e.c).toNat k)

/-- A packed word of two operands (R328). -/
def State.vec2 (s : State) (i : Instr) (f : Fmt) (o : Alu) (g : RMode → Bool → Nat → Nat → FOut) : State :=
  s.alu i o.d fun t =>
    let x := t.packedLane f o 0
    let y := t.packedLane f o 1
    outLanes (g (t.mode o) t.ftz x.1 x.2.1) (g (t.mode o) t.ftz y.1 y.2.1)

/-- A packed word of three operands (R328). -/
def State.vec3 (s : State) (i : Instr) (f : Fmt) (o : Alu) : State :=
  s.alu i o.d fun t =>
    let x := t.packedLane f o 0
    let y := t.packedLane f o 1
    outLanes (ffmaOf f (t.mode o) t.ftz x.1 x.2.1 x.2.2) (ffmaOf f (t.mode o) t.ftz y.1 y.2.1 y.2.2)

/-- VADDH (R328). -/
def execVaddh (o : Alu) (s : State) : Out := .next (s.vec2 (.vaddh o) .f16 o (faddOf .f16))
/-- VMULH (R328). -/
def execVmulh (o : Alu) (s : State) : Out := .next (s.vec2 (.vmulh o) .f16 o (fmulOf .f16))
/-- VFMAH (R328). -/
def execVfmah (o : Alu) (s : State) : Out := .next (s.vec3 (.vfmah o) .f16 o)
/-- VADDB (R328). -/
def execVaddb (o : Alu) (s : State) : Out := .next (s.vec2 (.vaddb o) .bf16 o (faddOf .bf16))
/-- VMULB (R328). -/
def execVmulb (o : Alu) (s : State) : Out := .next (s.vec2 (.vmulb o) .bf16 o (fmulOf .bf16))
/-- VFMAB (R328). -/
def execVfmab (o : Alu) (s : State) : Out := .next (s.vec3 (.vfmab o) .bf16 o)

/-- The products of n elements, w bits wide, of formats f and g (R329); modifiers act on every element. -/
def Thread.products (t : Thread) (o : Alu) (f g : Fmt) (w n : Nat) : List Prod :=
  let e := srcExt o.b
  let b := match o.b with
    | .imm _ => t.bPacked g o.b
    | _ => (t.b32 o.b).toNat
  (List.range n).map fun k =>
    fprod (fdecode f (fprep f t.ftz e.aa e.na (elem w k (t.reg o.a).toNat)))
      (fdecode g (fprep g t.ftz e.ab e.nb (elem w k b)))

/-- d plus a sum of products, rounded once to FP32 (R329). -/
def State.dot (s : State) (i : Instr) (o : Alu) (f g : Fmt) (w n : Nat) : State :=
  s.alu i o.d fun t =>
    let d := (fdecode .f32 (fprep .f32 t.ftz false false (t.reg o.d).toNat)).term
    outF (fsumOf .f32 (t.mode o) t.ftz (d :: t.products o f g w n))

/-- DOT2B (R329). -/
def execDot2b (o : Alu) (s : State) : Out := .next (s.dot (.dot2b o) o .bf16 .bf16 16 2)
/-- DOT4E: x and y select E5M2 for a and b (R279, R329). -/
def execDot4e (x y : Bool) (o : Alu) (s : State) : Out :=
  .next (s.dot (.dot4e x y o) o (if x then .e5m2 else .e4m3) (if y then .e5m2 else .e4m3) 8 4)

/-- PACK: where its two elements go (R332). -/
def packInto (f : Fmt) (p d x y : Nat) : Nat :=
  let w := (fmtInfo f).bits
  let lo := 2 * w * p
  d % 2 ^ lo + x * 2 ^ lo + y * 2 ^ (lo + w) + d / 2 ^ (lo + 2 * w) * 2 ^ (lo + 2 * w)
/-- PACK (R332). -/
def execPack (f : Fmt) (o : Alu) (s : State) : Out :=
  .next (s.alu (.pack f o) o.d fun t =>
    let sat := satOf o
    let x := fcvtOf .f32 f (t.mode o) sat t.ftz (t.fa .f32 o)
    let y := fcvtOf .f32 f (t.mode o) sat t.ftz (t.fb o)
    .val [BitVec.ofNat 32 (packInto f ((srcExt o.b).fn.toNat % 4) (t.reg o.d).toNat x.1 y.1)] (x.2 ||| y.2))

/-- UNPK (R333). -/
def execUnpk (f : Fmt) (o : Alu) (s : State) : Out :=
  .next (s.alu (.unpk f o) o.d fun t =>
    let p := (srcExt o.b).fn.toNat % 4
    let one := fun k =>
      fcvtOf f .f32 .rne false t.ftz (fprep f t.ftz false false (elem (fmtInfo f).bits k (t.reg o.a).toNat))
    let x := one (2 * p)
    let y := one (2 * p + 1)
    .val [BitVec.ofNat 32 x.1, BitVec.ofNat 32 y.1] (x.2 ||| y.2))

/-- CVT: under RM 5 the conversion is dithered at position g[B][5:0] and phase DPHASE (R257, R330). -/
def execCvt (f g : Fmt) (o : Alu) (s : State) : Out :=
  .next (s.alu (.cvt f g o) o.d fun t =>
    let md := if (srcExt o.b).dither then RMode.dth (ditherAt ((t.b32 o.b).toNat % 64) t.dphase.toNat) else t.mode o
    outF (fcvtOf f g md (satOf o) t.ftz (t.fa f o)))

/-- F2I: narrow results are extended by their type (R331). -/
def execF2i (f : Fmt) (k : IType) (o : Alu) (s : State) : Out :=
  .next (s.alu (.f2i f k o) o.d fun t =>
    let r := f2iOf f k (t.mode o) (t.fa f o)
    .val (if itypeWide k then words64 (BitVec.ofInt 64 r.1) else [BitVec.ofInt 32 r.1]) r.2)

/-- I2F (R331). -/
def execI2f (g : Fmt) (k : IType) (o : Alu) (s : State) : Out :=
  .next (s.alu (.i2f g k o) o.d fun t =>
    let v := if itypeWide k then (t.reg64 o.a).toNat else (t.reg o.a).toNat
    let w := itypeBits k
    let n : Int := if itypeUnsigned k then (v % 2 ^ w : Nat) else signed w v
    outF (i2fOf g (t.mode o) (satOf o) t.ftz n))

end Sys2Proof.Machine
end

