-- ==== Sys2Proof/Machine/Phase.lean ====
section
/-!
DEFINITION. Transaction barriers and stage rings (R220 to R223, R385 to R387), the continuations registered on them (R152 to R154, R388), and WAITA (R365, R366).
-/
namespace Sys2Proof.Machine

/-- A transaction barrier (R220). -/
structure TBar where
  phase : Nat
  arriv : Nat
  sect : Int
  dropped : Bool
  error : Bool
  cancelled : Bool
  coff : Nat
  spawn : Nat
  arg : Nat
  deriving DecidableEq, Repr

/-- A barrier from its 16 bytes (R220). -/
def tbarOf (bs : List Byte) : TBar :=
  let w := leNat bs
  { phase := bitsOf w 127 124
    arriv := bitsOf w 123 104
    sect := signed 32 (bitsOf w 103 72)
    dropped := bitOf w 66
    error := bitOf w 65
    cancelled := bitOf w 64
    coff := bitsOf w 63 32
    spawn := bitsOf w 31 24
    arg := bitsOf w 23 0 }

/-- The flags of a barrier as TBWAIT gives them (R387). -/
def TBar.flags (b : TBar) : Nat := 4 * b2n b.dropped + 2 * b2n b.error + b2n b.cancelled

/-- The 16 bytes of a barrier (R220). -/
def TBar.bytes (b : TBar) : List Byte :=
  leBytes 16 (b.phase % 16 * 2 ^ 124 + b.arriv % 2 ^ 20 * 2 ^ 104 + wrapN 32 b.sect * 2 ^ 72 + b.flags * 2 ^ 64 +
    b.coff % 2 ^ 32 * 2 ^ 32 + b.spawn % 256 * 2 ^ 24 + b.arg % 2 ^ 24)

/-- The barrier at an offset of a team's scratchpad. -/
def Team.tbar (t : Team) (off : Nat) : TBar := tbarOf (t.spadN off 16)

/-- Store a barrier, one indivisible update (R220); done says that it completes its phase, which takes a registered continuation (R153, R221). -/
def State.putTbar (s : State) (k off : Nat) (b : TBar) (done : Bool) : State :=
  if done then
    let s := if b.coff == 0 then s else s.modTeam k fun t =>
      if t.cause.isSome then t
      else { t with conts := t.conts.filter (· != off), spawns := t.spawns ++ [{ off := b.coff, count := b.spawn, arg := BitVec.ofNat 32 b.arg, bar := off }] }
    s.spadWrite k off { b with phase := (b.phase + 1) % 16, coff := 0 }.bytes
  else s.spadWrite k off b.bytes

/-- Count n sectors on a barrier and OR flags into it (R221): the phase completes when the count passes zero with no arrival pending. -/
def State.countSectors (s : State) (k off n : Nat) (dropped error cancelled : Bool) : State :=
  let s := s.fillSync k off
  match s.team? k with
  | none => s
  | some t =>
    if t.status == .complete then s
    else
      let b := t.tbar off
      let b' := { b with
        sect := b.sect - n, dropped := b.dropped || dropped, error := b.error || error, cancelled := b.cancelled || cancelled }
      s.putTbar k off b' (b.arriv == 0 && decide (0 < b.sect) && decide (b.sect ≤ n))

/-! ### Scratchpad operands of ENG words (R369) -/

/-- The check of a scratchpad object: aligned, and wholly below SPAD (R369). -/
def spadTrap (off align size spad : Nat) : Option Trap :=
  if off % align != 0 then some (misaligned (BitVec.ofNat 64 off) align)
  else if spad < off + size then some (accessTrap (BitVec.ofNat 64 off) 3)
  else none

/-- ENGINE_PARAM at the word (R369). -/
def paramTrap (pc : DWord) (code : Nat) : Trap where
  cause := cEngineParam
  addr := pc
  info := BitVec.ofNat 32 code

/-- BARRIER_COUNT of a transaction barrier (R385). -/
def countTrap (off count : Nat) : Trap where
  cause := cBarrierCount
  addr := BitVec.ofNat 64 off
  info := BitVec.ofNat 32 count

/-- The literal of an ENG word, or the register that B names. -/
def litOr (o : EngOp) (t : Thread) : Word := o.lit.getD (t.reg o.b)

/-- A word acts on a barrier: its thread's own earlier stores to it have been performed (R164), and the lines of a map under it are filled (R159). -/
def State.onBarrier (s : State) (i : Instr) (c : Issue) (off size : Nat) (act : State → Issue → Nat → State) : State :=
  if s.ownSts c.k c.lead off size then s.stall
  else
    match s.fillNow c i (wordLines c.team c.thr i) false with
    | (false, s) => s
    | (true, s) => act s c off

/-- A gated word of one thread that names a barrier through g[A], once its operand has passed the check of R369. -/
def State.barWord (s : State) (i : Instr) (o : EngOp) (size : Nat) (act : State → Issue → Nat → State) : State :=
  match s.gate i with
  | (s, none) => s
  | (s, some c) =>
    let off := (c.thr.reg o.a).toNat
    match spadTrap off 16 size (s.spadSize c.team) with
    | some tr => s.trapAll c.k c.all tr
    | none => s.onBarrier i c off size act

/-- An update of a barrier by a word: a trap, or the barrier after it and whether a phase completes (R221). -/
def State.tbUpdate (s : State) (c : Issue) (off : Nat) (f : TBar → Option (TBar × Bool)) : Option State :=
  match s.team? c.k with
  | none => none
  | some t => (f (t.tbar off)).map fun r => s.putTbar c.k off r.1 r.2

/-- TBINIT, initial form (R221). -/
def TBar.init (n : Nat) (_ : TBar) : Option (TBar × Bool) :=
  if n == 0 || 1048575 < n then none
  else some ({ phase := 0, arriv := n, sect := 0, dropped := false, error := false, cancelled := false, coff := 0, spawn := 0, arg := 0 }, false)

/-- TBINIT, re-arm form (R221). -/
def TBar.rearm (n : Nat) (b : TBar) : Option (TBar × Bool) :=
  if n == 0 || 1048575 < n || b.arriv != 0 then none
  else some ({ b with arriv := n, dropped := false, error := false, cancelled := false }, false)

/-- TBEXP (R221). -/
def TBar.expect (m : Nat) (b : TBar) : Option (TBar × Bool) :=
  if b.arriv == 0 || 2147483647 < b.sect + m then none else some ({ b with sect := b.sect + m }, false)

/-- TBARV (R221, R386). -/
def TBar.arrive (n : Nat) (b : TBar) : Option (TBar × Bool) :=
  if b.arriv < n then none else some ({ b with arriv := b.arriv - n }, b.arriv == n && b.sect == 0)

/-- TBINIT and TBEXP: the update, then the next word. -/
def State.updateWord (s : State) (i : Instr) (o : EngOp) (f : Nat → TBar → Option (TBar × Bool)) : State :=
  s.barWord i o 16 fun s c off =>
    let n := (litOr o c.thr).toNat
    match s.tbUpdate c off (f n) with
    | none => s.trapAll c.k c.all (countTrap off n)
    | some s => s.goOn c i

/-- TBINIT (R386). -/
def execTbinit (o : EngOp) (s : State) : Out := .next (s.updateWord (.tbinit o) o TBar.init)
/-- TBINIT.rearm (R386). -/
def execTbinitRearm (o : EngOp) (s : State) : Out := .next (s.updateWord (.tbinitRearm o) o TBar.rearm)
/-- TBEXP (R386). -/
def execTbexp (o : EngOp) (s : State) : Out := .next (s.updateWord (.tbexp o) o TBar.expect)

/-- TBARV after its release prerequisites (R386). -/
def actTbarv (o : EngOp) (s : State) (c : Issue) : State :=
  let off := (c.thr.reg o.a).toNat
  let n := (litOr o c.thr).toNat
  s.checked c (spadTrap off 16 16 (s.spadSize c.team)) (s.onBarrier (.tbarv o) c off 16 fun s c off =>
    match s.tbUpdate c off (TBar.arrive n) with
    | none => s.trapAll c.k c.all (countTrap off n)
    | some s => s.goReady c (.tbarv o))

/-- TBARV (R386). -/
def execTbarv (o : EngOp) (s : State) : Out :=
  .next (s.barWord (.tbarv o) o 16 fun s c _ => s.awaitRelease c (.tbarv o))

/-! ### Waiting for a phase (R222, R387) -/

/-- Wait for a barrier to leave a phase: at once, or blocked at the word until it has left (R387). -/
def State.waitPhase (s : State) (i : Instr) (c : Issue) (d : Reg) (bar p : Nat) : State :=
  match s.team? c.k with
  | none => s
  | some t =>
    let b := t.tbar bar
    if b.phase == p then s.modThreads c.k c.all fun th => { th with st := .blocked (.phase bar p) }
    else (s.finish c.k c.all i fun th => th.setReg d (BitVec.ofNat 32 (b.phase * 16 + b.flags))).l1Acquire t.pcore .pkg

/-- TBWAIT (R387). -/
def execTbwait (o : EngOp) (s : State) : Out :=
  .next (s.barWord (.tbwait o) o 16 fun s c off => s.waitPhase (.tbwait o) c o.d off ((litOr o c.thr).toNat % 16))

/-- Slots of a stage ring (R367). -/
def ringSlots (o : EngOp) : Nat := (o.lit.getD 0).toNat % 16 + 1

/-- STGWAIT (R223, R387). -/
def execStgwait (o : EngOp) (s : State) : Out :=
  .next (s.barWord (.stgwait o) o (16 * ringSlots o) fun s c off =>
    let n := (c.thr.reg o.b).toNat
    s.waitPhase (.stgwait o) c o.d (off + 16 * (n % ringSlots o)) (n / ringSlots o % 16))

/-! ### Continuations (R152 to R154, R388) -/

/-- CONT's checks before its release prerequisites (R388). -/
def State.contTrap (s : State) (c : Issue) (o : EngOp) : Option Trap :=
  let count := bitsOf (c.thr.reg o.b).toNat 29 24
  let coff := (o.lit.getD 0).toNat
  if count == 0 || s.crewSize c.team < count then some (paramTrap c.thr.pc 2)
  else if coff == 0 || coff % 4 != 0 then some (paramTrap c.thr.pc 3)
  else none

/-- CONT after its release prerequisites: the continuation is registered and the thread exits (R388). -/
def actCont (o : EngOp) (s : State) (c : Issue) : State :=
  let off := (c.thr.reg o.a).toNat
  let v := (c.thr.reg o.b).toNat
  s.checked c ((spadTrap off 16 16 (s.spadSize c.team)).or (s.contTrap c o)) (s.onBarrier (.cont o) c off 16 fun s c off =>
    match s.team? c.k with
    | none => s
    | some t =>
      let b := t.tbar off
      if b.coff != 0 then s.trapAll c.k c.all (paramTrap c.thr.pc 1)
      else
        ((s.modTeam c.k fun t => { t with conts := t.conts.filter (· != off) ++ [off] }).spadWrite c.k off { b with coff := (o.lit.getD 0).toNat, spawn := bitsOf v 29 24, arg := bitsOf v 23 0 }.bytes).exitThread c.k c.lead)

/-- CONT (R388). -/
def execCont (o : EngOp) (s : State) : Out :=
  .next (s.barWord (.cont o) o 16 fun s c _ =>
    match s.contTrap c o with
    | some tr => s.trapAll c.k c.all tr
    | none => s.awaitRelease c (.cont o))

/-- A continuation is registered or waits for its crew (R154). -/
def Team.continues (t : Team) : Bool := !t.spawns.isEmpty || t.conts.any fun off => (t.tbar off).coff != 0

/-- A team whose threads have all exited completes instead of being saved (R126). -/
def Team.finished (t : Team) : Bool := t.threads.all (·.final) && (t.cause.isSome || !t.continues)

/-- The threads of crew c of a team. -/
def Team.crew (t : Team) (size c : Nat) : List Nat := (List.range size).map (c * size + ·) |>.filter (· < t.threads.length)

/-- The lowest crew whose threads have all exited (R153). A spawn's threads leave EXITED as it starts, so no two spawns share a crew. -/
def Team.freeCrew (t : Team) (size : Nat) : Option Nat :=
  (List.range (ceilDiv t.threads.length size)).find? fun c =>
    (t.crew size c).all fun i => match t.threads[i]? with | some th => th.st == .exited | none => true

/-- A fresh thread at an entry, at a home position (R135). -/
def Thread.fresh (r : LaunchRec) (pc : DWord) (slot : Nat) (quad : BitVec 2) (lane : BitVec 5) (now : Nat) : Thread :=
  { Thread.blank with pc := pc, clause := pc, uchk := r.uchk, ftz := r.ftz, slot := slot, quad := quad, lane := lane, since := now }

/-- CONTINUATION_SPAWN (R153): the continuation taken first starts its threads; the last crew of a team may be short of them, and then as many start as it has
(DESIGN CHOICE, log entry 52). -/
def execContinuationSpawn (k : Nat) (s : State) : Out :=
  .next (match s.team? k with
    | none => s
    | some t =>
      match t.spawns, s.lrec? t with
      | sp :: rest, some r =>
        if t.status != .resident || t.cause.isSome then s
        else
          let size := s.crewSize t
          match t.freeCrew size with
          | none => s
          | some c =>
            let is := (t.crew size c).take sp.count
            let pc := r.entry + BitVec.ofNat 64 sp.off
            let s := s.modThreads k is fun th => Thread.fresh r pc th.slot th.quad th.lane s.now
            let s := s.modTeam k fun t => { t with
              spawns := rest
              fresh := if t.resorts.isEmpty then t.fresh else t.fresh ++ is
              threads := is.foldl (fun ths i => ths.modify i fun th => (th.setReg 0 sp.arg).setReg 1 (BitVec.ofNat 32 (i - c * size))) t.threads }
            s.l1Acquire t.pcore .pkg
      | _, _ => s)

/-! ### WAITA (R365, R366) -/

/-- WAITA (R366): at once when the word differs or the timeout is 0; else the thread sleeps on it. -/
def execWaita (o : EngOp) (s : State) : Out :=
  .next (match s.gate (.waita o) with
    | (s, none) => s
    | (s, some c) =>
      let off := (c.thr.reg o.a).toNat
      match spadTrap off 4 4 (s.spadSize c.team) with
      | some tr => s.trapAll c.k c.all tr
      | none =>
        let v := c.thr.reg o.b
        match s.fillNow c (.waita o) (wordLines c.team c.thr (.waita o)) false with
        | (false, s) => s
        | (true, s) =>
          let x : Word := BitVec.ofNat 32 (leNat (s.spadSee ((s.team? c.k).getD c.team) c.lead off 4))
          if x != v || o.lit == some 0 then (s.finish c.k c.all (.waita o) fun t => t.setReg o.d x).l1Acquire c.team.pcore .pkg
          else
            s.modThreads c.k c.all fun t =>
              { t with st := .blocked (.waita off v o.d (t.after (.waita o)) (o.lit.map fun n => s.now + n.toNat)) })

/-- WAITA_TIMEOUT (R366). -/
def execWaitaTimeout (k tid : Nat) (s : State) : Out :=
  .next (match s.team? k, s.thread? k tid with
    | some t, some th =>
      match th.st with
      | .blocked (.waita off _ d next (some n)) =>
        if n ≤ s.now then (s.modThread k tid fun th => ((th.setReg d (BitVec.ofNat 32 (leNat (s.spadSee t tid off 4)))).wake s.now).moveTo next).l1Acquire t.pcore .pkg else s
      | _ => s
    | _, _ => s)

end Sys2Proof.Machine
end

