-- ==== Sys2Proof/Machine/Stream.lean ====
section
/-!
DEFINITION. The FIFO streams of the Oryx (R234, R235, R243) as copies feed them and passes take from them.
-/
namespace Sys2Proof.Machine

/-- Bytes that a FIFO of a quad holds over the streams of its resident teams (R235). -/
def State.fifoLoad (s : State) (quad : Nat) (f : BitVec 3) : Nat :=
  sumNat (s.streams.map fun x =>
    match s.team? x.team with
    | some t => if x.fifo == f && quadIx t.pcore == quad && t.placed then x.bytes.length else 0
    | none => 0)

/-- Append bytes to a team's stream; those of a halted team go nowhere (log entry 30). -/
def State.feed (s : State) (k : Nat) (f : BitVec 3) (bs : List Byte) : State :=
  match s.team? k with
  | none => s
  | some t =>
    if t.cause.isSome then s
    else
      let x := s.stream k f
      s.putStream { x with bytes := x.bytes ++ bs }

/-- A pass takes n bytes from the front of a team's stream. -/
def State.takeStream (s : State) (k : Nat) (f : BitVec 3) (n : Nat) : State :=
  let x := s.stream k f
  s.putStream { x with bytes := x.bytes.drop n }

end Sys2Proof.Machine
end

