-- ==== Sys2Proof/Machine/Saiga.lean ====
section
/-!
DEFINITION. Saiga copies (R207 to R219, R224 to R227, R377): the descriptor and its checks, elements in destination order, conversions, pieces, the scout, cancellation and the end of a copy.
-/
namespace Sys2Proof.Machine

/-! ### The descriptor (R207 to R209) -/

/-- A copy descriptor with extents and bounds in elements (R207). -/
structure Desc where
  src : DWord
  dst : DWord
  ss1 : Int
  ss2 : Int
  ds1 : Int
  ds2 : Int
  d0 : Nat
  d1 : Nat
  d2 : Nat
  e0 : Nat
  e1 : Nat
  e2 : Nat
  padval : Nat
  kind : Nat
  pad : Nat
  tr : Bool
  esz : Nat
  conv : Nat
  rnd : Nat
  scout : Nat
  dph : Nat
  mcast : Nat
  bar : Nat
  ben : Bool
  noff : Nat
  nen : Bool
  nval : Nat
  deriving DecidableEq, Repr

/-- A bound field: 0 means 65,536 (R207). -/
def boundOf (n : Nat) : Nat := if n == 0 then 65536 else n

/-- The descriptor in 64 bytes (R207). -/
def descOf (bs : List Byte) : Desc :=
  let f := fieldAt bs
  { src := BitVec.ofNat 64 (f 0 8)
    dst := BitVec.ofNat 64 (f 8 8)
    ss1 := signed 32 (f 16 4)
    ss2 := signed 32 (f 20 4)
    ds1 := signed 32 (f 24 4)
    ds2 := signed 32 (f 28 4)
    d0 := f 32 2 + 1
    d1 := f 34 2 + 1
    d2 := f 36 2 + 1
    e0 := boundOf (f 38 2)
    e1 := boundOf (f 40 2)
    e2 := boundOf (f 42 2)
    padval := f 44 4
    kind := f 48 1 % 8
    pad := bitsOf (f 48 1) 4 3
    tr := bitOf (f 48 1) 5
    esz := f 49 1 % 8
    conv := bitsOf (f 49 1) 4 3
    rnd := bitsOf (f 49 1) 7 5
    scout := f 50 1 % 16
    dph := f 51 1 % 64
    mcast := f 52 2 % 4096
    bar := f 54 2 % 16384 * 16
    ben := bitOf (f 54 2) 15
    noff := f 56 4 % 2 ^ 18
    nen := bitOf (f 56 4) 31
    nval := f 60 4 }

/-- Bytes of a source and of a destination element (R207, R210). -/
def Desc.se (d : Desc) : Nat := if d.esz ≤ 4 then 2 ^ d.esz else 1
def Desc.de (d : Desc) : Nat := match d.conv with | 0 => d.se | 3 => 2 | _ => 1

/-- Where data comes from and goes to (R208). -/
def Desc.globSrc (d : Desc) : Bool := d.kind == 0 || d.kind == 2 || d.kind == 4
def Desc.globDst (d : Desc) : Bool := d.kind == 1 || d.kind == 2
def Desc.fifo (d : Desc) : Bool := d.kind == 4 || d.kind == 5
def Desc.spadDst (d : Desc) : Bool := d.kind == 0 || d.kind == 3

/-- The fields of a descriptor in order of their offsets, each with whether it passes (R209). KIND 6 and 7 name no operand,
so only KIND itself fails under them (log 30). -/
def Desc.fields (d : Desc) (bs : List Byte) (spad accrows : Nat) : List (Nat × Bool) :=
  let f := fieldAt bs
  [ (0, 6 ≤ d.kind || (d.src.toNat % d.se == 0 && (d.globSrc || d.src.toNat < 2 ^ 32))),
    (8, if 6 ≤ d.kind then true else if d.fifo then d.dst.toNat < 8 else d.dst.toNat % d.de == 0 && (d.globDst || d.dst.toNat < 2 ^ 32)),
    (16, d.ss1 % d.se == 0),
    (20, d.ss2 % d.se == 0),
    (24, if d.fifo then d.ds1 == 0 else d.ds1 % d.de == 0),
    (28, if d.fifo then d.ds2 == 0 else d.ds2 % d.de == 0),
    (32, d.conv != 1 || d.d0 % 2 == 0),
    (38, d.conv != 1 || d.pad == 0 || d.e0 % 2 == 0),
    (48, d.kind ≤ 5 && d.pad ≤ 2 && f 48 1 < 64 && (!d.tr || d.de ≤ 4) && (!d.fifo || 0 < accrows)),
    (49, d.esz ≤ 4 && d.rnd ≤ (if 2 ≤ d.conv then 5 else 0) && (d.conv != 1 || d.esz == 0) && (d.conv ≤ 1 || d.esz == 2)),
    (50, f 50 1 < 16),
    (51, f 51 1 < 64),
    (52, f 52 2 < 4096 && (d.mcast == 0 || d.spadDst)),
    (54, !bitOf (f 54 2) 14 && (!d.ben || d.bar + 16 ≤ spad)),
    (56, bitsOf (f 56 4) 30 18 == 0 && (!d.nen || (d.noff % 4 == 0 && d.noff + 4 ≤ spad))) ]

/-! ### Elements (R210, R211) -/

/-- Elements of the box. -/
def Desc.count (d : Desc) : Nat := d.d0 * d.d1 * d.d2

/-- Sectors of a destination (R210). -/
def Desc.sectors (d : Desc) : Nat := ceilDiv (d.count * d.de) 32

/-- The coordinates of the m-th element in destination order (R210). -/
def Desc.coords (d : Desc) (m : Nat) : Nat × Nat × Nat :=
  if d.tr then (m / d.d1 % d.d0, m % d.d1, m / (d.d0 * d.d1)) else (m % d.d0, m / d.d0 % d.d1, m / (d.d0 * d.d1))

/-- The position of an element in its plane (R210). -/
def Desc.plane (d : Desc) (m : Nat) : Nat := m % (d.d0 * d.d1)

/-- An element is in bounds (R211). -/
def Desc.inside (d : Desc) (m : Nat) : Bool :=
  let (i0, i1, i2) := d.coords m
  d.pad == 0 || (i0 < d.e0 && i1 < d.e1 && i2 < d.e2)

/-- The element leaves its destination untouched (R211). -/
def Desc.skips (d : Desc) (m : Nat) : Bool := !d.inside m && d.pad == 2 && !d.fifo

/-- The address of an element's source and destination bytes (R210), modulo 2^64 or, in scratchpad, modulo 2^32. -/
def Desc.srcAt (d : Desc) (m : Nat) : DWord :=
  let (i0, i1, i2) := d.coords m
  BitVec.ofInt 64 (d.src.toNat + (if d.conv == 1 then i0 / 2 else i0 * d.se : Nat) + i1 * d.ss1 + i2 * d.ss2)
def Desc.dstAt (d : Desc) (m : Nat) : DWord :=
  let (i0, i1, i2) := d.coords m
  if d.tr then BitVec.ofInt 64 (d.dst.toNat + (i1 * d.de : Nat) + i0 * d.ds1 + i2 * d.ds2)
  else BitVec.ofInt 64 (d.dst.toNat + (i0 * d.de : Nat) + i1 * d.ds1 + i2 * d.ds2)

/-- A scratchpad offset. -/
def spadAt (a : DWord) : Nat := a.toNat % 2 ^ 32

/-- The lowest byte at or above SPAD among n bytes at an offset. -/
def aboveSpad (spad off n : Nat) : List Nat := if spad ≤ off then [off] else if spad < off + n then [spad] else []

/-- The scratchpad bytes at or above SPAD that element m would read or write (R209): the lowest of each operand; an element that PAD skips counts. -/
def Desc.above (d : Desc) (spad m : Nat) : List Nat :=
  (if d.inside m && !d.globSrc then aboveSpad spad (spadAt (d.srcAt m)) d.se else []) ++
    (if d.spadDst then aboveSpad spad (spadAt (d.dstAt m)) d.de else [])

/-- The lowest of some numbers. -/
def least : List Nat → Option Nat
  | [] => none
  | x :: xs => some (xs.foldl Nat.min x)

/-- The trap at issue of a descriptor at an offset, from its bytes (R209). -/
def State.copyTrap (s : State) (t : Team) (off : Nat) (bs : List Byte) : Option Trap :=
  let spad := s.spadSize t
  let param (n : Nat) : Trap := { cause := cEngineParam, addr := BitVec.ofNat 64 off, info := BitVec.ofNat 32 n }
  if off % 64 != 0 || spad < off + 64 then some (param 0)
  else
    let d := descOf bs
    match (d.fields bs spad (s.lfield t (·.accrows))).find? fun f => !f.2 with
    | some (n, _) => some (param n)
    | none =>
      if 2 ^ s.clusterSize t ≤ d.mcast then some { cause := cMulticast, addr := BitVec.ofNat 64 off, info := BitVec.ofNat 32 d.mcast }
      else (least ((List.range d.count).flatMap (d.above spad))).map fun a => accessTrap (BitVec.ofNat 64 a) 3

/-! ### Conversions (R212, R213) -/

/-- E2M1 to E4M3 (R213). -/
def e2m1Byte (n : Nat) : Nat := [0x00, 0x30, 0x38, 0x3C, 0x40, 0x44, 0x48, 0x4C].getD (n % 8) 0 + (if 8 ≤ n then 128 else 0)

/-- The rounding mode of a conversion at a position and phase (R249, R257). -/
def rmodeAt (rnd pos phase : Nat) : RMode := if rnd == 5 then .dth (ditherAt (pos % 64) (phase % 64)) else rmodeOf rnd

/-- The destination bytes of an in-bounds element from its source bytes (R212). -/
def Desc.convert (d : Desc) (m : Nat) (raw : List Byte) : List Byte :=
  let (i0, _, i2) := d.coords m
  let md := rmodeAt d.rnd (d.plane m) (d.dph + i2)
  match d.conv with
  | 0 => raw
  | 1 => leBytes 1 (e2m1Byte (if i0 % 2 == 0 then leNat raw % 16 else leNat raw / 16))
  | 2 => leBytes 1 (fcvtOf .f32 .e4m3 md true false (leNat raw)).1
  | _ => leBytes 2 (fcvtOf .f32 .bf16 md true false (leNat raw)).1

/-! ### Reaching the bytes of a piece (R159, R197, R198, R215) -/

/-- What moving elements comes to. -/
inductive Moved where
  | done
  /-- Nothing has moved: memory is held, or a line of a map is being filled. -/
  | wait
  /-- A page faults: what the access is, its VA, reason and level. -/
  | fault (k : FKind) (need : BitVec 3) (va : DWord) (reason level : Nat)
  /-- The entry that the scout opened for the page is unanswered (R198). -/
  | await (fid : Nat)
  | fatal (cause : Byte)
  deriving DecidableEq, Repr

/-- The number of a page on its side (R217). -/
def pageKey (dst : Bool) (va : DWord) : Nat := va.toNat / 4096 + (if dst then 2 ^ 52 else 0)

/-- The global bytes that an element touches: the side and the VA (R211). -/
def Desc.touches (d : Desc) (m : Nat) : List (Bool × DWord) :=
  (if d.inside m && d.globSrc then [(false, d.srcAt m)] else []) ++ (if d.globDst && !d.skips m then [(true, d.dstAt m)] else [])

/-- The team of a copy, and its address space. -/
def State.copyRoot (s : State) (c : Copy) : DWord := match s.team? c.team with | some t => s.root t | none => 0

/-- The entry that the scout opened for a page and that is not answered (R198). -/
def State.scouted (s : State) (c : Copy) (key : Nat) : Option Nat :=
  match c.probed.get? key with
  | some (some fid) => if (match s.fault? fid with | some f => f.answer.isNone | none => false) then some fid else none
  | _ => none

/-- Translate one touched page (R198, R215). -/
def State.touchPage (s : State) (c : Copy) (dst : Bool) (va : DWord) : (Moved ⊕ Place) × State :=
  match c.refused.get? (pageKey dst va), s.scouted c (pageKey dst va) with
  | some cause, _ => (.inl (.fatal cause), s)
  | none, some fid => (.inl (.await fid), s)
  | none, none =>
    match s.translate none (pcTower c.pcore) (s.copyRoot c) va (if dst then .store else .load) .dflt with
    | (.trap cause _, s) => (.inl (.fatal cause), s)
    | (.fault r l, s) => (.inl (.fault .piece (if dst then 2 else 1) va r l), s)
    | (.held, s) => (.inl .wait, s)
    | (.ok p, s) => if p.share == 3 then (.inl (.fatal cAccess), s) else (.inr { p with pa := p.pa - va.toNat % 4096 }, s)

/-- Translate every page that elements touch, in their order; the places of the pages by their numbers. -/
def State.touchAll (s : State) (c : Copy) : List (Bool × DWord) → Table Place → (Moved ⊕ Table Place) × State
  | [], ps => (.inr ps, s)
  | (dst, va) :: r, ps =>
    if (ps.get? (pageKey dst va)).isSome then s.touchAll c r ps
    else
      match s.touchPage c dst va with
      | (.inl m, s) => (.inl m, s)
      | (.inr p, s) => s.touchAll c r (ps.put (pageKey dst va) p)

/-- The place of a touched byte. -/
def placeIn (ps : Table Place) (dst : Bool) (va : DWord) : Option Place :=
  (ps.get? (pageKey dst va)).map fun p => { p with pa := p.pa + va.toNat % 4096 }

/-- Scratchpad lines of mapped regions that elements touch: teams and lines (R159, R353). -/
def State.mappedLines (s : State) (c : Copy) (d : Desc) (x : Dest) (ms : List Nat) : List (Nat × Nat) :=
  let of (k : Nat) (offs : List Nat) : List (Nat × Nat) :=
    match s.team? k with
    | some t => if t.maps.isEmpty then [] else ((offs.map fun o => o / 128 * 128).eraseDups.filter fun l => (t.mapAt l).isSome).map fun l => (k, l)
    | none => []
  (if d.globSrc then [] else of c.team ((ms.filter d.inside).map fun m => spadAt (d.srcAt m))) ++
    match x.team with
    | some k => of k ((ms.filter fun m => !d.skips m).map fun m => spadAt (d.dstAt m))
    | none => []

/-- Lines of mapped regions are filled before elements move there (R159, R353): what stops the piece, if something does, with the fills that have begun. -/
def State.fillLines (s : State) (c : Copy) : List (Nat × Nat) → Bool → Option Moved × State
  | [], w => (if w then some .wait else none, s)
  | (k, l) :: r, w =>
    match (s.team? k).bind fun t => (t.mapAt l).map fun m => (t, m) with
    | none => s.fillLines c r w
    | some (t, m) =>
      if m.filled.contains l then s.fillLines c r w
      else if (m.filling.get? l).isSome then s.fillLines c r true
      else
        let va := m.va + BitVec.ofNat 64 (l - m.off)
        match s.xteam t va .load .dflt with
        | (.trap cause _, s) => (some (.fatal cause), s)
        | (.fault rs lv, s) => (some (.fault .fill 1 va rs lv), s)
        | (.held, s) => (some .wait, s)
        | (.ok p, s) =>
          if p.node.isNone && (s.badByte p.key.toNat p.pa 128).isSome then (some (.fatal cUncorrectable), s.spoil p.key.toNat p.pa 128)
          else (s.startFill k l p).fillLines c r true

/-! ### Moving elements (R214 to R216) -/

/-- The tower caches through which a copy reaches a place, or the hub (R160). -/
def Copy.via (c : Copy) (p : Place) : Option Nat := atHub (pcTower c.pcore) (p.eff .dflt == .nc) .pkg

/-- The bytes of an out-of-bounds element (R211): of PADVAL, and above its four bytes, of which nothing is said, free bytes (log entry 30). -/
def State.padBytes (s : State) (d : Desc) : List Byte × State :=
  let (bs, s) := s.freeBytes (d.de - 4)
  (leBytes (Nat.min d.de 4) d.padval ++ bs, s)

/-- The bytes that element m gives its destinations, or the cause for which its source cannot be read; none for a skipped element. -/
def State.elemData (s : State) (c : Copy) (d : Desc) (ps : Table Place) (m : Nat) : (Byte ⊕ Option (List Byte)) × State :=
  if d.skips m then (.inr none, s)
  else if !d.inside m then let (bs, s) := s.padBytes d; (.inr (some bs), s)
  else if let some bs := c.taken.get? m then (.inr (some bs), s)
  else if d.globSrc then
    match placeIn ps false (d.srcAt m) with
    | none => (.inr none, s)
    | some p =>
      if p.node.isSome then let (bs, s) := s.remoteRead p d.se; (.inr (some (d.convert m bs)), s)
      else if (s.badByte p.key.toNat p.pa d.se).isSome then (.inl cUncorrectable, s.spoil p.key.toNat p.pa d.se)
      else let (bs, s) := s.devRead (c.via p) p d.se; (.inr (some (d.convert m bs)), s)
  else
    match s.team? c.team with
    | some t => (.inr (some (d.convert m (t.spadN (spadAt (d.srcAt m)) d.se))), s)
    | none => (.inr none, s)

/-- Read elements m to m + n - 1 of the source: their destination bytes, and for those that cannot be read the cause. -/
def State.readElems (s : State) (c : Copy) (d : Desc) (ps : Table Place) : (n m : Nat) → List (Nat × (Byte ⊕ List Byte)) × State
  | 0, _ => ([], s)
  | n + 1, m =>
    match s.elemData c d ps m with
    | (.inr none, s) => s.readElems c d ps n (m + 1)
    | (.inl cause, s) => let (r, s) := s.readElems c d ps n (m + 1); ((m, .inl cause) :: r, s)
    | (.inr (some bs), s) => let (r, s) := s.readElems c d ps n (m + 1); ((m, .inr bs) :: r, s)

/-- A destination team takes no more bytes (R218). -/
def State.gone (s : State) (d : Desc) (k : Nat) : Bool :=
  match s.team? k with
  | none => true
  | some t => t.status == .complete || (d.mcast != 0 && t.cause.isSome)

/-- Put bytes of element m, from its j-th on, at a destination; a cause when its memory cannot take them. A peer's page receives a packet for each
element (log entry 30). -/
def State.elemPut (s : State) (c : Copy) (d : Desc) (x : Dest) (ps : Table Place) (m j : Nat) (bs : List Byte) : Option Byte × State :=
  let va := d.dstAt m + BitVec.ofNat 64 j
  match x.team with
  | some k => (none, if s.gone d k then s else s.spadWrite k (spadAt va) bs)
  | none =>
    match placeIn ps true va with
    | none => (none, s)
    | some p =>
      match p.node with
      | some n =>
        (none, s.bulkSend n (p.pa / 128 * 128) ((List.range bs.length).zip bs |>.map fun e => (p.pa % 128 + e.1, e.2))
          { seq := 0, team := c.team, tid := none, page := va.toNat / 4096 })
      | none => if s.writeFails p then (some cUncorrectable, s) else (none, s.devWrite (c.via p) p bs)

/-- Bytes of an element that have not been moved ahead to destination i: their places and values. -/
def Copy.left (c : Copy) (d : Desc) (i m : Nat) (bs : List Byte) : List (Nat × List Byte) :=
  if c.ahead.any fun b => b.1 == i && b.2 / d.de == m then
    ((List.range bs.length).zip bs |>.filter fun e => !c.ahead.contains (i, m * d.de + e.1)).map fun e => (e.1, [e.2])
  else [(0, bs)]

/-- Put parts of element m; the first cause. -/
def State.putParts (s : State) (c : Copy) (d : Desc) (x : Dest) (ps : Table Place) (m : Nat) : List (Nat × List Byte) → Option Byte × State
  | [] => (none, s)
  | (j, bs) :: r =>
    let (a, s) := s.elemPut c d x ps m j bs
    let (b, s) := s.putParts c d x ps m r
    (a.or b, s)

/-- Some parts of an element: those that a free choice takes (R215). -/
def State.someOf (s : State) (early : Bool) : List (Nat × List Byte) → List (Nat × List Byte) × State
  | [] => ([], s)
  | (j, bs) :: r =>
    let (b, s) := s.freeChoice
    let (r, s) := s.someOf early r
    (if b != early then ((j, bs) :: r, s) else (r, s))

/-- Write elements at a destination; when one of them fails, each byte of the piece may have been written or not: a free choice (R215). -/
def State.writeElems (s : State) (c : Copy) (d : Desc) (i : Nat) (x : Dest) (ps : Table Place) (fails : Bool) :
    List (Nat × (Byte ⊕ List Byte)) → Option Byte → Option Byte × State
  | [], bad => (bad, s)
  | (_, .inl cause) :: r, bad => s.writeElems c d i x ps fails r (bad.or (some cause))
  | (m, .inr bs) :: r, bad =>
    let ws := c.left d i m bs
    let (ws, s) := if fails then s.someOf bad.isNone (ws.flatMap fun w => (List.range w.2.length).zip w.2 |>.map fun e => (w.1 + e.1, [e.2])) else (ws, s)
    let (e, s) := s.putParts c d x ps m ws
    s.writeElems c d i x ps fails r (bad.or e)

/-- A destination byte of some elements lies where a write fails. -/
def State.pieceFails (s : State) (d : Desc) (ps : Table Place) (es : List (Nat × (Byte ⊕ List Byte))) : Bool :=
  es.any fun e => (match e.2 with | .inl _ => true | .inr _ => false) ||
    (d.globDst && match placeIn ps true (d.dstAt e.1) with | some p => s.writeFails p | none => false)

/-- Keep what has been read of the source until every destination has it (R218). -/
def Copy.keep (c : Copy) (d : Desc) (es : List (Nat × (Byte ⊕ List Byte))) : Table (List Byte) :=
  let new := es.filterMap fun e => match e.2 with | .inr bs => if d.inside e.1 && (c.taken.get? e.1).isNone then some (e.1, bs) else none | .inl _ => none
  if c.taken.all fun t => new.all fun e => t.1 < e.1 then c.taken ++ new else new.foldl (fun t e => t.put e.1 e.2) c.taken

/-- Memory keeps back the global bytes of a piece, or an RMW between its read and its write those that the piece writes (R43, R45, R51, R110, R168, R176). -/
def State.pieceHeld (s : State) (c : Copy) (d : Desc) (ps : Table Place) (ms : List Nat) : Bool :=
  ps.any fun e => e.2.node.isNone &&
    ms.any fun j => (d.touches j).any fun t => pageKey t.1 t.2 == e.1 &&
      let p := { e.2 with pa := e.2.pa + t.2.toNat % 4096 }
      if t.1 then s.holds c.pcore (some c.id) p d.de || s.rmwHeld (.saiga s.fab.node (pcTower c.pcore)) (p.wide .pkg) p.pa d.de
      else s.holds c.pcore (some c.id) p d.se

/-- What elements of a copy touch can be reached now: the places of their pages, or what stops them. -/
def State.reachElems (s : State) (c : Copy) (d : Desc) (x : Dest) (ms : List Nat) : (Moved ⊕ Table Place) × State :=
  match s.touchAll c (ms.flatMap d.touches) [] with
  | (.inl r, s) => (.inl r, s)
  | (.inr ps, s1) =>
    match s1.fillLines c (s1.mappedLines c d x ms) false with
    | (some r, s2) => (.inl r, if r == .wait && s2 == s1 then s else s2)
    | (none, s2) => if s2.pieceHeld c d ps ms then (.inl .wait, s) else (.inr ps, s2)

/-- The local global bytes that a piece has written, by their addresses. -/
def Desc.written (d : Desc) (ps : Table Place) (ms : List Nat) : List Nat :=
  if d.globDst then
    (ms.filter fun m => !d.skips m).flatMap fun m =>
      match placeIn ps true (d.dstAt m) with
      | some p => if p.node.isNone then (List.range d.de).map (p.pa + ·) else []
      | none => []
  else []

/-- Move elements m to m + n - 1 of a copy to destination i (R214, R215): the source is read, once for all destinations (R218), then written. -/
def State.moveRange (s : State) (c : Copy) (d : Desc) (i : Nat) (x : Dest) (m n : Nat) : Moved × State :=
  let ms := (List.range n).map (m + ·)
  match s.reachElems c d x ms with
  | (.inl r, s) => (r, s)
  | (.inr ps, s) =>
    let (es, s) := s.readElems c d ps n m
    let s := if 1 < c.dests.length then s.modCopy c.id fun q => { q with taken := c.keep d es } else s
    if d.fifo then
      match es.findSome? fun e => match e.2 with | .inl cause => some cause | .inr _ => none with
      | some cause => (.fatal cause, s)
      | none => (.done, s.feed c.team (d.dst.extractLsb' 0 3) (es.flatMap fun e => match e.2 with | .inr bs => bs | .inl _ => []))
    else
      match s.writeElems c d i x ps (s.pieceFails d ps es) es none with
      | (none, s) => (.done, if s.mem.poison.isEmpty then s else s.clearWritten (d.written ps ms))
      | (some cause, s) => (.fatal cause, s)

/-- The page of an element on one side, when it has one. -/
def Desc.srcPage (d : Desc) (m : Nat) : Option Nat := if d.globSrc && d.inside m then some ((d.srcAt m).toNat / 4096) else none
def Desc.dstPage (d : Desc) (m : Nat) : Option Nat := if d.globDst then some ((d.dstAt m).toNat / 4096) else none

/-- Two pages that may lie in one run. -/
def samePage (a b : Option Nat) : Bool := a.isNone || b.isNone || a == b

/-- Elements from m on that one run of a row holds (R214). -/
def Desc.run (d : Desc) : (fuel : Nat) → Nat → Option Nat → Option Nat → Nat
  | 0, _, _, _ => 0
  | f + 1, m, sp, dp =>
    if samePage sp (d.srcPage m) && samePage dp (d.dstPage m) then 1 + d.run f (m + 1) (sp.or (d.srcPage m)) (dp.or (d.dstPage m)) else 0

/-- Elements of the piece that begins at m (R214). -/
def Desc.piece (d : Desc) (m : Nat) : Nat :=
  let plane := m / (d.d0 * d.d1) * (d.d0 * d.d1)
  let (i0, _, _) := d.coords m
  if d.tr then plane + Nat.min (32 * (i0 / 32 + 1)) d.d0 * d.d1 - m
  else d.run (d.d0 - i0) m none none

/-! ### Ending (R216, R218, R224 to R226) -/

/-- The team in whose scratchpad a destination's barrier lies (R208). -/
def barTeam (c : Copy) (x : Dest) : Nat := x.team.getD c.team

/-- Count sectors of a destination on its barrier, if the copy has one. -/
def State.countDest (s : State) (c : Copy) (d : Desc) (x : Dest) (n : Nat) (dropped error cancelled : Bool) : State :=
  if d.ben then s.countSectors (barTeam c x) d.bar n dropped error cancelled else s

/-- The sectors of each destination not yet counted are released (R216, R226). -/
def State.releaseDests (s : State) (c : Copy) (d : Desc) (error cancelled : Bool) : List Dest → State
  | [] => s
  | x :: xs => (s.countDest c d x (d.sectors - x.counted) false error cancelled).releaseDests c d error cancelled xs

/-- A copy stops with an ending: owned lines and sectors are released (R216, R226). -/
def State.stopCopy (s : State) (c : Copy) (e : Ending) : State :=
  let d := descOf c.desc
  let s := s.releaseDests c d (e != .cancelled) (e == .cancelled) c.dests
  s.modCopy c.id fun q => { q with
    ending := some e, fid := none, owns := [], unowned := false, taken := [], ahead := [], dests := q.dests.map fun x => { x with counted := d.sectors } }

/-- Sectors of m elements in destination order that are whole, or the last one. -/
def Desc.whole (d : Desc) (m : Nat) : Nat := if d.count ≤ m then d.sectors else m * d.de / 32

/-- Destination i has moved on to element m: sectors are counted and written lines released. -/
def State.advance (s : State) (c : Copy) (d : Desc) (i m : Nat) : State :=
  match c.dests[i]? with
  | none => s
  | some x =>
    let drop := match x.team with | some k => s.gone d k | none => false
    let s := s.countDest c d x (d.whole m - x.counted) false false false
    s.modCopy c.id fun q =>
      let ds := q.dests.modify i fun x => { x with moved := m, counted := d.whole m, dropped := x.dropped || drop }
      { q with
        fid := none, owns := q.owns.filter fun o => m ≤ o.1, dests := ds
        taken := q.taken.filter fun e => ds.any fun y => y.moved ≤ e.1
        ahead := q.ahead.filter fun b => !(b.1 == i && b.2 < m * d.de) }

/-- A copy is at work: its team holds its place and it has not ended (R127). -/
def State.copyRuns (s : State) (c : Copy) : Bool :=
  c.ending.isNone && (match s.team? c.team with | some t => t.status != .saved && t.status != .discarded | none => false)

/-- Bytes that a FIFO copy's stream has room for (R235); those of a halted team go nowhere (R243; log entry 30). -/
def State.fifoRoom (s : State) (c : Copy) (d : Desc) : Option Nat :=
  if d.fifo && ((s.team? c.team).bind (·.cause)).isNone then some (65536 - s.fifoLoad (quadIx c.pcore) (d.dst.extractLsb' 0 3)) else none

/-- Elements that may move now at m (R214, R235): the piece, once a FIFO has room for it; one of more than half a FIFO in whole sectors, as room comes (log entry 30). -/
def State.pieceNow (s : State) (c : Copy) (d : Desc) (m : Nat) : Nat :=
  let n := d.piece m
  match s.fifoRoom c d with
  | none => n
  | some room =>
    if n * d.de ≤ room then n else if 32768 < n * d.de then room / 32 * 32 / d.de else 0

/-- A piece that faults stalls its copy (R197, R215). -/
def State.stallCopy (s : State) (c : Copy) (k : FKind) (need : BitVec 3) (va : DWord) (r l : Nat) : State :=
  match s.team? c.team with
  | none => s
  | some t =>
    match s.openFault (s.root t) va k r l need (s.grid t) t.teamid (c.pcore / 4 * 4) with
    | (some fid, s) => s.modCopy c.id fun q => { q with fid := some fid }
    | (none, s) => s

/-- The lines of global destinations that a copy owns from element m on (R176): those of the pages that translate, and whether one does not. -/
def State.ownedLines (s : State) (c : Copy) (d : Desc) : (n m : Nat) → Table Place → List (Nat × Nat) → Bool → List (Nat × Nat) × Bool
  | 0, _, _, l, u => (l, u)
  | n + 1, m, ps, l, u =>
    if d.skips m then s.ownedLines c d n (m + 1) ps l u
    else
      let va := d.dstAt m
      let ps := match ps.get? (pageKey true va) with
        | some _ => ps
        | none => match (s.touchPage c true va).1 with | .inr p => ps.put (pageKey true va) p | .inl _ => ps
      match placeIn ps true va with
      | some p =>
        if p.node.isSome then s.ownedLines c d n (m + 1) ps l u
        else s.ownedLines c d n (m + 1) ps ((m, p.pa / 128) :: l.filter fun o => o.2 != p.pa / 128) u
      | none => s.ownedLines c d n (m + 1) ps l true

/-- The least element that some destination has reached. -/
def Copy.reached (c : Copy) : Nat := (least (c.dests.map (·.moved))).getD 0

/-- A copy owns the lines of destination pages that have come to translate (R176). -/
def State.nameOwned (s : State) (c : Copy) (d : Desc) : Copy :=
  if d.globDst && c.unowned then
    let (l, u) := s.ownedLines c d (d.count - c.reached) c.reached [] [] false
    { c with owns := l, unowned := u }
  else c

/-- SAIGA_PIECE (R214): the next piece of destination i of a copy. -/
def execSaigaPiece (c i : Nat) (s : State) : Out :=
  .next (match s.copy? c with
    | none => s
    | some q =>
      match q.dests[i]? with
      | none => s
      | some x =>
        let d := descOf q.desc
        if !s.copyRuns q || q.cancel || q.fid.isSome || d.count ≤ x.moved || !s.runCycle (pcTower q.pcore) then s
        else
          let n := s.pieceNow q d x.moved
          if n == 0 then s
          else
            let s := if q.unowned then s.modCopy c fun y => { y with owns := (s.nameOwned q d).owns, unowned := (s.nameOwned q d).unowned } else s
            let q := (s.copy? c).getD q
            match s.moveRange q d i x x.moved n with
            | (.done, s) => { s.advance q d i (x.moved + n) with saigaLast := s.saigaLast.put (quadIx q.pcore) q.slot }
            | (.wait, s) => s
            | (.fault k need va r l, s) => s.stallCopy q k need va r l
            | (.await fid, s) => s.modCopy c fun y => { y with fid := some fid }
            | (.fatal cause, s) => s.stopCopy q (.failed cause))

/-! ### The scout (R217, R198) -/

/-- Up to n distinct pages, touched by elements from m on, that are not among those known. -/
def Desc.ahead (d : Desc) : (fuel : Nat) → Nat → Nat → List Nat → List (Bool × DWord)
  | 0, _, _, _ => []
  | f + 1, m, n, known =>
    let new := ((d.touches m).filter fun t => d.inside m && !known.contains (pageKey t.1 t.2)).take n
    new ++ d.ahead f (m + 1) (n - new.length) (known ++ new.map fun t => pageKey t.1 t.2)

/-- The first page that the scout should probe and has not (R217). -/
def Copy.toProbe (c : Copy) : Option (Bool × DWord) :=
  let d := descOf c.desc
  let m := c.reached
  let piece := (List.range (d.piece m)).flatMap fun j => (d.touches (m + j)).map fun t => pageKey t.1 t.2
  (d.ahead (d.count - m) m d.scout piece).find? fun t => (c.probed.get? (pageKey t.1 t.2)).isNone

/-- SCOUT_PROBE (R217): a probe that faults opens or joins a fault entry and holds nothing. -/
def execScoutProbe (c : Nat) (s : State) : Out :=
  .next (match s.copy? c with
    | none => s
    | some q =>
      match s.team? q.team, q.toProbe with
      | some t, some (dst, va) =>
        if !s.copyRuns q || (descOf q.desc).scout == 0 || (descOf q.desc).count ≤ q.reached then s
        else
          let seen := fun (s : State) (f : Option Nat) => s.modCopy c fun q => { q with probed := q.probed.put (pageKey dst va) f }
          match s.translate none (pcTower q.pcore) (s.root t) va (if dst then .store else .load) .dflt with
          | (.fault r l, s) =>
            match s.openFault (s.root t) va .scout r l (if dst then 2 else 1) (s.grid t) t.teamid (q.pcore / 4 * 4) with
            | (some fid, s) => seen s (some fid)
            | (none, s) => s
          | (.held, s) => s
          | (_, s) => seen s none
      | _, _ => s)

/-! ### Cancellation and the end -/

/-- The places that the next piece of a copy reaches. -/
def State.copyPlaces (s : State) (c : Copy) : List Place :=
  let d := descOf c.desc
  let m := c.reached
  if d.count ≤ m || !(d.globSrc || d.globDst) then []
  else (List.range (d.piece m)).flatMap fun j => (d.touches (m + j)).filterMap fun t =>
    match (s.touchPage c t.1 t.2).1 with
    | .inr p => some { p with pa := p.pa + t.2.toNat % 4096 }
    | .inl _ => none

/-- A copy is stalled: at a fault, at a full FIFO, or at a line that another copy owns (R127, R219). -/
def State.copyStalled (s : State) (c : Copy) : Bool :=
  let d := descOf c.desc
  let m := c.reached
  c.fid.isSome || (m < d.count && s.pieceNow c d m == 0) ||
    (d.globSrc || d.globDst) && (List.range (d.piece m)).any fun j => (d.touches (m + j)).any fun t =>
      match (s.touchPage c t.1 t.2).1 with
      | .inr p => p.node.isNone && s.owned (some c.id) (p.pa + t.2.toNat % 4096) 16
      | .inl _ => false

/-- Where destination i stops: the end of the sector in progress, which lies anywhere in the piece in progress and not before a byte that has moved: a
free value (R226). -/
def Copy.stopAt (c : Copy) (d : Desc) (i : Nat) (x : Dest) (piece : Nat) (w : Word) : Nat :=
  let low := (c.ahead.filter fun b => b.1 == i).foldl (fun n b => Nat.max n (b.2 + 1)) (x.moved * d.de)
  let first := ceilDiv low 32 * 32
  let more := ((x.moved + piece) * d.de - first) / 32
  Nat.min d.count ((first + 32 * (w.toNat % (more + 1))) / d.de)

/-- Where each destination of a cancelled copy stops. -/
def State.stopTargets (s : State) (q : Copy) (d : Desc) : List Nat → List (Nat × Nat) × State
  | [] => ([], s)
  | i :: is =>
    match q.dests[i]? with
    | none => s.stopTargets q d is
    | some x =>
      let (w, s) := s.freeWord
      let m := if d.count ≤ x.moved then x.moved else q.stopAt d i x (s.pieceNow q d x.moved) w
      let (r, s) := s.stopTargets q d is
      ((i, m) :: r, s)

/-- Destinations finish their sectors in progress, each up to an element (R226). -/
def State.finishSectors (s : State) (c : Nat) (d : Desc) : List (Nat × Nat) → State
  | [] => s
  | (i, m) :: is =>
    match s.copy? c with
    | none => s
    | some q =>
      match q.dests[i]? with
      | none => s
      | some x =>
        match s.moveRange q d i x x.moved (m - x.moved) with
        | (.done, s) => (s.advance q d i m).finishSectors c d is
        | (_, s) => s.finishSectors c d is

/-- A destination cannot yet move up to an element, where its sector in progress ends (R226): memory keeps some of it back, or its FIFO has no room. -/
def State.sectorWaits (s : State) (q : Copy) (d : Desc) (e : Nat × Nat) : Option State :=
  match q.dests[e.1]? with
  | none => none
  | some x =>
    if e.2 ≤ x.moved then none
    else if (s.fifoRoom q d).any fun room => room < (e.2 - x.moved) * d.de then some s
    else match s.reachElems q d x ((List.range (e.2 - x.moved)).map (x.moved + ·)) with
      | (.inl .wait, s) => some s
      | _ => none

/-- COPY_CANCEL_STOP (R226): a stalled copy stops at once, any other at the end of the sectors in progress, which move in a cycle that R30 allows. -/
def execCopyCancelStop (c : Nat) (s : State) : Out :=
  .next (match s.copy? c with
    | none => s
    | some q =>
      let d := descOf q.desc
      if !q.cancel || q.ending.isSome || q.dests.all (fun x => d.count ≤ x.moved) then s
      else if s.copyStalled q then s.stopCopy q .cancelled
      else if !s.runCycle (pcTower q.pcore) then s
      else
        let (ms, s) := s.stopTargets q d (List.range q.dests.length)
        match ms.findSome? (s.sectorWaits q d) with
        | some s => s
        | none =>
          let s := s.finishSectors c d ms
          match s.copy? c with
          | none => s
          | some q => if q.dests.all (fun x => d.count ≤ x.moved) then s else s.stopCopy q .cancelled)

/-- The status word of a copy's future (R225). -/
def copyStatus (e : Option Ending) (dropped : Bool) : Word :=
  BitVec.ofNat 32 (1024 * b2n dropped + match e with | none => 0 | some .cancelled => 256 | some (.failed c) => 512 + c.toNat)

/-- The dropped flag reaches the barrier of every destination still live (R218). -/
def State.dropFlags (s : State) (c : Copy) (d : Desc) : List Dest → State
  | [] => s
  | x :: xs => (s.countDest c d x 0 true false false).dropFlags c d xs

/-- The notify word of a copy is stored (R224): its line of a map is filled first (R159), and a load that meets it observes the completion (R176). -/
def State.notify (s : State) (k : Nat) (d : Desc) : State :=
  ((s.fillSync k d.noff).spadWrite k d.noff (leBytes 4 d.nval)).modTeam k fun t => { t with notes := d.noff :: t.notes }

/-- COPY_COMPLETE (R224): flags, notify word, future. -/
def execCopyComplete (c : Nat) (s : State) : Out :=
  .next (match s.copy? c with
    | none => s
    | some q =>
      let d := descOf q.desc
      if q.ending.isNone && !q.dests.all (fun x => d.count ≤ x.moved) then s
      else
        let drop := q.dests.any (·.dropped)
        let s := if drop then s.dropFlags q d q.dests else s
        let s := if d.nen then s.notify q.team d else s
        let s := ({ s with copies := s.copies.filter fun x => x.id != c }).resolve q.team q.tok (copyStatus q.ending drop)
        s.l1Drop q.pcore)

/-! ### COPY (R377) -/

/-- The destinations of a copy (R208, R218): a rank whose team is gone keeps a key that no team has. -/
def State.destsOf (s : State) (t : Team) (d : Desc) (id : Nat) : List Dest :=
  let dest (k : Option Nat) : Dest := { team := k, moved := 0, counted := 0, dropped := false }
  if !d.spadDst then [dest none]
  else if d.mcast == 0 then [dest (some t.key)]
  else ((List.range 12).filter (bitOf d.mcast)).map fun r => dest (some (((s.peer? t r).map (·.key)).getD id))

/-- A copy holds a descriptor slot of a quad's Saiga: its team has its place there (R127, R219). -/
def State.inSlot (s : State) (quad : Nat) (c : Copy) : Bool :=
  quadIx c.pcore == quad && (match s.team? c.team with | some t => t.placed | none => false)

/-- Descriptor slots of a quad's Saiga in use (R219). -/
def State.slotsUsed (s : State) (quad : Nat) : Nat := s.copies.countP (s.inSlot quad)

/-- A free descriptor slot (R219; log entry 30): the lowest. Copies of a restored team beyond the 64th take numbers above 63. -/
def State.freeSlot (s : State) (quad : Nat) : Nat :=
  ((List.range (s.copies.length + 1)).find? fun n => !s.copies.any fun c => s.inSlot quad c && c.slot == n).getD 0

/-- COPY after its release prerequisites: the checks, a slot and a future, then the copy is active (R209, R219, R377). -/
def actCopy (o : EngOp) (s : State) (c : Issue) : State :=
  let off := (c.thr.reg o.a).toNat
  match (if off % 64 == 0 && off + 64 ≤ s.spadSize c.team then s.fillNow c (.copy o) (wordLines c.team c.thr (.copy o)) false else (true, s)) with
  | (false, s) => s
  | (true, s) =>
    let bs := s.spadSee c.team c.lead off 64
    match s.copyTrap c.team off bs with
    | some tr => s.trapAll c.k c.all tr
    | none =>
      if 64 ≤ s.slotsUsed (quadIx c.team.pcore) || !c.team.futureFree then s.awaitResource c (.copy o)
      else
        let (tok, t) := c.team.newFuture 1
        let d := descOf bs
        let q : Copy := {
          id := s.nextKey, team := c.k, tid := c.lead, pcore := t.pcore, tok := tok, desc := bs
          dests := s.destsOf t d s.nextKey, ending := none, cancel := false, fid := none, probed := [], refused := []
          owns := [], unowned := d.globDst, slot := s.freeSlot (quadIx t.pcore), taken := [], ahead := [] }
        let q := s.nameOwned q d
        let s := { s.modTeam c.k (fun _ => t) with nextKey := s.nextKey + 1, copies := s.copies ++ [q] }
        (s.modThreads c.k c.all fun th => th.setPend o.d tok).goReady c (.copy o)

/-- COPY (R377). -/
def execCopy (o : EngOp) (s : State) : Out :=
  .next (match s.gate (.copy o) with
    | (s, none) => s
    | (s, some c) => s.awaitRelease c (.copy o))

end Sys2Proof.Machine
end

