-- ==== Sys2Proof/Machine/Oryx.lean ====
section
/-!
DEFINITION. The Oryx (R228 to R244, R378 to R384): the parameter block, windows, passes and their arithmetic, the reservation table, and the accumulator instructions.
-/
namespace Sys2Proof.Machine

/-! ### The checks of MMA (R232, R236) -/

/-- Rows of a team's window, and its scale entries W (R236). -/
def Team.rows (t : Team) : Nat := t.lim.toNat - t.base.toNat
def Team.scales (t : Team) : Nat := 2 * t.rows

/-- ACCUM_WINDOW (R232, R369). -/
def windowTrap (addr : DWord) (info : Nat) : Trap where
  cause := cAccumWindow
  addr := addr
  info := BitVec.ofNat 32 info

/-- MMA's checks of a block at an offset, from its bytes, in their order (R232). -/
def State.mmaTrap (s : State) (t : Team) (off : Nat) (bs : List Byte) : Option Trap :=
  let at' : DWord := BitVec.ofNat 64 off
  let param (n : Nat) : Trap := { cause := cEngineParam, addr := at', info := BitVec.ofNat 32 n }
  if s.lfield t (·.accrows) == 0 || off % 64 != 0 || s.spadSize t < off + 64 then some (param 0)
  else
    match (blockFields bs).find? fun f => !f.2 with
    | some (n, _) => some (param n)
    | none =>
      let b := blockOf bs
      if t.rows < b.row + b.mt * b.nt * 128 then some (windowTrap at' 0)
      else if !b.bf16 && (t.scales < b.asb + b.kb * b.m || t.scales < b.bsb + b.nt * b.kb) then some (windowTrap at' 1)
      else none

/-- Entries of a quad's reservation table in use (R242): those of a saved team are in its save slot (R244). -/
def State.tableUsed (s : State) (quad : Nat) : Nat :=
  s.mmas.countP fun m => m.quadIx == quad && (match s.team? m.team with | some t => t.placed | none => false)

/-- MMA (R378): the checks, an entry and a future, and the thread goes on. -/
def execMma (o : EngOp) (s : State) : Out :=
  .next (match s.gate (.mma o) with
    | (s, none) => s
    | (s, some c) =>
      let off := (c.thr.reg o.a).toNat
      match (if s.lfield c.team (·.accrows) != 0 && off % 64 == 0 && off + 64 ≤ s.spadSize c.team then s.fillNow c (.mma o) (wordLines c.team c.thr (.mma o)) false else (true, s)) with
      | (false, s) => s
      | (true, s) =>
        let bs := s.spadSee c.team c.lead off 64
        match s.mmaTrap c.team off bs with
        | some tr => s.trapAll c.k c.all tr
        | none =>
          let quad := quadIx c.team.pcore
          if 32 ≤ s.tableUsed quad || !c.team.futureFree then s.awaitResource c (.mma o)
          else
            let (tok, t) := c.team.newFuture 2
            let m : Mma := {
              id := s.nextKey, team := c.k, quadIx := quad, tok := tok, block := bs, started := 0, retired := 0, ending := none }
            let s := { s.modTeam c.k (fun _ => t) with nextKey := s.nextKey + 1, mmas := s.mmas ++ [m] }
            s.finish c.k c.all (.mma o) fun th => th.setPend o.d tok)

/-! ### Cancelling (R243) -/

/-- FCANCEL of an MMA: passes not started are dropped (R243). -/
def State.cancelMma (s : State) (m : Mma) : State :=
  if m.ending.isSome then s
  else
    let s := s.dropRest m .cancelled
    s.sweepMmas (s.mmas.filter fun x => x.id == m.id)

/-! ### Pass arithmetic (R241, R262, R263) -/

/-- The format of a code (R230). -/
def mmaFmt (c : Nat) : Fmt := match c with | 0 => .e4m3 | 1 => .e5m2 | _ => .bf16

/-- The products of elements lo to lo + n - 1 of row m of A and column c of B (R234). -/
def blockProds (b : Block64) (d m c lo n : Nat) (xs ys : List Byte) : List Prod :=
  (List.range n).map fun i =>
    fprod (fdecode (mmaFmt b.afmt) (fieldAt xs ((m * d + lo + i) * b.eBytes) b.eBytes))
      (fdecode (mmaFmt b.bfmt) (fieldAt ys ((c * d + lo + i) * b.eBytes) b.eBytes))

/-- One group of a BF16 pass added to an accumulator value (R241, R263): a group with no product changes nothing. -/
def addGroup (acc : Nat) (ps : List Prod) : Nat :=
  if ps.isEmpty then acc else (faddOf .f32 .rne false acc (fsumOf .f32 .rne false ps).1).1

/-- The new value of one accumulator element (R241). -/
def passValue (b : Block64) (d m c acc : Nat) (sa sb : Word) (xs ys : List Byte) : Nat :=
  if b.bf16 then
    addGroup (addGroup acc (blockProds b d m c 0 (Nat.min d 16) xs ys)) (blockProds b d m c 16 (d - 16) xs ys)
  else
    let t := (fsumOf .f32 .rne false (blockProds b d m c 0 d xs ys)).1
    let s := (fmulOf .f32 .rne false sa.toNat sb.toNat).1
    (ffmaOf .f32 .rne false t s acc).1

/-! ### The accumulator and scale memory (R236, R238) -/

/-- An accumulator element of a quad: absolute row and column. -/
def State.accAt (s : State) (quad row col : Nat) : Word := (s.acc.getD quad []).getD (row * 128 + col) 0
/-- An element as the array forwards it: the last pass in flight on it, else the accumulator (R229). -/
def State.accNow (s : State) (quad row col : Nat) : Word :=
  let key := row * 128 + col
  let hits := s.passes.filterMap fun p => if p.quadIx == quad then p.vals.find? (fun v => v.1 == key) else none
  match hits.getLast? with
  | some v => v.2
  | none => s.accAt quad row col
/-- A quad has an uncorrectable error in one of n rows, or scale entries, from x on (R243). -/
def State.softIn (s : State) (quad : Nat) (scale : Bool) (x n : Nat) : Bool :=
  s.soft.any fun e => e.quadIx == quad && e.scale == scale && x ≤ e.ix && e.ix < x + n
/-- Rows or entries that are written whole hold no error. -/
def softLeft (es : List SoftError) (quad : Nat) (scale : Bool) (x n : Nat) : List SoftError :=
  es.filter fun e => !(e.quadIx == quad && e.scale == scale && x ≤ e.ix && e.ix < x + n)
/-- Replace whole rows of a quad's accumulator. -/
def State.setRows (s : State) (quad row n : Nat) (vals : List (Nat × Word)) : State :=
  { s with
    acc := s.acc.put quad ((s.acc.getD quad []).splice (row * 128) ((row + n) * 128) vals)
    soft := softLeft s.soft quad false row n }
/-- Write elements from one on. -/
def State.setElems (s : State) (quad x : Nat) : List Word → State
  | [] => s
  | v :: vs => ({ s with acc := s.acc.put quad ((s.acc.getD quad []).put x v) }).setElems quad (x + 1) vs
/-- A scale entry of a quad. -/
def State.scaleAt (s : State) (quad e : Nat) : Word := (s.scale.getD quad []).getD e 0
/-- Write scale entries from one on. -/
def State.setScales (s : State) (quad e : Nat) (vals : List Word) : State :=
  { s with
    scale := s.scale.put quad ((s.scale.getD quad []).splice e (e + vals.length) ((List.range vals.length).zip vals |>.map fun x => (e + x.1, x.2)))
    soft := softLeft s.soft quad true e vals.length }
/-- Undefined values (R6) for the elements of n rows from one on. -/
def State.freeRows (s : State) (row n : Nat) : List (Nat × Word) × State :=
  ((List.range (128 * n)).map fun i => (row * 128 + i, Config.freeWord (s.free + i)), { s with free := s.free + 128 * n })

/-! ### Interlocks (R239, R240) -/

/-- Window rows that an accumulator access names: the first and how many. -/
def accRows : Act → Option (Nat × Nat)
  | .accz r t => some (r, 128 * t)
  | .accld r _ w _ _ | .accst r _ w _ _ => some (r, 128 * (bitsOf w.toNat 18 13 + 1))
  | .accrd _ x _ | .accwr x _ => some (x / 128, 1)
  | _ => none

/-- An accumulator instruction or SCLD. -/
def isAcc : Act → Bool
  | .scld _ _ => true
  | a => (accRows a).isSome

/-- The p-th pass of an MMA has to wait for an access issued before the MMA was accepted (R239, R240). -/
def passBehind (m : Mma) (p : Nat) (r : Req) : Bool :=
  let b := blockOf m.block
  r.team == m.team && !r.after.contains m.id &&
    match r.act with
    | .scld e vs => (List.range vs.length).any fun i => b.reads p (e + i)
    | a => match accRows a with
      | some (x, n) => overlap x n (b.tile p) 128
      | none => false

/-- Passes of an MMA not started on the tile at a row. -/
def Mma.unstarted (m : Mma) (row : Nat) : Bool :=
  let b := blockOf m.block
  m.ending.isNone && (List.range (b.passes - m.started)).any fun i => b.tile (m.started + i) == row

/-- A soft error strikes a row or a scale entry, which then holds undefined values (R243); accesses on their way meet none (log entry 42). -/
def State.softError (s : State) (e : SoftError) : State :=
  if s.reqs.any fun r => isAcc r.act then s
  else if e.scale then
    let (v, s) := s.freeWord
    let s := s.setScales e.quadIx e.ix [v]
    { s with soft := s.soft ++ [e] }
  else
    let (vs, s) := s.freeRows e.ix 1
    let s := s.setRows e.quadIx e.ix 1 vs
    { s with soft := s.soft ++ [e] }

/-- An accumulator access meets an uncorrectable error: of the rows it names, or for SCLD of the entries (R243). -/
def State.softMet (s : State) (quad base : Nat) (a : Act) : Bool :=
  match a with
  | .scld e vs => s.softIn quad true (2 * base + e) vs.length
  | a => match accRows a with
    | some (x, n) => s.softIn quad false (base + x) n
    | none => false

/-- UNCORRECTABLE_DATA at an accumulator instruction or SCLD (R243; log entry 42). -/
def State.softTrap (s : State) (c : Issue) (a : Act) : Option Trap :=
  if s.softMet (quadIx c.team.pcore) c.team.base.toNat a then some { cause := cUncorrectable, addr := c.thr.pc, info := 0 } else none

/-- The next pass of an MMA meets an uncorrectable error in its tile or its scales (R243); a tile that a pass in flight forwards is not read from the array (R229). -/
def State.passMet (s : State) (m : Mma) (t : Team) : Bool :=
  let b := blockOf m.block
  let p := m.started
  let row := t.base.toNat + b.tile p
  (!(b.zf && (b.pass p).2.2 == 0) && s.softIn m.quadIx false row 128 && !s.passes.any fun x => x.quadIx == m.quadIx && x.row == row) ||
  s.soft.any fun e => e.quadIx == m.quadIx && e.scale && 2 * t.base.toNat ≤ e.ix && b.reads p (e.ix - 2 * t.base.toNat)

/-- The next pass of an MMA is ready (R235, R239, R240). -/
def State.passReady (s : State) (m : Mma) : Bool :=
  let b := blockOf m.block
  let p := m.started
  m.ending.isNone && p < b.passes &&
  (match s.team? m.team with | some t => (t.status == .resident || (t.status == .saving && t.finished)) && t.cause.isNone | none => false) &&
  b.blockBytes p ≤ (s.stream m.team b.af).bytes.length && b.blockBytes p ≤ (s.stream m.team b.bf).bytes.length &&
  s.reqs.all (fun r => !passBehind m p r) &&
  s.mmas.all fun x => !(x.team == m.team && x.id < m.id && x.unstarted (b.tile p))

/-- Passes that a quad may still start in the current window of 256 cycles (R30). -/
def State.passRoom (s : State) (quad : Nat) : Bool :=
  let h := (s.tower (quad / 24)).therm.hst.toNat
  let (w, n) := s.passWin.getD quad (0, 0)
  h < 7 && (if w == s.now / 256 then n else 0) < 8 - h

/-- EP of an MMA's launch (R115). -/
def State.mmaPrio (s : State) (m : Mma) : Nat := (((s.team? m.team).bind fun t => s.launch? t.launch).map (·.ep)).getD 0

/-- The MMA whose pass starts: the highest EP, then the earliest acceptance, among those whose next pass is ready (R242). -/
def State.nextMma (s : State) (quad : Nat) : Option Mma :=
  (sortBy (fun a b => s.mmaPrio b < s.mmaPrio a)
    (s.mmas.filter fun m => m.quadIx == quad && s.passReady m)).head?

/-- Start the next pass of an MMA (R229, R241): its operands and scales are read, its blocks consumed. -/
def State.startPass (s : State) (m : Mma) (t : Team) : State :=
  let b := blockOf m.block
  let p := m.started
  let d := b.dOf p
  let n := b.blockBytes p
  let xa := s.stream m.team b.af
  let xb := s.stream m.team b.bf
  let row := t.base.toNat + b.tile p
  let sc := 2 * t.base.toNat
  let first := (b.pass p).2.2 == 0
  let sb := s.scaleAt m.quadIx (sc + b.scaleB p)
  let vals := (List.range 128).flatMap fun i => (List.range 128).map fun c =>
    let acc := if b.zf && first then 0 else (s.accNow m.quadIx (row + i) c).toNat
    ((row + i) * 128 + c, BitVec.ofNat 32 (passValue b d i c acc (s.scaleAt m.quadIx (sc + b.scaleA p + i)) sb (xa.bytes.take n) (xb.bytes.take n)))
  let s := ((s.modMma m.id fun x => { x with started := p + 1 }).takeStream m.team b.af n).takeStream m.team b.bf n
  let (w, k) := s.passWin.getD m.quadIx (0, 0)
  { s with
    passes := s.passes ++ [{ mma := m.id, quadIx := m.quadIx, team := m.team, row := row, start := s.now, vals := vals }]
    passWin := s.passWin.put m.quadIx (s.now / 256, (if w == s.now / 256 then k else 0) + 1) }

/-- An MMA fails at its next pass (R243): its tile holds undefined values, and the passes not started are dropped. -/
def State.failPass (s : State) (m : Mma) (t : Team) : State :=
  let b := blockOf m.block
  let row := t.base.toNat + b.tile m.started
  let s := s.dropRest m (.failed cUncorrectable)
  let (vs, s) := s.freeRows row 128
  let s := s.setRows m.quadIx row 128 vs
  let s := { s with passes := s.passes.map fun (p : Pass) => if p.quadIx == m.quadIx && p.row == row then { p with vals := vs } else p }
  s.sweepMmas (s.mmas.filter fun x => x.id == m.id)

/-- PASS_START (R242). -/
def execPassStart (quad : BitVec 9) (s : State) : Out :=
  let q := quad.toNat
  .next (if s.passes.any (fun p => p.quadIx == q && s.now < p.start + 32) || !s.passRoom q then s
    else
      match s.nextMma q with
      | none => s
      | some m => match s.team? m.team with | some t => if s.passMet m t then s.failPass m t else s.startPass m t | none => s)

/-- An MMA all of whose passes have retired resolves DONE (R229, R243). -/
def State.endMma (s : State) (m : Mma) : State :=
  if m.ending.isNone && m.retired == (blockOf m.block).passes then
    ({ s with mmas := s.mmas.filter fun x => x.id != m.id }).resolve m.team m.tok 0
  else s.sweepMmas [m]

/-- PASS_RETIRE (R229): the oldest pass of a quad, 56 cycles after its start. -/
def execPassRetire (quad : BitVec 9) (s : State) : Out :=
  .next (match s.passes.find? fun p => p.quadIx == quad.toNat with
    | none => s
    | some p =>
      if s.now < p.start + 56 then s
      else
        let s := { s with passes := s.passes.erase p }.setRows p.quadIx p.row 128 p.vals
        let s := s.modMma p.mma fun m => { m with retired := m.retired + 1 }
        match s.mma? p.mma with
        | none => s
        | some m => s.endMma m)

/-! ### The words (R379 to R384) -/

/-- A gated accumulator word: its trap, room for its flag, then act. -/
def State.accWord (s : State) (i : Instr) (o : EngOp) (trap : Issue → Option Trap) (act : State → Issue → State) : State :=
  match s.gate i with
  | (s, none) => s
  | (s, some c) =>
    match trap c with
    | some tr => s.trapAll c.k c.all tr
    | none => if !s.room c (flagOf c.hdr o.g) then s.stall else act s c

/-- An accumulator access that has no place in memory goes out. -/
def State.sendAcc (s : State) (i : Instr) (c : Issue) (o : EngOp) (a : Act) : State :=
  (s.addReq c (flagOf c.hdr o.g) a (.spad c.k 0) 0 .team .rlx .dflt).goOn c i

/-- SCLD's checks (R379). -/
def scldTrap (o : EngOp) (c : Issue) : Option Trap :=
  let e := (c.thr.reg o.a).toNat
  let n := (c.thr.reg o.b).toNat
  if n == 0 || 16384 < n then some (paramTrap c.thr.pc 2)
  else if c.team.scales < e + n then some (windowTrap c.thr.pc 1)
  else none

/-- What SCLD does: its entries and the words of the scale image, read at issue (R379). -/
def State.scldAct (s : State) (o : EngOp) (c : Issue) : Act :=
  let e := (c.thr.reg o.a).toNat
  let n := (c.thr.reg o.b).toNat
  .scld e (leWords n (s.spadSee c.team c.lead (16 * c.team.simg.toNat + 4 * e) (4 * n)))

/-- SCLD (R379). -/
def execScld (o : EngOp) (s : State) : Out :=
  .next (s.accWord (.scld o) o (fun c => (scldTrap o c).or (s.softTrap c (s.scldAct o c))) fun s c =>
    match s.fillNow c (.scld o) (wordLines c.team c.thr (.scld o)) false with
    | (false, s) => s
    | (true, s) => s.sendAcc (.scld o) c o (s.scldAct o c))

/-- The cases in which ACCWIN traps (R237). -/
def State.accwinTrap (s : State) (o : EngOp) (c : Issue) : Option Trap :=
  let n := (c.thr.reg o.a).toNat
  let q := (c.thr.reg o.b).toNat
  if n % 128 != 0 || s.lfield c.team (·.accrows) < n || q % 16 != 0 || s.spadSize c.team < q + 8 * n ||
      s.mmas.any (fun m => m.team == c.k) || s.reqs.any (fun r => r.team == c.k && isAcc r.act) then some (windowTrap c.thr.pc 0)
  else none

/-- ACCWIN (R237, R380). -/
def execAccwin (o : EngOp) (s : State) : Out :=
  .next (match s.gate (.accwin o) with
    | (s, none) => s
    | (s, some c) =>
      match s.accwinTrap o c with
      | some tr => s.trapAll c.k c.all tr
      | none =>
        (s.modTeam c.k fun t => { t with
          lim := t.base + BitVec.ofNat 14 (c.thr.reg o.a).toNat
          simg := BitVec.ofNat 14 ((c.thr.reg o.b).toNat / 16) }).goOn c (.accwin o))

/-- The checks of row and tile count (R382). -/
def tileTrap (c : Issue) (r t : Nat) : Option Trap :=
  if r % 128 != 0 then some (paramTrap c.thr.pc 1)
  else if t == 0 || 64 < t then some (paramTrap c.thr.pc 2)
  else if c.team.rows < r + 128 * t then some (windowTrap c.thr.pc 0)
  else none

/-- ACCZ (R382). -/
def execAccz (o : EngOp) (s : State) : Out :=
  .next (s.accWord (.accz o) o (fun c => (tileTrap c (c.thr.reg o.a).toNat (c.thr.reg o.b).toNat).or
      (s.softTrap c (.accz (c.thr.reg o.a).toNat (c.thr.reg o.b).toNat))) fun s c =>
    s.sendAcc (.accz o) c o (.accz (c.thr.reg o.a).toNat (c.thr.reg o.b).toNat))

/-- The checks of ACCRD and ACCWR (R384). -/
def elemTrap (o : EngOp) (c : Issue) : Option Trap :=
  let x := (c.thr.reg o.a).toNat
  if 128 < x % 128 + (o.b.toNat % 8 + 1) then some (paramTrap c.thr.pc 5)
  else if c.team.rows ≤ x / 128 then some (windowTrap c.thr.pc 0)
  else none

/-- ACCRD (R384). -/
def execAccrd (o : EngOp) (s : State) : Out :=
  .next (s.accWord (.accrd o) o (fun c => (elemTrap o c).or (s.softTrap c (.accrd o.d (c.thr.reg o.a).toNat 1))) fun s c => s.sendAcc (.accrd o) c o (.accrd o.d (c.thr.reg o.a).toNat (o.b.toNat % 8 + 1)))

/-- ACCWR (R384). -/
def execAccwr (o : EngOp) (s : State) : Out :=
  .next (s.accWord (.accwr o) o (fun c => (elemTrap o c).or (s.softTrap c (.accwr (c.thr.reg o.a).toNat []))) fun s c =>
    s.sendAcc (.accwr o) c o (.accwr (c.thr.reg o.a).toNat (c.thr.regN o.d (o.b.toNat % 8 + 1))))

/-! ### ACCLD and ACCST (R383) -/

/-- The fields of the literal (R383). -/
def accSp (w : Word) : Bool := w.getLsbD 31
def accFmt (w : Word) : Fmt := match bitsOf w.toNat 30 28 with | 0 => .f32 | 1 => .f16 | 2 => .bf16 | 3 => .e5m2 | _ => .e4m3
def accSize (w : Word) : Nat := match bitsOf w.toNat 30 28 with | 0 => 4 | 1 | 2 => 2 | _ => 1
def accTiles (w : Word) : Nat := bitsOf w.toNat 18 13 + 1
def accScope (w : Word) : Scope := scopeAt (bitsOf w.toNat 12 11)
def accType (w : Word) : RType := match bitsOf w.toNat 10 8 with | 1 => .own | 2 => .wt | 3 => .si | 4 => .nc | _ => .dflt

/-- Bytes from the base to the end of the last row (R383). -/
def accExtent (w : Word) (stride : Nat) : Nat := (128 * accTiles w - 1) * stride + 128 * accSize w

/-- The lowest scratchpad byte at or above SPAD among the rows (R383). -/
def accAbove (w : Word) (base stride spad : Nat) : Option Nat :=
  least ((List.range (128 * accTiles w)).flatMap fun r => aboveSpad spad (base + r * stride) (128 * accSize w))

/-- The base of an operand (R383). -/
def accBase (o : EngOp) (w : Word) (t : Thread) : DWord := if accSp w then (t.reg o.d).setWidth 64 else t.reg64 o.d

/-- The checks of ACCLD and ACCST (R383). -/
def State.tilesTrap (s : State) (o : EngOp) (c : Issue) : Option Trap :=
  let w := o.lit.getD 0
  let r := (c.thr.reg o.a).toNat
  let stride := (c.thr.reg o.b).toNat
  let base := accBase o w c.thr
  match tileTrap c r (accTiles w) with
  | some tr => some tr
  | none =>
    if stride % accSize w != 0 || stride < 128 * accSize w then some (paramTrap c.thr.pc 4)
    else if base.toNat % accSize w != 0 then some (misaligned base (accSize w))
    else
      ((if accSp w then (accAbove w base.toNat stride (s.spadSize c.team)).map fun a => accessTrap (BitVec.ofNat 64 a) 3 else none).or
        (s.softTrap c (.accst r stride w base [])))

/-- The VAs, one a page, of the rows of a tile operand, in order. -/
def accPages (w : Word) (base : DWord) (stride : Nat) : List DWord :=
  (List.range (128 * accTiles w)).flatMap fun r =>
    let a := base + BitVec.ofNat 64 (r * stride)
    let e := a + BitVec.ofNat 64 (128 * accSize w - 1)
    if e.toNat / 4096 == a.toNat / 4096 then [a] else [a, BitVec.ofNat 64 (e.toNat / 4096 * 4096)]

/-- Translate the pages of a tile operand: a cause or fault at the word, or their places (R383, R190). -/
def State.reachPages (s : State) (c : Issue) (i : Instr) (store : Bool) (ty : RType) : List DWord → Table Place → Option (Table Place) × State
  | [], ps => (some ps, s)
  | va :: r, ps =>
    if (ps.get? (va.toNat / 4096)).isSome then s.reachPages c i store ty r ps
    else
      match s.xteam c.team va (if store then .store else .load) ty with
      | (.ok p, s) =>
        if store && s.writeFails p then (none, s.trapAll c.k c.all { cause := cUncorrectable, addr := va, info := 0 })
        else s.reachPages c i store ty r (ps.put (va.toNat / 4096) { p with pa := p.pa - va.toNat % 4096 })
      | (.trap cause code, s) => (none, s.trapAll c.k c.all { cause := cause, addr := va, info := BitVec.ofNat 32 code })
      | (.fault rs l, s) => (none, s.holdFault c va (if store then .store else .load) rs l (if store then 2 else 1))
      | (.held, s) => (none, s.stall)

/-- ACCLD and ACCST at their issue (R383). -/
def State.tilesWord (s : State) (i : Instr) (o : EngOp) (store : Bool) : State :=
  s.accWord i o (s.tilesTrap o) fun s c =>
    let w := o.lit.getD 0
    let r := (c.thr.reg o.a).toNat
    let stride := (c.thr.reg o.b).toNat
    let base := accBase o w c.thr
    let act := fun ps => if store then Act.accst r stride w base ps else Act.accld r stride w base ps
    if accSp w then
      -- lines of maps are filled before the word is sent (R159; log entry 27)
      match s.fillNow c i (((List.range (128 * accTiles w)).flatMap fun j => spadLines (base.toNat + j * stride) (128 * accSize w)).eraseDups) false with
      | (false, s) => s
      | (true, s) => (s.addReq c (flagOf c.hdr o.g) (act []) (.spad c.k base.toNat) (accExtent w stride) .team .rlx .dflt).goOn c i
    else
      match s.reachPages c i store (accType w) (accPages w base stride) [] with
      | (none, s) => s
      | (some ps, s) =>
        match ps with
        | [] => s
        | (_, p) :: _ =>
          let s := s.addReq c (flagOf c.hdr o.g) (act ps) (.glob base p) (accExtent w stride) (accScope w) .rlx (accType w)
          -- the numbers of the elements as accesses of their own follow that of the word
          ({ s with nextKey := s.nextKey + 16384 * accTiles w }).goOn c i

/-- ACCLD (R383). -/
def execAccld (o : EngOp) (s : State) : Out := .next (s.tilesWord (.accld o) o false)
/-- ACCST (R383). -/
def execAccst (o : EngOp) (s : State) : Out := .next (s.tilesWord (.accst o) o true)

/-! ### Completion (R239, R240, R381) -/

/-- Every pass that the access must follow has retired, or for SCLD has started (R239, R240). -/
def State.passesDone (s : State) (r : Req) : Bool :=
  s.mmas.all fun m => !r.after.contains m.id ||
    let b := blockOf m.block
    match r.act with
    | .scld e vs => m.ending.isSome || (List.range (b.passes - m.started)).all fun i => (List.range vs.length).all fun j => !b.reads (m.started + i) (e + j)
    | a =>
      match accRows a with
      | none => true
      | some (x, n) =>
        (m.ending.isSome || (List.range (b.passes - m.started)).all fun i => !overlap x n (b.tile (m.started + i)) 128) &&
          (List.range (m.started - m.retired)).all fun i => !overlap x n (b.tile (m.retired + i)) 128

/-- The place of a VA among those of the pages touched. -/
def rowPlace (ps : Table Place) (va : DWord) : Option Place := (ps.get? (va.toNat / 4096)).map fun p => { p with pa := p.pa + va.toNat % 4096 }

/-- The parts of n bytes from a VA that each lie in one line: the offset and length of each. -/
def lineParts : (fuel : Nat) → DWord → Nat → Nat → List (Nat × Nat)
  | 0, _, _, _ => []
  | f + 1, va, o, n =>
    let room := 128 - (va.toNat + o) % 128
    if n ≤ room then [(o, n)] else (o, room) :: lineParts f va (o + room) (n - room)

/-- An element widened to FP32 (R383): exact, and a NaN becomes the canonical one. -/
def widen (f : Fmt) (x : Nat) : Word :=
  match fdecode f x with
  | .nan _ => 0x7FC00000
  | _ => if f == .f32 then BitVec.ofNat 32 x else BitVec.ofNat 32 (fcvtOf f .f32 .rne false false x).1

/-- An element narrowed for ACCST (R383): column c of tile j. -/
def accNarrow (w : Word) (c j : Nat) (v : Word) : Nat :=
  if bitsOf w.toNat 30 28 == 0 then v.toNat
  else (fcvtOf .f32 (accFmt w) (rmodeAt (bitsOf w.toNat 27 25) (c % 64) (bitsOf w.toNat 24 19 + j)) true false v.toNat).1

/-! ### Elements on peers' pages, and behind pending entries (R63, R65, R178, R383) -/

/-- The access that element x of a tile word is on a peer's page, once it has been sent. -/
def State.elemReq (s : State) (r : Req) (x : Nat) : Option Req := s.req? (r.id + 1 + x)

/-- A write of thread r to n bytes comes behind a pending entry of its thread (R178). -/
def State.behindLog (s : State) (r : Req) (va : DWord) (n : Nat) : Bool := (s.reqLog r va n).any fun e => e.id < r.id

/-- The elements of a tile word on peers' pages: number, VA and place. -/
def farElems (w : Word) (stride : Nat) (base : DWord) (ps : Table Place) : List (Nat × DWord × Place) :=
  if ps.all fun e => e.2.node.isNone then []
  else
    (List.range (128 * accTiles w)).flatMap fun i => (List.range 128).filterMap fun c =>
      let va := base + BitVec.ofNat 64 (i * stride + c * accSize w)
      match rowPlace ps va with
      | some p => if p.node.isSome then some (i * 128 + c, va, p) else none
      | none => none

/-- The elements that have still to be sent: of a load those of which this package holds no copy, of a store those that enter no log. -/
def State.elemsDue (s : State) (r : Req) (w : Word) (stride : Nat) (base : DWord) (ps : Table Place) (store : Bool) : List (Nat × DWord × Place) :=
  (farElems w stride base ps).filter fun e =>
    (s.elemReq r e.1).isNone &&
      if store then !s.behindLog r e.2.1 (accSize w) else !(e.2.2.keeps r.ty && (s.remoteBytes e.2.2 (accSize w)).isSome)

/-- Send elements to peers as accesses of their own (R63, R65), of a store with their bytes. -/
def State.sendElems (s : State) (r : Req) (n : Nat) (data : Nat → Option (List Byte)) (es : List (Nat × DWord × Place)) : State :=
  { s with reqs := s.reqs ++ es.map fun e => { r with
      id := r.id + 1 + e.1, flag := none, act := .elem r.id (data e.1), loc := .glob e.2.1 e.2.2, size := n, phase := .pending
      early := false, seen := [], peeked := [], shown := [] } }

/-- A peer has answered every element that was sent. -/
def State.elemsBack (s : State) (r : Req) : Bool :=
  s.reqs.all fun q => (match q.act with | .elem of _ => of != r.id | _ => true) || (match q.phase with | .replied _ _ => true | _ => false)

/-- The first element that a peer has refused: its cause and address. -/
def State.elemBad (s : State) (r : Req) : Option (Byte × DWord) :=
  (sortBy (fun a b => a.id < b.id) s.reqs).findSome? fun q =>
    match q.act, q.phase with
    | .elem of _, .replied c _ => if of == r.id && c != 0 then some (c, q.loc.va) else none
    | _, _ => none

/-- What a peer has answered for an element of ACCLD, or the copy that this package holds of it. -/
def State.elemGot (s : State) (r : Req) (x : Nat) (p : Place) (n : Nat) : Byte ⊕ List Byte :=
  match (s.elemReq r x).map (·.phase) with
  | some (Phase.replied c bs) => if c == 0 then .inr (bs.take n) else .inl c
  | _ => .inr ((s.remoteBytes p n).getD (List.replicate n 0))

/-- Elements of es bytes out of bytes. -/
def cutElems (es : Nat) (bs : List Byte) : List (List Byte) := (List.range (bs.length / es)).map fun j => (bs.drop (j * es)).take es

/-- Read one part of a row, from element x on, that lies in one line: its elements, those that fail left out, and the cause and address of the first that does (R381, R413). -/
def State.readPart (s : State) (r : Req) (t : Team) (ps : Table Place) (es x : Nat) (va : DWord) (n : Nat) :
    List (Option (List Byte)) × Option (Byte × DWord) × State :=
  match rowPlace ps va with
  | none => ([], none, s)
  | some p =>
    match p.node with
    | some w =>
      let got := (List.range (n / es)).map fun j => (j, s.elemGot r (x + j) { p with pa := p.pa + j * es } es)
      let bad := got.findSome? fun e => match e.2 with | .inl c => some (c, va + BitVec.ofNat 64 (e.1 * es)) | .inr _ => none
      let raw := got.flatMap fun e => match e.2 with | .inr bs => bs | .inl _ => List.replicate es 0
      let s := if p.keeps r.ty && bad.isNone then s.keepLine w p.pa raw else s
      let bs := cutElems es (s.overLog r.team r.tid va r.id raw)
      ((bs.zip got).map fun e => match e.2.2 with | .inr _ => some e.1 | .inl _ => none, bad, s.noteRead r va p)
    | none =>
      let read := fun (s : State) =>
        let (bs, s) := s.loadBytes t.pcore p r.ty true n
        (cutElems es (s.overLog r.team r.tid va r.id (s.earlyOver r t.pcore p.pa bs)), s)
      match s.badByte p.key.toNat p.pa n with
      | some y =>
        let ok := (List.range (n / es)).map fun j => (s.badByte p.key.toNat (p.pa + j * es) es).isNone
        let (bs, s') := read s
        ((bs.zip ok).map fun e => if e.2 then some e.1 else none, some (cUncorrectable, va + BitVec.ofNat 64 (y - p.pa)), s'.spoil p.key.toNat p.pa n)
      | none =>
        let (bs, s) := read s
        (bs.map some, none, s.noteRead r va p)

/-- Read the parts of a row that begins with element x. -/
def State.readParts (s : State) (r : Req) (t : Team) (ps : Table Place) (es x : Nat) (va : DWord) :
    List (Nat × Nat) → List (Option (List Byte)) × Option (Byte × DWord) × State
  | [] => ([], none, s)
  | (o, n) :: l =>
    let (a, y, s) := s.readPart r t ps es (x + o / es) (va + BitVec.ofNat 64 o) n
    let (b, z, s) := s.readParts r t ps es x va l
    (a ++ b, y.or z, s)

/-- An element of ACCST enters the side log behind a pending entry (R178). -/
def State.logElem (s : State) (r : Req) (x : Nat) (va : DWord) (bs : List Byte) : State :=
  let e : LogEntry := {
    id := r.id + 1 + x, team := r.team, tid := r.tid, va := va, reduction := false, size := bs.length, op := 0, ty := r.ty, sc := r.sc, ord := .rlx
    data := bs, fid := none, fs := r.fs, gone := r.dead.contains r.tid, iw := 0 }
  { s with sideLog := logPut e s.sideLog }

/-- Write n elements of a part one by one: those behind a pending entry enter the log, those on a peer's page have gone. -/
def State.storeElems (s : State) (r : Req) (t : Team) (p : Place) (es x : Nat) (va : DWord) : List (List Byte) → State
  | [] => s
  | bs :: l =>
    let s := if s.behindLog r va es then s.logElem r x va bs else if p.node.isSome then s else s.putAt r t p bs
    s.storeElems r t { p with pa := p.pa + es } es (x + 1) (va + BitVec.ofNat 64 es) l

/-- Write the bytes of one part of a row that lies in one line, from element x on: what others have seen early of it comes as they have seen it (R171). -/
def State.writePart (s : State) (r : Req) (t : Team) (ps : Table Place) (es x : Nat) (va : DWord) (bs : List Byte) : State :=
  match rowPlace ps va with
  | none => s
  | some p =>
    let bs := if p.node.isNone then bytesOver p.pa bs r.shown else bs
    if s.behindLog r va bs.length then s.storeElems r t p es x va (cutElems es bs)
    else if p.node.isSome then s
    else s.putAt r t p bs

/-- Write the parts of a row that begins with element x. -/
def State.writeParts (s : State) (r : Req) (t : Team) (ps : Table Place) (es x : Nat) (va : DWord) (bs : List Byte) : List (Nat × Nat) → State
  | [] => s
  | (o, n) :: l => (s.writePart r t ps es (x + o / es) (va + BitVec.ofNat 64 o) ((bs.drop o).take n)).writeParts r t ps es x va bs l

/-- What ACCLD reads, row by row: the elements that it has read by their numbers, and the cause and address of the first that fails (R381, R413). -/
def State.loadRows (s : State) (r : Req) (t : Team) (stride : Nat) (w : Word) (base : DWord) (ps : Table Place) :
    (n i : Nat) → List (Nat × List Word) × List (Nat × Word) × Option (Byte × DWord) × State
  | 0, _ => ([], [], none, s)
  | n + 1, i =>
    let es := accSize w
    let va := base + BitVec.ofNat 64 (i * stride)
    let (xs, bad, s) : List (Option (List Byte)) × Option (Byte × DWord) × State :=
      if accSp w then ((List.range 128).map fun c => some (t.spadN (va.toNat + c * es) es), none, s)
      else s.readParts r t ps es (128 * i) va (lineParts 6 va 0 (128 * es))
    let vals := xs.map fun x => x.map fun bs => widen (accFmt w) (leNat bs)
    let (rows, some', b, s) := s.loadRows r t stride w base ps n (i + 1)
    match bad with
    | none => ((i, vals.filterMap id) :: rows, some', b, s)
    | some a => (rows, ((List.range 128).zip vals).filterMap (fun e => e.2.map fun v => (i * 128 + e.1, v)) ++ some', some a, s)

/-- Put whole rows of a quad's accumulator, by their numbers from a row on. -/
def State.putRows (s : State) (quad row : Nat) : List (Nat × List Word) → State
  | [] => s
  | (i, ws) :: l => (s.setRows quad (row + i) 1 ((List.range 128).zip ws |>.map fun e => ((row + i) * 128 + e.1, e.2))).putRows quad row l

/-- Put those elements that a free choice takes: when a read of ACCLD fails, every other element holds its old value or its new one (R413). -/
def State.putSome (s : State) (quad row : Nat) : List (Nat × Word) → State
  | [] => s
  | (i, v) :: l =>
    let (b, s) := s.freeChoice
    (if b then s else s.setElems quad (row * 128 + i) [v]).putSome quad row l

/-- The bytes of row i of an ACCST from window row on (R383). -/
def State.rowOut (s : State) (t : Team) (quad row : Nat) (w : Word) (i : Nat) : List Byte :=
  (List.range 128).flatMap fun c => leBytes (accSize w) (accNarrow w c (i / 128) (s.accAt quad (t.base.toNat + row + i) c))

/-- ACCST's rows one by one. -/
def State.storeRows (s : State) (r : Req) (t : Team) (quad row stride : Nat) (w : Word) (base : DWord) (ps : Table Place) : (n i : Nat) → State
  | 0, _ => s
  | n + 1, i =>
    let es := accSize w
    let va := base + BitVec.ofNat 64 (i * stride)
    let bs := s.rowOut t quad row w i
    let s := if accSp w then s.spadWrite t.key va.toNat bs else s.writeParts r t ps es (128 * i) va bs (lineParts 6 va 0 (128 * es))
    s.storeRows r t quad row stride w base ps n (i + 1)

/-- What an ACCST will write at its local pages, by physical addresses (R171). -/
def State.tileBytes (s : State) (t : Team) (row stride : Nat) (w : Word) (base : DWord) (ps : Table Place) : List (Nat × List Byte) :=
  (List.range (128 * accTiles w)).flatMap fun i =>
    let va := base + BitVec.ofNat 64 (i * stride)
    let bs := s.rowOut t (quadIx t.pcore) row w i
    (lineParts 6 va 0 (128 * accSize w)).filterMap fun e =>
      match rowPlace ps (va + BitVec.ofNat 64 e.1) with
      | some p => if p.node.isNone then some (p.pa, (bs.drop e.1).take e.2) else none
      | none => none

/-- Elements of an ACCST that must enter the side log (R178). -/
def State.elemsBehind (s : State) (r : Req) (w : Word) (base : DWord) (stride : Nat) : Nat :=
  if s.sideLog.all fun e => !(e.team == r.team && e.tid == r.tid && e.id < r.id) then 0
  else sumNat ((List.range (128 * accTiles w)).map fun j =>
    (List.range 128).countP fun c => s.behindLog r (base + BitVec.ofNat 64 (j * stride + c * accSize w)) (accSize w))

/-- Memory lets the rows of a tile operand be accessed now: a load waits for older pending reductions of its thread over them, a store for room in the log (R178, R200). -/
def State.rowsFree (s : State) (r : Req) (t : Team) (w : Word) (base : DWord) (stride : Nat) (ps : Table Place) (store : Bool) : Bool :=
  accSp w ||
    (!(store && 256 < s.coreLog t.pcore + s.elemsBehind r w base stride) &&
      (List.range (128 * accTiles w)).all fun j =>
        let va := base + BitVec.ofNat 64 (j * stride)
        let n := 128 * accSize w
        (store || (s.reqLog r va n).all fun e => !e.reduction || r.id < e.id) &&
          (lineParts 6 va 0 n).all fun e => match rowPlace ps (va + BitVec.ofNat 64 e.1) with
            | some p => p.node.isSome || (!s.memHolds t.pcore none p e.2 && !s.clash r t.pcore p.pa e.2)
            | none => true)

/-- A page of a tile operand cannot be accessed any more: its key ID has lost its key, or a write to it fails (R50, R54, R110); the first byte of the operand there. -/
def State.pagesFail (s : State) (w : Word) (base : DWord) (stride : Nat) (ps : Table Place) (store : Bool) : Option Trap :=
  ps.findSome? fun e =>
    if e.2.node.isSome then none
    else if !s.hub.keyOk e.2.key.toNat e.2.pa then some (lateKey (tileFirst stride w base e.1))
    else if store && s.writeFails e.2 then some (lateOf cUncorrectable (tileFirst stride w base e.1))
    else none

/-- ACCLD is performed (R381, R383, R413). -/
def State.accLoad (s : State) (r : Req) (t : Team) (row stride : Nat) (w : Word) (base : DWord) (ps : Table Place) : State :=
  let quad := quadIx t.pcore
  match s.loadRows r t stride w base ps (128 * accTiles w) 0 with
  | (rows, _, none, s) => (s.putRows quad (t.base.toNat + row) rows).endReq r
  | (rows, es, some (cause, a), s) =>
    (s.putSome quad (t.base.toNat + row) ((rows.flatMap fun e => (List.range 128).zip e.2 |>.map fun x => (e.1 * 128 + x.1, x.2)) ++ es)).failReq r cause a

/-- n elements of a team's window from element x on (R380). -/
def State.accWords (s : State) (t : Team) (x n : Nat) : List Word :=
  (List.range n).map fun i => s.accAt (quadIx t.pcore) (t.base.toNat + x / 128) (x % 128 + i)

/-- Perform an accumulator access (R381). -/
def State.accDone (s : State) (r : Req) (t : Team) : State :=
  let quad := quadIx t.pcore
  let b := t.base.toNat
  match r.act with
  | .scld e vs => (s.setScales quad (2 * b + e) vs).endReq r
  | .accz row n => (s.setRows quad (b + row) (128 * n) []).endReq r
  | .accrd d x n => (s.give r d (r.vals.getD (s.accWords t x n))).endReq r
  | .accwr x vs => (s.setElems quad (b * 128 + x) vs).endReq r
  | .accld row stride w base ps =>
    match s.pagesFail w base stride ps false with
    | some tr => s.failWith r tr
    | none =>
      if !s.rowsFree r t w base stride ps false then s
      else
        match s.elemsDue r w stride base ps false with
        | [] => if s.elemsBack r then s.accLoad r t row stride w base ps else s
        | es => s.sendElems r (accSize w) (fun _ => none) es
  | .accst row stride w base ps =>
    match s.pagesFail w base stride ps true with
    | some tr => s.failWith r tr
    | none =>
      if !s.rowsFree r t w base stride ps true then s
      else
        match s.elemsDue r w stride base ps true with
        | [] =>
          if !s.elemsBack r then s
          else
            let s' := s.storeRows r t quad row stride w base ps (128 * accTiles w) 0
            match s.elemBad r with
            | none => s'.endReq r
            | some (cause, a) => s'.failReq r cause a
        | es => s.sendElems r (accSize w)
            (fun x => some (((s.rowOut t quad row w (x / 128)).drop (x % 128 * accSize w)).take (accSize w))) es
  | _ => s

/-- ACCUM_OP_COMPLETE (R381). -/
def execAccumOpComplete (n : Nat) (s : State) : Out :=
  .next (match s.req? n with
    | some r =>
      match s.team? r.team with
      | some t => if isAcc r.act && t.placed && s.passesDone r && (r.size == 0 || s.inOrder r) then s.accDone r t else s
      | none => s
    | none => s)

end Sys2Proof.Machine
end

