-- ==== Sys2Proof/Machine/Engine.lean ====
section
/-!
DEFINITION. ENG words on futures (R371 to R376), LAUNCH, RESORT, IDEMX (R389 to R391), named barriers and rendezvous as their words issue (R358, R361 to R364); and the release and acquire halves that follow a word (R342, R175, R174).
-/
namespace Sys2Proof.Machine

/-! ### Futures -/

/-- What a register holds as a token (R374). -/
inductive Tok where
  | pending
  /-- A status word: of a resolved future, or a value that is no token. -/
  | status (w : Word)
  | unresolved
  | invalid
  deriving DecidableEq, Repr

/-- The test of R374 on the value x of a register. -/
def Team.test (t : Team) (x : Word) : Tok :=
  if x.extractLsb' 30 2 == 0 then .status x
  else
    match t.future? x with
    | none => .invalid
    | some f => if f.resolved then .status f.status else .unresolved

/-- FUTURE_INVALID (R374). -/
def futureTrap (pc : DWord) (x : Word) : Trap where
  cause := cFutureInvalid
  addr := pc
  info := x

/-- FTEST (R374): a done result observes the completion (R176). -/
def execFtest (o : EngOp) (s : State) : Out :=
  .next (match s.gate (.ftest o) with
    | (s, none) => s
    | (s, some c) =>
      let x := c.thr.reg o.a
      match (if c.thr.isPend o.a then Tok.pending else c.team.test x) with
      | .invalid => s.trapAll c.k c.all (futureTrap c.thr.pc x)
      | .status w => (s.finish c.k c.all (.ftest o) fun t => t.setReg o.d (0x80000000 ||| w)).l1Acquire c.team.pcore .pkg
      | _ => s.finish c.k c.all (.ftest o) fun t => t.setReg o.d 0)

/-- FWAIT (R375); a pending register has blocked the thread at the word (R148). -/
def execFwait (o : EngOp) (s : State) : Out :=
  .next (match s.gate (.fwait o) with
    | (s, none) => s
    | (s, some c) =>
      let x := c.thr.reg o.a
      match c.team.test x with
      | .invalid => s.trapAll c.k c.all (futureTrap c.thr.pc x)
      | .status w => (s.finish c.k c.all (.fwait o) fun t => t.setReg o.d w).l1Acquire c.team.pcore .pkg
      | _ => s.modThreads c.k c.all fun t => { t with st := .blocked (.future x) })

/-- Cancel what a token names (R376). -/
def State.cancelFuture (s : State) (k : Nat) (tok : Word) : State :=
  let s : State := { s with copies := s.copies.map fun q => if q.team == k && q.tok == tok && q.ending.isNone then { q with cancel := true } else q }
  match s.mmas.find? fun m => m.team == k && m.tok == tok with
  | some m => s.cancelMma m
  | none => s

/-- FCANCEL (R376). -/
def execFcancel (o : EngOp) (s : State) : Out :=
  .next (match s.gate (.fcancel o) with
    | (s, none) => s
    | (s, some c) =>
      let x := c.thr.reg o.a
      match (if c.thr.isPend o.a then Tok.unresolved else c.team.test x) with
      | .invalid => s.trapAll c.k c.all (futureTrap c.thr.pc x)
      | .unresolved => (s.cancelFuture c.k x).goOn c (.fcancel o)
      | _ => s.goOn c (.fcancel o))

/-! ### LAUNCH, RESORT, IDEMX -/

/-- The check of LAUNCH (R389). -/
def launchTrap (o : EngOp) (c : Issue) : Option Trap :=
  if (c.thr.reg64 o.a).toNat % 256 != 0 then some (misaligned (c.thr.reg64 o.a) 256) else none

/-- LAUNCH after its release prerequisites: a future, then the child starts, or the thread is blocked while the partition has 256 or memory keeps the record back (R176, R389). -/
def actLaunch (o : EngOp) (s : State) (c : Issue) : State := s.checked c (launchTrap o c) <|
  if !c.team.futureFree then s.awaitResource c (.launch o)
  else
    let (tok, t) := c.team.newFuture 3
    let s := s.modTeam c.k fun _ => t
    let part := ((s.launch? t.launch).map (·.part)).getD 0
    if 256 ≤ s.children part || !(s.blockedLaunches part).isEmpty || s.launchBusy s.nextKey (s.root t) (c.thr.reg64 o.a) part then
      { s.modThreads c.k c.all fun th => { th with st := .blocked (.launch s.nextKey tok), word := some (.launch o) } with nextKey := s.nextKey + 1 }
    else s.goLaunch s.nextKey c.k c.lead o tok

/-- LAUNCH (R389). -/
def execLaunch (o : EngOp) (s : State) : Out :=
  .next (match s.gate (.launch o) with
    | (s, none) => s
    | (s, some c) =>
      match launchTrap o c with
      | some tr => s.trapAll c.k c.all tr
      | none => s.awaitRelease c (.launch o))

/-- RESORT (R150, R390): the thread waits until its flags are zero and the collective completes, alone in its trap routine. -/
def execResort (o : EngOp) (s : State) : Out :=
  .next (match s.gate (.resort o) with
    | (s, none) => s
    | (s, some c) =>
      let j : ResortJoin := { tid := c.lead, key := c.thr.reg o.a, mask := o.lit.getD 0 }
      let s := if c.thr.inTrap then s else s.modTeam c.k fun t => { t with resorts := t.resorts ++ [j] }
      (s.modThread c.k c.lead fun t => { t with st := .blocked .resort, word := some (.resort o) }).tryResort c.k)

/-- IDEMX (R391): the team is committed. -/
def execIdemx (o : EngOp) (s : State) : Out :=
  .next (match s.gate (.idemx o) with
    | (s, none) => s
    | (s, some c) => (s.modTeam c.k fun t => { t with idemx := true }).goOn c (.idemx o))

/-! ### Named barriers and rendezvous -/

/-- The count of an arrival (R357). -/
def barCount (o : EngOp) (t : Thread) : Nat := (o.lit.getD (t.reg o.a)).toNat
/-- The barrier that an arrival names (R357). -/
def barNumber (o : EngOp) : Fin 16 := Fin.ofNat 16 o.b.toNat

/-- BARARV and BARSYNC: the count, which is read once, then the release prerequisites (R358). -/
def State.arriveWord (s : State) (i : Instr) (o : EngOp) : State :=
  match s.gate i with
  | (s, none) => s
  | (s, some c) =>
    let cnt := barCount o c.thr
    if cnt == 0 || s.lfield c.team (·.teamsize) < cnt then s.trapAll c.k c.all (barTrap c.thr.pc (barNumber o).val cnt)
    else (s.awaitRelease c i).modThread c.k c.lead fun t => { t with arr := cnt }

/-- BARARV (R358). -/
def execBararv (o : EngOp) (s : State) : Out := .next (s.arriveWord (.bararv o) o)
/-- BARSYNC (R358). -/
def execBarsync (o : EngOp) (s : State) : Out := .next (s.arriveWord (.barsync o) o)

/-- A rendezvous word meets its release prerequisites before it joins (R364). -/
def State.rdvWord (s : State) (i : Instr) : State :=
  match s.gate i with
  | (s, none) => s
  | (s, some c) => s.awaitRelease c i

/-- RDV (R360). -/
def execRdv (o : EngOp) (s : State) : Out := .next (s.rdvWord (.rdv o))
/-- RDVX (R360). -/
def execRdvx (o : EngOp) (s : State) : Out := .next (s.rdvWord (.rdvx o))
/-- RDVV (R360). -/
def execRdvv (o : EngOp) (s : State) : Out := .next (s.rdvWord (.rdvv o))
/-- RDVS (R360). -/
def execRdvs (o : EngOp) (s : State) : Out := .next (s.rdvWord (.rdvs o))

/-! ### After the release prerequisites (R342) -/

/-- The address that a global word of release order will reach. -/
def releaseVa (th : Thread) : Instr → Option DWord
  | .st o | .strel o | .cas o | .cas128 o | .sth o => some (th.reg64 o.a + litOff o.lit)
  | .atom o | .red o => some (th.reg64 o.a + atopOff o.lit)
  | _ => none

/-- The place that a global word of release order will reach, as it translates now. -/
def State.releasePlace (s : State) (t : Team) (th : Thread) (i : Instr) : Option Place := (releaseVa th i).bind (s.placeAt t)

/-- Memory keeps back the walk that says where a release goes (R189). -/
def State.releaseHeld (s : State) (t : Team) (th : Thread) (i : Instr) : Bool :=
  (releaseVa th i).any fun va => (s.probe (some t.pcore) (pcTower t.pcore) (s.root t) va).1 == .held

/-- The scope that a word names for its release half (R342, R358, R364, R377, R386, R388, R389); that of STS is its home's, whatever its suffix (R158). -/
def relScope (i : Instr) (t : Team) (th : Thread) : Scope :=
  match i with
  | .sts o => if th.spadRank o t.rank == t.rank then .team else .tower
  | .ld o | .st o | .lds o | .ldacq o | .strel o | .atom o | .cas o | .cas128 o | .red o | .redc o | .fence o | .ldh o | .sth o => o.sc
  | .copy _ | .launch _ => .pkg
  | _ => .team

/-- The scope within which a word's earlier accesses must have been performed: system scope toward host memory (R180). -/
def State.releaseScope (s : State) (t : Team) (th : Thread) (i : Instr) : Scope :=
  match s.releasePlace t th i with
  | some p => p.wide (relScope i t th)
  | none => relScope i t th

/-- The peer to which a word's release travels (R71). -/
def State.releaseDest (s : State) (t : Team) (th : Thread) (i : Instr) : Option (BitVec 12) := (s.releasePlace t th i).bind (·.node)

/-- The flag of a word that waits (R146). -/
def flagSel : Instr → Bool
  | .st o | .sts o | .strel o | .atom o | .cas o | .cas128 o | .red o | .sth o => o.g
  | _ => false

/-- A word counts a flag as it is performed. -/
def countsFlag : Instr → Bool
  | .st _ | .sts _ | .strel _ | .atom _ | .cas _ | .cas128 _ | .red _ | .sth _ => true
  | _ => false

/-- What a word does once its release prerequisites hold. -/
def actPhase (s : State) (c : Issue) (i : Instr) : State :=
  match i with
  | .st o => actStore i o s c
  | .strel o => actStore i o s c
  | .sth o => actStore i o s c
  | .sts o => actSts o s c
  | .atom o => actAtom o s c
  | .cas o => actCas i o s c
  | .cas128 o => actCas i o s c
  | .red o => actRed o s c
  | .fence o => actFence o s c
  | .copy o => actCopy o s c
  | .launch o => actLaunch o s c
  | .tbarv o => actTbarv o s c
  | .cont o => actCont o s c
  | .bararv o => s.arriveBar c.k c.lead i (barNumber o) c.thr.arr false
  | .barsync o => s.arriveBar c.k c.lead i (barNumber o) c.thr.arr true
  | .rdv _ => s.joinRdv c.k c.lead i 0 0
  | .rdvx o => s.joinRdv c.k c.lead i (c.thr.reg o.a) (litOr o c.thr)
  | .rdvv o => s.joinRdv c.k c.lead i (c.thr.reg o.a) 0
  | .rdvs o => s.joinRdv c.k c.lead i (c.thr.reg o.a) 0
  | _ => s

/-- An earlier access of a member that a release need not wait for: a write to the release's own destination, which its cell follows (R67, R71). -/
def Req.follows (r : Req) (sc : Scope) (dest : Option (BitVec 12)) : Bool :=
  sc == .sys && dest.isSome &&
    match r.loc, r.act with
    | .glob _ p, .store _ | .glob _ p, .atomic _ _ _ false => p.node == dest
    | _, _ => false

/-- A release's prerequisites on the accesses of its members: none outstanding or in the side log, and at system scope their bulk packets to other nodes acknowledged (R71, R342). -/
def State.released (s : State) (k : Nat) (is : List Nat) (sc : Scope) (dest : Option (BitVec 12)) : Bool :=
  s.reqs.all (fun r => !(r.team == k && r.threads.any is.contains) || r.follows sc dest) &&
  s.sideLog.all (fun e => !(e.team == k && !e.gone && is.contains e.tid)) &&
    (sc != .sys || s.fab.peers.all fun p => some p.node == dest || p.flights.all fun f => !(f.team == k && f.tid.any is.contains))

/-- What the core already reads of its own or its tower's stores is performed before a release of wider scope (R166, R171). -/
def State.settledEarly (s : State) (pcore : Nat) (sc : Scope) : Bool :=
  s.reqs.all fun q => !(s.earlyOn q pcore && scopeCode q.sc < scopeCode sc)

/-- A member that is still RUNNING after its word has ended its run (R342). -/
def State.wakeMembers (s : State) (k : Nat) (is : List Nat) : State :=
  s.modThreads k is fun t => if t.st == .running then t.wake s.now else t

/-- RELEASE_PREREQ_MET (R342): the word of a thread that waits for its prerequisites is performed. -/
def execReleasePrereqMet (k tid : Nat) (s : State) : Out :=
  .next (match s.team? k, s.thread? k tid with
    | some t, some th =>
      match th.st, th.word with
      | .waiting .release, some i =>
        let is := tid :: th.mates
        let sc := s.releaseScope t th i
        if s.releaseHeld t th i || !s.released k is sc (s.releaseDest t th i) || !s.settledEarly t.pcore sc || t.status == .saved || t.status == .discarded || t.status == .complete then s
        else
          let s' := if sc == .pkg || sc == .sys then s.foldTower (pcTower t.pcore) else s
          let s' := s'.modThreads k is fun u => { u with st := .running, word := none, mates := [] }
          match s'.team? k, s'.thread? k tid with
          | some t, some u =>
            let c : Issue := { k := k, lead := tid, mates := th.mates, hdr := th.hdr, team := t, thr := u, w := wordOf i }
            if countsFlag i && !s'.room c (flagOf c.hdr (flagSel i)) then s
            else (actPhase s' c i).wakeMembers k is
          | _, _ => s
      | _, _ => s
    | _, _ => s)

/-! ### After an acquire (R174, R175) -/

/-- A read has been performed as an acquire: later relaxed loads find no copy in L1 (R161). -/
def State.passAcquire (s : State) (t : Team) (r : Req) (f : State → State) : State := (f s).l1Acquire t.pcore r.sc

/-- An acquire whose check fails has no effect; the threads take SCOPE_MISMATCH at the word when their next run begins (R175). -/
def State.failAcquire (s : State) (r : Req) (tr : Trap) : State :=
  let s := (s.dropReq r).modThreads r.team r.threads fun t =>
    { t with st := .ready, since := s.now, used := 0, word := none, failed := some tr }
  s.flagsDown r.team r.threads r.flag

/-- The trap of a failed check of an access (R175); that of an access to a peer is made there (R76). -/
def State.checkTrap (s : State) (r : Req) (t : Team) : Option Trap :=
  match r.loc with
  | .spad _ _ => none
  | .glob va p =>
    if p.node.isSome then none
    else
      match s.tagOf p.pa with
      | some tg => if tagPasses (some tg) r.sc (s.agentOf t) then none else some (scopeTrap s.fab.node tg r.sc false va)
      | none => none

/-- An acquire access completes and is checked (R175). -/
def State.acquireDone (s : State) (r : Req) (t : Team) : State :=
  match s.checkTrap r t with
  | some tr => s.failAcquire r tr
  | none =>
    match r.act with
    | .load d hnd => s.passAcquire t r fun s => s.loadDone r d hnd
    | .atomic d op data true => s.passAcquire t r fun s => s.atomicDone r d op data
    | _ => s

/-- The earliest read whose tag fails at a FENCE (R174, R175). -/
def State.fenceTrap (s : State) (t : Team) (sc : Scope) : List (DWord × Tag) → Option Trap
  | [] => none
  | (va, tg) :: r => if tagPasses (some tg) sc (s.agentOf t) then s.fenceTrap t sc r else some (scopeTrap s.fab.node tg sc true va)

/-- A request that reads. -/
def Act.reads : Act → Bool
  | .load _ _ | .atomic _ _ _ _ | .redc _ | .scld _ _ | .accld _ _ _ _ _ => true
  | _ => false

/-- A FENCE completes and is checked (R174, R175, R350): every earlier read of its thread is complete. -/
def State.fenceDone (s : State) (t : Team) (k tid : Nat) (th : Thread) (i : Instr) (sc : Scope) : State :=
  if s.reqs.any fun r => r.team == k && r.threads.contains tid && r.act.reads then s
  else
    match s.fenceTrap t sc th.reads with
    | some tr => s.modThread k tid fun u => { u with st := .ready, since := s.now, used := 0, word := none, failed := some tr }
    | none => (s.modThread k tid fun u => { u.leave i s.now with reads := [] }).l1Acquire t.pcore sc

/-- ACQUIRE_CHECK_COMPLETE (R175). -/
def execAcquireCheckComplete (k tid : Nat) (s : State) : Out :=
  .next (match s.team? k, s.thread? k tid with
    | some t, some th =>
      match th.st, th.word with
      | .waiting .check, some (.fence o) => s.fenceDone t k tid th (.fence o) o.sc
      | .waiting .check, some _ =>
        match s.reqs.find? fun r => r.team == k && r.threads.contains tid && isAcq r.ord with
        | some r => if s.canPerform r then s.acquireDone r t else s
        | none => s
      | _, _ => s
    | _, _ => s)

end Sys2Proof.Machine
end

