-- ==== Sys2Proof/Machine/Events.lean ====
section
/-!
DEFINITION. Interrupts, event records and their rings (R100 to R104, R414).
-/
namespace Sys2Proof.Machine

/-! ### Interrupts (R104) -/

/-- A word of the MSI-X table; a vector is masked until software unmasks it (R104; log entry 37). -/
def Hub.msixWord (h : Hub) (i : Nat) : Word := h.msix.getD i (if i % 4 == 3 then 1 else 0)

/-- A vector is masked. -/
def Hub.masked (h : Hub) (v : Nat) : Bool := (h.msixWord (4 * v + 3)).getLsbD 0

/-- Request an interrupt on a vector: sent, or pending while the vector is masked (R104). -/
def State.interrupt (s : State) (v : Nat) : State :=
  if s.hub.masked v then
    if s.hub.msixPend.contains v then s else { s with hub := { s.hub with msixPend := s.hub.msixPend ++ [v] } }
  else { s with irq := s.irq ++ [v] }

/-! ### Records and rings (R100 to R102) -/

/-- An event record with its PHASE bit clear (R101). -/
def eventBytes (src typ status : Nat) (tag data : Nat) : List Byte :=
  leBytes 2 src ++ leBytes 1 typ ++ leBytes 1 status ++ leBytes 4 tag ++ leBytes 8 data

/-- An event queue that has received nothing (R100). -/
def EventQ.blank (n : Nat) : EventQ where
  num := n
  held := false
  base := 0
  log2n := 0
  vec := 0
  count := 0
  time := 0
  slot := 0
  phase := true
  unreturned := 0
  waiting := []
  unsignalled := 0
  firstAt := 0

/-- Event queue n. -/
def State.eventQ (s : State) (n : Nat) : EventQ := (s.eqs.find? fun q => q.num == n).getD (EventQ.blank n)

/-- Replace an event queue. -/
def State.putEventQ (s : State) (q : EventQ) : State :=
  { s with eqs := if s.eqs.any (fun x => x.num == q.num) then s.eqs.map fun x => if x.num == q.num then q else x else s.eqs ++ [q] }

/-- Post a record to an event queue: it waits to be written, in order (R102, R103). -/
def State.post (s : State) (n : Nat) (bytes : List Byte) : State :=
  let q := s.eventQ n
  s.putEventQ { q with waiting := q.waiting ++ [bytes] }

/-- Events of a tower (R101), of the hub, the fabric and the far tier. -/
def State.postTower (s : State) (t typ : Nat) (data : Nat) : State := s.post (s.tower t).tevq.toNat (eventBytes (0x4000 + t) typ 0 0 data)
def State.postHub (s : State) (src typ : Nat) (data : Nat) : State := s.post s.hub.hsyseq.toNat (eventBytes src typ 0 0 data)

/-- An entry of a work queue ends with a status: 0 for success, which posts its event only if EVENT is set (R91, R92). -/
def State.endEntry (s : State) (q e : Nat) (status : Nat) : State :=
  match s.queue? q with
  | none => s
  | some w =>
    match w.entries.find? fun x => x.num == e with
    | none => s
    | some x =>
      let tag := fieldAt x.bytes 4 4
      let s := s.modQueue q fun w => { w with entries := w.entries.filter fun x => x.num != e }
      let eq := fieldAt w.ctx 10 2 % 1024
      if status != 0 then s.post eq (eventBytes q 0x02 status tag 0)
      else if bitOf (fieldAt x.bytes 1 1) 1 then s.post eq (eventBytes q 0x01 0 tag 0)
      else s

/-- The bytes of an event-queue context (R100). -/
def State.eventCtx (s : State) (n : Nat) : List Byte := s.readUnder 0 (s.hub.heqBase + 64 * n) 64

/-- A context is valid and enabled (R414). -/
def eventCtxOk (bs : List Byte) : Bool :=
  let f := fieldAt bs
  6 ≤ f 8 1 && f 8 1 ≤ 16 && f 0 8 % (2 ^ (f 8 1) * 16) == 0 && f 0 8 < 0xF000000000000 && f 9 1 == 1 && f 10 2 ≤ 2047 &&
    f 13 1 == 0 && fieldAt bs 16 48 == 0

/-- The event queue with the context that the hub reads (R100, R414). -/
def EventQ.take (q : EventQ) (bs : List Byte) : EventQ :=
  let f := fieldAt bs
  if eventCtxOk bs then
    { q with held := true, base := f 0 8, log2n := f 8 1, vec := f 10 2, count := if f 12 1 == 0 then 1 else f 12 1, time := f 14 2 }
  else { q with held := false }

/-- EVENT_CONTEXT_POLL (R100, R414): the hub reads the context of a queue for which records wait, once memory gives it; at a refused or poisoned address it takes the
bytes as they stand (DESIGN CHOICE, log entry 51). -/
def execEventContextPoll (e : BitVec 10) (s : State) : Out :=
  let q := s.eventQ e.toNat
  .next (if !s.hub.hqEn || q.held || q.waiting.isEmpty then s
    else s.hubTry (s.hub.heqBase + 64 * e.toNat) 64 fun s => s.putEventQ (q.take (s.eventCtx e.toNat)))

/-- Set the PHASE bit of a record, which is bit 7 of byte n (R101, R195). -/
def withPhase (n : Nat) (phase : Bool) (bs : List Byte) : List Byte :=
  bs.modify n fun b => if phase then b ||| 0x80 else b

/-- EVENT_RECORD_WRITE (R102): the oldest waiting record takes the next slot, once it has been returned. A record whose slot memory refuses, or whose tower has
failed, waits (DESIGN CHOICE, log entry 51). -/
def execEventRecordWrite (e : BitVec 10) (s : State) : Out :=
  let q := s.eventQ e.toNat
  .next (match q.waiting with
    | [] => s
    | r :: rest =>
      let at' := q.base + 16 * q.slot
      if !q.held || 2 ^ q.log2n ≤ q.unreturned || (s.paCheck at').isSome || s.writeFails (hubPlace at') then s
      else s.hubTry at' 16 fun s =>
        let s := s.devWrite none (hubPlace at') (withPhase 2 q.phase r)
        let wrap := q.slot + 1 == 2 ^ q.log2n
        let n := q.unsignalled + 1
        let q := { q with
          waiting := rest, slot := if wrap then 0 else q.slot + 1, phase := if wrap then !q.phase else q.phase
          unreturned := q.unreturned + 1, unsignalled := if n == q.count then 0 else n, firstAt := if q.unsignalled == 0 then s.now else q.firstAt }
        let s := s.putEventQ q
        if n == q.count then s.interrupt q.vec else s)

/-- Slots that a doorbell value returns on a ring of 2^l slots with u records not yet returned, the next slot being n (R102). -/
def returned (l u n i : Nat) : Nat :=
  let size := 2 ^ l
  let o := (n + size - u % size) % size
  let k := (i % size + size - o) % size
  if u == size && k == 0 then u else if k ≤ u then k else 0

/-- A value written to an event queue's doorbell (R102). -/
def State.eventDoor (s : State) (e : BitVec 10) (v : Word) : State :=
  let q := s.eventQ e.toNat
  if !s.hub.hqEn || !q.held then s else s.putEventQ { q with unreturned := q.unreturned - returned q.log2n q.unreturned q.slot v.toNat }

/-- EVENT_DOORBELL (R102). -/
def execEventDoorbell (e : BitVec 10) (v : Word) (s : State) : Out := .next (s.eventDoor e v)

/-- EVENT_INTERRUPT_TIMER (R104): TIMER microseconds, of 1,400 cycles each, after the first record not yet signalled. -/
def execEventInterruptTimer (e : BitVec 10) (s : State) : Out :=
  let q := s.eventQ e.toNat
  .next (if !q.held || q.time == 0 || q.unsignalled == 0 || s.now < q.firstAt + q.time * 1400 then s
    else (s.putEventQ { q with unsignalled := 0 }).interrupt q.vec)

end Sys2Proof.Machine
end

