-- ==== Sys2Proof/Machine/Faults.lean ====
section
/-!
DEFINITION. The fault queue and the answers to faults (R193 to R198, R203), invalidation (R191, R192), and walks (R189).
-/
namespace Sys2Proof.Machine

/-! ### Records (R194, R195) -/

/-- The code of a kind (R195). -/
def FKind.code : FKind → Nat
  | .load => 0 | .store => 1 | .reduction => 2 | .fetch => 3 | .fill => 4 | .writeback => 5 | .piece => 6 | .scout => 7

/-- A fault record with its PHASE bit clear (R195). -/
def FaultEntry.bytes (f : FaultEntry) : List Byte :=
  leBytes 8 f.va.toNat ++ leBytes 3 f.fid ++ leBytes 1 f.kind.code ++ leBytes 2 f.asid.toNat ++
    leBytes 1 (f.reason.toNat + 4 * f.level.toNat) ++ leBytes 1 f.need.toNat ++ leBytes 4 f.grid.toNat ++ leBytes 4 f.teamid ++
    leBytes 2 f.pcore ++ leBytes 6 0

/-- A saved team waits on a fault with a held thread, a side-log entry or a copy (R203). -/
def State.savedWaits (s : State) (fid : Nat) : Bool :=
  s.teams.any fun t => t.status == .saved &&
    (t.threads.any (fun th => match th.st with | .held n _ => n == fid | _ => false) ||
      s.sideLog.any (fun e => e.team == t.key && e.fid == some fid) || s.copies.any fun c => c.team == t.key && c.fid == some fid)

/-- Entries that are answered, recorded and waited on by no saved context leave the table (R193). -/
def State.sweepFaults (s : State) : State :=
  let left := s.faults.filter fun f => !(f.answer.isSome && f.recorded && !s.savedWaits f.fid)
  let full := faultMax ≤ s.faults.length
  let s := { s with faults := left }
  -- threads that the full table held try again
  if full && left.length < faultMax then (s.teams.filter (·.placed)).foldl (fun s t => s.wakeHeld t.key) s else s

/-- FAULT_RECORD_WRITE (R194): the oldest fault without a record takes the next slot, once it is free. A record whose slot memory refuses, or whose tower has
failed, waits (DESIGN CHOICE, log entry 51). -/
def execFaultRecordWrite (s : State) : Out :=
  let h := s.hub
  .next (match s.faults.find? fun f => !f.recorded with
    | none => s
    | some f =>
      let at' := h.fqBase + 32 * h.fqSlot
      if !h.fqEn || 2 ^ h.fqLog.toNat ≤ h.fqUnret || (s.paCheck at').isSome || s.writeFails (hubPlace at') then s
      else s.hubTry at' 32 fun s =>
        let s := s.devWrite none (hubPlace at') (withPhase 31 h.fqPhase f.bytes)
        let wrap := h.fqSlot + 1 == 2 ^ h.fqLog.toNat
        let s := { s with hub := { s.hub with
          fqSlot := if wrap then 0 else h.fqSlot + 1, fqPhase := if wrap then !h.fqPhase else h.fqPhase, fqUnret := h.fqUnret + 1 } }
        let s := s.modFault f.fid fun f => { f with recorded := true }
        (if h.fqUnret == 0 then s.interrupt h.fqVec.toNat else s).sweepFaults)

/-- A write to FQDOOR (R194). -/
def State.fqDoor (s : State) (v : Word) : State :=
  let h := s.hub
  { s with hub := { h with fqUnret := h.fqUnret - returned h.fqLog.toNat h.fqUnret h.fqSlot v.toNat } }

/-- FQDOOR_WRITE (R194). -/
def execFqdoorWrite (v : Word) (s : State) : Out := .next (s.fqDoor v)

/-! ### Answers (R196 to R198) -/

/-- The threads of a placed team that a fault holds. -/
def Team.heldBy (t : Team) (fid : Nat) : List (Nat × DWord) :=
  (List.range t.threads.length).filterMap fun i =>
    match t.threads[i]? with
    | some th => match th.st with
      | .held n va => if n == fid then some (i, va) else none
      | _ => none
    | none => none

/-- Held threads of a team take the cause of a failure at their word (R197). -/
def State.failHeld (s : State) (k : Nat) (cause : Byte) : List (Nat × DWord) → State
  | [] => s
  | (i, va) :: r => (s.takeTrap k i { cause := cause, addr := va, info := failInfo cause false }).failHeld k cause r

/-- The waiters of a fault in the teams that hold their place receive a failure (R196, R197, R201). -/
def State.failTeams (s : State) (fid : Nat) (cause : Byte) : List Team → State
  | [] => s
  | t :: ts => (if t.placed then s.failHeld t.key cause (t.heldBy fid) else s).failTeams fid cause ts

/-- Side-log entries that wait on a fault fail, oldest first (R201). -/
def State.failEntries (s : State) (cause : Byte) : List LogEntry → State
  | [] => s
  | e :: es => (s.failEntry e cause (failInfo cause true)).failEntries cause es

/-- Copies that wait on a fault end (R198, R216). -/
def State.failCopies (s : State) (cause : Byte) : List Copy → State
  | [] => s
  | c :: cs => (s.stopCopy c (.failed cause)).failCopies cause cs

/-- The team of an entry or copy holds its place. -/
def State.placedTeam (s : State) (k : Nat) : Bool := match s.team? k with | some t => t.placed | none => false

/-- A retry reaches the waiters of a fault (R197): entries may replay, copies go on, held threads are reissued. -/
def State.retryWaiters (s : State) (fid : Nat) : State :=
  let s : State := { s with
    sideLog := s.sideLog.map fun e => if e.fid == some fid && s.placedTeam e.team then { e with fid := none } else e
    copies := s.copies.map fun c =>
      let c := if c.fid == some fid && s.placedTeam c.team then { c with fid := none } else c
      { c with probed := c.probed.map fun p => if p.2 == some fid then (p.1, none) else p } }
  (s.teams.filter (·.placed)).foldl (fun s t => s.wakeHeld t.key) s

/-- A failure reaches the waiters of some faults (R197, R198): side-log entries in log order, whatever fault they wait on (R201). -/
def State.failWaitersOf (s : State) (fids : List Nat) (cause : Byte) : State :=
  let waits := fun (f : Option Nat) => f.any fids.contains
  let s := s.failEntries cause (s.sideLog.filter fun e => waits e.fid && s.placedTeam e.team)
  let s := s.failCopies cause (s.copies.filter fun c => waits c.fid && s.placedTeam c.team)
  let s : State := { s with copies := s.copies.map fun c =>
    let pages := (c.probed.filter fun p => waits p.2).map (·.1)
    { c with
      probed := c.probed.map fun p => if waits p.2 then (p.1, none) else p
      refused := pages.foldl (fun r p => r.put p cause) c.refused } }
  fids.foldl (fun s fid => s.failTeams fid cause s.teams) s

/-- Some outstanding faults are answered with a failure (R196). -/
def State.failFaults (s : State) (fids : List Nat) (cause : Byte) : State :=
  (({ s with faults := s.faults.map fun f => if fids.contains f.fid && f.answer.isNone then { f with answer := some (.fail cause) } else f } : State).failWaitersOf fids cause).sweepFaults

/-- The answer to an outstanding fault (R196); an FID that is not outstanding sets BADREPLY. -/
def State.answer (s : State) (fid : Nat) (a : Answer) : State :=
  match s.faults.find? fun f => f.fid == fid && f.answer.isNone with
  | none => { s with hub := { s.hub with badReply := true } }
  | some _ =>
    match a with
    | .retry => ((s.modFault fid fun f => { f with answer := some .retry }).retryWaiters fid).sweepFaults
    | .fail c => s.failFaults [fid] c

/-- An FID has been outstanding for TMO (R196). -/
def State.overdue (s : State) (f : FaultEntry) : Bool :=
  f.answer.isNone && s.hub.fqTmo != 0 && f.opened + s.hub.fqTmo.toNat * 14000 ≤ s.now

/-- The hub answers every FID that has been outstanding for TMO as a WATCHDOG failure (R196). -/
def State.watchdog (s : State) : State :=
  match s.faults.filter s.overdue with
  | [] => s
  | fs => s.failFaults (fs.map (·.fid)) cWatchdog

/-- A write to FQCFG (R194): LOG2N is taken while EN = 0, and a rising EN starts the ring again; TMO governs every outstanding FID from now on (R196). -/
def State.writeFqcfg (s : State) (v : Word) : State :=
  let h := s.hub
  let log := v.extractLsb' 0 5
  let en := v.getLsbD 31
  let h' := { h with fqTmo := v.extractLsb' 16 15, fqVec := v.extractLsb' 5 11 }
  { s with hub :=
    if h.fqEn then { h' with fqEn := en }
    else if en && 6 ≤ log.toNat && log.toNat ≤ 16 then { h' with fqLog := log, fqEn := true, fqSlot := 0, fqPhase := true, fqUnret := 0 }
    else { h' with fqLog := log } }.watchdog

/-- FQCFG_WRITE (R194). -/
def execFqcfgWrite (v : Word) (s : State) : Out := .next (s.writeFqcfg v)

/-- FREPLY_RETRY (R196). -/
def execFreplyRetry (fid : BitVec 24) (s : State) : Out := .next (s.watchdog.answer fid.toNat .retry)

/-- The cause of a disposition (R194). -/
def dispCause (d : BitVec 8) : Byte := if d == 0x10 || d == 0x11 then d else cAccess

/-- A write to FREPLY (R194, R196). -/
def State.freply (s : State) (v : Word) : State :=
  let s := s.watchdog
  if v.toNat % 256 == 0 then s.answer (v.toNat / 256) .retry else s.answer (v.toNat / 256) (.fail (dispCause (v.extractLsb' 0 8)))

/-- FREPLY_FAIL (R196): any DISP but 0x00. -/
def execFreplyFail (fid : BitVec 24) (disp : BitVec 8) (s : State) : Out :=
  .next (if disp == 0 then s else s.watchdog.answer fid.toNat (.fail (dispCause disp)))

/-- FAULT_WATCHDOG (R196). -/
def execFaultWatchdog (fid : BitVec 24) (s : State) : Out :=
  .next (match s.faults.find? fun f => f.fid == fid.toNat && f.answer.isNone with
    | none => s
    | some f => if s.overdue f then s.answer fid.toNat (.fail cWatchdog) else s)

/-! ### Invalidation (R191, R192) -/

/-- GO of INVCTL with a KIND (R191): ignored with OVERRUN while a command runs. -/
def State.invalidate (s : State) (v : Word) (ok : BitVec 2 → Bool) : State :=
  if !v.getLsbD 31 || !ok (v.extractLsb' 0 2) then s
  else if s.hub.invBusy then { s with hub := { s.hub with invOverrun := true } }
  else
    let h := s.hub
    let c : InvCmd := {
      kind := v.extractLsb' 0 2, rdrop := v.getLsbD 2, node := v.extractLsb' 16 12, va := h.invVa, pa := h.invPa, asid := h.invAsid, count := h.invCount }
    { s with hub := { h with invBusy := true, invCmd := some c } }

/-- INVALIDATE_VA_RANGE (R191). -/
def execInvalidateVaRange (v : Word) (s : State) : Out := .next (s.invalidate v fun k => k == 0)
/-- INVALIDATE_ASID (R191). -/
def execInvalidateAsid (v : Word) (s : State) : Out := .next (s.invalidate v fun k => k == 1)
/-- INVALIDATE_ALL (R191). -/
def execInvalidateAll (v : Word) (s : State) : Out := .next (s.invalidate v fun k => k == 2 || k == 3)

/-- Bytes of the range of a command (R191). -/
def InvCmd.bytes (c : InvCmd) : Nat := (if c.count == 0 then 2 ^ 20 else c.count.toNat) * 4096

/-- A command covers n bytes at a VA of an address space. -/
def InvCmd.covers (c : InvCmd) (asid : BitVec 12) (va n : Nat) : Bool :=
  match c.kind.toNat with
  | 0 => asid == c.asid && overlap va n c.va.toNat c.bytes
  | 1 => asid == c.asid
  | _ => true

/-- ASID of a team. -/
def State.asidOf (s : State) (k : Nat) : BitVec 12 := match s.team? k with | some t => rootAsid (s.root t) | none => 0

/-- No load that could still bring in a line that the command drops is outstanding (R79, R192). -/
def State.remoteQuiet (s : State) (c : InvCmd) : Bool :=
  s.reqs.all (fun r =>
    match r.loc with
    | .glob _ p => !(p.node == some c.node && p.keeps r.ty && overlap p.pa r.size c.pa.toNat c.bytes)
    | .spad _ _ => true) &&
  s.fab.asks.all fun a => !(a.node == c.node && a.reply.isNone && a.typ == 1 && overlap a.pa a.n c.pa.toNat c.bytes)

/-- The cached lines of the peer that a command names go (R78, R192), and what the hub has loaded of them and not yet used. -/
def State.dropRemote (s : State) (c : InvCmd) : State :=
  let lo := c.node.toNat * 2 ^ 52 + c.pa.toNat
  { s with
    mem := { s.mem with remote := s.mem.remote.dropRange lo (lo + c.bytes) }
    fab := { s.fab with asks := s.fab.asks.filter fun a => !(a.node == c.node && a.typ == 1 && overlap a.pa a.n c.pa.toNat c.bytes) } }

/-- With RDROP, the side-log entries of the range have drained (R79). -/
def State.logQuiet (s : State) (c : InvCmd) : Bool :=
  !c.rdrop || s.sideLog.all fun e => !(s.placedTeam e.team && c.covers (s.asidOf e.team) e.va.toNat e.size)

/-- REMOTE_LINE_DROP (R192). -/
def execRemoteLineDrop (s : State) : Out :=
  .next (match s.hub.invCmd with
    | some c =>
      if c.rdrop && !c.dropped && s.remoteQuiet c then
        let s := s.dropRemote c
        { s with hub := { s.hub with invCmd := some { c with dropped := true } } }
      else s
    | none => s)

/-- Bulk bytes that a team's access sent to a covered page have not been acknowledged. -/
def State.inFlight (s : State) (c : InvCmd) : Bool :=
  s.fab.peers.any fun p => p.flights.any fun f => (s.team? f.team).isSome && c.covers (s.asidOf f.team) (f.page * 4096) 4096

/-- No access that used a covered translation is outstanding, and no covered map line is being filled (R192). -/
def State.invQuiet (s : State) (c : InvCmd) : Bool :=
  s.reqs.all (fun r => match r.loc with
    | .glob va _ => !c.covers (s.asidOf r.team) va.toNat r.size
    | .spad _ _ => true) &&
  !s.inFlight c &&
  s.teams.all fun t => t.maps.all fun m => m.filling.all fun f => !c.covers (s.asidOf t.key) (m.va.toNat + (f.1 - m.off)) 128

/-- The translation of a VA that a map unit keeps, for a write-back (R190, R192). -/
def SpadMap.kept (m : SpadMap) (va : DWord) (s : State) : Option (XRes × State) :=
  (m.pages.get? (va.toNat / 4096)).map fun p =>
    let p := { p with pa := p.pa + va.toNat % 4096 }
    if !permits p.entry 2 then (.fault 2 (if p.size == 2 ^ 30 then 1 else if p.size == 2 ^ 21 then 2 else 3), s)
    else match s.step4 p .store .dflt with
      | some (c, n) => (.trap c n, s)
      | none => (.ok p, s)

/-- Write back the dirty covered lines of a map through the translations that its map unit keeps, as WBS does (R192); false: some of them must wait. The writes are those of
the team's thread 0 (log entry 27). -/
def State.invLines (s : State) (t : Team) (m : SpadMap) (base : Nat) (c : InvCmd) : List Nat → Bool × State
  | [] => (true, s)
  | l :: ls =>
    let va := m.va + BitVec.ofNat 64 (l - m.off)
    if !c.covers (s.asidOf t.key) va.toNat 128 || (m.pages.get? (va.toNat / 4096)).isNone then s.invLines t m base c ls
    else
      let (a, s) := s.backLine t 0 m base m.dirty l false fun s => (m.kept va s).getD (.fault 1 3, s)
      let (b, s) := s.invLines t m base c ls
      (a && b, s)

/-- Write back the covered lines of every map of a team. -/
def State.invMaps (s : State) (t : Team) (c : InvCmd) : List SpadMap → Bool × State
  | [] => (true, s)
  | m :: ms =>
    let (base, s) := s.takeKeys m.len
    let (a, s) := s.invLines t m base c m.dirtyLines
    let (b, s) := s.invMaps t c ms
    (a && b, s)

/-- Write back the covered lines of the maps of several teams. -/
def State.invTeams (s : State) (c : InvCmd) : List Team → Bool × State
  | [] => (true, s)
  | t :: ts =>
    let (a, s) := s.invMaps t c t.maps
    let (b, s) := s.invTeams c ts
    (a && b, s)

/-- Every translation that a command covers leaves the caches that hold it (R192). -/
def State.dropCovered (s : State) (c : InvCmd) : State :=
  { s with
    mem := { s.mem with
      tlb := s.mem.tlb.filter fun e => !c.covers e.asid e.va e.size
      walk := s.mem.walk.filter fun w =>
        let size := match w.level with | 0 => 2 ^ 43 | 1 => 2 ^ 30 | _ => 2 ^ 21
        !c.covers w.asid (w.tag * size) size }
    teams := s.teams.map fun t => { t with maps := t.maps.map fun m => { m with
      pages := m.pages.filter fun p => !c.covers (s.asidOf t.key) (p.1 * 4096) 4096 } }
    copies := s.copies.map fun q =>
      let keep (p : Nat) : Bool := !c.covers (s.asidOf q.team) (p % 2 ^ 52 * 4096) 4096
      { q with probed := q.probed.filter fun p => keep p.1, refused := q.refused.filter fun p => keep p.1 } }

/-- INVALIDATION_DONE (R192). -/
def execInvalidationDone (s : State) : Out :=
  .next (match s.hub.invCmd with
    | some c =>
      if !s.hub.invBusy || (c.rdrop && !(c.dropped && s.remoteQuiet c)) || !s.invQuiet c || !s.logQuiet c then s
      else
        match s.invTeams c (s.teams.filter (·.placed)) with
        | (false, s) => s
        | (true, s) =>
          -- write-backs that travel have to reach their peer first
          if !s.invQuiet c || !s.logQuiet c then s
          else
            let s := ((if c.rdrop then s.dropRemote c else s).dropCovered c).forgetWindows
            { s with hub := { s.hub with invBusy := false, invDone := true, invCmd := none } }
    | none => s)

/-- PAGE_WALK_COMPLETE (R189): a walk for a team's core fills its TLBs; a walk that finds no leaf faults at the access that needs it. -/
def execPageWalkComplete (k : Nat) (va : DWord) (s : State) : Out :=
  .next (match s.team? k with
    | none => s
    | some t => if t.placed && canonical va then (s.lookup (some t.pcore) (pcTower t.pcore) (s.root t) va.toNat).2 else s)

end Sys2Proof.Machine
end

