-- ==== Sys2Proof/Machine/Fetch.lean ====
section
/-!
DEFINITION. Fetching the words of a clause (R141, R190, R267) and the check of its header (R265, R266).
-/
namespace Sys2Proof.Machine

/-- What a fetch gives. -/
inductive Got where
  | word (w : Word)
  /-- A failure at step 1 or 4 of R190, or an uncorrectable read. -/
  | trap (t : Trap)
  /-- Reason and level of a fault (R195). -/
  | fault (reason level : Nat)
  /-- Memory keeps the fetch back (R25, R43, R45, R51, R110, R171, R176). -/
  | wait
  deriving DecidableEq, Repr

/-- The values that n bytes have held since the writes on their page that are kept, from the newest on: those after a key of the model (R141). -/
def pastValues (pa : Nat) (since : Nat) : List Past → List Byte → List (List Byte)
  | [], _ => []
  | e :: es, now =>
    if e.at_ ≤ since then []
    else if overlap e.pa e.old.length pa now.length then
      let old := (List.range now.length).map fun i => if e.pa ≤ pa + i then e.old.getD (pa + i - e.pa) (now.getD i 0) else now.getD i 0
      old :: pastValues pa since es old
    else pastValues pa since es now

/-- What a fetch reads of memory: any value that the bytes have held since the launch started (R141): a free choice, the newest when none is taken (log entry 11). -/
def State.fetchBytes (s : State) (t : Team) (p : Place) (n : Nat) : List Byte × State :=
  let (bs, s) := s.devRead (some (pcTower t.pcore)) p n
  s.pickOf bs (pastValues p.pa t.launch (s.mem.past.getD (p.pa / 4096) []) bs)

/-- Fetch the 32-bit word at a VA for a team (R141, R190). -/
def State.fetch (s : State) (t : Team) (va : DWord) : Got × State :=
  match s.xteam t va .fetch .dflt with
  | (.trap c n, s) => (.trap { cause := c, addr := va, info := BitVec.ofNat 32 n }, s)
  | (.fault r l, s) => (.fault r l, s)
  | (.held, s) => (.wait, s)
  | (.ok p, s) =>
    match p.node with
    -- a peer's bytes come from outside the package (log entry 18)
    | some _ => let (bs, s) := s.remoteRead p 4; (.word (BitVec.ofNat 32 (leNat bs)), s)
    | none =>
      if s.holds t.pcore none p 4 then (.wait, s)
      else
        match s.badByte p.key.toNat p.pa 4 with
        | some _ => (.trap { cause := cUncorrectable, addr := va, info := 0 }, s.spoil p.key.toNat p.pa 4)
        | none => let (bs, s) := s.fetchBytes t p 4; (.word (BitVec.ofNat 32 (leNat bs)), s)

/-- A fetch for a team is kept back. -/
def State.fetchHeld (s : State) (t : Team) (va : DWord) : Bool :=
  match (s.xteam t va .fetch .dflt).1 with
  | .ok p => p.node.isNone && s.holds t.pcore none p 4
  | .held => true
  | _ => false

/-- The class of a header (R265). -/
def hdrCls (h : Word) : Option Cls :=
  match bitsOf h.toNat 27 25 with
  | 0 => some .int | 1 => some .flt | 2 => some .xfn | 3 => some .mem | 4 => some .eng | 5 => some .sys
  | _ => none

/-- SETA and SETB hold a flag or 15 (R266). -/
def flagField (n : Nat) : Bool := n < 12 || n == 15

/-- A header is well formed (R266). -/
def hdrOk (h : Word) : Bool :=
  hdrLen h != 0 && (hdrCls h).isSome && flagField (bitsOf h.toNat 12 9) && flagField (bitsOf h.toNat 8 5) && h.extractLsb' 0 4 == 0

/-- Y: the clause ends its run (R265). -/
def hdrY (h : Word) : Bool := h.getLsbD 4

/-- ILLEGAL_CLAUSE (R205): TADDR is the header's VA and TINFO the header word. -/
def clauseTrap (va : DWord) (h : Word) : Trap where
  cause := 0x01
  addr := va
  info := h

/-- A fault of an instruction fetch holds a thread at its pc (R197), or holds it until the fault table has a free entry (R193). -/
def State.holdFetch (s : State) (k i : Nat) (va : DWord) (r l : Nat) : State :=
  match s.team? k with
  | none => s
  | some t =>
    match s.teamFault t va .fetch r l 4 with
    | (some fid, s) => s.modThread k i fun th => { th with st := .held fid va }
    | (none, s) => s.modThread k i fun th => { th with st := .held heldTable va }

end Sys2Proof.Machine
end

