-- ==== Sys2Proof/Machine/Sys.lean ====
section
/-!
DEFINITION. The SYS class (R392 to R400): special registers, traps and the return from one, sleep, and what a translation gives.
-/
namespace Sys2Proof.Machine

/-! ### Special registers (R275, R393, R394) -/

/-- The partition that TPART names; 12 to 15 name none (R111). -/
def Tower.part (t : Tower) : Option Nat := if t.tpart.toNat < 12 then some t.tpart.toNat else none

/-- Compute strata of a tower. -/
def Tower.computes (t : Tower) (st : Nat) : Bool := t.compute.getLsbD st

/-- The logical number of a core in its partition (R28). -/
def State.coreNumber (s : State) (part pcore : Nat) : Nat :=
  sumNat ((List.range 12).map fun t => sumNat ((List.range 4).map fun st =>
    let tw := s.tower t
    if tw.part == some part && tw.computes st then
      let first := 96 * t + 24 * st
      if first + 24 ≤ pcore then 24 else if first ≤ pcore then pcore - first else 0
    else 0))

/-- THSTATE (R34). -/
def Thermal.word (t : Thermal) : Word :=
  (0 : BitVec 8) ++ t.dtemp ++ t.ltemp ++ BitVec.ofBool t.forced ++ BitVec.ofBool t.pref ++ t.rmult ++ (0 : BitVec 1) ++ t.hst

/-- The size of a save slot (R129). -/
def LaunchRec.slotBytes (r : LaunchRec) : Nat :=
  let sum := 1024 + 8192 + 8192 + r.teamsize * (256 + 4 * r.regs) + r.spad + r.accrows * 512 + (if 0 < r.accrows then 2048 + 524288 else 0)
  ceilDiv sum 4096 * 4096

/-- VA of a team's save slot (R129, R275). -/
def State.slotVa (s : State) (t : Team) : DWord :=
  match s.lrec? t with
  | some r => r.savepool + BitVec.ofNat 64 (t.slot * r.slotBytes)
  | none => 0

/-- The value of a special register for a thread (R131, R275). -/
def State.special (s : State) (t : Team) (th : Thread) (tid : Nat) (n : Nat) : DWord :=
  let nat (x : Nat) : DWord := BitVec.ofNat 64 x
  let w (x : Word) : DWord := x.setWidth 64
  match n with
  | 0x00 => nat tid
  | 0x01 => nat t.teamid
  | 0x02 => nat (t.teamid / s.clusterSize t)
  | 0x03 => nat t.rank
  | 0x04 => w (s.grid t)
  | 0x05 => nat (s.crewSize t)
  | 0x06 => nat (th.quad.toNat * 32 + th.lane.toNat)
  | 0x07 => nat (s.coreNumber (((s.launch? t.launch).map (·.part)).getD 0) t.pcore)
  | 0x08 => nat t.pcore
  | 0x09 => nat (pcTower t.pcore)
  | 0x0A => nat (pcStratum t.pcore)
  | 0x0B => ((s.lrec? t).map (·.params)).getD 0
  | 0x0C => nat s.now
  | 0x0D => w (s.tower (pcTower t.pcore)).therm.word
  | 0x0E => w (t.simg ++ (0 : BitVec 4) ++ t.base)
  | 0x0F => t.lim.setWidth 64
  | 0x10 => s.slotVa t
  | 0x20 => w th.fpstat
  | 0x21 => th.dphase.setWidth 64
  | 0x22 => nat (b2n th.uchk)
  | 0x23 => nat (b2n th.ftz)
  | 0x30 => th.tpc
  | 0x31 => th.tclause
  | 0x32 => th.taddr
  | 0x33 => th.tcause.setWidth 64
  | 0x34 => w th.tinfo
  | _ => 0

/-- The special register is a pair (R275). -/
def specialWide (n : Nat) : Bool := match specialInfo n with | some i => i.wide | none => false

/-- SRD (R393): the leader's value goes to every member. -/
def execSrd (o : EngOp) (s : State) : Out :=
  .next (match s.gate (.srd o) with
    | (s, none) => s
    | (s, some c) =>
      let v := s.special c.team c.thr c.lead o.b.toNat
      let ws := if specialWide o.b.toNat then words64 v else [v.extractLsb' 0 32]
      s.finish c.k c.all (.srd o) fun t => t.setRegs o.d ws)

/-- Write a special register (R394). -/
def Thread.setSpecial (t : Thread) (n : Nat) (v : DWord) : Thread :=
  let w := v.extractLsb' 0 32
  match n with
  | 0x20 => { t with fpstat := fpstatOf w }
  | 0x21 => { t with dphase := v.extractLsb' 0 6 }
  | 0x22 => { t with uchk := v.getLsbD 0 }
  | 0x23 => { t with ftz := v.getLsbD 0 }
  | 0x30 => { t with tpc := v }
  | 0x31 => { t with tclause := v }
  | 0x32 => { t with taddr := v }
  | 0x33 => { t with tcause := v.extractLsb' 0 8 }
  | 0x34 => { t with tinfo := w }
  | _ => t

/-- SWR (R394). -/
def execSwr (o : EngOp) (s : State) : Out :=
  .next (match s.gate (.swr o) with
    | (s, none) => s
    | (s, some c) =>
      let v := if specialWide o.b.toNat then c.thr.reg64 o.a else (c.thr.reg o.a).setWidth 64
      s.finish c.k c.all (.swr o) fun t => t.setSpecial o.b.toNat v)

/-! ### Traps -/

/-- The code of TRAP, BRK and DBGMARK: the literal, or B (R392, R395). -/
def codeOf (o : EngOp) : Word := o.lit.getD (o.b.setWidth 32)

/-- TRAP and BRK take their cause at the word (R395). -/
def State.software (s : State) (i : Instr) (o : EngOp) (cause : Byte) : State :=
  match s.gate i with
  | (s, none) => s
  | (s, some c) => s.trapAll c.k c.all { cause := cause, addr := c.thr.pc, info := codeOf o }

/-- TRAP (R395). -/
def execTrap (o : EngOp) (s : State) : Out := .next (s.software (.trap o) o cSoftware)
/-- BRK (R395). -/
def execBrk (o : EngOp) (s : State) : Out := .next (s.software (.brk o) o cBreakpoint)

/-- The target of TRET (R206): the header it lies under; none for any other value. -/
def tretTarget (tpc tclause : DWord) (h : Word) : Option DWord :=
  let off := (tpc - tclause).toNat
  let len := hdrLen h
  if off % 4 != 0 || 4 * (len + 1) < off then none
  else if off == 4 * (len + 1) then some tpc
  else some tclause

/-- ILLEGAL_CLAUSE taken by TRET inside the routine: TPC and TCLAUSE are the header of the clause that holds TRET (R204, R206; log entry 19). -/
def State.badReturn (s : State) (k i : Nat) (h : Word) : State :=
  match s.thread? k i with
  | none => s
  | some t => (s.modThread k i fun t => { t with pc := t.clause }).takeTrap k i (clauseTrap t.tclause h)

/-- The return from a trap by thread i (R206). -/
def State.tret (s : State) (k i : Nat) (w : Instr) : State :=
  match s.team? k, s.thread? k i with
  | some t, some th =>
    if !th.inTrap then s.takeTrap k i { cause := cIllegalOpcode, addr := th.pc, info := wordOf w }
    else
      match s.fetch t th.tclause with
      | (.trap tr, s) => s.takeTrap k i tr
      | (.fault r l, s) =>
        match s.teamFault t th.tclause .fetch r l 4 with
        | (some fid, s) => s.modThread k i fun th => { th with st := .held fid th.tclause }
        | (none, s) => s.modThread k i fun th => { th with st := .held heldTable th.tclause }
      | (.wait, s) => s.modThread k i fun th => { th with st := .waiting .resource, word := none }
      | (.word h, s) =>
        if !hdrOk h then s.badReturn k i h
        else
          match tretTarget th.tpc th.tclause h with
          | some cl => s.modThread k i fun th => { th.leaveTrap th.tpc cl s.now with hdr := h }
          | none => s.badReturn k i h
  | _, _ => s

/-- TRET (R396). -/
def execTret (o : EngOp) (s : State) : Out :=
  .next (match s.gate (.tret o) with
    | (s, none) => s
    | (s, some c) => s.tret c.k c.lead (.tret o))

/-! ### NOP, SLEEP, DBGMARK -/

/-- NOP (R397). -/
def execNop (o : EngOp) (s : State) : Out :=
  .next (match s.gate (.nop o) with
    | (s, none) => s
    | (s, some c) => s.goOn c (.nop o))

/-- SLEEP (R397). -/
def execSleep (o : EngOp) (s : State) : Out :=
  .next (match s.gate (.sleep o) with
    | (s, none) => s
    | (s, some c) =>
      let n := (o.lit.getD (c.thr.reg o.a)).toNat
      if n == 0 then s.goReady c (.sleep o)
      else s.modThreads c.k c.all fun t => { t.step (.sleep o) with st := .blocked (.sleep (s.now + n)) })

/-- SLEEP_EXPIRE (R397). -/
def execSleepExpire (k tid : Nat) (s : State) : Out :=
  .next (match s.thread? k tid with
    | none => s
    | some t =>
      match t.st with
      | .blocked (.sleep till) => if till ≤ s.now then s.modThread k tid (·.wake s.now) else s
      | _ => s)

/-- DBGMARK (R400): its VA and code reach the debug trace. -/
def execDbgmark (o : EngOp) (s : State) : Out :=
  .next (match s.gate (.dbgmark o) with
    | (s, none) => s
    | (s, some c) => ({ s with trace := s.trace ++ [(c.thr.pc, codeOf o)] }).goOn c (.dbgmark o))

/-! ### CHSEL and PROBE -/

/-- The result of CHSEL for a place (R398). -/
def State.chselWord (s : State) (p : Place) : Word :=
  let t := paRegion p.pa
  let ta := paLocal p.pa
  if p.node.isNone && s.inDram p.pa then
    BitVec.ofNat 32 (2 ^ 31 + t * 2 ^ 24 + ta / setBytes * 2 ^ 16 + (s.tower t).sel ta)
  else 0

/-- The result of PROBE for a leaf (R399). -/
def State.probeWord (s : State) (e : DWord) : Word :=
  let n := e.toNat
  let rmt := bitOf n 11
  let node := if rmt then bitsOf n 63 52 else s.fab.node.toNat
  BitVec.ofNat 32 (node * 2 ^ 18 + bitsOf n 51 48 * 2 ^ 14 + bitsOf n 10 8 * 2 ^ 11 + bitsOf n 7 6 * 2 ^ 9 + bitsOf n 5 4 * 2 ^ 7 +
    b2n rmt * 2 ^ 6 + bitsOf n 3 0)

/-- CHSEL and PROBE (R398, R399): they complete at issue, once memory lets the walk go on. -/
def State.tellPage (s : State) (i : Instr) (o : EngOp) (f : State → DWord → Place → Word) : State :=
  match s.gate i with
  | (s, none) => s
  | (s, some c) =>
    if !s.room c (flagOf c.hdr o.g) then s.stall
    else
      let va := c.thr.reg64 o.a + litOff o.lit
      match s.probe (some c.team.pcore) (pcTower c.team.pcore) (s.root c.team) va with
      | (.held, s) => s.stall
      | (.leaf e p, s) => s.finish c.k c.all i fun t => t.setReg o.d (f s e p)
      | (.none, s) => s.finish c.k c.all i fun t => t.setReg o.d 0

/-- CHSEL (R398). -/
def execChsel (o : EngOp) (s : State) : Out := .next (s.tellPage (.chsel o) o fun s _ p => s.chselWord p)
/-- PROBE (R399). -/
def execProbe (o : EngOp) (s : State) : Out := .next (s.tellPage (.probe o) o fun s e _ => s.probeWord e)

end Sys2Proof.Machine
end

