-- ==== Sys2Proof/Machine/Place.lean ====
section
/-!
DEFINITION. Dependence and placement (R111, R118, R120 to R124): eligible units, placement sums, room on cores, quads and towers, and the choice of a place.
-/
namespace Sys2Proof.Machine

/-! ### Units (R120) -/

/-- Units of a launch. -/
def LaunchRec.units (r : LaunchRec) : Nat := r.teams / r.cluster
/-- Team numbers of a unit. -/
def LaunchRec.unitTeams (r : LaunchRec) (u : Nat) : List Nat := (List.range r.cluster).map (u * r.cluster + ·)

/-- The teams of a unit that have been dispatched, those that have completed among them. -/
def State.unitTeams (s : State) (l : Launch) (u : Nat) : List Team := s.teams.filter fun t => t.launch == l.key && t.teamid / l.lrec.cluster == u

/-- Teams in progress of a unit, in rank order. -/
def State.unitMembers (s : State) (l : Launch) (u : Nat) : List Team :=
  sortBy (fun a b => a.rank < b.rank) ((s.unitTeams l u).filter fun t => t.status != .complete)

/-- A unit waits to be placed: never begun, or every member is saved or discarded. -/
def State.unitWaits (s : State) (l : Launch) (u : Nat) : Bool :=
  if l.begun.contains u then
    let ms := s.unitMembers l u
    !ms.isEmpty && ms.all fun t => t.status == .saved || t.status == .discarded
  else u < l.lrec.units

/-- A unit is restored, not started (R120). -/
def State.unitSaved (s : State) (l : Launch) (u : Nat) : Bool := l.begun.contains u && (s.unitMembers l u).any fun t => t.status == .saved

/-! ### Dependence (R118) -/

/-- The predecessor words that team i needs, cut to its teams (R118). -/
def Launch.needs (l : Launch) (i tp : Nat) : List Nat :=
  match l.lrec.map with
  | 0 => if i < tp then [i] else []
  | 3 => (List.range (2 * l.lrec.win + 1)).filterMap fun d => let j := i + d; if l.lrec.win ≤ j && j - l.lrec.win < tp then some (j - l.lrec.win) else none
  | _ => []

/-- Team i is eligible (R118). -/
def Launch.eligible (l : Launch) (i : Nat) : Bool :=
  l.lrec.pred == 0 || l.lrec.map == 2 ||
    match l.predTeams with
    | none => false
    | some tp => if l.lrec.map == 1 then l.predAll else (l.needs i tp).all l.predSeen.contains

/-- Read n bytes of the predecessor's record as an acquire at package scope: none when the read fails, its check does, or it cannot be made yet (R65, R118, R176). -/
def State.readPred (s : State) (l : Launch) (va : DWord) (n : Nat) : Option (List Byte) × State :=
  if s.hubBusy l.key true l.root 2 va n then (none, s.hubWant l.key true l.root 2 va n)
  else match s.translate none hubTlb l.root va .load .dflt with
  | (.ok p, s') =>
    if p.node.isNone && !tagPasses (s.tagOf p.pa) .pkg (.hub s.fab.node) then (none, s') else s.hubRead l.key true l.root 2 va n
  | (_, s) => (none, s)

/-- Read the words of teams that are not yet known to be final. -/
def State.readWords (s : State) (l : Launch) : List Nat → List Nat → List Nat × State
  | [], seen => (seen, s)
  | j :: js, seen =>
    match s.readPred l (l.lrec.pred + BitVec.ofNat 64 (64 + 4 * j)) 4 with
    | (some bs, s) =>
      if leNat bs / 256 == l.lrec.predgen.toNat % 2 ^ 24 then s.readWords l js (seen ++ [j]) else s.readWords l js seen
    | (none, s) => s.readWords l js seen

/-- PRED_RECORD_POLL (R118). -/
def execPredRecordPoll (k : Nat) (s : State) : Out :=
  .next (match s.launch? k with
    | none => s
    | some l =>
      if l.lrec.pred == 0 || l.lrec.map == 2 then s
      else
        match s.readPred l l.lrec.pred 64 with
        | (none, s) => s
        | (some h, s) =>
          if fieldAt h 0 4 != l.lrec.predgen.toNat then s
          else
            let tp := fieldAt h 24 8
            let l' := { l with predTeams := some tp, predAll := l.predAll || fieldAt h 4 4 == 2 }
            let want := if l.lrec.map == 1 then [] else (List.range tp).filter fun j => !l.predSeen.contains j
            let (seen, s) := s.readWords l' want l.predSeen
            s.modLaunch k fun x => { x with predTeams := l'.predTeams, predAll := l'.predAll, predSeen := seen })

/-! ### Entering placement (R120, R121) -/

/-- A tower belongs to a partition (R111). -/
def State.inPart (s : State) (p t : Nat) : Bool := (s.tower t).part == some p

/-- Add the weight of one placement entry to the sums (R121); none: memory keeps the walk of its page back. -/
def State.addEntry (s : State) (l : Launch) (w : Nat) (sums : Vector Nat 12) : Option (Vector Nat 12) × State :=
  if bitsOf w 11 4 != 0 || w % 16 == 0 then (some sums, s)
  else
    match s.probe none hubTlb l.root (BitVec.ofNat 64 (w / 4096 * 4096)) with
    | (.leaf _ p, s) =>
      let h := paRegion p.pa
      (some (if p.node.isNone && s.inPart l.part h then (if hh : h < 12 then sums.set h (sums[h] + w % 16) else sums) else sums), s)
    | (.none, s) => (some sums, s)
    | (.held, s) => (none, s)

/-- The sums of placement entries from number i on (R121); none: memory keeps a walk back. -/
def State.sumEntries (s : State) (l : Launch) : List Nat → Vector Nat 12 → Option (Vector Nat 12) × State
  | [], sums => (some sums, s)
  | i :: is, sums =>
    match s.hubRead l.key false l.root 2 (l.lrec.placetab + BitVec.ofNat 64 (8 * i)) 8 with
    | (some bs, s) => match s.addEntry l (leNat bs) sums with | (some sums, s) => s.sumEntries l is sums | (none, s) => (none, s)
    | (none, s) => s.sumEntries l is sums

/-- The hub asks for placement entries that lie on a peer's page, or that a bank under refresh keeps back (R45, R65). -/
def State.wantEntries (s : State) (l : Launch) : List Nat → State
  | [] => s
  | i :: is => (s.hubWant l.key false l.root 2 (l.lrec.placetab + BitVec.ofNat 64 (8 * i)) 8).wantEntries l is

/-- A unit may enter placement: it waits and it is eligible (R120). -/
def State.mayEnter (s : State) (l : Launch) (u : Nat) : Bool :=
  s.unitWaits l u && !l.placing.any (fun p => p.num == u) && (l.begun.contains u || (l.lrec.unitTeams u).all l.eligible)

/-- The unit of a launch that enters placement next (R120): of those to be restored from a save, else of the others, the one of the lowest number. -/
def State.nextEntry (s : State) (l : Launch) : Option Nat :=
  match sortBy (· < ·) (l.begun.filter fun u => s.unitSaved l u && s.mayEnter l u) with
  | u :: _ => some u
  | [] => (List.range l.lrec.units).find? (s.mayEnter l ·)

/-- UNIT_ENTER_PLACEMENT (R120). -/
def execUnitEnterPlacement (k u : Nat) (s : State) : Out :=
  .next (match s.launch? k with
    | none => s
    | some l =>
      if 64 ≤ l.placing.length || s.nextEntry l != some u then s
      else
        let es := (l.lrec.unitTeams u).flatMap fun t => (List.range l.lrec.placen).map fun e => l.lrec.placen * t + e
        if es.any fun i => s.hubBusy l.key false l.root 2 (l.lrec.placetab + BitVec.ofNat 64 (8 * i)) 8 then s.wantEntries l es
        else
          match s.sumEntries l es (Vector.replicate 12 0) with
          | (none, t) => { s with towers := t.towers }
          | (some sums, s) =>
            s.modLaunch k fun x => { x with placing := x.placing ++ [{ num := u, since := s.now, sums := sums, fallback := false }] })

/-- The unit has no preference (R121). -/
def PUnit.noPref (p : PUnit) : Bool := p.sums.toList.all (· == 0)

/-- PLACEWAIT_EXPIRE (R121). -/
def execPlacewaitExpire (k u : Nat) (s : State) : Out :=
  .next (match s.launch? k with
    | none => s
    | some l =>
      s.modLaunch k fun x => { x with placing := x.placing.map fun p =>
        if p.num == u && !p.noPref && p.since + l.lrec.placewait < s.now then { p with fallback := true } else p })

/-! ### Room (R122) -/

/-- Threads of a team homed in quadrant q (R122). -/
def homed (teamsize q : Nat) : Nat := (List.range teamsize).countP fun i => i / 32 % 4 == q

/-- The placed teams of a core. -/
def State.coreTeams (s : State) (p : Nat) : List Team := s.teams.filter fun t => t.pcore == p && t.placed

/-- Free thread slots of a core (R121). -/
def State.freeSlots (s : State) (p : Nat) : Nat := 2048 - sumNat ((s.coreTeams p).map fun t => s.lfield t (·.teamsize))

/-- A role change drains the stratum (R122). -/
def Tower.draining (t : Tower) (st : Nat) : Bool := t.rolePhase != .idle && t.compute.getLsbD st && !t.reqCompute.getLsbD st

/-- A core has room for a team, its quad's rows aside (R122). -/
def State.coreRoom (s : State) (r : LaunchRec) (p : Nat) : Bool :=
  let tw := s.tower (pcTower p)
  tw.computes (pcStratum p) && !tw.draining (pcStratum p) &&
    (List.range 4).all (fun q =>
      let n := homed r.teamsize q
      sumNat ((s.coreTeams p).map fun t => homed (s.lfield t (·.teamsize)) q) + n ≤ 512 &&
        sumNat ((s.coreTeams p).map fun t => homed (s.lfield t (·.teamsize)) q * s.lfield t (·.regs)) + n * r.regs ≤ 32768) &&
    sumNat ((s.coreTeams p).map fun t => s.lfield t (·.spad)) + r.spad ≤ 262144

/-- Rows taken in a quad, as a first row and a number: by placed teams, and by members placed with this one. -/
def State.rowsTaken (s : State) (quad : Nat) : List (Nat × Nat) :=
  (s.teams.filter fun t => quadIx t.pcore == quad && t.placed).map fun t => (t.base.toNat, s.lfield t (·.accrows))

/-- The lowest run of n free rows of a quad, or the fixed one of a restored team when it is free (R122, R128). -/
def rowRun (n : Nat) (fixed : Option Nat) (taken : List (Nat × Nat)) : Option Nat :=
  if n == 0 then some (fixed.getD 0)
  else
    let free (b : Nat) : Bool := b + n ≤ 8192 && taken.all fun t => !overlap b n t.1 t.2
    match fixed with
    | some b => if free b then some b else none
    | none => (List.range 64).map (128 * ·) |>.find? free

/-- A member to place: its cluster rank, and what it needs beside room; a restored one needs its rows and free places in the side log (R128, R202). -/
structure Member where
  rank : Nat
  fixed : Option Nat
  log : Nat
  deriving DecidableEq, Repr

/-- A core takes a member: its first row (R122). -/
def State.memberRows (s : State) (r : LaunchRec) (m : Member) (taken : List (Nat × Nat × Nat)) (p : Nat) : Option Nat :=
  if s.coreRoom r p && s.coreLog p + m.log ≤ 256 then
    rowRun r.accrows m.fixed (s.rowsTaken (quadIx p) ++ (taken.filter fun t => t.1 == quadIx p).map (·.2))
  else none

/-- The PCORE at a row and column of a stratum's mesh (R11, R12). -/
def meshCore (tower st row col : Nat) : Nat := 96 * tower + 24 * st + 4 * (row / 2 * 3 + col / 2) + row % 2 * 2 + col % 2

/-- Place members on cores in rank order: the core and the first row of each (R124). -/
def State.fitAll (s : State) (r : LaunchRec) : List (Nat × Member) → List (Nat × Nat × Nat) → Option (List (Nat × Nat))
  | [], _ => some []
  | (p, m) :: rest, taken =>
    match s.memberRows r m taken p with
    | none => none
    | some b => (s.fitAll r rest ((quadIx p, b, r.accrows) :: taken)).map fun l => (p, b) :: l

/-- The cores of a rectangle, in rank order (R124). -/
def rectCores (r : LaunchRec) (tower st row col : Nat) : List Nat :=
  (List.range r.cluster).map fun k => meshCore tower st (row + k / r.clcols) (col + k % r.clcols)

/-- The rectangles of a tower in the order in which they are tried (R124). -/
def rects (r : LaunchRec) (tower : Nat) : List (List Nat) :=
  (List.range 4).flatMap fun st => (List.range (5 - r.clrows)).flatMap fun row => (List.range (7 - r.clcols)).map fun col => rectCores r tower st row col

/-- The place of a unit on a tower: the core and first row of each member (R122, R124). -/
def State.fitTower (s : State) (r : LaunchRec) (ms : List Member) (tower : Nat) : Option (List (Nat × Nat)) :=
  if r.cluster == 1 then
    let cores := sortBy (fun a b => s.freeSlots b < s.freeSlots a || (s.freeSlots a == s.freeSlots b && a < b)) ((List.range 96).map (96 * tower + ·))
    cores.findSome? fun p => s.fitAll r (ms.map fun m => (p, m)) []
  else (rects r tower).findSome? fun cs => s.fitAll r (ms.map fun m => (cs.getD m.rank 0, m)) []

/-- Free thread slots of a tower's compute cores (R121). -/
def State.towerSlots (s : State) (t : Nat) : Nat :=
  sumNat ((List.range 96).map fun c => if (s.tower t).computes (c / 24) then s.freeSlots (96 * t + c) else 0)

/-- The towers on which a unit may be placed now, in order (R121): all that tie for best until the fallback, else the whole order. The order of a unit without a
preference is formed anew from the free thread slots at each attempt (DESIGN CHOICE, log entry 52). -/
def State.towerOrder (s : State) (l : Launch) (p : PUnit) : List Nat :=
  let ts := (List.range 12).filter (s.inPart l.part)
  let sum (t : Nat) : Nat := if h : t < 12 then p.sums[t] else 0
  if p.noPref then sortBy (fun a b => s.towerSlots b < s.towerSlots a || (s.towerSlots a == s.towerSlots b && a < b)) ts
  else if p.fallback then sortBy (fun a b => sum b < sum a || (sum a == sum b && a < b)) ts
  else
    let best := ts.foldl (fun m t => Nat.max m (sum t)) 0
    ts.filter fun t => sum t == best

/-- The members of a unit that are to be placed: all of a fresh one, else those in progress. -/
def State.unitNeeds (s : State) (l : Launch) (u : Nat) : List Member :=
  if l.begun.contains u then
    (s.unitMembers l u).map fun t =>
      { rank := t.rank, fixed := if t.status == .saved then some t.base.toNat else none, log := s.sideLog.countP fun e => e.team == t.key }
  else (List.range l.lrec.cluster).map fun k => { rank := k, fixed := none, log := 0 }

/-- Save slots of a launch that no team in progress owns (R120). -/
def State.freeSave (s : State) (l : Launch) : List Nat :=
  let used := (s.teams.filter fun t => t.launch == l.key && t.status != .complete).map (·.slot)
  -- at most T slots are ever owned at once, so the lowest free ones lie among the first T
  (List.range (Nat.min l.lrec.saveslots (used.length + l.lrec.cluster))).filter fun i => !used.contains i

/-- Room for a unit on a tower of its order, if there is some (R121, R122). -/
def State.unitRoom (s : State) (l : Launch) (p : PUnit) : Option (List (Nat × Nat)) :=
  (s.towerOrder l p).findSome? fun t => s.fitTower l.lrec (s.unitNeeds l p.num) t

/-- The place that a unit takes now, if there is one: it has room, and a fresh unit finds save slots (R120 to R122). -/
def State.place (s : State) (l : Launch) (p : PUnit) : Option (List (Nat × Nat)) :=
  if !l.begun.contains p.num && (s.freeSave l).length < l.lrec.cluster then none else s.unitRoom l p

/-- Unit p of launch l comes before unit q of launch m in the order of dispatch (R120). -/
def State.before (s : State) (l : Launch) (p : Nat) (m : Launch) (q : Nat) : Bool :=
  let a := s.unitSaved l p
  let b := s.unitSaved m q
  m.ep < l.ep || (l.ep == m.ep && ((a && !b) || (a == b && (l.key < m.key || (l.key == m.key && p < q)))))

/-- No unit that comes before this one in the order of dispatch has a place now (R120). -/
def State.isNext (s : State) (l : Launch) (u : Nat) : Bool :=
  s.launches.all fun m => m.placing.all fun q => !s.before m q.num l u || (s.place m q).isNone

end Sys2Proof.Machine
end

