-- ==== Sys2Proof/Machine/Image.lean ====
section
/-!
DEFINITION. The image of a team in its save slot (R129, R244): what a save writes and what a restore reads back.
-/
namespace Sys2Proof.Machine

/-- Bytes followed by zeros up to n. -/
def padTo (n : Nat) (bs : List Byte) : List Byte := bs ++ List.replicate (n - bs.length) 0

/-- Slices of k bytes each: the i-th from a list. -/
def sliceAt (bs : List Byte) (k i : Nat) : List Byte := (bs.drop (i * k)).take k

/-! ### Threads -/

/-- State and reason of a thread block (R129, R134); a RUNNING thread is never saved. -/
def TState.code : TState → Nat × Nat
  | .ready | .running => (0, 0)
  | .waiting .flags => (1, 0)
  | .waiting .release => (1, 7)
  | .waiting .check => (1, 8)
  | .waiting .resource => (1, 9)
  | .blocked (.future _) | .blocked (.launch _ _) => (2, 1)
  | .blocked (.barrier _ _) => (2, 2)
  | .blocked .rendezvous | .blocked .resort => (2, 3)
  | .blocked (.waita _ _ _ _ _) => (2, 4)
  | .blocked (.phase _ _) => (2, 5)
  | .blocked (.sleep _) => (2, 6)
  | .held _ _ => (3, 0)
  | .exited | .halted | .stopped => (4, 0)

/-- The blocking object and the awaited value (R129); of a SLEEP the cycles that remain at a cycle (R397). -/
def TState.object (now : Nat) : TState → Nat × Nat
  | .blocked (.future t) | .blocked (.launch _ t) => (t.toNat, 0)
  | .blocked (.barrier n p) => (n, b2n p)
  | .blocked (.waita off v _ _ _) => (off, v.toNat)
  | .blocked (.phase b p) => (b, p)
  | .blocked (.sleep n) => (0, n - now)
  | _ => (0, 0)

/-- VA of the load that holds the thread (R129). -/
def TState.holder : TState → Nat
  | .held _ va => va.toNat
  | _ => 0

/-- The twelve counters in 72 bits, f0 lowest (R129). -/
def packFlags (f : Vector (BitVec 6) 12) : Nat := f.toList.foldr (fun x n => x.toNat + 64 * n) 0
/-- The counters from 72 bits. -/
def unpackFlags (n : Nat) : Vector (BitVec 6) 12 := Vector.ofFn fun i => BitVec.ofNat 6 (n / 64 ^ i.val)

/-- A thread block (R129). -/
def Thread.block (th : Thread) (regs now : Nat) : List Byte :=
  leBytes 8 th.pc.toNat ++ leBytes 8 th.clause.toNat ++ leBytes 1 th.st.code.1 ++ leBytes 1 th.st.code.2 ++
  leBytes 1 (th.quad.toNat * 32 + th.lane.toNat) ++ leBytes 1 (b2n th.uchk + 2 * b2n th.ftz + 4 * b2n th.inTrap) ++
  leBytes 4 th.fpstat.toNat ++ leBytes 9 (packFlags th.flags) ++ leBytes 3 0 ++ leBytes 4 th.tinfo.toNat ++
  leBytes 8 th.tpc.toNat ++ leBytes 8 th.tclause.toNat ++ leBytes 8 th.taddr.toNat ++ leBytes 1 th.tcause.toNat ++ leBytes 7 0 ++
  leBytes 16 th.pend.toNat ++ leBytes 8 (th.st.object now).1 ++ leBytes 8 (th.st.object now).2 ++ leBytes 8 th.st.holder ++
  leBytes 4 th.dphase.toNat ++ leBytes 1 (match th.fscope with | some x => 4 + scopeCode x | none => 0) ++ leBytes 139 0 ++
  bytesOfWords (th.regs.toList.take regs)

/-- The state of a thread as its block gives it (R397): the cycles that remain of a SLEEP count from the cycle of the save. -/
def TState.ofBlock (st : TState) (savedAt left : Nat) : TState :=
  match st with
  | .blocked (.sleep _) => .blocked (.sleep (savedAt + left))
  | st => st

/-- A thread from the block of a save made at a cycle. -/
def Thread.ofBlock (th : Thread) (regs savedAt : Nat) (bs : List Byte) : Thread :=
  let f := fieldAt bs
  if (f 16 1, f 17 1) != th.st.code then th
  else
    let ws := leWords regs (bs.drop 256)
    { th with
      st := th.st.ofBlock savedAt (f 96 8)
      pc := BitVec.ofNat 64 (f 0 8)
      clause := BitVec.ofNat 64 (f 8 8)
      quad := BitVec.ofNat 2 (f 18 1 / 32)
      lane := BitVec.ofNat 5 (f 18 1)
      uchk := bitOf (f 19 1) 0
      ftz := bitOf (f 19 1) 1
      inTrap := bitOf (f 19 1) 2
      fpstat := fpstatOf (BitVec.ofNat 32 (f 20 4))
      flags := unpackFlags (f 24 9)
      tinfo := BitVec.ofNat 32 (f 36 4)
      tpc := BitVec.ofNat 64 (f 40 8)
      tclause := BitVec.ofNat 64 (f 48 8)
      taddr := BitVec.ofNat 64 (f 56 8)
      tcause := BitVec.ofNat 8 (f 64 1)
      pend := BitVec.ofNat 128 (f 72 16)
      dphase := BitVec.ofNat 6 (f 112 4)
      fscope := if bitOf (f 116 1) 2 then some (scopeAt (f 116 1)) else none
      regs := Vector.ofFn fun i => ws.getD i.val 0 }

/-! ### Sections (R129) -/

/-- Bytes of a thread block. -/
def LaunchRec.threadBytes (r : LaunchRec) : Nat := 256 + 4 * r.regs
/-- Where sections D to H begin in a slot. -/
def LaunchRec.secD (_ : LaunchRec) : Nat := 1024 + 8192 + 8192
def LaunchRec.secE (r : LaunchRec) : Nat := r.secD + r.teamsize * r.threadBytes
def LaunchRec.secF (r : LaunchRec) : Nat := r.secE + r.spad
def LaunchRec.secG (r : LaunchRec) : Nat := r.secF + r.accrows * 512
def LaunchRec.secH (r : LaunchRec) : Nat := r.secG + 2048

/-- A named barrier in 8 bytes (R129). -/
def NamedBar.bytes (b : NamedBar) : List Byte := leBytes 8 (b.exp.toNat + b.arr.toNat * 2 ^ 16 + b2n b.phase * 2 ^ 32)
def barOf (n : Nat) : NamedBar where
  exp := BitVec.ofNat 16 n
  arr := BitVec.ofNat 16 (n / 2 ^ 16)
  phase := bitOf n 32

/-- A map in 32 bytes (R129). -/
def SpadMap.bytes (m : SpadMap) : List Byte := leBytes 4 m.off ++ leBytes 4 m.len ++ leBytes 8 m.va.toNat ++ leBytes 16 1
/-- A map as a restore finds it: every line filled and clean (R159). -/
def mapOf (bs : List Byte) : Option SpadMap :=
  if bitOf (fieldAt bs 16 1) 0 then
    let off := fieldAt bs 0 4
    let len := fieldAt bs 4 4
    some {
      off := off, len := len, va := BitVec.ofNat 64 (fieldAt bs 8 8)
      filled := (List.range (len / 128)).map fun i => off + 128 * i
      filling := [], dirty := [] }
  else none

/-- The code of a request type in a side-log entry (log entry 33). -/
def typeCode : RType → Nat
  | .dflt => 0 | .own => 1 | .wt => 2 | .si => 3 | .nc => 4
def typeAt (n : Nat) : RType := match n with | 1 => .own | 2 => .wt | 3 => .si | 4 => .nc | _ => .dflt
def orderAt (n : Nat) : Order := match n % 4 with | 0 => .rlx | 1 => .acq | 2 => .rel | _ => .ar

/-- A side-log entry in 32 bytes (R129); the places within bytes 12 and 13 are the model's (log entry 33). -/
def LogEntry.bytes (e : LogEntry) : List Byte :=
  leBytes 8 e.va.toNat ++ leBytes 2 e.tid ++ leBytes 1 (if e.reduction then 2 else 1) ++ leBytes 1 e.size ++
  leBytes 1 ((if e.op == 0xFF then 15 else e.op.toNat % 16) + typeCode e.ty * 16) ++ leBytes 1 (scopeCode e.sc + 4 * orderCode e.ord + 16 * b2n e.gone) ++
  leBytes 2 0 ++ padTo 16 e.data
def LogEntry.ofBytes (e : LogEntry) (bs : List Byte) : LogEntry :=
  let f := fieldAt bs
  { e with
    va := BitVec.ofNat 64 (f 0 8)
    tid := f 8 2
    reduction := f 10 1 == 2
    size := f 11 1
    op := if f 12 1 % 16 == 15 then 0xFF else BitVec.ofNat 8 (f 12 1 % 16)
    ty := typeAt (bitsOf (f 12 1) 6 4)
    sc := scopeAt (f 13 1)
    ord := orderAt (f 13 1 / 4)
    gone := bitOf (f 13 1) 4
    data := (bs.drop 16).take (f 11 1) }

/-- Sectors that a copy has completed: of several destinations, at every one (DESIGN CHOICE, log entry 33). -/
def Copy.sectorsDone (c : Copy) : Nat := (descOf c.desc).whole c.reached

/-- A stalled copy in 128 bytes (R129). -/
def Copy.bytes (c : Copy) : List Byte := padTo 128 (padTo 64 c.desc ++ leBytes 8 c.sectorsDone ++ leBytes 4 c.tok.toNat)

/-- A queued parameter block (R244). -/
def Mma.bytes (m : Mma) : List Byte := overlay (padTo 64 m.block) 24 (leBytes 4 m.started ++ leBytes 4 m.tok.toNat)
def Mma.ofBytes (m : Mma) (bs : List Byte) : Mma :=
  { m with block := overlay (bs.take 64) 24 (leBytes 8 0), started := fieldAt bs 24 4, retired := fieldAt bs 24 4 }

/-- The side-log entries, copies and MMAs of a team, oldest first. -/
def State.logOf (s : State) (k : Nat) : List LogEntry := s.sideLog.filter fun e => e.team == k
def State.copiesOf (s : State) (k : Nat) : List Copy := s.copies.filter fun c => c.team == k
def State.mmasOf (s : State) (k : Nat) : List Mma := s.mmas.filter fun m => m.team == k

/-- A stream count: unconsumed bytes, or what is still owed as a negative number (R244). -/
def Stream.countWord (x : Stream) : Nat := wrapN 32 ((x.bytes.length : Int) - (sumNat (x.owed.map (·.2)) : Nat))

/-- Section A (R129). -/
def State.header (s : State) (t : Team) (now : Nat) : List Byte :=
  leBytes 4 t.teamid ++ leBytes 4 1 ++ leBytes 4 (t.simg.toNat * 2 ^ 18 + t.base.toNat) ++ leBytes 4 t.lim.toNat ++
  leBytes 4 (s.logOf t.key).length ++ leBytes 1 (s.mmasOf t.key).length ++ leBytes 1 t.maps.length ++ leBytes 1 (s.copiesOf t.key).length ++
  leBytes 1 0 ++ leBytes 8 (now - t.placedAt) ++
  ((List.range 8).flatMap fun f => leBytes 4 (s.stream t.key (BitVec.ofNat 3 f)).countWord) ++
  t.bars.toList.flatMap NamedBar.bytes ++ padTo 512 (t.maps.flatMap SpadMap.bytes) ++ leBytes 320 0

/-- The image of a team (R129, R244). -/
def State.image (s : State) (t : Team) (r : LaunchRec) : List Byte :=
  s.header t s.now ++ padTo 8192 ((s.copiesOf t.key).flatMap Copy.bytes) ++ padTo 8192 ((s.logOf t.key).flatMap LogEntry.bytes) ++
  t.threads.flatMap (·.block r.regs s.now) ++ t.spadN 0 r.spad ++
  if r.accrows == 0 then []
  else
    (List.range (r.accrows * 128)).flatMap (fun i => leBytes 4 (s.accAt (quadIx t.pcore) (t.base.toNat + i / 128) (i % 128)).toNat) ++
    padTo 2048 ((s.mmasOf t.key).flatMap Mma.bytes) ++
    (List.range 8).flatMap fun f => padTo 65536 (s.stream t.key (BitVec.ofNat 3 f)).bytes

/-! ### Reading an image back -/

/-- Scratchpad from its section. -/
def spadOf (bs : List Byte) : Table Byte := ((List.range bs.length).zip bs).filter fun e => e.2 != 0

/-- The team's own fields from an image. -/
def Team.ofImage (t : Team) (r : LaunchRec) (bs : List Byte) : Team :=
  { t with
    simg := BitVec.ofNat 14 (fieldAt bs 8 4 / 2 ^ 18)
    lim := BitVec.ofNat 14 (fieldAt bs 12 4)
    ran := fieldAt bs 24 8
    bars := Vector.ofFn fun n => barOf (fieldAt bs (64 + 8 * n.val) 8)
    maps := (List.range 16).filterMap fun n => mapOf (sliceAt (bs.drop 192) 32 n)
    threads := (List.range t.threads.length).zip t.threads |>.map fun x => x.2.ofBlock r.regs t.savedAt (sliceAt (bs.drop r.secD) r.threadBytes x.1)
    spad := spadOf ((bs.drop r.secE).take r.spad) }

/-- Replace the elements that belong to a team by what f gives for the n-th of them. -/
def mapNth {α : Type} (mine : α → Bool) (f : Nat → α → α) : Nat → List α → List α
  | _, [] => []
  | n, x :: xs => if mine x then f n x :: mapNth mine f (n + 1) xs else x :: mapNth mine f n xs

/-- Accumulator elements from section F. -/
def accOf (base : Nat) (ws : List Word) : List (Nat × Word) :=
  (((List.range ws.length).zip ws).filter fun e => e.2 != 0).map fun e => (base * 128 + e.1, e.2)

/-- What an image gives back beside the team's own fields (R202, R244): log entries, copies, queued MMAs, streams and accumulator rows. -/
def State.fromImage (s : State) (t : Team) (r : LaunchRec) (quad : Nat) (bs : List Byte) : State :=
  let s : State := { s with
    sideLog := mapNth (fun e => e.team == t.key) (fun n e => e.ofBytes (sliceAt (bs.drop 9216) 32 n)) 0 s.sideLog
    copies := mapNth (fun c => c.team == t.key) (fun n c => { c with desc := sliceAt (bs.drop 1024) 128 n |>.take 64 }) 0 s.copies }
  if r.accrows == 0 then s
  else
    let s : State := { s with
      mmas := mapNth (fun m => m.team == t.key) (fun n m => m.ofBytes (sliceAt (bs.drop r.secG) 64 n)) 0 s.mmas
      streams := s.streams.map fun x =>
        if x.team == t.key then { x with bytes := (sliceAt (bs.drop r.secH) 65536 x.fifo.toNat).take x.bytes.length } else x }
    s.setRows quad t.base.toNat r.accrows (accOf t.base.toNat (leWords (r.accrows * 128) (bs.drop r.secF)))

/-- Scale window entries are loaded from their image words in the restored scratchpad (R244). -/
def State.loadScales (s : State) (t : Team) (quad : Nat) : State :=
  s.setScales quad (2 * t.base.toNat) ((List.range t.scales).map fun e => t.spadWord (t.simg.toNat * 16 + 4 * e))

end Sys2Proof.Machine
end

