-- ==== Sys2Proof/Machine/Sched.lean ====
section
/-!
DEFINITION. The scheduler (R111, R117, R120 to R128, R202, R203, R244): dispatch, pre-emption, save and discard, restore, and the end of a team and of its launch.
-/
namespace Sys2Proof.Machine

/-! ### Dispatch (R120 to R123, R132, R135, R236) -/

/-- TPART_WRITE (R111): only while the tower is quiesced. -/
def execTpartWrite (t : TowerId) (v : Word) (s : State) : Out :=
  .next (s.modTower t.val fun w => if w.quiesced then { w with tpart := v.extractLsb' 0 4 } else w)

/-- The least number that is not in a list. -/
def lowestFree (used : List Nat) : Nat := ((List.range (used.length + 1)).find? fun n => !used.contains n).getD 0

/-- Slots for threads homed in the given quadrants, in ascending TID: each takes the lowest free slot of its quadrant (R132). -/
def giveSlots : List (BitVec 2 × Nat) → List (BitVec 2) → List Nat
  | _, [] => []
  | used, q :: qs =>
    let n := lowestFree ((used.filter fun u => u.1 == q).map (·.2))
    n :: giveSlots ((q, n) :: used) qs

/-- Slots in use on a core, each with its quadrant. -/
def State.usedSlots (s : State) (p : Nat) : List (BitVec 2 × Nat) := (s.coreTeams p).flatMap fun t => t.threads.map fun th => (th.quad, th.slot)

/-- Quadrant and lane of thread i at dispatch (R132). -/
def homeQuad (i : Nat) : BitVec 2 := BitVec.ofNat 2 (i / 32)
def homeLane (i : Nat) : BitVec 5 := BitVec.ofNat 5 i

/-- The threads of a fresh team on a core (R135). -/
def State.freshThreads (s : State) (r : LaunchRec) (p : Nat) : List Thread :=
  let slots := giveSlots (s.usedSlots p) ((List.range r.teamsize).map homeQuad)
  (List.range r.teamsize).map fun i => Thread.fresh r r.entry (slots.getD i 0) (homeQuad i) (homeLane i) s.now

/-- A fresh team at a place (R123, R236). -/
def State.freshTeam (s : State) (l : Launch) (key teamid rank slot p row : Nat) : Team where
  key := key
  launch := l.key
  teamid := teamid
  rank := rank
  pcore := p
  slot := slot
  status := .resident
  placedAt := s.now
  ran := 0
  threads := s.freshThreads l.lrec p
  spad := []
  bars := Vector.replicate 16 { exp := 0, arr := 0, phase := false }
  base := BitVec.ofNat 14 row
  simg := 0
  lim := BitVec.ofNat 14 row
  maps := []
  futures := []
  lastSeq := 0
  rdvs := []
  resorts := []
  fresh := []
  conts := []
  spawns := []
  idemx := false
  cause := none

/-- Accumulator rows and scale entries of an allocation become zero (R123). -/
def State.zeroRows (s : State) (quad row n : Nat) : State :=
  let s := s.setRows quad row n []
  { s with
    scale := s.scale.put quad ((s.scale.getD quad []).splice (2 * row) (2 * (row + n)) [])
    soft := softLeft s.soft quad true (2 * row) (2 * n) }

/-- Put a team of a key in place. -/
def State.putTeam (s : State) (t : Team) : State :=
  { s with teams := if s.teams.any (fun u => u.key == t.key) then s.teams.map fun u => if u.key == t.key then t else u else s.teams ++ [t] }

/-- A team that starts: its key, number, rank, save slot, core and first row. -/
structure Start where
  key : Nat
  teamid : Nat
  rank : Nat
  slot : Nat
  pcore : Nat
  row : Nat
  deriving DecidableEq, Repr

/-- Dispatch fresh teams; their start is an acquire at package scope (R118). -/
def State.startTeams (s : State) (l : Launch) : List Start → State
  | [] => s
  | x :: xs =>
    let s := (s.putTeam (s.freshTeam l x.key x.teamid x.rank x.slot x.pcore x.row)).zeroRows (quadIx x.pcore) x.row l.lrec.accrows
    (s.l1Drop x.pcore).startTeams l xs

/-- What starts when a fresh or discarded unit takes a place: teams never begun take the lowest free save slots in rank order, and a discarded team keeps its own (R120, R127). -/
def State.starts (s : State) (l : Launch) (u : Nat) (place : List (Nat × Nat)) : List Start :=
  if l.begun.contains u then
    (s.unitMembers l u).zip place |>.map fun x =>
      { key := x.1.key, teamid := x.1.teamid, rank := x.1.rank, slot := x.1.slot, pcore := x.2.1, row := x.2.2 }
  else
    let slots := s.freeSave l
    (List.range l.lrec.cluster).zip place |>.map fun x =>
      { key := s.nextKey + x.1, teamid := u * l.lrec.cluster + x.1, rank := x.1, slot := slots.getD x.1 0, pcore := x.2.1, row := x.2.2 }

/-- A unit leaves placement. -/
def Launch.placed (l : Launch) (u : Nat) : Launch :=
  { l with placing := l.placing.filter fun p => p.num != u, begun := if l.begun.contains u then l.begun else l.begun ++ [u] }

/-- The unit in placement that may be dispatched next, and its place (R120, R121). -/
def State.ready? (s : State) (l : Launch) (u : Nat) : Option (List (Nat × Nat)) :=
  match l.placing.find? fun p => p.num == u with
  | none => none
  | some p => if s.isNext l u then s.place l p else none

/-- TEAM_PLACE (R122): a unit that is not a saved one. -/
def execTeamPlace (k u : Nat) (s : State) : Out :=
  .next (match s.launch? k with
    | none => s
    | some l =>
      if s.unitSaved l u then s
      else
        match s.ready? l u with
        | none => s
        | some place =>
          let xs := s.starts l u place
          ({ s.startTeams l xs with nextKey := s.nextKey + (if l.begun.contains u then 0 else l.lrec.cluster) }).modLaunch k (·.placed u))

/-! ### Restore (R128, R202, R203, R244) -/

/-- The fault that a saved waiter meets at restore (R203): the one it waited on, else the one of its page. -/
def State.mailbox (s : State) (asid : BitVec 12) (fid : Nat) (va : DWord) : Option FaultEntry :=
  match s.faults.find? fun f => f.fid == fid && f.asid == asid && f.va.toNat / 4096 == va.toNat / 4096 with
  | some f => some f
  | none => s.faults.find? fun f => f.asid == asid && f.va.toNat / 4096 == va.toNat / 4096

/-- The FID that a waiter waits on after a restore: none when it translates afresh. -/
def State.joins (s : State) (asid : BitVec 12) (fid : Nat) (va : DWord) : Option Nat :=
  match s.mailbox asid fid va with
  | some f => if f.answer.isNone then some f.fid else none
  | none => none

/-- The cause of a failure that waits for a waiter in its mailbox. -/
def State.failed? (s : State) (asid : BitVec 12) (fid : Nat) (va : DWord) : Option Byte :=
  match s.mailbox asid fid va with
  | some f => match f.answer with | some (.fail c) => some c | _ => none
  | none => none

/-- The page that a stalled copy waits on: the VA of its fault. -/
def State.faultVa (s : State) (fid : Nat) : DWord := ((s.fault? fid).map (·.va)).getD 0

/-- A failure in the mailbox reaches the thread that its fault holds (R197). -/
def State.failThread (s : State) (k i : Nat) (asid : BitVec 12) : State :=
  match s.thread? k i with
  | none => s
  | some th =>
    match th.st with
    | .held fid va =>
      match (if heldTable ≤ fid then none else s.failed? asid fid va) with
      | some c => s.takeTrap k i { cause := c, addr := va, info := failInfo c false }
      | none => s
    | _ => s

/-- Failures in the mailbox reach the entries, copies and held threads of a restored team (R197, R201, R203). -/
def State.deliverFails (s : State) (k : Nat) (asid : BitVec 12) : State :=
  let es := s.sideLog.filter fun e => e.team == k && (match e.fid with | some f => (s.failed? asid f e.va).isSome | none => false)
  let s := es.foldl (fun (s : State) e => let c := (s.failed? asid (e.fid.getD 0) e.va).getD cAccess; s.failEntry e c (failInfo c true)) s
  let cs := s.copies.filter fun c => c.team == k && (match c.fid with | some f => (s.failed? asid f (s.faultVa f)).isSome | none => false)
  let s := cs.foldl (fun (s : State) c => s.stopCopy c (.failed ((s.failed? asid (c.fid.getD 0) (s.faultVa (c.fid.getD 0))).getD cAccess))) s
  match s.team? k with
  | none => s
  | some t =>
    (List.range t.threads.length).foldl (fun (s : State) i => s.failThread k i asid) s

/-- The waiters of a restored team join the faults that are still outstanding, or translate afresh (R203). -/
def State.rejoin (s : State) (k : Nat) (asid : BitVec 12) : State :=
  let s : State := { s with
    sideLog := s.sideLog.map fun e => if e.team == k then { e with fid := e.fid.bind fun f => s.joins asid f e.va } else e
    copies := s.copies.map fun c => if c.team == k then { c with fid := c.fid.bind fun f => s.joins asid f (s.faultVa f) } else c }
  (s.modTeam k fun t => { t with threads := t.threads.map fun th =>
      match th.st with
      | .held fid va => if heldTable ≤ fid then th else match s.joins asid fid va with
        | some f => { th with st := .held f va }
        | none => th
      | _ => th }).wakeHeld k

/-- The state in which a saved thread goes on (R134, R359, R366, R222, R397): what it waited for is tested again, and a SLEEP may have run out meanwhile. -/
def Thread.resume (th : Thread) (t : Team) (now : Nat) : Thread :=
  match th.st with
  | .ready | .running => th.wake now
  | .waiting .flags => if th.waitOk th.hdr then th.wake now else th
  | .waiting _ => { th.wake now with word := none, mates := [] }
  | .blocked .rendezvous | .blocked .resort => { th.wake now with word := none, mates := [] }
  | .blocked (.barrier n p) => if (if h : n < 16 then (t.bars[n]).phase else !p) == p then th else th.wake now
  | .blocked (.phase bar p) => if (t.tbar bar).phase == p then th else th.wake now
  | .blocked (.waita off v d next _) => if t.spadWord off == v then th else ((th.setReg d (t.spadWord off)).wake now).moveTo next
  | .blocked (.sleep till) => if till ≤ now then th.wake now else th
  | _ => th

/-- Statuses of futures that resolved reach the registers still pending on them (R149). -/
def Thread.deliverAll (th : Thread) (now : Nat) : List Future → Thread
  | [] => th
  | f :: fs => (if f.resolved then th.deliver (f.kind ++ BitVec.ofNat 30 f.seq) f.status now else th).deliverAll now fs

/-- Slots of a restored team's threads on its new core (R132). -/
def Team.withSlots (t : Team) (slots : List Nat) : Team :=
  { t with threads := (t.threads.zip slots).map fun x => { x.1 with slot := x.2 } }

/-- Copies of a restored team take descriptor slots of its new quad (R127, R219; log entry 30). -/
def State.takeSlots (s : State) (p : Nat) : List Nat → State
  | [] => s
  | c :: cs =>
    let n := s.freeSlot (quadIx p)
    let s : State := { s with copies := s.copies.map fun x => if x.id == c then { x with slot := n } else x }
    s.takeSlots p cs

/-- The copies of a restored team go on at its core; the lines they own are named anew (R176). -/
def State.seatCopies (s : State) (k p : Nat) : State :=
  let cs := (s.copiesOf k).map (·.id)
  -- no slot yet
  let s : State := { s with copies := s.copies.map fun c =>
    if c.team == k then { c with pcore := p, slot := s.copies.length + 64, unowned := (descOf c.desc).globDst } else c }
  s.takeSlots p cs

/-- The MMAs of a restored team are accepted again, in their order, after those already accepted (R244). -/
def State.acceptAgain (s : State) (k quad : Nat) : State :=
  { s with mmas := s.mmas.filter (fun m => m.team != k) ++ (s.mmasOf k).map fun m => { m with quadIx := quad } }

/-- In the save slot of a team, the registers of thread i whose futures have resolved receive their statuses, and their pending bits are cleared (R149). -/
def State.slotPatch (s : State) (l : Launch) (t : Team) (i : Nat) (old new : Thread) : State :=
  if old.pend == new.pend then s
  else
    let va (o : Nat) : DWord := s.slotVa t + BitVec.ofNat 64 (l.lrec.secD + i * l.lrec.threadBytes + o)
    let rs := (List.finRange 128).filter fun r => old.pend.getLsbD r.val && !new.pend.getLsbD r.val
    let s := rs.foldl (fun (s : State) r => (s.hubWrite 0 l.root (va (256 + 4 * r.val)) (leBytes 4 (new.regs[r]).toNat) none).2) s
    (s.hubWrite 0 l.root (va 72) (leBytes 16 new.pend.toNat) none).2

/-- The slot takes what has been resolved for the threads of its team (R149). -/
def State.slotPatches (s : State) (l : Launch) (t : Team) : Nat → List (Thread × Thread) → State
  | _, [] => s
  | i, x :: xs => (s.slotPatch l t i x.1 x.2).slotPatches l t (i + 1) xs

/-- Restore one team at a core (R128, R244): from its image, which takes what has been resolved since; when the slot cannot be read, as retained, with zeros in its
accumulator rows (log entry 33). -/
def State.restoreTeam (s : State) (l : Launch) (t : Team) (p : Nat) : State :=
  let quad := quadIx p
  let x := s.hubRead l.key false l.root (l.lrec.slotBytes / 4096 + 2) (s.slotVa t) l.lrec.slotBytes
  let s := x.2
  let t := match x.1 with | some bs => t.ofImage l.lrec bs | none => t
  let s := match x.1 with | some bs => s.fromImage t l.lrec quad bs | none => s.zeroRows quad t.base.toNat l.lrec.accrows
  let t := t.withSlots (giveSlots (s.usedSlots p) (t.threads.map (·.quad)))
  let ths := t.threads.map fun th => th.deliverAll s.now t.futures
  let s := if x.1.isSome then s.slotPatches l t 0 (t.threads.zip ths) else s
  let t := { t with status := .resident, pcore := p, placedAt := s.now, threads := ths.map fun th => th.resume t s.now }
  let s := (((s.putTeam t).seatCopies t.key p).acceptAgain t.key quad).loadScales t quad
  s.l1Drop p

/-- Restore the members of a unit, each at its place. -/
def State.restoreTeams (s : State) (l : Launch) : List (Team × Nat × Nat) → State
  | [] => s
  | (t, p, _) :: xs => (s.restoreTeam l t p).restoreTeams l xs

/-- The mailboxes of the members are read (R203). -/
def State.readMail (s : State) (asid : BitVec 12) : List Nat → State
  | [] => s
  | k :: ks => ((s.deliverFails k asid).rejoin k asid).readMail asid ks

/-- The save slot of a team cannot be read yet (R65, R176). -/
def State.slotBusy (s : State) (l : Launch) (t : Team) : Bool := s.hubBusy l.key false l.root (l.lrec.slotBytes / 4096 + 2) (s.slotVa t) l.lrec.slotBytes

/-- The hub asks for the slots of some teams (R45, R65). -/
def State.slotsWant (s : State) (l : Launch) : List Team → State
  | [] => s
  | t :: ts => (s.hubWant l.key false l.root (l.lrec.slotBytes / 4096 + 2) (s.slotVa t) l.lrec.slotBytes).slotsWant l ts

/-- The save slot of a team cannot be written yet (R176). -/
def State.slotHeld (s : State) (l : Launch) (t : Team) : Bool := s.hubStoreBusy l.root (l.lrec.slotBytes / 4096 + 2) (s.slotVa t) l.lrec.slotBytes

/-- Banks under refresh send retries to the writes of some slots (R45). -/
def State.slotsRetry (s : State) (l : Launch) : List Team → State
  | [] => s
  | t :: ts => (s.hubStoreWant l.root (l.lrec.slotBytes / 4096 + 2) (s.slotVa t) l.lrec.slotBytes).slotsRetry l ts

/-- TEAM_RESTORE (R128): the unit of a saved team. -/
def execTeamRestore (k : Nat) (s : State) : Out :=
  .next (match s.team? k with
    | none => s
    | some t =>
      match s.launch? t.launch with
      | none => s
      | some l =>
        let u := t.teamid / l.lrec.cluster
        if !s.unitSaved l u then s
        else
          match s.ready? l u with
          | none => s
          | some place =>
            let ms := s.unitMembers l u
            if ms.any (fun m => s.slotBusy l m || s.slotHeld l m) then (s.slotsWant l ms).slotsRetry l ms else
            let s := (s.restoreTeams l (ms.zip place)).modLaunch l.key (·.placed u)
            ((s.readMail (rootAsid l.root) (ms.map (·.key))).sweepFaults).nextChild l.part)

/-! ### Pre-emption (R126, R127) -/

/-- Begin to save the whole unit of each of some teams (R126, R127). -/
def State.beginSave (s : State) (ks : List Nat) : State :=
  let units := s.teams.filterMap fun t => if ks.contains t.key then some (t.launch, t.teamid / s.lfield t (·.cluster)) else none
  { s with teams := s.teams.map fun t =>
      if units.contains (t.launch, t.teamid / s.lfield t (·.cluster)) && t.status == .resident then { t with status := .saving } else t }

/-- As the towers would be when the teams of some keys, and those already being saved, have left. -/
def State.without (s : State) (ks : List Nat) : State :=
  let s := s.beginSave ks
  { s with teams := s.teams.map fun t => if t.status == .saving then { t with status := .saved } else t }

/-- The teams of a tower that are resident. -/
def State.residents (s : State) (w : Nat) : List Team := s.teams.filter fun t => t.status == .resident && pcTower t.pcore == w && !t.finished

/-- EP and QUANTUM of a team's launch (R115, R125). -/
def State.epOf (s : State) (t : Team) : Nat := ((s.launch? t.launch).map (·.ep)).getD 0
def State.quantumOf (s : State) (t : Team) : Nat := ((s.launch? t.launch).map (·.quantum)).getD 0

/-- The shortest run of victims, in their order, without which the unit has room; none when not even all of them suffice. -/
def State.enough (s : State) (fits : State → Bool) : List Nat → List Nat → Option (List Nat)
  | taken, [] => if fits (s.without taken) then some taken else none
  | taken, v :: vs => if fits (s.without taken) then some taken else s.enough fits (taken ++ [v]) vs

/-- A unit that has reached its fallback, or has no preference (R126). -/
def PUnit.falls (p : PUnit) : Bool := p.fallback || p.noPref

/-- PREEMPT_PRIORITY (R126). -/
def execPreemptPriority (k u : Nat) (s : State) : Out :=
  .next (match s.launch? k with
    | none => s
    | some l =>
      match l.placing.find? fun p => p.num == u with
      | none => s
      | some p =>
        if !p.falls || (s.unitRoom l p).isSome then s
        else
          match (s.towerOrder l p).head? with
          | none => s
          | some w =>
            let vs := sortBy (fun a b => s.epOf a < s.epOf b || (s.epOf a == s.epOf b && (b.placedAt < a.placedAt || (a.placedAt == b.placedAt && b.key < a.key))))
              ((s.residents w).filter fun t => s.epOf t < l.ep)
            match s.enough (fun s => (s.fitTower l.lrec (s.unitNeeds l u) w).isSome) [] (vs.map (·.key)) with
            | some ks => s.beginSave ks
            | none => s)

/-- A team's time slice has passed (R126). -/
def State.sliceOver (s : State) (t : Team) : Bool := 0 < s.quantumOf t && t.placedAt + s.quantumOf t * 1024 ≤ s.now

/-- The fallback order of a unit (R121), whether or not it has reached its fallback. -/
def State.fallbackOrder (s : State) (l : Launch) (p : PUnit) : List Nat := s.towerOrder l { p with fallback := true }

/-- TIME_SLICE_EXPIRE (R126): such teams, most recently placed first, until the unit has room. -/
def execTimeSliceExpire (k u : Nat) (s : State) : Out :=
  .next (match s.launch? k with
    | none => s
    | some l =>
      match l.placing.find? fun p => p.num == u with
      | none => s
      | some p =>
        if (s.unitRoom l p).isSome then s
        else
          let vs := sortBy (fun a b => b.placedAt < a.placedAt || (a.placedAt == b.placedAt && b.key < a.key))
            ((s.fallbackOrder l p).flatMap fun w => (s.residents w).filter fun t => s.epOf t == l.ep && s.sliceOver t)
          let keys := vs.map (·.key)
          s.beginSave ((s.enough (fun s => (s.unitRoom l p).isSome) [] keys).getD keys))

/-! ### Saving (R127, R129, R202, R244) -/

/-- Accesses that follow a pass still to start, and those that wait for such a one: their progress may depend on the program (R127; log entry 33). -/
def State.parked (s : State) : List Req :=
  (sortBy (fun a b => a.id < b.id) s.reqs).foldl (fun ps r => if (isAcc r.act && !s.passesDone r) || ps.any (s.waitsFor r) then ps ++ [r] else ps) []

/-- An access of a team keeps its save waiting: all but the parked ones. -/
def State.holdsSave (s : State) (t : Team) (r : Req) : Bool := r.team == t.key && !(s.parked.any fun q => q.id == r.id)

/-- A thread may be saved: one that waits for the completion and check of its word only where a parked access keeps that from it (R127, R134). -/
def State.threadLeaves (s : State) (t : Team) (i : Nat) (th : Thread) : Bool :=
  th.st != .running && (th.st != .waiting .check || s.parked.any fun q => q.team == t.key && q.threads.contains i)

/-- A member may be saved: its threads have stopped, its accesses are done, its copies stalled, its passes retired (R127, R134). -/
def State.mayLeave (s : State) (t : Team) : Bool :=
  t.status == .saving && !t.finished &&
  ((List.range t.threads.length).zip t.threads).all (fun x => s.threadLeaves t x.1 x.2) &&
  s.reqs.all (fun r => !s.holdsSave t r) &&
  t.maps.all (·.filling.isEmpty) &&
  (s.copiesOf t.key).all (fun c => c.ending.isNone && !c.cancel && s.copyStalled c) &&
  s.passes.all fun p => p.team != t.key

/-- Write back every map of a team (R159); false: some of it must wait. -/
def State.backMaps (s : State) (t : Team) : List SpadMap → Bool × State
  | [] => (true, s)
  | m :: ms =>
    let (base, s) := s.takeKeys m.len
    let (a, s) := s.writeBack t 0 m base m.dirtyLines
    let (b, s) := s.backMaps t ms
    (a && b, s)

/-- Write back the maps of several teams. -/
def State.backAll (s : State) : List Team → Bool × State
  | [] => (true, s)
  | t :: ts =>
    let (a, s) := s.backMaps t t.maps
    let (b, s) := s.backAll ts
    (a && b, s)

/-- A thread as it is saved: one whose check failed, or has not been made, executes its word again (R134, R175). -/
def Thread.park (th : Thread) (now : Nat) : Thread :=
  let th := { th with failed := none }
  if th.st == .waiting .check then { th.wake now with word := none } else th

/-- A saved team gives up its place; its joins are withdrawn (R129, R364). -/
def Team.leave (t : Team) (now : Nat) : Team :=
  { t with
    status := .saved, ran := now - t.placedAt, savedAt := now, rdvs := [], resorts := [], fresh := []
    threads := t.threads.map (·.park now) }

/-- The remainder of a saved copy (R127): a piece that was under way is moved afresh, and its descriptor slot is free; what some destination has still to receive of
the one read of its source is kept (R218). -/
def Copy.leave (c : Copy) : Copy := { c with ahead := [] }

/-- Accesses for whose completion and check a word waits are withdrawn: the word executes again after the restore (R127, R134). -/
def State.dropAwaited (s : State) : List Req → State
  | [] => s
  | r :: rs => (if r.awaited then (s.dropReq r).flagsDown r.team r.threads r.flag else s).dropAwaited rs

/-- Save one team: its image is written at package scope (R127). -/
def State.saveTeam (s : State) (l : Launch) (k : Nat) : State :=
  match s.team? k with
  | none => s
  | some t =>
    let s := (s.dropAwaited (s.parked.filter (·.team == k))).modTeam k fun t => { t with threads := t.threads.map (·.park s.now) }
    let t := (s.team? k).getD t
    let bs := s.image t l.lrec
    let s := (s.hubWriteN 0 l.root (bs.length / 4096 + 2) (s.slotVa t) bs).2
    let s : State := { s with copies := s.copies.map fun c => if c.team == k then c.leave else c }
    s.modTeam k (·.leave s.now)

/-- Save several teams. -/
def State.saveTeams (s : State) (l : Launch) : List Nat → State
  | [] => s
  | k :: ks => (s.saveTeam l k).saveTeams l ks

/-- A discarded team keeps its number and its save slot (R127). -/
def Team.drop (t : Team) (now : Nat) : Team :=
  { t with
    status := .discarded, ran := now - t.placedAt, threads := [], spad := [], maps := [], futures := [], rdvs := [], resorts := []
    fresh := [], conts := [], spawns := [] }

/-- Discard teams (R127): nothing is saved, their waiters and engine work go. -/
def State.discard (s : State) (ks : List Nat) : State :=
  let s : State := { s with
    teams := s.teams.map fun (t : Team) => if ks.contains t.key then t.drop s.now else t
    sideLog := s.sideLog.filter fun e => !ks.contains e.team
    copies := s.copies.filter fun c => !ks.contains c.team
    mmas := s.mmas.filter fun m => !ks.contains m.team
    reqs := s.reqs.filter fun r => !ks.contains r.team
    streams := s.streams.filter fun x => !ks.contains x.team }
  s.sweepFaults

/-- TEAM_SAVE_COMPLETE (R127): the whole unit of a team is saved, or discarded when its launch is idempotent and none of it has committed (R155). -/
def execTeamSaveComplete (k : Nat) (s : State) : Out :=
  .next (match s.team? k with
    | none => s
    | some t =>
      match s.launch? t.launch with
      | none => s
      | some l =>
        let ms := s.unitMembers l (t.teamid / l.lrec.cluster)
        if !ms.all (s.mayLeave ·) then s
        else if l.lrec.idemp && (s.unitTeams l (t.teamid / l.lrec.cluster)).all (!·.idemx) then s.discard (ms.map (·.key))
        else if ms.any (s.slotHeld l ·) then s.slotsRetry l ms
        else
          let (done, s) := s.backAll ms
          -- a write-back to a peer is an access of its own, for which the save waits
          if done && ms.all (fun t => s.reqs.all fun r => !s.holdsSave t r) then s.saveTeams l (ms.map (·.key)) else s)

/-! ### The end of a team and of its launch (R116, R117) -/

/-- A write of the hub to the completion record, in release order (R117): one that cannot be made marks the launch, and one that goes to a peer is awaited (R65, R103). -/
def State.recWrite (s : State) (l : Launch) (off : Nat) (bs : List Byte) (sc : Scope) : State :=
  match s.hubWrite l.key l.root (l.lrec.compl + BitVec.ofNat 64 off) bs (some sc) with
  | (.done, s) => s
  | (.sent ids, s) => s.modLaunch l.key fun l => { l with recWaits := ids }
  | (.refused, s) => s.modLaunch l.key fun l => { l with badWrite := true }

/-- Statuses in the save slot of a team for the registers of thread i that are pending on a token (R149); a slot that memory keeps back takes them at the restore. -/
def State.slotDeliver (s : State) (l : Launch) (t : Team) (tok st : Word) (i : Nat) : State :=
  match t.threads[i]? with
  | none => s
  | some th => if s.slotHeld l t then s else s.slotPatch l t i th (th.deliver tok st s.now)

/-- A launch future resolves (R373, R389); for a saved team its slot follows (R149). -/
def State.resolveLaunch (s : State) (k : Nat) (tok st : Word) : State :=
  let s := match s.team? k with
    | none => s
    | some t =>
      match t.status, s.launch? t.launch with
      | .saved, some l => (List.range t.threads.length).foldl (fun s i => s.slotDeliver l t tok st i) s
      | _, _ => s
  s.resolve k tok st

/-- The launch has completed (R114, R117): its teams and its record go, and its owner learns the status. -/
def State.endLaunch (s : State) (l : Launch) : State :=
  let status := if 0 < l.haltCnt then 0x20 else if l.badWrite then 0x21 else 0
  let s : State := { s.forgetAsks l.key with
    launches := s.launches.filter fun x => x.key != l.key
    teams := s.teams.filter fun t => t.launch != l.key }
  match l.owner with
  | .entry q e => s.endEntry q e status
  | .future k tok => (s.resolveLaunch k tok (BitVec.ofNat 32 status)).nextChild l.part

/-- A write of the record must wait: memory keeps it back, or at system scope bulk packets of the launch's teams are not acknowledged (R71, R117, R176). -/
def State.recHeld (s : State) (l : Launch) (off n : Nat) (sc : Scope) : Bool :=
  s.hubStoreBusy l.root 2 (l.lrec.compl + BitVec.ofNat 64 off) n ||
    (sc == .sys && s.fab.peers.any fun p => p.flights.any fun f => (s.team? f.team).any fun t => t.launch == l.key)

/-- The writes of the completion record go on in their order (R117): each once that before it, on a peer's page, has been answered; after the last the launch
completes, so that its record is visible before its event (R103). -/
def State.recGo (s : State) (k : Nat) : (fuel : Nat) → State
  | 0 => s
  | f + 1 =>
    match s.launch? k with
    | none => s
    | some l =>
      if !l.recWaits.isEmpty then s
      else
        match l.recTodo with
        | [] => if l.doneCnt == l.lrec.teams then s.endLaunch l else s
        | (off, bs, sc) :: rest =>
          if s.recHeld l off bs.length sc then s.hubStoreWant l.root 2 (l.lrec.compl + BitVec.ofNat 64 off) bs.length
          else ((s.modLaunch k fun l => { l with recTodo := rest }).recWrite l off bs sc).recGo k f

/-- The records of some launches go on. -/
def State.recAll (s : State) : List Launch → State
  | [] => s
  | l :: ls => (s.recGo l.key (l.recTodo.length + 1)).recAll ls

/-- Everything that a team's word waits for (R117, R154); what its core reads early is performed too (R171). -/
def State.mayComplete (s : State) (t : Team) : Bool :=
  t.placed && t.finished && s.reqs.all (fun r => r.team != t.key) && (s.logOf t.key).isEmpty && (s.copiesOf t.key).isEmpty &&
    s.settledEarly t.pcore .pkg && (s.mmasOf t.key).isEmpty && (s.passes.all fun p => p.team != t.key) && t.maps.all (·.filling.isEmpty)

/-- Memory keeps back the completion record where a team's end is written (R176). -/
def State.wordBusy (s : State) (l : Launch) (t : Team) : Bool :=
  s.hubStoreBusy l.root 2 l.lrec.compl 64 || s.hubStoreBusy l.root 2 (l.lrec.compl + BitVec.ofNat 64 (64 + 4 * t.teamid)) 4

/-- What the hub does meanwhile (R45). -/
def State.wordRetry (s : State) (l : Launch) (t : Team) : State :=
  (s.hubStoreWant l.root 2 l.lrec.compl 64).hubStoreWant l.root 2 (l.lrec.compl + BitVec.ofNat 64 (64 + 4 * t.teamid)) 4

/-- The writes of a team's end (R116, R117): its word, the counts, and after the last team STATE := 2 at system scope. -/
def Launch.endWrites (l : Launch) (t : Team) : List (Nat × List Byte × Scope) :=
  let cause := (t.cause.getD 0).toNat
  [(64 + 4 * t.teamid, leBytes 4 (l.lrec.gen.toNat % 2 ^ 24 * 256 + cause), .pkg), (8, leBytes 8 (l.doneCnt + 1), .pkg), (16, leBytes 8 (l.haltCnt + b2n (cause != 0)), .pkg)] ++
    if l.doneCnt + 1 == l.lrec.teams then [(4, leBytes 4 2, .sys)] else []

/-- A team's word and counts (R116, R117). -/
def State.writeWord (s : State) (l : Launch) (t : Team) : State :=
  let l' := { l with
    doneCnt := l.doneCnt + 1, haltCnt := l.haltCnt + b2n (t.cause.getD 0 != 0), recTodo := l.recTodo ++ l.endWrites t }
  (s.modLaunch l.key fun _ => l').recGo l.key (l'.recTodo.length + 1)

/-- TEAM_COMPLETE (R117): maps are written back as at team exit, then the word, the counts, and after the last team the end of the launch. -/
def execTeamComplete (k : Nat) (s : State) : Out :=
  .next (match s.team? k with
    | none => s
    | some t =>
      match s.launch? t.launch with
      | none => s
      | some l =>
        if !s.mayComplete t then s
        else if s.wordBusy l t then s.wordRetry l t
        else
          let (done, s) := s.backMaps t t.maps
          -- a write-back that faults leaves entries in the side log, and one to a peer accesses, for which the word waits
          if !done || !(s.logOf k).isEmpty || s.reqs.any (·.team == k) then s
          else
            let t := (s.team? k).getD t
            let s := s.modTeam k fun t => { t with status := .complete, maps := [], spad := [], threads := t.threads.map fun th => { th with later := [] } }
            ({ s with streams := s.streams.filter fun x => x.team != k }).writeWord l t)

end Sys2Proof.Machine
end

