-- ==== Sys2Proof/Machine/Tower.lean ====
section
/-!
DEFINITION. Roles of a tower (R15 to R28), Tahr and its counter (R29 to R36), and module reset (R44, R48, R53).
-/
namespace Sys2Proof.Machine

/-! ### Shared by tower steps -/

/-- While locked, an event extends the runtime log (R58). -/
def State.extendLog (s : State) (event tower bank row : Nat) : State :=
  if s.hub.lock then
    { s with hub := { s.hub with runlog := sha3 (leBytes 32 s.hub.runlog.toNat ++ leBytes 16 (Config.logRecord event tower bank row).toNat) } }
  else s

/-- The events of the runtime log (R58). -/
def evRepair : Nat := 1
def evCondemn : Nat := 2
def evPinned : Nat := 3
def evFailure : Nat := 4

/-- Forget what addresses lo to hi - 1 hold: they read as zero, under key ID 0, with no tags and no poison (R43, R173). -/
def MemSys.wipe (m : MemSys) (lo hi : Nat) : MemSys :=
  { m with
    bytes := m.bytes.filter fun e => e.1 < lo || hi ≤ e.1
    tags := m.tags.dropRange (lo / 128) (hi / 128)
    sectorKey := m.sectorKey.dropRange (lo / 32) (hi / 32)
    poison := m.poison.filter fun x => x < lo / 32 || hi / 32 ≤ x
    recoded := m.recoded.filter fun x => x < lo / 128 || hi / 128 ≤ x
    hidden := m.hidden.dropRange lo hi
    hiddenKey := m.hiddenKey.dropRange (lo / 32) (hi / 32)
    stale := m.stale.dropRange lo hi
    hostLines := m.hostLines.filter fun x => x < lo / 128 || hi / 128 ≤ x }

/-- The first package address of a tower's region, and of a pinned window (R19). -/
def regionBase (t : Nat) : Nat := t * 2 ^ 48
def windowBase (t st : Nat) : Nat := regionBase t + 0x080000000000 + st * 0x10000000

/-- A TSV interface of the tower is paused (R51). -/
def Tower.paused (t : Tower) : Bool := t.tsv.toList.any fun x => x.pauseTill.isSome

/-! ### Roles (R20 to R26) -/

/-- ROLESET (R20). -/
def Tower.roleset (t : Tower) : Nat := t.pinned.toNat * 16 + t.compute.toNat

/-- The weight of a compute set in hundredths (R15). -/
def roleWeight (c : BitVec 4) : Nat :=
  (if c.getLsbD 0 then 140 else 0) + (if c.getLsbD 1 then 125 else 0) + (if c.getLsbD 2 then 110 else 0) + (if c.getLsbD 3 then 100 else 0)

/-- The RESULT of a rejected request, if it is rejected (R22, R23): one while the tower is zeroed comes before the end of its configuration (R112). -/
def Tower.rejects (t : Tower) (c p : BitVec 4) : Option Byte :=
  if t.quiesce || t.quiesced || t.zeroing then some 0x04
  else if 360 < roleWeight c then some 0x01
  else if p &&& c != 0 then some 0x02
  else if c == t.compute && p == t.pinned then some 0x03
  else none

/-- A stratum leaves or enters compute under the request (R23). -/
def Tower.leaves (t : Tower) (st : Nat) : Bool := t.compute.getLsbD st && !t.reqCompute.getLsbD st
def Tower.enters (t : Tower) (st : Nat) : Bool := !t.compute.getLsbD st && t.reqCompute.getLsbD st

/-- Every resident team on a stratum that leaves compute is pre-empted (R24). -/
def State.drain (s : State) (t : Nat) : State :=
  s.beginSave ((s.residents t).filterMap fun x => if (s.tower t).leaves (pcStratum x.pcore) then some x.key else none)

/-- ROLECMD (R21, R23). DONE and RESULT of an earlier request stay as they are when a request is accepted (DESIGN CHOICE, log entry 50). -/
def State.roleCmd (s : State) (t : Nat) (v : Word) : State :=
  if !v.getLsbD 31 then s
  else
    let w := s.tower t
    let c : BitVec 4 := v.extractLsb' 0 4
    let p : BitVec 4 := v.extractLsb' 4 4
    if w.roleBusy then s.modTower t fun w => { w with roleOverrun := true }
    else
      match w.rejects c p with
      | some r => s.modTower t fun w => { w with roleResult := r, roleDone := true }
      | none => (s.modTower t fun w => { w with roleBusy := true, rolePhase := .drain, reqCompute := c, reqPinned := p }).drain t

/-- ROLECMD_GO (R23). -/
def execRoleCmdGo (t : TowerId) (v : Word) (s : State) : Out := .next (s.roleCmd t.val v)

/-- ROLE_DRAIN_DONE (R24): no context remains on a stratum leaving compute. A team placed since is pre-empted as the others were. -/
def execRoleDrainDone (t : TowerId) (s : State) : Out :=
  let w := s.tower t.val
  .next (if w.rolePhase != .drain then s
    else if s.teams.any (fun x => x.placed && pcTower x.pcore == t.val && w.leaves (pcStratum x.pcore)) then s.drain t.val
    else s.modTower t.val fun w => { w with rolePhase := .flush })

/-- The L1s of some strata of a tower are emptied (R25, R26). -/
def State.emptyL1 (s : State) (t : Nat) (f : Nat → Bool) : State :=
  { s with mem := { s.mem with l1 := s.mem.l1.filter fun c => !(pcTower c.pcore == t && f (pcStratum c.pcore)) } }

/-- Slices that enter or leave pinned mode hold nothing of what they held (R19, R25). -/
def State.flipSlices (s : State) (t : Nat) : List Nat → State
  | [] => s
  | st :: r =>
    let w := s.tower t
    (if w.pinned.getLsbD st != w.reqPinned.getLsbD st then
      { s with mem := s.mem.wipe (windowBase t st) (windowBase t st + 0x10000000) } else s).flipSlices t r

/-- Cycles in which the quads of strata entering compute power up (R26). -/
def powerCycles : Nat := 28000

/-- When a slice changes its mode, the whole tower L2 is written back and invalidated (R25). The partials of combining pages held there stay (DESIGN CHOICE, log
entry 50). -/
def State.flushL2 (s : State) (t : Nat) : State :=
  let w := s.tower t
  if w.reqPinned == w.pinned then s else { s with mem := (s.mem.settleTower t).dropTower t }

/-- ROLE_FLUSH_DONE (R25). -/
def execRoleFlushDone (t : TowerId) (s : State) : Out :=
  let w := s.tower t.val
  .next (if w.rolePhase != .flush || w.paused then s
    else
      (((s.flushL2 t.val).emptyL1 t.val w.leaves).flipSlices t.val [0, 1, 2, 3]).modTower t.val fun w =>
        { w with rolePhase := .enumerate, powerEnd := s.now + (if [0, 1, 2, 3].any w.enters then powerCycles else 0) })

/-- ROLE_REENUMERATE (R26). The runtime-log record of a ROLESET.PINNED change (R58) concerns no bank and no row: it holds 0 for both (DESIGN CHOICE, log entry 50). -/
def execRoleReenumerate (t : TowerId) (s : State) : Out :=
  let w := s.tower t.val
  .next (if w.rolePhase != .enumerate || s.now < w.powerEnd then s
    else
      let s := s.emptyL1 t.val w.enters
      let s := s.modTower t.val fun w =>
        { w with
          compute := w.reqCompute, pinned := w.reqPinned, rolePhase := .idle, roleBusy := false, roleResult := 0x00, roleDone := true }
      let s := if w.reqPinned != w.pinned then s.extendLog evPinned t.val 0 0 else s
      s.postTower t.val 0x10 (s.tower t.val).roleset)

/-! ### Tahr (R31 to R36) -/

/-- A thread counts in R32 unless its state is final. -/
def State.liveThreads (s : State) (t : Nat) (pref : Bool) : Nat :=
  sumNat ((s.teams.filter fun x => x.placed && pcTower x.pcore == t && ((s.lrec? x).map (·.pref)) == some pref).map fun x =>
    x.threads.countP fun th => !th.final)

/-- PREF of a tower (R32, R35). -/
def State.pref (s : State) (t : Nat) : Bool :=
  match (s.tower t).prefovr.toNat with
  | 1 => false
  | 2 => true
  | _ => decide (s.liveThreads t false ≤ s.liveThreads t true)

/-- The refresh multiplier (R33). -/
def rmultOf (td : Nat) (r : BitVec 2) : BitVec 2 :=
  if 95 ≤ td then 2
  else
    let r := if r == 2 && td < 93 then 1 else r
    if 2 ≤ r then r else if 85 ≤ td then 1 else if td < 83 then 0 else r

/-- The forced halt (R33). -/
def forcedOf (td tj : Nat) (f : Bool) : Bool := if 105 ≤ td || 110 ≤ tj then true else if td < 103 && tj < 105 then false else f

/-- The throttle state (R33). -/
def hstOf (td tj : Nat) (pref forced : Bool) (hmin h : Nat) : Nat :=
  if forced then 7
  else
    let h := if h == 7 then 6 else h
    let h :=
      if 100 ≤ tj || (pref && 85 ≤ td) then Nat.min (h + 1) 6
      else if tj < 95 && (!pref || td < 83) then h - 1
      else h
    Nat.max h hmin

/-- One evaluation (R33): what the tower shows once it takes effect. -/
def Tower.evaluate (t : Tower) (td tj : Nat) (pref : Bool) : Thermal :=
  let tj := if t.compute == 0 then 0 else tj
  let f := forcedOf td tj t.therm.forced
  { hst := BitVec.ofNat 3 (hstOf td tj pref f t.hmin.toNat t.therm.hst.toNat)
    rmult := rmultOf td t.therm.rmult
    forced := f
    pref := pref
    dtemp := BitVec.ofNat 8 (Nat.min td 255)
    ltemp := BitVec.ofNat 8 (Nat.min tj 255) }

/-- TAHR_EVALUATE (R31): at the cycles 140,000k, k from 1 on, with the highest temperatures read. -/
def execTahrEvaluate (t : TowerId) (td tj : Nat) (s : State) : Out :=
  .next (if s.now % 140000 != 0 || s.now ≤ (s.tower t.val).lastEval then s
    else s.modTower t.val fun w => { w with tahrNext := some (w.evaluate td tj (s.pref t.val)), lastEval := s.now })

/-- TAHR_APPLY (R31): at the first cycle divisible by 256 that lies strictly after the evaluation. -/
def execTahrApply (t : TowerId) (s : State) : Out :=
  .next (match (s.tower t.val).tahrNext with
    | none => s
    | some x =>
      if s.now % 256 != 0 || s.now ≤ (s.tower t.val).lastEval then s
      else s.modTower t.val fun w => { w with therm := x, tahrNext := none })

/-- THCNT_TICK (R36): once in each window of 256 cycles in which HST is not 0; windows count from 1. -/
def execThcntTick (t : TowerId) (s : State) : Out :=
  .next (s.modTower t.val fun w =>
    if w.therm.hst == 0 || s.now / 256 + 1 ≤ w.lastTick then w else { w with thcnt := w.thcnt + 1, lastTick := s.now / 256 + 1 })

/-! ### Module reset (R44, R48, R53, R173; log entry 15) -/

/-- A tower after module reset: the recorded map comes from flash and is in effect (R47, R48). -/
def Tower.afterReset (t : Tower) : Tower := { Tower.reset with condemned := t.condemned, condemnedEff := t.condemned }

/-- Memory after module reset: DRAM, the far tier and the host's own memory keep their bytes; SRAM and the hub's copies hold nothing (log entry 15). -/
def MemSys.afterReset (m : MemSys) : MemSys :=
  { MemSys.reset with
    bytes := m.bytes.filter fun e =>
      let r := paRegion e.1
      (r < 12 && paLocal e.1 < 0x080000000000) || r == 0xD || (r == 0xE && !hostCoherent e.1)
    sectorKey := m.sectorKey
    farPa := m.farPa
    bases := m.bases
    poison := m.poison
    recoded := m.recoded }

/-- The hub after module reset: key ID 0 has a new key pair (R53), and keys of earlier generations are gone. -/
def Hub.afterReset (h : Hub) : Hub := { Hub.reset with keyGen := h.keyGen.put 0 (h.gen 0 + 1), keyPast := h.keyPast }

/-- MODULE_RESET (R48). -/
def execModuleReset (s : State) : Out :=
  .next { State.reset with
    agenda := s.agenda
    free := s.free
    irq := s.irq
    hostOut := s.hostOut
    trace := s.trace
    mem := s.mem.afterReset
    towers := s.towers.map Tower.afterReset
    hub := s.hub.afterReset }

end Sys2Proof.Machine
end

