-- ==== Sys2Proof/Machine/TowerMem.lean ====
section
/-!
DEFINITION. Tower memory (R39 to R51): quiesce and configuration, refresh, scrubbing, repair, the remap table, TSV realignment; and locking, measurement and key policy (R55 to R58).
-/
namespace Sys2Proof.Machine

/-! ### Quiesce and configuration (R39 to R43) -/

/-- A write to CHASH (R40). -/
def State.writeChash (s : State) (t : Nat) (v : Word) : State :=
  s.modTower t fun w => if w.quiesced && !s.hub.lock then { w with chashW := v &&& 0x3F3F } else { w with cherr := true }

/-- CHASH_WRITE (R40). -/
def execChashWrite (t : TowerId) (v : Word) (s : State) : Out := .next (s.writeChash t.val v)

/-- A write of 1 to MEMCTL.QUIESCE (R41). -/
def State.setQuiesce (s : State) (t : Nat) : State := s.modTower t fun w => if s.hub.lock || w.roleBusy then w else { w with quiesce := true }

/-- MEMCTL_QUIESCE_SET (R41, R43). -/
def execMemctlQuiesceSet (t : TowerId) (s : State) : Out := .next (s.setQuiesce t.val)

/-- QUIESCE_COMPLETE (R43): every line of the region has been written back, and the tower's memory holds requests; a TSV pause delays it (R51). The tower's partials
of combining pages stay as they are (DESIGN CHOICE, log entry 50). -/
def execQuiesceComplete (t : TowerId) (s : State) : Out :=
  let w := s.tower t.val
  .next (if !w.quiesce || w.quiesced || w.paused then s
    else
      let lo := regionBase t.val
      let s : State := { s with mem := s.mem.recall lo (lo + 2 ^ 48) }
      s.modTower t.val fun w => { w with quiesced := true })

/-- The bank-set map under some condemned banks: for each pseudo-channel, the live banks that hold the sets (R37, R43). -/
def setMap (condemned : List Nat) : List (List Nat) :=
  (List.range 64).map fun pc => ((List.range 16).filter fun b => !condemned.contains (pc * 16 + b)).take (minLive condemned)

/-- The end of a quiesce changes a mapping: the channel hash, or the bank-set map (R43). -/
def Tower.remaps (t : Tower) : Bool := t.chashW != t.chash || (t.condemnedEff != t.condemned && setMap t.condemnedEff != setMap t.condemned)

/-- A write of 0 to MEMCTL.QUIESCE (R41, R43): the configuration is applied, and a changed mapping starts zeroing; pages in bias mode are in device bias again (R94). -/
def State.clearQuiesce (s : State) (t : Nat) : State :=
  let w := s.tower t
  if s.hub.lock || w.roleBusy || !w.quiesce then s
  else
    let s := s.modTower t fun w =>
      { w with
        quiesce := false, quiesced := false, chash := w.chashW, condemnedEff := w.condemned
        zeroing := w.zeroing || w.remaps }
    { s with mem := { s.mem with hostBias := s.mem.hostBias.filter fun x => paRegion (x * 2 ^ 21) != t } }

/-- MEMCTL_QUIESCE_CLEAR (R43). -/
def execMemctlQuiesceClear (t : TowerId) (s : State) : Out := .next (s.clearQuiesce t.val)

/-- DRAM_ZEROING_DONE (R43): the DRAM reads zero under key ID 0; a TSV pause delays it (R51). -/
def execDramZeroingDone (t : TowerId) (s : State) : Out :=
  let w := s.tower t.val
  .next (if !w.zeroing || w.paused then s
    else
      let lo := regionBase t.val
      let s : State := { s with mem := { s.mem.wipe lo (lo + 16 * setBytes) with bases := s.mem.bases.putD 0 t.val (s.hub.gen 0) } }
      s.modTower t.val fun w => { w with zeroing := false })

/-! ### Refresh (R44, R45) -/

/-- A place lies in a DRAM bank of a tower. -/
def State.inBank (s : State) (t b : Nat) (p : Place) : Bool :=
  p.node.isNone && paRegion p.pa == t && s.inDram p.pa && (s.tower t).bankOf (paLocal p.pa) == b

/-- Cycles of a bank refresh, and of the hint after which a retried request is reissued (R45). -/
def refreshCycles : Nat := 490
def retryCycles : Nat := 30

/-- Where a translation leads to. -/
def XRes.place : XRes → Option Place
  | .ok p => some p
  | _ => none

/-- The first byte and the bytes of package memory that an access kept back reaches (R85, R70): of the host, or of a bulk packet. -/
def keptSpan (i : Instr) : Option (Nat × Nat) :=
  let host (off : Nat) (n : Nat) : Option (Nat × Nat) :=
    if off < 12 * 2 ^ 36 then some (off / 2 ^ 36 * 2 ^ 48 + off % 2 ^ 36, n) else none
  match i with
  | .hostCxlMemRead off n => host off.toNat n
  | .hostCxlMemWrite off d => host off.toNat d.length
  | .bulkPacketArrive b => some (b.line.toNat / 128 * 128, 128)
  | _ => none

/-- What waits for a bank beside an access of a number (R45): other accesses, fills, side-log entries that replay, the next pieces of copies, cells of peers, words to
fetch, and accesses of the host and bulk packets that are kept back. -/
def State.bankWaits (s : State) (t b but : Nat) : Bool :=
  let xlate (k : Nat) (va : DWord) (kind : Kind) : List Place := ((s.team? k).bind fun x => (s.xteam x va kind .dflt).1.place).toList
  (s.reqs.any fun r => r.id != but && r.places.any fun x => s.inBank t b x.2) ||
  (s.teams.any fun x => x.placed && x.maps.any fun m => m.filling.any fun f => s.inBank t b f.2) ||
  (s.sideLog.any fun e => e.fid.isNone && (xlate e.team e.va .store).any (s.inBank t b)) ||
  (s.copies.any fun c => s.copyRuns c && (s.copyPlaces c).any (s.inBank t b)) ||
  (s.fab.peers.any fun p => p.waiting.any fun c => s.inBank t b (hubPlace (cellField c 0 8 % 2 ^ 52))) ||
  (s.kept.any fun i => (keptSpan i).any fun x => (linesAt x.1 x.2).any fun l => s.inBank t b (hubPlace (128 * l))) ||
  s.teams.any fun x => x.status == .resident && x.threads.any fun th =>
    (th.st == .ready || th.st == .running) && (xlate x.key th.pc .fetch).any (s.inBank t b)

/-- A bank may not refresh again (R45): it is refreshing, or a request to which it has sent a retry has not been reissued. -/
def State.bankBusy (s : State) (t b : Nat) : Bool :=
  (s.tower t).refresh.any fun x => x.1 == b &&
    (s.now < x.2 || s.bankWaits t b s.nextKey || ((s.tower t).retry.contains b && s.now < x.2 + retryCycles))

/-- The retention bin of a row (R44): 32 ms, 64 ms or 128 ms. -/
def State.bin32 (s : State) (t bank row : Nat) : Bool := (s.tower t).bin32.contains (bank, row) || Config.retention (s.hub.gen 0) t bank row == 0
def State.bin64 (s : State) (t bank row : Nat) : Bool := (s.tower t).bin64.contains (bank, row) || Config.retention (s.hub.gen 0) t bank row == 1
def State.binTime (s : State) (t bank row : Nat) : Nat := if s.bin32 t bank row then 32 else if s.bin64 t bank row then 64 else 128

/-- Cycles of a millisecond. -/
def msCycles : Nat := 1400000

/-- The cycle at which a row falls due (R44): its bin time after its last refresh, divided by the multiplier in force then. -/
def State.rowDue (s : State) (t bank row : Nat) : Nat :=
  let (at', m) := match (s.tower t).rows.find? fun r => r.bank == bank && r.row == row with
    | some r => (r.at_, r.rmult)
    | none => (0, 0)
  at' + s.binTime t bank row * msCycles / 2 ^ m.toNat

/-- ROW_REFRESH (R44, R45): once the row's interval has passed, the bank holds requests for the refresh; none begins while a retried request to the bank waits. -/
def execRowRefresh (t : TowerId) (bank : BitVec 10) (row : Nat) (s : State) : Out :=
  let b := bank.toNat
  .next (if s.now < s.rowDue t.val b row then s
    else if s.bankBusy t.val b then s
    else s.modTower t.val fun w =>
      { w with
        retry := w.retry.filter (· != b)
        refresh := (w.refresh.filter fun x => x.1 != b) ++ [(b, s.now + refreshCycles)]
        rows := (w.rows.filter fun r => !(r.bank == b && r.row == row)) ++ [{ bank := b, row := row, at_ := s.now, rmult := w.therm.rmult }] })

/-- REFRESH_RETRY_REISSUE (R45): the hint of a retried access has expired; once no other access to the bank waits, the bank may refresh again. -/
def execRefreshRetryReissue (n : Nat) (s : State) : Out :=
  .next (match s.req? n with
    | none => s
    | some r =>
      match r.loc with
      | .glob _ p =>
        let t := paRegion p.pa
        let b := (s.tower t).bankOf (paLocal p.pa)
        if s.inBank t b p && !s.bankWaits t b n then
          s.modTower t fun w => { w with refresh := w.refresh.filter fun x => !(x.1 == b && x.2 ≤ s.now) }
        else s
      | .spad _ _ => s)

/-! ### Scrubbing and repair (R46 to R48) -/

/-- Live banks of a pseudo-channel beyond the sets in effect (R48). -/
def Tower.stranded (t : Tower) (pc : Nat) : Nat := liveBanks t.condemned pc - t.sets

/-- A bank is condemned: recorded in flash, and its BANKMAP bit clears (R47). -/
def State.condemn (s : State) (t bank row : Nat) : State :=
  if (s.tower t).condemned.contains bank then s
  else (s.modTower t fun w => { w with condemned := w.condemned ++ [bank] }).extendLog evCondemn t bank row

/-- A row is repaired with a spare of its pseudo-channel, or its bank is condemned for want of one, and the row's reads fail (R46, R47). The new entry is written
to copies B and A and is not in the cache yet (DESIGN CHOICE, log entry 50). -/
def State.repairRow (s : State) (t bank row : Nat) : State :=
  let w := s.tower t
  let rest := w.repairs.filter fun r => !(r.bank == bank && r.row == row)
  -- the spare of an entry that this one replaces is not used again
  let used := (w.repairs.filter fun r => r.bank / 16 == bank / 16).foldl (fun n r => Nat.max n (r.spare + 1)) 0
  if !Config.spareLeft (w.stranded (bank / 16)) used then
    (s.modTower t fun w => { w with badRows := if w.badRows.contains (bank, row) then w.badRows else w.badRows ++ [(bank, row)] }).condemn t bank row
  else
    let s := s.modTower t fun w => { w with repairs := rest ++ [{ bank := bank, row := row, spare := used, aOk := true, bOk := true, cached := false }] }
    let s := s.extendLog evRepair t bank row
    if 64 ≤ ((s.tower t).repairs.countP fun r => r.bank == bank) then s.condemn t bank row else s

/-- A correctable error in a row (R46): one bin shorter, or a repair. Only the row itself enters the filter; that no other row reports in it from then on is a
DESIGN CHOICE (log entry 48). -/
def State.correct (s : State) (t bank row : Nat) : State :=
  if s.bin32 t bank row then s.repairRow t bank row
  else if s.bin64 t bank row then s.modTower t fun w => { w with bin32 := w.bin32 ++ [(bank, row)] }
  else s.modTower t fun w => { w with bin64 := w.bin64 ++ [(bank, row)] }

/-- PATROL_SCRUB (R46). -/
def execPatrolScrub (t : TowerId) (bank : BitVec 10) (row : Nat) (found : Scrub) (s : State) : Out :=
  .next (match found with
    | .clean => s
    | .correctable => s.correct t.val bank.toNat row
    | .uncorrectable x =>
      if paRegion (32 * x) == t.val && s.inDram (32 * x) && (s.tower t.val).bankOf (paLocal (32 * x)) == bank.toNat && !s.mem.poison.contains x then
        { s with mem := { s.mem with poison := s.mem.poison ++ [x] } }
      else s)

/-! ### The remap table (R49, R50) -/

/-- Entries of the remap table that the base die caches (R49). -/
def remapCache : Nat := 4096

/-- One more cached entry puts out an older one once the cache is full: the first of the list (DESIGN CHOICE, log entry 50: the manual names no replacement). -/
def evictOne : List Repair → List Repair
  | [] => []
  | r :: rs => if r.cached then { r with cached := false } :: rs else r :: evictOne rs

/-- The tower's memory fails (R50): its lines are invalidated, and what is dirty in them is discarded. -/
def State.failTower (s : State) (t bank row : Nat) : State :=
  if (s.tower t).failed then s
  else
    let lo := regionBase t
    let s := s.modTower t fun w => { w with failed := true }
    let s : State := { s with mem := s.mem.discard lo (lo + 0x080000000000) }
    (s.extendLog evFailure t bank row).postTower t 0x11 0

/-- REMAP_MISS_FILL (R49): what the reads of copies A and B find; one bad copy is healed from the other, two fail the tower. -/
def execRemapMissFill (t : TowerId) (bank : BitVec 10) (row : Nat) (aOk bOk : Bool) (s : State) : Out :=
  let rs := (s.tower t.val).repairs
  .next (match rs.find? fun r => r.bank == bank.toNat && r.row == row with
    | none => s
    | some r =>
      if r.cached then s
      else if !aOk && !bOk then
        (s.modTower t.val fun w => { w with repairs := rs.map fun x => if x == r then { x with aOk := false, bOk := false } else x }).failTower t.val bank.toNat row
      else
        let rs := if remapCache ≤ rs.countP (·.cached) then evictOne rs else rs
        s.modTower t.val fun w => { w with repairs := rs.map fun x => if x == r then { x with aOk := true, bOk := true, cached := true } else x })

/-! ### TSV realignment (R51) -/

/-- Change one TSV interface; REALIGN shows whether any is paused (R42). -/
def Tower.modTsv (t : Tower) (i : Fin 5) (f : Tsv → Tsv) : Tower :=
  let t := { t with tsv := t.tsv.set i (f t.tsv[i]) }
  { t with realign := t.paused }

/-- Cycles for which a realignment is deferred at most (R51). -/
def deferCycles : Nat := 350000

/-- TSV_DRIFT_DETECT (R51). -/
def execTsvDriftDetect (t : TowerId) (i : Fin 5) (s : State) : Out :=
  .next (s.modTower t.val fun w => w.modTsv i fun x => if x.drift then x else { x with drift := true, due := s.now + deferCycles })

/-- Cycles of a pause at most (R51). -/
def pauseCycles : Nat := 2800

/-- TSV_REALIGN_START (R51): every transfer of the model is one step, so none is in flight between steps. -/
def execTsvRealignStart (t : TowerId) (i : Fin 5) (s : State) : Out :=
  .next (s.modTower t.val fun w => w.modTsv i fun x =>
    if x.drift && x.pauseTill.isNone then { x with drift := false, pauseTill := some (s.now + pauseCycles) } else x)

/-- TSV_REALIGN_END (R51). -/
def execTsvRealignEnd (t : TowerId) (i : Fin 5) (s : State) : Out :=
  .next (s.modTower t.val fun w => w.modTsv i fun x => { x with pauseTill := none })

/-- The interfaces of a tower at a cycle (R51): a pause of its full length ends, and a realignment that can be deferred no longer starts. -/
def Tower.tsvCycle (t : Tower) (now : Nat) : List (Fin 5) → Tower
  | [] => t
  | i :: is =>
    let x := t.tsv[i]
    let t := if x.pauseTill.any (· ≤ now) then t.modTsv i fun x => { x with pauseTill := none }
      else if x.drift && x.pauseTill.isNone && x.due ≤ now then t.modTsv i fun x => { x with drift := false, pauseTill := some (now + pauseCycles) }
      else t
    t.tsvCycle now is

/-! ### Locking, measurement and key policy (R55 to R58) -/

/-- BANKMAP word w of a tower (R48). -/
def Tower.bankmap (t : Tower) (w : Nat) : Nat :=
  sumNat ((List.range 32).map fun b => if t.condemned.contains (32 * w + b) then 0 else 2 ^ b)

/-- MEMCAP (R48). -/
def Tower.memcap (t : Tower) : Nat := t.nextSets * 256 + t.sets

/-- What a tower adds to the digest (R58). -/
def Tower.digestBytes (t : Tower) : List Byte :=
  leBytes 4 t.chashW.toNat ++ leBytes 4 t.memcap ++ leBytes 4 t.roleset ++ ((List.range 32).flatMap fun w => leBytes 4 (t.bankmap w)) ++
    leBytes 32 (sha3 (Config.remapImage (t.repairs.map fun r => (r.bank, r.row, r.spare)))).toNat

/-- The configuration digest (R58). -/
def State.digestNow (s : State) : BitVec 256 :=
  sha3 (s.towers.toList.flatMap Tower.digestBytes ++ leBytes 4 s.hub.units.toNat ++ s.hub.keypol.toList.flatMap fun w => leBytes 4 w.toNat)

/-- A write of 1 to MSECCTL.LOCK (R57). -/
def State.lockNow (s : State) : State :=
  if s.hub.mState != .opened then s
  else if s.towers.toList.any fun t => t.quiesce || t.roleBusy then { s with hub := { s.hub with mErr := true } }
  else { s with hub := { s.hub with lock := true, mState := .measured, digest := s.digestNow, runlog := 0 } }

/-- MSECCTL_LOCK (R57). -/
def execMsecctlLock (s : State) : Out := .next s.lockNow

/-- A write of 0 to MSECCTL.LOCK (R57). -/
def State.unlockNow (s : State) : State :=
  if s.hub.mState == .opened then s else { s with hub := { s.hub with lock := false, mState := .opened, mBusy := true } }

/-- MSECCTL_UNLOCK (R57). -/
def execMsecctlUnlock (s : State) : Out := .next s.unlockNow

/-- Lines under some key IDs are written back and dropped (R57, R110). -/
def State.recallKeys (s : State) (f : Nat → Bool) : State :=
  let s := s.cleanHosts ((s.mem.hubHost.filter fun e => f e.2.key).map (·.1))
  let m := s.mem
  { s with mem := { m with
      hidden := m.hidden.filter fun e => !f (m.keyOf (e.1 / 32)).1
      hiddenKey := m.hiddenKey.filter fun e => !f (m.keyOf e.1).1
      stale := m.stale.filterMap fun e => match e.2.filter fun x => !f x.key.1 with | [] => none | l => some (e.1, l)
      l1 := m.l1.filter fun c => !f c.key.toNat } }

/-- UNLOCK_WRITEBACK_DONE (R57): what is dirty under keys 1 to 1,023 is written back, and those keys are erased. -/
def execUnlockWritebackDone (s : State) : Out :=
  .next (if s.hub.mBusy then
      let s := s.recallKeys fun k => k != 0
      { s with hub := { s.hub with mBusy := false, keys := [], keyWork := [] } }
    else s)

/-- A write to a KEYPOL word (R56): the entry of key ID 0 stays 01. -/
def State.writeKeypol (s : State) (i : BitVec 6) (v : Word) : State :=
  if s.hub.lock then s
  else { s with hub := { s.hub with keypol := s.hub.keypol.set i.toNat (if i == 0 then (v &&& 0xFFFFFFFC) ||| 1 else v) (by have := i.isLt; omega) } }

/-- KEYPOL_WRITE (R56). -/
def execKeypolWrite (i : BitVec 6) (v : Word) (s : State) : Out := .next (s.writeKeypol i v)

end Sys2Proof.Machine
end

