-- ==== Sys2Proof/Machine/Fabric.lean ====
section
/-!
DEFINITION. The fabric (R63 to R76): slots and queues, cells and bulk packets that arrive, releases that wait for bulk bytes, and the fabric's registers; the far tier (R81, R82).
-/
namespace Sys2Proof.Machine

/-! ### Slots (R66 to R68) -/

/-- Slot times since the epoch began (R66). -/
def Fabric.slotTime (f : Fabric) (now : Nat) : Nat := (now - f.epoch) / 8

/-- The node to which this one may send on up port j in a slot time (R66). -/
def Fabric.slotDest (f : Fabric) (t j : Nat) : Nat :=
  let n := f.domain.toNat
  let u := f.upCount
  (f.node.toNat + u * (t % ceilDiv n u) + j) % n

/-- A request that travels to a peer on the sync plane (R63), not yet in its queue. -/
def State.toSend (s : State) (n : BitVec 12) (r : Req) : Bool :=
  match r.loc with
  | .glob va p =>
    p.node == some n && r.phase == .pending && !s.canPerform r &&
      (match r.act with | .load _ _ | .store _ | .atomic _ _ _ _ | .elem _ _ => true | _ => false) && s.pastLog r va &&
      -- tile words and write-backs of maps have not sent their own cells yet (R164)
      s.reqs.all fun q => !(q.id < r.id) || !q.kin r || (match r.act with | .elem x _ => x == q.id | _ => false) ||
        (match q.act with
          | .accld _ _ _ _ _ | .accst _ _ _ _ _ => !q.loc.overlaps q.size r.loc r.size
          | .unmap _ _ => !s.backMeets q r
          | _ => true)
  | .spad _ _ => false

/-- The core of a request. -/
def State.reqCore (s : State) (r : Req) : Nat := ((s.team? r.team).map (·.pcore)).getD 0

/-- The first of some numbers after the last one taken, in round-robin order. -/
def nextAfter (last : Nat) (xs : List Nat) : Option Nat := (least (xs.filter fun x => last < x)).or (least xs)

/-- What enters a request queue next. -/
inductive Entrant where
  | req (r : Req)
  /-- The cells of an access of the hub. -/
  | hub (cs : List (Nat × Cell))
  deriving DecidableEq, Repr

/-- What enters the queue next: round-robin over towers, then over the tower's cores, then a core's oldest (R68); an access of the hub while no core has one, so that
it keeps none of them beyond the bound of R69 (log entry 14). -/
def State.nextRequest (s : State) (p : Peer) : Option Entrant :=
  let rs := s.reqs.filter (s.toSend p.node)
  match nextAfter p.lastTower (rs.map fun r => pcTower (s.reqCore r)) with
  | none => p.hubCells.head?.map .hub
  | some t =>
    match nextAfter (p.lastCore.getD t 2000) ((rs.filter fun r => pcTower (s.reqCore r) == t).map s.reqCore) with
    | none => none
    | some c => (sortBy (fun a b => a.id < b.id) (rs.filter fun r => s.reqCore r == c)).head?.map .req

/-- TYPE, whether BSEQ is carried, and payload of a request (R64, R65, R76). -/
def reqCell (r : Req) (pa : Nat) : BitVec 4 × Bool × List Byte :=
  let rel := r.ord == .rel || r.ord == .ar
  match r.act with
  | .load _ _ => (if isAcq r.ord then 6 else 1, false, loadPay pa r.size r.sc)
  | .atomic _ (.atop op) v ret => (3, rel, opPay pa op.toNat r.size r.sc r.ord ret v [])
  | .atomic _ (.cas c) v ret => (3, rel, opPay pa (if r.size == 16 then 0x11 else 0x10) r.size r.sc r.ord ret c v)
  | .store d => (if rel then 5 else 2, rel, storePay pa d r.sc)
  | .elem _ none => (1, false, loadPay pa r.size r.sc)
  | .elem _ (some d) => (2, false, storePay pa d r.sc)
  | _ => (0, false, [])

/-- A request enters the queue toward its peer (R68). -/
def State.enqueue (s : State) (p : Peer) (r : Req) : State :=
  match r.loc with
  | .spad _ _ => s
  | .glob _ q =>
    let (typ, rel, pay) := reqCell r q.pa
    let s := s.queueCell p.node r.id typ rel pay
    let core := s.reqCore r
    let p := s.pairOf p.node
    let s := s.putPair { p with lastTower := pcTower core, lastCore := p.lastCore.put (pcTower core) core }
    { s with reqs := s.reqs.map fun x => if x.id == r.id then { x with phase := .sent } else x }

/-- Cells of a queue (R68). -/
def queueDepth : Nat := 16

/-- The cells of the hub's oldest access enter the queue together (R65). -/
def State.enqueueHub (s : State) (p : Peer) (cs : List (Nat × Cell)) : State :=
  s.putPair { p with requests := p.requests ++ cs, hubCells := p.hubCells.drop 1 }

/-- Accesses enter the queue while it has room for their cells (R68). -/
def State.fillQueue (s : State) (n : BitVec 12) : (fuel : Nat) → State
  | 0 => s
  | f + 1 =>
    let p := s.pairOf n
    if queueDepth ≤ p.requests.length then s
    else
      match s.nextRequest p with
      | none => s
      | some (.req r) => (s.enqueue p r).fillQueue n f
      | some (.hub cs) => if queueDepth < p.requests.length + cs.length then s else (s.enqueueHub p cs).fillQueue n f

/-- A cell goes out on its plane, with the acknowledgement of the moment (R64). -/
def State.emit (s : State) (p : Peer) (c : Cell) : State :=
  { s with fab := { s.fab with cellsOut := s.fab.cellsOut ++ [{ c with ack := p.landed }] } }

/-- The head request departs with a tag, or the head reply, or an empty cell; requests and replies alternate (R64, R68). -/
def State.sendCell (s : State) (n : BitVec 12) : State :=
  let p := s.pairOf n
  let reply (c : Cell) (cs : List Cell) : State := (s.putPair { p with replies := cs, lastReply := true }).emit p c
  let request (x : Nat × Cell) (xs : List (Nat × Cell)) (t : Nat) : State :=
    (s.putPair { p with requests := xs, tags := p.tags ++ [(t, x.1)], lastReply := false }).emit p { x.2 with tag := BitVec.ofNat 8 t }
  match p.requests, p.replies, p.freeTag with
  | x :: xs, c :: cs, some t => if p.lastReply then request x xs t else reply c cs
  | x :: xs, [], some t => request x xs t
  | _, c :: cs, _ => reply c cs
  | _, [], _ => s.emit p (s.cellTo p 0 0 false [])

/-- SYNC_SLOT (R66): the slot time of up port j, once in each slot time; a port without its link holds its cells (R75). -/
def execSyncSlot (j : Nat) (s : State) : Out :=
  let f := s.fab
  let t := f.slotTime s.now
  .next (match f.upPort j with
    | none => s
    | some port =>
      let d := BitVec.ofNat 12 (f.slotDest t j)
      if !f.en || !f.locked || (s.now - f.epoch) % 8 != 0 || f.portDown.getLsbD port || d == f.node || f.slotUsed.get? j == some t then s
      else
        let s : State := { s with fab := { f with slotUsed := f.slotUsed.put j t } }
        (s.fillQueue d queueDepth).sendCell d)

/-! ### What a peer's access does here (R65, R73, R76, R182) -/

/-- The place of an incoming access: local, under FABKEY.KEYID (R73). -/
def State.peerPlace (s : State) (pa : Nat) : Place where
  node := none
  pa := pa
  size := 4096
  key := s.fab.key
  home := 0
  cmp := false
  share := 0
  cfmt := 0
  rmt := true

/-- The agent of an incoming access: a thread of the peer, of which a cell names no more than the node (log entry 35). -/
def peerAgent (src : BitVec 12) : Agent := .thread src 0 0 0

/-- The STATUS with which an incoming access is refused (R64, R73): regions 0x0 to 0xD, memory that exists, and a key that allows it. -/
def State.peerRefuses (s : State) (pa n : Nat) : Option Byte :=
  if 0xD < paRegion pa || (s.paCheck pa).isSome || (s.paCheck (pa + n - 1)).isSome || !s.hub.keyOk s.fab.key.toNat pa then some cAccess else none

/-- Memory holds an incoming access back (R25, R43, R45, R51, R110, R176). -/
def State.peerHolds (s : State) (pa n : Nat) : Bool := s.hubHolds s.fab.key pa n

/-- The bytes that a store cell's mask selects, as runs (R65, R70): the address and bytes of each byte written. -/
def maskedBytes (base mask : Nat) (bs : List Byte) : List (Nat × Byte) :=
  ((List.range bs.length).zip bs).filterMap fun e => if bitOf mask e.1 then some (base + e.1, e.2) else none

/-- Bytes at consecutive addresses as runs. -/
def runsAt : List (Nat × Byte) → List (Nat × List Byte)
  | [] => []
  | (a, b) :: r =>
    match runsAt r with
    | (c, bs) :: rest => if c == a + 1 then (a, b :: bs) :: rest else (a, [b]) :: (c, bs) :: rest
    | [] => [(a, [b])]

/-- Write runs of bytes: a sector that one of them covers whole loses its poison (R46). -/
def State.putRuns (s : State) : List (Nat × List Byte) → State
  | [] => s
  | (a, bs) :: r => (s.devWrite none (s.peerPlace a) bs).putRuns r

/-- Write selected bytes. -/
def State.putBytes (s : State) (xs : List (Nat × Byte)) : State := s.putRuns (runsAt xs)

/-- A cell carries a release (R64, R71). -/
def isRelease (c : Cell) : Bool := c.typ == 5 || (c.typ == 3 && 2 ≤ bitsOf (cellField c 10 1) 3 2)

/-- The first byte and the bytes that a request cell touches. -/
def cellSpan (c : Cell) : Nat × Nat :=
  match c.typ.toNat with
  | 1 | 6 => (cellField c 0 8 % 2 ^ 52, Nat.max 1 (cellField c 8 1))
  | 3 => (cellField c 0 8 % 2 ^ 52, Nat.max 1 (cellField c 9 1))
  | _ => (cellField c 0 8 % 2 ^ 52, 32)

/-- A reply to a cell (R65). -/
def State.replyTo (s : State) (c : Cell) (status : Byte) (data : List Byte) : State :=
  let p := s.pairOf c.src
  s.putPair { p with replies := p.replies ++ [{ s.cellTo p 4 c.tag.toNat false data with status := status }] }

/-- An incoming load or acquire load is performed (R65, R174). -/
def State.peerLoad (s : State) (c : Cell) (acq : Bool) : State :=
  let (pa, n) := cellSpan c
  let sc := scopeAt (cellField c 9 1)
  match s.peerRefuses pa n with
  | some st => s.replyTo c st []
  | none =>
    if (s.badByte s.fab.key.toNat pa n).isSome then (s.spoil s.fab.key.toNat pa n).replyTo c cUncorrectable []
    else if acq && !tagPasses (s.tagOf pa) sc (peerAgent c.src) then s.replyTo c cScope []
    else let (bs, s) := s.devRead none (s.peerPlace pa) n; s.replyTo c 0 bs

/-- The tag that a peer's write leaves (R173): that of its release; a relaxed one tags under its thread's FSCOPE, of which a cell says nothing: free choices
(log entry 35). -/
def State.peerTag (s : State) (pa : Nat) (rel : Bool) (sc : Scope) (src : BitVec 12) : State :=
  if rel then s.setTag pa (sc, peerAgent src)
  else
    let (b, s) := s.freeChoice
    if b then let (x, s) := s.freeWord; s.setTag pa (scopeAt x.toNat, peerAgent src) else s

/-- An incoming store or release is performed (R65, R173). -/
def State.peerStore (s : State) (c : Cell) (rel : Bool) : State :=
  let (pa, n) := cellSpan c
  match s.peerRefuses pa n with
  | some st => s.replyTo c st []
  | none =>
    if s.writeFails (s.peerPlace pa) then s.replyTo c cUncorrectable []
    else
      let s := s.putBytes (maskedBytes pa (cellField c 8 4) (cellBytes c 16 32))
      (s.peerTag pa rel (scopeAt (cellField c 12 1)) c.src).replyTo c 0 []

/-- The operation of a packet (R76): none for a code that no node sends. -/
def cellOp (c : Cell) : Option AOp :=
  let n := cellField c 9 1
  let op := cellField c 8 1
  if op == 0x10 || op == 0x11 then some (.cas (cellBytes c 16 n)) else if op ≤ 9 then some (.atop (BitVec.ofNat 8 op)) else none

/-- An incoming operation packet is performed: one RMW with its order and scope (R76, R168, R173, R174). -/
def State.peerOp (s : State) (c : Cell) : State :=
  let (pa, n) := cellSpan c
  let sc := scopeAt (cellField c 10 1)
  let ord := orderAt (bitsOf (cellField c 10 1) 3 2)
  let ret := bitOf (cellField c 11 1) 0
  match cellOp c with
  | none => s
  | some op =>
    let data := cellBytes c (if cellField c 8 1 ≤ 9 then 16 else 32) n
    match s.peerRefuses pa n with
    | some st => s.replyTo c st []
    | none =>
      if (s.badByte s.fab.key.toNat pa n).isSome then (s.spoil s.fab.key.toNat pa n).replyTo c cUncorrectable []
      else if isAcq ord && !tagPasses (s.tagOf pa) sc (peerAgent c.src) then s.replyTo c cScope []
      else
        let (old, s) := s.devRead none (s.peerPlace pa) n
        let s := match op.apply old data with
          | some new => (s.devWrite none (s.peerPlace pa) new).peerTag pa (isRel ord) sc c.src
          | none => s
        s.replyTo c 0 (if ret then old else [])

/-- A shootdown drops the clean copies of the range's lines of the sender's memory, then replies (R65). -/
def State.peerShoot (s : State) (c : Cell) : State :=
  let lo := c.src.toNat * 2 ^ 52 + cellField c 0 8 % 2 ^ 52
  let s : State := if bitOf (cellField c 12 1) 0 then
      { s with mem := { s.mem with remote := s.mem.remote.dropRange lo (lo + cellField c 8 4 * 4096) } } else s
  s.replyTo c 0 []

/-- A reply to a cell of the hub's own (R65): what it asked for, or for the completion record of a launch whether it was written (R116). -/
def State.answerAsk (s : State) (a : HubAsk) (c : Cell) : State :=
  { s with
    fab := { s.fab with asks :=
      if a.who == 0 || s.launches.any (fun l => l.recWaits.contains a.id) then s.fab.asks.filter fun x => x.id != a.id
      else s.fab.asks.map fun x => if x.id == a.id then { x with reply := some (c.status, cellBytes c 0 64) } else x }
    launches := s.launches.map fun l =>
      if l.recWaits.contains a.id then { l with recWaits := l.recWaits.erase a.id, badWrite := l.badWrite || c.status != 0 } else l }

/-- A reply reaches the request that its tag names (R64). -/
def State.takeReply (s : State) (c : Cell) : State :=
  let p := s.pairOf c.src
  match p.tags.find? fun x => x.1 == c.tag.toNat with
  | none => s
  | some (t, id) =>
    let s := s.putPair { p with tags := p.tags.filter fun x => x.1 != t }
    match s.fab.asks.find? fun a => a.id == id with
    | some a => s.answerAsk a c
    | none => { s with reqs := s.reqs.map fun r => if r.id == id then { r with phase := .replied c.status (cellBytes c 0 64) } else r }

/-- Perform a cell. -/
def State.perform (s : State) (c : Cell) : State :=
  match c.typ.toNat with
  | 1 => s.peerLoad c false
  | 2 => s.peerStore c false
  | 3 => s.peerOp c
  | 4 => s.takeReply c
  | 5 => s.peerStore c true
  | 6 => s.peerLoad c true
  | 7 => s.peerShoot c
  | _ => s

/-- Every bulk packet up to a number has landed (R71), numbers being taken modulo 2^32. -/
def Peer.hasLanded (p : Peer) (n : Word) : Bool := (p.landed - n).toNat < 2 ^ 31

/-- The scope of a request cell (R65, R76). -/
def cellScope (c : Cell) : Scope :=
  match c.typ.toNat with
  | 1 | 6 => scopeAt (cellField c 9 1)
  | 3 => scopeAt (cellField c 10 1)
  | _ => scopeAt (cellField c 12 1)

/-- A cell that has come may be performed now: a request has room for its reply, a release its bulk bytes, memory holds nothing back (R68, R71), and no RMW
stands between its read and its write (R168). -/
def State.mayPerform (s : State) (c : Cell) : Bool :=
  let p := s.pairOf c.src
  if c.typ == 0 || c.typ == 4 then true
  else
    p.replies.length < queueDepth && (!isRelease c || p.hasLanded c.bseq) &&
      (c.typ == 7 || !s.peerHolds (cellSpan c).1 (cellSpan c).2) &&
      (c.typ == 1 || c.typ == 6 || c.typ == 7 || !s.rmwHeld (peerAgent c.src) (cellScope c) (cellSpan c).1 (cellSpan c).2)

/-- A cell arrives from a peer (R64, R67): its acknowledgement counts at once; it waits behind cells that wait. One that comes while EN = 0 is dropped (log entry 14). -/
def State.arrive (s : State) (c : Cell) : State :=
  if !s.fab.en || c.dst != s.fab.node || c.src == s.fab.node then s
  else
    let p := s.pairOf c.src
    let p := { p with acked := c.ack, flights := p.flights.filter fun f => 2 ^ 31 ≤ (c.ack - f.seq).toNat }
    let s := s.putPair p
    if p.waiting.isEmpty && s.mayPerform c then s.perform c else s.putPair { p with waiting := p.waiting ++ [c] }

/-- Cells that waited are performed in order, as far as they may. -/
def State.drainCells (s : State) (src : BitVec 12) : (fuel : Nat) → State
  | 0 => s
  | f + 1 =>
    let p := s.pairOf src
    match p.waiting with
    | [] => s
    | c :: cs => if s.mayPerform c then ((s.putPair { p with waiting := cs }).perform c).drainCells src f else s

/-- The first cell that waits, if it is of a kind and may be performed; then those behind it. -/
def State.goWaiting (s : State) (src : BitVec 12) (kind : Cell → Bool) : State :=
  let p := s.pairOf src
  match p.waiting with
  | [] => s
  | c :: _ => if kind c then s.drainCells src p.waiting.length else s

/-- A cell of one of some types arrives. -/
def State.arriveAs (s : State) (types : List Nat) (c : Cell) : State := if types.contains c.typ.toNat then s.arrive c else s

/-- FAB_EMPTY_CELL (R64). -/
def execFabEmptyCell (c : Cell) (s : State) : Out := .next (s.arriveAs [0] c)
/-- FAB_LOAD_CELL (R65). -/
def execFabLoadCell (c : Cell) (s : State) : Out := .next (s.arriveAs [1] c)
/-- FAB_ACQUIRE_LOAD_CELL (R65). -/
def execFabAcquireLoadCell (c : Cell) (s : State) : Out := .next (s.arriveAs [6] c)
/-- FAB_STORE_CELL (R65). -/
def execFabStoreCell (c : Cell) (s : State) : Out := .next (s.arriveAs [2] c)
/-- FAB_RELEASE_CELL (R71). -/
def execFabReleaseCell (c : Cell) (s : State) : Out := .next (s.arriveAs [5] c)
/-- FAB_OPERATION_PACKET (R76). -/
def execFabOperationPacket (c : Cell) (s : State) : Out := .next (s.arriveAs [3] c)
/-- FAB_REPLY_CELL (R65). -/
def execFabReplyCell (c : Cell) (s : State) : Out := .next (s.arriveAs [4] c)
/-- FAB_SHOOTDOWN_CELL (R65). -/
def execFabShootdownCell (c : Cell) (s : State) : Out := .next (s.arriveAs [7] c)

/-- FAB_RESERVED_CELL (R64): discarded. -/
def execFabReservedCell (c : Cell) (s : State) : Out :=
  .next (if s.fab.en && 8 ≤ c.typ.toNat then { s with fab := { s.fab with proterr := true } } else s)

/-- FAB_RELEASE_APPLY (R71): a release that waits has its bulk bytes. -/
def execFabReleaseApply (src : BitVec 12) (s : State) : Out := .next (s.goWaiting src isRelease)
/-- FAB_REQUEST_RESUME (R68): a request that waits has room for its reply. -/
def execFabRequestResume (src : BitVec 12) (s : State) : Out := .next (s.goWaiting src fun c => !isRelease c)

/-! ### Bulk packets (R70, R71) -/

/-- Numbers that have landed beyond the first missing one are taken in. -/
def Peer.catchUp (p : Peer) : (fuel : Nat) → Peer
  | 0 => p
  | f + 1 => if p.ahead.contains (p.landed + 1) then ({ p with landed := p.landed + 1, ahead := p.ahead.erase (p.landed + 1) }).catchUp f else p

/-- A packet of the same node for the same line is being kept back (R70). -/
def State.lineKept (s : State) (b : Bulk) : Bool :=
  s.kept.any fun i => match i with | .bulkPacketArrive x => x.src == b.src && x.line.toNat / 128 == b.line.toNat / 128 | _ => false

/-- BULK_PACKET_ARRIVE (R70, R71): the bytes are written under FABKEY.KEYID, unless memory refuses them, and the packet has landed; memory may keep it back, and then
those behind it for its line. -/
def execBulkPacketArrive (b : Bulk) (s : State) : Out :=
  let pa := b.line.toNat / 128 * 128
  .next (if !s.fab.en || b.src == s.fab.node then s
    else if s.lineKept b || s.peerHolds pa 128 || s.rmwHeld (peerAgent b.src) .pkg pa 128 then s.again (.bulkPacketArrive b)
    else
      let s := if (s.peerRefuses pa 128).isSome || s.writeFails (s.peerPlace pa) then s
        else s.putBytes (maskedBytes pa b.mask.toNat ((padTo 128 b.data).take 128))
      let p := s.pairOf b.src
      let p := if p.ahead.contains b.seq || p.hasLanded b.seq then p else { p with ahead := p.ahead ++ [b.seq] }
      s.putPair (p.catchUp p.ahead.length))

/-! ### Registers and links (R74, R75) -/

/-- FAB_EPOCH_LOCK (R66, R74): the node follows the slot epoch, while EN = 1 (log entry 14), and the latency is measured. -/
def execFabEpochLock (flat : BitVec 16) (s : State) : Out :=
  .next (if s.fab.en && !s.fab.locked then { s with fab := { s.fab with locked := true, flat := flat, epoch := s.now, slotUsed := [] } } else s)

/-- FAB_EPOCH_LOSS (R66). -/
def execFabEpochLoss (s : State) : Out := .next { s with fab := { s.fab with locked := false } }

/-- FAB_LINK_DOWN (R75): the port stays without its link until module reset (log entry 14). -/
def execFabLinkDown (p : BitVec 6) (s : State) : Out :=
  .next (if s.fab.upmask.getLsbD p.toNat && !s.fab.portDown.getLsbD p.toNat then
      ({ s with fab := { s.fab with linkdown := true, portDown := s.fab.portDown ||| (1#64 <<< p.toNat) } }).postHub 0x4011 0x12 p.toNat
    else s)

/-- A write to FABCFG (R74, R75): clearing EN clears LOCKED and keeps the queues, tags and bulk numbers of every pair (log entry 14). -/
def State.writeFabcfg (s : State) (v : Word) : State :=
  let f := s.fab
  let dom : BitVec 12 := v.extractLsb' 16 12
  let node : BitVec 12 := v.extractLsb' 0 12
  if f.en then { s with fab := { f with en := v.getLsbD 31, locked := f.locked && v.getLsbD 31 } }
  else if !v.getLsbD 31 then { s with fab := { f with domain := dom, node := node } }
  else if dom == 0 || 3072 < dom.toNat || dom.toNat ≤ node.toNat || f.upCount == 0 then { s with fab := { f with cfgerr := true } }
  else { s with fab := { f with en := true, domain := dom, node := node } }

/-- FABCFG_WRITE (R75). -/
def execFabcfgWrite (v : Word) (s : State) : Out := .next (s.writeFabcfg v)

/-! ### The far tier (R81, R82) -/

/-- The bits of FARDEC that software writes (R81). -/
def fardecMask : Word := 0xF8C03FFF

/-- A value that sets EN is refused (R81). -/
def fardecBad (v base : Word) : Bool :=
  bitsOf v.toNat 30 29 == 3 || bitsOf v.toNat 28 27 == 3 || bitsOf v.toNat 13 0 == 0 || 8192 < base.toNat % 2 ^ 13 + bitsOf v.toNat 13 0

/-- A write to FARDEC (R81). -/
def State.writeFardec (s : State) (n : Fin 4) (v : Word) : State :=
  let w := v &&& fardecMask
  { s with fab := { s.fab with fardec := s.fab.fardec.set n (if fardecBad v s.fab.farbase[n] then w &&& 0x7FFFFFFF else w) } }

/-- FARDEC_WRITE (R81). -/
def execFardecWrite (n : Fin 4) (v : Word) (s : State) : Out := .next (s.writeFardec n v)

/-- A far-tier event: port and cause (R101; log entry 36). -/
def State.postFar (s : State) (port cause : Nat) : State := s.postHub 0x4012 0x13 (port + 256 * cause)

/-- The fill of a mapped line for which an access waits (R159): the team, the line, its VA and its place. -/
def State.fillOf (s : State) (r : Req) : Option (Nat × Nat × DWord × Place) :=
  match r.loc with
  | .glob _ _ => none
  | .spad k off =>
    let l := off / 128 * 128
    ((s.team? k).bind fun t => t.mapAt off).bind fun m => (m.filling.get? l).map fun p => (k, l, m.va + BitVec.ofNat 64 (l - m.off), p)

/-- An access that gets no answer ends: the access itself, or the fill for which it waits (R413); none when it goes elsewhere. -/
def State.timeOut (s : State) (r : Req) (hit : Place → Bool) : Option (State × Place) :=
  match r.places.find? fun x => hit x.2, s.fillOf r with
  | some (va, p), _ => some (s.failReq r cUncorrectable va, p)
  | none, some (k, l, va, p) => if hit p then some (s.failFill k l (lateOf cUncorrectable va), p) else none
  | none, none => none

/-- The port of the far tier behind a place. -/
def State.portOf (s : State) (p : Place) : Option Nat :=
  if p.node.isNone && paRegion p.pa == 0xD then (s.fab.farPort (paLocal p.pa)).map (·.1) else none

/-- The port of the far tier that the next piece of a copy reaches. -/
def State.copyFar (s : State) (c : Copy) : Option Nat := (s.copyPlaces c).findSome? s.portOf

/-- An ACCLD gets no answer for a page of some memory: its read of the first byte of the operand there fails (R82, R106, R413). -/
def State.loseTile (s : State) (r : Req) (hit : Place → Bool) : Option State :=
  match r.act with
  | .accld _ _ _ _ _ => (r.places.find? fun x => hit x.2).map fun x =>
      { s with mem := { s.mem with lost := s.mem.lost ++ [s.farSeat (x.2.pa / 4096 * 4096 + x.1.toNat % 4096) / 32] } }
  | _ => none

/-- FAR_TIER_TIMEOUT (R82): an outstanding access to the far tier, a fill, or the piece of a copy gets no answer. -/
def execFarTierTimeout (n : Nat) (s : State) : Out :=
  .next (match s.req? n, s.copy? n with
    | some r, _ => (s.loseTile r fun p => (s.portOf p).isSome).getD <|
      match s.timeOut r fun p => (s.portOf p).isSome with
      | some (t, p) => t.postFar ((s.portOf p).getD 0) 2
      | none => s
    | none, some c =>
      match (if s.copyRuns c && !c.cancel && c.fid.isNone then s.copyFar c else none) with
      | some port => (s.stopCopy c (.failed cUncorrectable)).postFar port 2
      | none => s
    | none, none => s)

/-- FAR_TIER_LINK_DOWN (R82): the port stays without its link until module reset (log entry 36). -/
def execFarTierLinkDown (p : Fin 4) (s : State) : Out :=
  .next (if s.fab.farDown.contains p.val then s else ({ s with fab := { s.fab with farDown := s.fab.farDown ++ [p.val] } }).postFar p.val 3)

end Sys2Proof.Machine
end

