-- ==== Sys2Proof/Machine/Host.lean ====
section
/-!
DEFINITION. The host interface (R83 to R99, R105 to R110, R119): CXL.mem accesses, work queues and their entries, bias flips and FLUSH, WAIT and SIGNAL, SPDM and keys.
-/
namespace Sys2Proof.Machine

/-! ### CXL.mem (R85, R97, R98, R181) -/

/-- Bytes of the range over the towers, and of a window (R85). -/
def towerSpan : Nat := 2 ^ 36
def windowSpan : Nat := 2 ^ 26

/-- Where a host offset leads: an address and the key ID of the access; none where R85 refuses it. -/
def State.hostPlace (s : State) (off n : Nat) : Option (Nat × Nat) :=
  if off < 12 * towerSpan then
    let pa := regionBase (off / towerSpan) + off % towerSpan
    let k := s.hub.hostKey.toNat
    if s.inDram pa && s.inDram (pa + n - 1) && !(s.tower (off / towerSpan)).failed && s.hub.keyOk k pa then some (pa, k) else none
  else
    let x := off - 12 * towerSpan
    let w := x / windowSpan
    if h : w < 4 then
      let v := s.hub.hwin[w]
      let b := bitsOf v.toNat 5 0
      if v.getLsbD 31 && b < s.hub.units.toNat && x % windowSpan + n ≤ windowSpan then some (0xC * 2 ^ 48 + b * windowSpan + x % windowSpan, 0) else none
    else none

/-- A line of which a device copy holds dirty bytes may have been written back to the hub by itself (R97): a free choice (log entry 11). -/
def State.meetLine (s : State) (line : Nat) : State :=
  if s.mem.hidden.any fun e => e.1 / 128 == line then
    let (b, s) := s.freeChoice
    if b then { s with mem := s.mem.settle (128 * line) (128 * line + 128) } else s
  else s

/-- The same for some lines. -/
def State.meetLines (s : State) : List Nat → State
  | [] => s
  | l :: ls => (s.meetLine l).meetLines ls

/-- Memory as the hub has it in the line of an address (R97). -/
def State.atHubView (s : State) (a : Nat) : State := if s.mem.hidden.isEmpty then s else { s with mem := s.mem.hubView (a / 128) }

/-- Send a message to the host. -/
def State.tell (s : State) (m : HostMsg) : State := { s with hostOut := s.hostOut ++ [m] }

/-- The data of a host read, one message per 32-byte sector touched; a sector that cannot be read gives poisoned data (R46, R47, R50, R52, R85). -/
def State.hostSectors (s : State) (k : Nat) : (fuel : Nat) → Nat → Nat → State
  | 0, _, _ => s
  | f + 1, a, n =>
    if n == 0 then s
    else
      let m := Nat.min n (32 - a % 32)
      let s := if (s.badByte k a m).isSome then (s.spoil k a 1).tell (.data [] true)
        else s.tell (.data ((s.atHubView a).readUnder k a m) false)
      s.hostSectors k f (a + m) (n - m)

/-- Memory holds a host access back: a quiesce, a flush, a refresh, a pause, a line that a copy owns, or the key of the access (R43, R45, R51, R110). -/
def State.hostHolds (s : State) (pa k n : Nat) : Bool := s.towerHolds pa || s.owned none pa n || s.hub.keyWork.any fun w => w.id.toNat == k

/-- The host takes lines that it may cache (R94, R98). -/
def State.giveHost (s : State) (ls : List Nat) : State :=
  { s with mem := { s.mem with hostLines := s.mem.hostLines ++ ls.filter fun l => s.hostMayHold (128 * l) && !s.mem.hostLines.contains l } }

/-- Memory holds a host write back: as a read, and between the read and the write of an RMW with which the host is mutually scoped (R107, R168). -/
def State.hostWriteHolds (s : State) (pa k n : Nat) : Bool := s.hostHolds pa k n || s.rmwHeld .host .sys pa n

/-- A host access to one of the same lines is kept back (log entry 46). -/
def State.hostKept (s : State) (off n : Nat) : Bool :=
  s.kept.any fun i => match i with
    | .hostCxlMemRead x m => overlap (off / 128) (n / 128 + 2) (x.toNat / 128) (m / 128 + 2)
    | .hostCxlMemWrite x d => overlap (off / 128) (n / 128 + 2) (x.toNat / 128) (d.length / 128 + 2)
    | _ => false

/-- HOST_CXL_MEM_READ (R85, R94, R97): n bytes at an offset of the HDM range. -/
def execHostCxlMemRead (off : BitVec 40) (n : Nat) (s : State) : Out :=
  .next (if n == 0 then s
    else
      match s.hostPlace off.toNat n with
      | none => s.tell (.data [] true)
      | some (pa, k) => if s.hostKept off.toNat n || s.hostHolds pa k n then s.again (.hostCxlMemRead off n)
        else ((s.meetLines ((linesAt pa n).filter fun l => s.windowed (128 * l))).hostSectors k (n + 1) pa n).giveHost (linesAt pa n))

/-- Before the host writes part of a line in window mode (R97): what a device copy holds dirty may have come back by itself, and has when it stands under another key than the host's. -/
def State.openLine (s : State) (k line : Nat) : State :=
  let s := s.meetLine line
  if (lineSectors line).any fun x => (s.mem.hubView line).keyOf x != (k, s.hub.gen k) then { s with mem := s.mem.settle (128 * line) (128 * line + 128) } else s

/-- The host replaces one byte (R97): where a device copy holds it dirty, at the hub only, for that copy stays and goes over it when it is written back; elsewhere device copies of what it replaces may stay. -/
def State.hostByte (s : State) (k a : Nat) (b : Byte) : State :=
  let m := s.mem
  match m.hidden.get? a with
  | some h => { s with mem := { m with hidden := m.hidden.put a { h with byte := b } } }
  | none =>
    let m := if s.windowed a then
        { m with stale := m.stale.put a ({ byte := Memory.read m.bytes a, towers := 0xFFF, key := m.keyOf (a / 32) } :: m.stale.getD a []) } else m
    ({ s with mem := m } : State).writeByte none k a b

/-- The host replaces bytes. -/
def State.hostBytes (s : State) (k a : Nat) : List Byte → State
  | [] => s
  | b :: bs => (s.hostByte k a b).hostBytes k (a + 1) bs

/-- Write back what stands in the way of a host write, line by line. -/
def State.openLines (s : State) (k : Nat) : List Nat → State
  | [] => s
  | l :: ls => (s.openLine k l).openLines k ls

/-- Copies of lines in core L1s, which the directory does not track, go when a host write or snoop reaches lines that the host may cache (R94). -/
def State.dropL1 (s : State) (ls : List Nat) : State :=
  { s with mem := { s.mem with l1 := s.mem.l1.filter fun c => !(ls.contains c.line && s.hostMayHold (128 * c.line)) } }

/-- A host write to device memory (R46, R85, R94, R97). -/
def State.hostWrite (s : State) (k pa : Nat) (d : List Byte) : State :=
  let ls := linesAt pa d.length
  (((((s.openLines k (ls.filter fun l => s.windowed (128 * l))).notePast pa d.length).hostBytes k pa d).clearPoison pa d.length)).dropL1 ls

/-- The lines of a range carry a tag (R173). -/
def State.tagLines (s : State) (tg : Tag) : List Nat → State
  | [] => s
  | a :: r => (s.setTag a tg).tagLines tg r

/-- The first bytes of the lines that n bytes touch. -/
def linesOf (a n : Nat) : List Nat := if n == 0 then [] else (List.range ((a + n - 1) / 128 - a / 128 + 1)).map fun i => (a / 128 + i) * 128

/-- HOST_CXL_MEM_WRITE (R85, R173). -/
def execHostCxlMemWrite (off : BitVec 40) (d : List Byte) (s : State) : Out :=
  .next (if d.isEmpty then s
    else
      match s.hostPlace off.toNat d.length with
      | none => s
      | some (pa, k) =>
        if s.hostKept off.toNat d.length || s.hostWriteHolds pa k d.length then s.again (.hostCxlMemWrite off d)
        else
          (s.hostWrite k pa d).tagLines (.sys, .host) (linesOf pa d.length))

/-- HOST_SNOOP (R94, R105): the hub's copy of a host line is written back, and dropped if asked; of a line of device memory that the host may cache, device copies go if asked. -/
def execHostSnoop (line : Nat) (drop : Bool) (s : State) : Out := .next (if drop then (s.cleanHost line true).dropL1 [line] else s.cleanHost line false)

/-- The host gives a line of device memory back with what it has made of it (R94, R107): only a line that it still holds, so that no device access has come between. -/
def State.hostBack (s : State) (line : Nat) (d : List Byte) : State :=
  let pa := 128 * line
  let k := if s.inDram pa then s.hub.hostKey.toNat else 0
  if !s.mem.hostLines.contains line || d.length != 128 || s.hostWriteHolds pa k 128 then s
  else ((s.hostWrite k pa d).tagLines (.sys, .host) [pa]).fromHost [line]

/-- An access of a core that the host or PCIe completes: a store is posted. -/
def Act.awaits : Act → Bool
  | .load _ _ | .atomic _ _ _ _ | .accld _ _ _ _ _ => true
  | _ => false

/-- HOST_COMPLETION_TIMEOUT (R106, R413): an access to host memory, or the fill for which one waits, gets no completion. -/
def execHostCompletionTimeout (n : Nat) (s : State) : Out :=
  .next (match s.req? n with
    | none => s
    | some r =>
      if r.act.awaits || (s.fillOf r).isSome then
        (s.loseTile r fun p => p.node.isNone && paRegion p.pa == 0xE).getD <|
        match s.timeOut r fun p => p.node.isNone && paRegion p.pa == 0xE with
        | some (t, _) => t
        | none => s
      else s)

/-- PCIe completes an atomic of the non-coherent route as an Unsupported Request (R106). -/
def State.hostRefuse (s : State) (n : Nat) : State :=
  match s.req? n with
  | none => s
  | some r =>
    match r.loc, r.act with
    | .glob va p, .atomic _ _ _ _ =>
      if p.node.isNone && paRegion p.pa == 0xE && bitsOf p.pa 47 46 == 1 && r.got.isNone then
        s.failWith r { cause := cAtomic, addr := va, info := if r.defers then r.iw ||| 256 else r.iw }
      else s
    | _, _ => s

/-! ### Work queues (R86 to R90) -/

/-- A write to HQCTL (R86); as EN rises, every event queue starts again (R100). -/
def State.writeHqctl (s : State) (v : Word) : State :=
  let en := v.getLsbD 0
  let s : State := if en && !s.hub.hqEn then
      { s with eqs := s.eqs.map fun q => { EventQ.blank q.num with waiting := q.waiting } } else s
  { s with hub := { s.hub with hqEn := en } }

/-- HQCTL_WRITE (R86). -/
def execHqctlWrite (v : Word) (s : State) : Out := .next (s.writeHqctl v)

/-- The state of a queue that has never been enabled. -/
def Queue.blank (n : Nat) : Queue where
  num := n
  state := .disabled
  err := 0
  ctx := []
  head := 0
  tail := 0
  entries := []
  due := 0

/-- Work queue n. -/
def State.wq (s : State) (n : Nat) : Queue := (s.queue? n).getD (Queue.blank n)

/-- Replace a work queue. -/
def State.putQueue (s : State) (q : Queue) : State :=
  { s with wqs := if s.wqs.any (fun x => x.num == q.num) then s.wqs.map fun x => if x.num == q.num then q else x else s.wqs ++ [q] }

/-- Fields of a context (R87). -/
def Queue.ring (q : Queue) : Nat := fieldAt q.ctx 0 8
def Queue.size (q : Queue) : Nat := 2 ^ fieldAt q.ctx 8 1
def Queue.prio (q : Queue) : Nat := fieldAt q.ctx 9 1
def Queue.eq (q : Queue) : Nat := fieldAt q.ctx 10 2 % 1024
def Queue.quantum (q : Queue) : Nat := fieldAt q.ctx 12 4
def Queue.headAddr (q : Queue) : Nat := fieldAt q.ctx 16 8
def Queue.root (q : Queue) : DWord := BitVec.ofNat 64 (fieldAt q.ctx 24 8)
def Queue.part (q : Queue) : Nat := fieldAt q.ctx 32 1

/-- An address of a context lies outside region 0xF (R88). -/
def ctxAddr (a : Nat) : Bool := a < 0xF000000000000

/-- A context is valid (R88). -/
def ctxOk (bs : List Byte) : Bool :=
  let f := fieldAt bs
  4 ≤ f 8 1 && f 8 1 ≤ 16 && f 0 8 % (2 ^ (f 8 1) * 64) == 0 && f 9 1 < 8 && f 33 3 == 0 && f 38 2 == 0 && f 40 24 == 0 &&
    f 24 8 < 2 ^ 52 && bitsOf (f 24 8) 15 12 == 0 && ctxAddr (f 0 8) && ctxAddr (f 16 8) && ctxAddr (f 24 8)

/-- A physical write of the hub, refused as a device access would be (R90). -/
def State.hubStore (s : State) (pa : Nat) (bs : List Byte) : Bool × State :=
  if (s.paCheck pa).isSome || s.writeFails (hubPlace pa) then (false, s) else (true, s.devWrite none (hubPlace pa) bs)

/-- The hub writes a queue's state into its context (R87); a refused write is skipped (DESIGN CHOICE, log entry 51). -/
def State.noteState (s : State) (q : Nat) (code err : Nat) : State := (s.hubStore (s.hub.hqBase + 64 * q + 36) (leBytes 4 (code + 256 * err))).2

/-- A queue enters ERROR with a code, and QUEUE_ERROR is posted (R88 to R90). -/
def State.queueError (s : State) (q : Queue) (code : Nat) : State :=
  let s := s.putQueue { q with state := .error, err := BitVec.ofNat 8 code, due := 0 }
  (s.noteState q.num 2 code).post q.eq (eventBytes q.num 0x03 code 0 0)

/-- Write a queue's head index to HEADADDR; a refused write puts it in ERROR (R90). -/
def State.writeHead (s : State) (q : Queue) : State :=
  match s.hubStore q.headAddr (leBytes 4 q.head) with
  | (true, s) => s.putQueue q
  | (false, s) => s.queueError q 0x05

/-- Memory keeps back the context of a queue. -/
def State.ctxHolds (s : State) (n : Nat) : Bool := s.hubHolds 0 (s.hub.hqBase + 64 * n) 64

/-- An operation of the host on a queue is kept back (log entry 46). -/
def State.queueKept (s : State) (n : BitVec 14) : Bool :=
  s.kept.any fun i => match i with
    | .hqcmdEnable q | .hqcmdDisable q | .hqcmdReset q | .wqDoorbell q _ => q == n
    | _ => false

/-- Enable a disabled queue (R88). A context that cannot be read gives ERROR 0x01 too, and QUEUE_ERROR goes to the EQ in the bytes that stand there (DESIGN CHOICE,
log entry 51). -/
def State.enable (s : State) (n : Nat) : State :=
  let at' := s.hub.hqBase + 64 * n
  let bs := s.readUnder 0 at' 64
  if s.ctxHolds n || s.hubHolds 0 (fieldAt bs 16 8) 4 then (s.retriesAt [at', fieldAt bs 16 8]).again (.hqcmdEnable (BitVec.ofNat 14 n)) else
  let old := (s.wq n).entries.filter (·.granted)
  let q := { Queue.blank n with ctx := bs, entries := old, state := .active }
  if (s.paCheck at').isSome || (s.badByte 0 at' 64).isSome || !ctxOk bs then (s.spoil 0 at' 64).queueError q 0x01
  else (s.noteState n 1 0).writeHead q

/-- HQCMD_ENABLE (R88). -/
def execHqcmdEnable (q : BitVec 14) (s : State) : Out :=
  .next (if s.queueKept q then s.again (.hqcmdEnable q) else if (s.wq q.toNat).state == .disabled then s.enable q.toNat else s)

/-- Stop fetching from an active queue (R88). -/
def State.disable (s : State) (n : Nat) : State :=
  let q := s.wq n
  if q.state == .active then s.putQueue { q with state := .disabling, due := 0 } else s

/-- HQCMD_DISABLE (R88). -/
def execHqcmdDisable (q : BitVec 14) (s : State) : Out := .next (if s.queueKept q then s.again (.hqcmdDisable q) else s.disable q.toNat)

/-- Leave ERROR (R88). -/
def State.resetQueue (s : State) (n : Nat) : State :=
  let q := s.wq n
  if q.state != .error then s
  else if s.ctxHolds n then (s.retryAt (s.hub.hqBase + 64 * n)).again (.hqcmdReset (BitVec.ofNat 14 n))
  else (s.putQueue { q with state := .disabled, err := 0 }).noteState n 0 0

/-- HQCMD_RESET (R88). -/
def execHqcmdReset (q : BitVec 14) (s : State) : Out := .next (if s.queueKept q then s.again (.hqcmdReset q) else s.resetQueue q.toNat)

/-- QUEUE_DISABLE_COMPLETE (R88): every started entry and every device-side launch of the queue has completed. -/
def execQueueDisableComplete (q : BitVec 14) (s : State) : Out :=
  let w := s.wq q.toNat
  .next (if w.state != .disabling || w.entries.any (·.granted) || s.launches.any (fun l => l.queue == q.toNat) then s
    else s.hubTry (s.hub.hqBase + 64 * q.toNat) 64 fun s => ((s.putQueue { w with state := .disabled, entries := [] }).noteState q.toNat 0 0).post w.eq (eventBytes q.toNat 0x04 0 0 0))

/-- Pending entries: from head up to the tail (R89). -/
def Queue.pending (q : Queue) (tail : Nat) : Nat := (tail + q.size - q.head) % q.size

/-- A value written to a queue's doorbell (R89). -/
def State.queueDoor (s : State) (q : BitVec 14) (v : Word) : State :=
  let w := s.wq q.toNat
  if !s.hub.hqEn || (w.state != .active && w.state != .disabling) then s
  else if (w.size ≤ v.toNat || w.pending v.toNat < w.pending w.tail) && s.ctxHolds q.toNat then (s.retryAt (s.hub.hqBase + 64 * q.toNat)).again (.wqDoorbell q v)
  else if w.size ≤ v.toNat then s.queueError w 0x03
  else if w.pending v.toNat < w.pending w.tail then s.queueError w 0x04
  else s.putQueue { w with tail := v.toNat }

/-- WQ_DOORBELL (R89). -/
def execWqDoorbell (q : BitVec 14) (v : Word) (s : State) : Out := .next (if s.queueKept q then s.again (.wqDoorbell q v) else s.queueDoor q v)

/-- Fields of an entry. -/
def QEntry.opc (e : QEntry) : Nat := fieldAt e.bytes 0 1
def QEntry.f (e : QEntry) (o n : Nat) : Nat := fieldAt e.bytes o n

/-- Where the i-th unfetched entry lies (R87). -/
def Queue.slotAt (q : Queue) (i : Nat) : Nat := q.ring + 64 * ((q.head + i) % q.size)

/-- Fetch n entries from the head on: none when a read fails (R90). -/
def State.fetchEntries (s : State) (q : Queue) : (n i : Nat) → Option (List (List Byte)) × State
  | 0, _ => (some [], s)
  | n + 1, i =>
    let a := q.slotAt i
    if (s.paCheck a).isSome || (s.badByte 0 a 64).isSome then (none, s.spoil 0 a 64)
    else
      let bs := s.readUnder 0 a 64
      match s.fetchEntries q n (i + 1) with
      | (some l, s) => (some (bs :: l), s)
      | (none, s) => (none, s)

/-- Entries as fetched, numbered from k. -/
def newEntries (k : Nat) (l : List (List Byte)) : List QEntry :=
  (List.range l.length).zip l |>.map fun x => { num := k + x.1, bytes := x.2, granted := false, started := false, progress := 0, order := 0 }

/-! ### The start of an entry (R91, R92) -/

/-- An entry of these bytes may start while the entries of these opcodes have not completed: FENCE, the commands that behave as if it were set, and WAIT (R92). -/
def mayStart (bs : List Byte) (before : List Nat) : Bool :=
  let opc := fieldAt bs 0 1
  !((bitOf (fieldAt bs 1 1) 0 || (2 ≤ opc && opc ≤ 5)) && !before.isEmpty) && !before.contains 4

/-- The next entry that a queue has fetched and not started, if FENCE and WAIT allow it to start (R92). -/
def Queue.startable (q : Queue) : Option QEntry :=
  if q.state != .active then none
  else
    match q.entries.find? fun e => !e.granted with
    | none => none
    | some e => if mayStart e.bytes ((q.entries.takeWhile fun x => x.num != e.num).map (·.opc)) then some e else none

/-- The i-th unfetched entry as it stands in the ring. -/
def State.ringEntry (s : State) (q : Queue) (i : Nat) : List Byte := s.readUnder 0 (q.slotAt i) 64

/-- A queue has a pending entry that FENCE and WAIT allow to start (R119). -/
def State.mayGrant (s : State) (q : Queue) : Bool :=
  if q.entries.any fun e => !e.granted then q.startable.isSome
  else q.state == .active && q.due < q.pending q.tail &&
    mayStart (s.ringEntry q q.due) (q.entries.map (·.opc) ++ (List.range q.due).map fun i => fieldAt (s.ringEntry q i) 0 1)

/-- The range of FLUSH and BIAS lies in tower DRAM (R93). -/
def State.dramRange (s : State) (base n : Nat) : Bool := s.inDram base && s.inDram (base + n - 1) && paRegion base == paRegion (base + n - 1)

/-- Bytes that must be zero, by opcode (R91, R93). -/
def QEntry.zeros (e : QEntry) : Bool :=
  e.f 2 2 == 0 && e.f 1 1 < 4 &&
  match e.opc with
  | 0 => e.f 8 56 == 0
  | 1 => e.f 16 48 == 0
  | 2 => e.f 25 39 == 0
  | 3 => e.f 21 43 == 0
  | 4 => e.f 25 39 == 0
  | _ => e.f 24 40 == 0

/-- Operands within their limits (R93). -/
def State.operandsOk (s : State) (e : QEntry) : Bool :=
  match e.opc with
  | 0 => true
  | 1 => e.f 8 8 % 256 == 0
  | 2 => e.f 8 8 % 128 == 0 && e.f 16 8 % 128 == 0 && 0 < e.f 16 8 && e.f 16 8 ≤ 2 ^ 40 && e.f 24 1 ≤ 1 && s.dramRange (e.f 8 8) (e.f 16 8)
  | 3 => e.f 8 8 % 2 ^ 21 == 0 && 0 < e.f 16 4 && e.f 20 1 ≤ 1 && s.dramRange (e.f 8 8) (e.f 16 4 * 2 ^ 21)
  | 4 => e.f 8 8 % 8 == 0 && e.f 24 1 ≤ 2
  | _ => e.f 8 8 % 8 == 0

/-- The status with which an entry fails as it starts, in the order of R91. -/
def State.entryStatus (s : State) (e : QEntry) : Nat :=
  if 5 < e.opc then 0x01 else if !e.zeros then 0x02 else if !s.operandsOk e then 0x03 else 0

/-- Change an entry of a queue. -/
def State.modEntry (s : State) (q e : Nat) (f : QEntry → QEntry) : State :=
  s.modQueue q fun w => { w with entries := w.entries.map fun x => if x.num == e then f x else x }

/-- An entry starts, in the order of starts (R96), or fails at once if its header or operands do (R91). -/
def State.startEntry (s : State) (q : Nat) (e : QEntry) : State :=
  let st := s.entryStatus e
  if st != 0 then s.endEntry q e.num st
  else { s.modEntry q e.num fun x => { x with granted := true, order := s.nextKey } with nextKey := s.nextKey + 1 }

/-- Entries start in ring order. -/
def State.startEntries (s : State) (q : Nat) : List QEntry → State
  | [] => s
  | e :: es => (s.startEntry q e).startEntries q es

/-- QUEUE_ENTRY_FETCH (R90): n consecutive pending entries of a queue that has been granted, then HEADADDR once; the entries for which it was granted start. -/
def execQueueEntryFetch (q : BitVec 14) (n : Nat) (s : State) : Out :=
  let w := s.wq q.toNat
  .next (if w.state != .active || w.due == 0 || n == 0 || w.pending w.tail < n then s
    else if s.ctxHolds q.toNat || s.hubHolds 0 w.headAddr 4 || (List.range n).any (fun i => s.hubHolds 0 (w.slotAt i) 64) then
      s.retriesAt ([s.hub.hqBase + 64 * q.toNat, w.headAddr] ++ (List.range n).map w.slotAt)
    else
      match s.fetchEntries w n 0 with
      | (none, s) => s.queueError w 0x02
      | (some l, s) =>
        let new := newEntries s.nextKey l
        let s := ({ s with nextKey := s.nextKey + n }).writeHead { w with head := (w.head + n) % w.size, entries := w.entries ++ new, due := w.due - n }
        if (s.wq q.toNat).state == .active then s.startEntries q.toNat (new.take w.due) else s)

/-! ### Arbitration (R119) -/

/-- The level that owns a slot of a frame (R119). -/
def slotLevel (s : Nat) : Nat :=
  if s % 2 == 0 then 7 else if s % 4 == 1 then 6 else if s % 8 == 3 then 5 else if s % 16 == 7 then 4 else if s % 32 == 15 then 3 else if s == 31 then 2 else 1

/-- Queues of a level that are eligible. -/
def State.eligible (s : State) (lv : Nat) : List Nat := (s.wqs.filter fun q => q.prio == lv && s.mayGrant q).map (·.num)

/-- The queue that a level grants next: round-robin in ascending number (R119). -/
def State.levelGrant (s : State) (lv : Nat) : Option (Nat × Nat) :=
  (match s.rr.get? lv with
    | some last => nextAfter last (s.eligible lv)
    | none => least (s.eligible lv)).map fun q => (lv, q)

/-- The level and queue granted in a slot: the owner, else the highest level with an eligible queue (R119). -/
def State.grant (s : State) (slot : Nat) : Option (Nat × Nat) :=
  (s.levelGrant (slotLevel slot)).or ([7, 6, 5, 4, 3, 2, 1, 0].findSome? s.levelGrant)

/-- QUEUE_ARBITRATION_SLOT (R119): one slot each 16 cycles grants one queue, which starts its next entry once it has fetched it. -/
def execQueueArbitrationSlot (s : State) : Out :=
  .next (if s.now % 16 != 0 || s.lastSlot == some (s.now / 16) then s
    else
      let s : State := { s with lastSlot := some (s.now / 16) }
      match s.grant (s.now / 16 % 64) with
      | none => s
      | some (lv, q) =>
        let s : State := { s with rr := s.rr.put lv q }
        match (s.wq q).startable with
        | none => s.modQueue q fun w => { w with due := w.due + 1 }
        | some e => s.startEntry q e)

/-! ### Entries (R93) -/

/-- The entry of a number with an opcode, once granted; begun says whether its command is under way. -/
def State.entry? (s : State) (q e opc : Nat) (begun : Bool) : Option QEntry :=
  (s.wq q).entries.find? fun x => x.num == e && x.opc == opc && x.granted && x.started == begun

/-- The command of an entry is under way. -/
def State.begin (s : State) (q e : Nat) : State := s.modEntry q e fun x => { x with started := true }

/-- NOP_ENTRY (R93). -/
def execNopEntry (q : BitVec 14) (e : Nat) (s : State) : Out :=
  .next (match s.entry? q.toNat e 0 false with
    | none => s
    | some _ => s.endEntry q.toNat e 0)

/-- LAUNCH_ENTRY (R114). -/
def execLaunchEntry (q : BitVec 14) (e : Nat) (s : State) : Out :=
  .next (match s.entry? q.toNat e 1 false with
    | none => s
    | some x =>
      let w := s.wq q.toNat
      if s.launchBusy e w.root (BitVec.ofNat 64 (x.f 8 8)) w.part then s.launchAsk e w.root (BitVec.ofNat 64 (x.f 8 8)) w.part else
      match s.startLaunch e w.root (BitVec.ofNat 64 (x.f 8 8)) q.toNat w.part w.prio w.quantum (.entry q.toNat e) with
      | (0, s) => s.begin q.toNat e
      | (st, s) => s.endEntry q.toNat e st)

/-- FLUSH_ENTRY (R93). -/
def execFlushEntry (q : BitVec 14) (e : Nat) (s : State) : Out :=
  .next (match s.entry? q.toNat e 2 false with
    | none => s
    | some _ => s.begin q.toNat e)

/-- No copy owns a line of a range, and memory holds nothing back. -/
def State.rangeFree (s : State) (lo n : Nat) : Bool := !s.owned none lo n && !s.towerHolds lo

/-- FLUSH_COMPLETE (R97): dirty copies of the range have reached the hub; MODE 1 drops every device copy below it, in a tower in window mode. -/
def execFlushComplete (q : BitVec 14) (e : Nat) (s : State) : Out :=
  .next (match s.entry? q.toNat e 2 true with
    | none => s
    | some x =>
      let lo := x.f 8 8
      let n := x.f 16 8
      if !s.rangeFree lo n then s
      else
        let m : MemSys := s.mem.settle lo (lo + n)
        let m : MemSys := if x.f 24 1 == 1 && s.windowed lo then
            { m with stale := m.stale.dropRange lo (lo + n), l1 := m.l1.filter fun c => !(lo ≤ c.line * 128 && c.line * 128 < lo + n) } else m
        ({ s with mem := m }).endEntry q.toNat e 0)

/-- BIAS_ENTRY (R93). -/
def execBiasEntry (q : BitVec 14) (e : Nat) (s : State) : Out :=
  .next (match s.entry? q.toNat e 3 false with
    | none => s
    | some _ => s.begin q.toNat e)

/-- Flip one page (R95): to device bias the host gives its lines back; to host bias every device copy is dropped first. -/
def State.flipPage (s : State) (page : Nat) (device : Bool) : State :=
  if device then { s with mem := { s.mem with
      hostBias := s.mem.hostBias.filter (· != page)
      hostLines := s.mem.hostLines.filter fun l => l * 128 / 2 ^ 21 != page } }
  else
    let m := s.mem.recall (page * 2 ^ 21) (page * 2 ^ 21 + 2 ^ 21)
    { s with mem := { m with l1 := m.l1.filter fun c => c.line * 128 / 2 ^ 21 != page, hostBias := m.hostBias ++ [page] } }

/-- The page that a BIAS entry flips next, and the page after its last (R95). -/
def QEntry.biasPage (e : QEntry) : Nat := e.f 8 8 / 2 ^ 21 + e.progress
def QEntry.biasEnd (e : QEntry) : Nat := e.f 8 8 / 2 ^ 21 + e.f 16 4

/-- A BIAS entry that started earlier has still to flip the page (R96). -/
def State.flipWaits (s : State) (x : QEntry) : Bool :=
  s.wqs.any fun w => w.entries.any fun y =>
    y.opc == 3 && y.granted && y.order < x.order && y.biasPage ≤ x.biasPage && x.biasPage < y.biasEnd

/-- BIAS_PAGE_FLIP (R95, R96): the next page of the range; a tower in window mode fails the entry, and a page already at TARGET is left as it is. -/
def execBiasPageFlip (q : BitVec 14) (e : Nat) (s : State) : Out :=
  .next (match s.entry? q.toNat e 3 true with
    | none => s
    | some x =>
      let pa := x.biasPage * 2 ^ 21
      let device := x.f 20 1 == 1
      if s.flipWaits x then s
      else if !s.hub.hbiasen.getLsbD (paRegion pa) then s.endEntry q.toNat e 0x05
      else
        let there := s.mem.hostBias.contains x.biasPage != device
        if !there && !s.rangeFree pa (2 ^ 21) then s
        else
          let s := if there then s else s.flipPage x.biasPage device
          if x.biasPage + 1 == x.biasEnd then s.endEntry q.toNat e 0
          else s.modEntry q.toNat e fun y => { y with progress := y.progress + 1 })

/-- WAIT_ENTRY (R93). -/
def execWaitEntry (q : BitVec 14) (e : Nat) (s : State) : Out :=
  .next (match s.entry? q.toNat e 4 false with
    | none => s
    | some _ => s.begin q.toNat e)

/-- COND of WAIT (R93). -/
def waitCond (cond x v : Nat) : Bool := match cond with | 0 => v ≤ x | 1 => x == v | _ => x != v

/-- WAIT_POLL (R93): an acquire at system scope by the hub. -/
def execWaitPoll (q : BitVec 14) (e : Nat) (s : State) : Out :=
  .next (match s.entry? q.toNat e 4 true with
    | none => s
    | some x =>
      let pa := x.f 8 8
      s.hubTry pa 8 fun s =>
      if 2 ^ 52 ≤ pa || (s.paCheck pa).isSome || (s.badByte 0 pa 8).isSome || !tagPasses (s.tagOf pa) .sys (.hub s.fab.node) then (s.spoil 0 pa 8).endEntry q.toNat e 0x04
      else
        let (bs, s) := s.devRead none (hubPlace pa) 8
        if waitCond (x.f 24 1) (leNat bs) (x.f 16 8) then s.endEntry q.toNat e 0 else s)

/-- SIGNAL_ENTRY (R93). -/
def execSignalEntry (q : BitVec 14) (e : Nat) (s : State) : Out :=
  .next (match s.entry? q.toNat e 5 false with
    | none => s
    | some _ => s.begin q.toNat e)

/-- SIGNAL_STORE_DONE (R93, R173): a store with release order at system scope. -/
def execSignalStoreDone (q : BitVec 14) (e : Nat) (s : State) : Out :=
  .next (match s.entry? q.toNat e 5 true with
    | none => s
    | some x =>
      let pa := x.f 8 8
      s.hubTry pa 8 fun s =>
      if 2 ^ 52 ≤ pa then s.endEntry q.toNat e 0x04
      else
        match s.hubStore pa (leBytes 8 (x.f 16 8)) with
        | (true, s) => (s.setTag pa (.sys, .hub s.fab.node)).endEntry q.toNat e 0
        | (false, s) => s.endEntry q.toNat e 0x04)

/-- HPINCFG (R99): while unlocked and with every tower quiesced; a changed size writes the hub's cache back, drops what it holds, and fills pinned memory with zeros. -/
def State.writeHpincfg (s : State) (v : Word) : State :=
  let u : BitVec 6 := v.extractLsb' 0 6
  if s.hub.lock || !s.towers.toList.all (·.quiesced) || 32 < u.toNat then s
  else
    let s : State := if u == s.hub.units then s else
        let s := s.cleanHosts (s.mem.hubHost.map (·.1))
        { s with mem := s.mem.wipe (0xC * 2 ^ 48) (0xD * 2 ^ 48) }
    { s with hub := { s.hub with units := u } }

/-- HPINCFG_WRITE (R99). -/
def execHpincfgWrite (v : Word) (s : State) : Out := .next (s.writeHpincfg v)

/-! ### DOE, SPDM and keys (R83, R108 to R110) -/

/-- Messages to the host: what they answer (log entry 38). -/
def msgDiscovery : Nat := 0
def msgAlgorithms : Nat := 1
def msgKeyExchange : Nat := 2
def msgMeasurements : Nat := 3
def msgKey : Nat := 4

/-- DOE_DISCOVERY (R83): protocol i of the mailbox and the next index; DOE Discovery, then CMA/SPDM (log entry 38). -/
def execDoeDiscovery (i : Nat) (s : State) : Out :=
  .next (s.tell (.text msgDiscovery (match i with | 0 => [1, 0, 1] | 1 => [1, 1, 0] | _ => [0xFFFF, 0xFF, 0])))

/-- SPDM_NEGOTIATE_ALGORITHMS (R108): what the requester offers of ML-DSA-44 and SHA3-256; one that offers neither fails. -/
def execSpdmNegotiateAlgorithms (mldsa sha3 : Bool) (s : State) : Out :=
  .next (if !mldsa && !sha3 then s.tell (.text msgAlgorithms [0])
    else ({ s with hub := { s.hub with doeAlg := some (mldsa, sha3) } } : State).tell (.text msgAlgorithms [1, b2n mldsa, b2n sha3]))

/-- SPDM_KEY_EXCHANGE (R108): a secured session needs the negotiated algorithms, ML-KEM-768 and AES-256-GCM. -/
def execSpdmKeyExchange (sess : Nat) (mlkem aes : Bool) (s : State) : Out :=
  .next (if s.hub.doeAlg == some (true, true) && mlkem && aes && !(s.hub.sessions.any fun x => x.num == sess) then
      ({ s with hub := { s.hub with sessions := s.hub.sessions ++ [{ num := sess }] } } : State).tell (.text msgKeyExchange [1, sess])
    else s.tell (.text msgKeyExchange [0, sess]))

/-- The measurement blocks asked for, in the order of their indices (R108). -/
def Hub.blocks (h : Hub) (digest : Digests) (log : Bool) : List Nat :=
  (if digest.firmware then [Config.firmwareDigest.toNat] else []) ++ (if digest.measured then [h.digest.toNat] else []) ++ if log then [h.runlog.toNat] else []

/-- SPDM_MEASUREMENTS (R57, R108): a signed response that holds the digest and the log, sent while MEASURED, moves the state to RELEASED. -/
def execSpdmMeasurements (signed : Bool) (digest : Digests) (log : Bool) (s : State) : Out :=
  .next (if s.hub.doeAlg.isNone || (signed && s.hub.doeAlg != some (true, true)) then s.tell (.text msgMeasurements [0])
    else
      let s := s.tell (.text msgMeasurements ([1, b2n signed] ++ s.hub.blocks digest log))
      let s' : State := { s with hub := { s.hub with mState := .keyed } }
      if signed && digest.measured && log && s.hub.mState == .measured then s' else s)

/-- The status byte of a key message (R109), its tests in the order of their codes (log entry 38). -/
def State.keyStatus (s : State) (code want pad id : Nat) : Nat :=
  if s.hub.mState != .keyed then 0x01 else if id == 0 || 1023 < id then 0x02 else if code != want || pad != 0 then 0x03 else 0x00

/-- A key message in a session: refused at once, or the work is taken up (R109, R110). -/
def State.keyMessage (s : State) (sess : Nat) (status id : Nat) (value : Option (BitVec 512)) : State :=
  if !(s.hub.sessions.any fun x => x.num == sess) then s
  else if status != 0 then s.tell (.text msgKey [sess, status])
  else { s with hub := { s.hub with keyWork := s.hub.keyWork ++ [{ id := BitVec.ofNat 10 id, value := value, session := sess }] } }

/-- KEY_LOAD (R109). -/
def execKeyLoad (sess : Nat) (msg : BitVec 544) (s : State) : Out :=
  let n := msg.toNat
  .next (s.keyMessage sess (s.keyStatus (n % 256) 0x01 (n / 2 ^ 8 % 256) (n / 2 ^ 16 % 2 ^ 16)) (n / 2 ^ 16 % 2 ^ 16) (some (msg.extractLsb' 32 512)))

/-- KEY_CLEAR (R109). -/
def execKeyClear (sess : Nat) (msg : BitVec 32) (s : State) : Out :=
  let n := msg.toNat
  .next (s.keyMessage sess (s.keyStatus (n % 256) 0x02 (n / 2 ^ 8 % 256) (n / 2 ^ 16 % 2 ^ 16)) (n / 2 ^ 16 % 2 ^ 16) none)

/-- KEY_INSTALL_DONE (R110): the lines under the ID have been written back and dropped; the new key, or the erasure, governs every later access. -/
def execKeyInstallDone (id : BitVec 10) (s : State) : Out :=
  .next (match s.hub.keyWork.find? fun w => w.id == id with
    | none => s
    | some w =>
      let k := id.toNat
      let h := { s.hub with
        keys := (match w.value with | some v => s.hub.keys.put k v | none => s.hub.keys.erase k)
        keyGen := s.hub.keyGen.put k (s.hub.gen k + 1)
        keyPast := (match w.value with | some v => (k, s.hub.gen k + 1, v) :: s.hub.keyPast | none => s.hub.keyPast)
        keyWork := s.hub.keyWork.erase w }
      let s := s.recallKeys fun x => x == k
      ({ s with hub := h }).tell (.text msgKey [w.session, 0]))

/-- SPDM_SESSION_END (R110): keys stay. -/
def execSpdmSessionEnd (sess : Nat) (s : State) : Out :=
  .next { s with hub := { s.hub with sessions := s.hub.sessions.filter fun x => x.num != sess } }

end Sys2Proof.Machine
end

