-- ==== Sys2Proof/Machine/Regs.lean ====
section
/-!
DEFINITION. The registers of the tower and hub blocks as the host reads and writes them (R4, R5, R20 to R22, R35, R36, R39 to R42, R48, R55, R56, R74, R81, R84 to R86, R94, R98, R99, R106, R111, R191, R194).
-/
namespace Sys2Proof.Machine

/-- Where a register address leads: a tower block, the hub block, the MSI-X table, or a doorbell (R84; log entry 37). -/
inductive Block32 where
  | tower (t off : Nat)
  | hub (off : Nat)
  | msix (off : Nat)
  | wqDoor (q : BitVec 14)
  | eqDoor (e : BitVec 10)
  | none

/-- The block behind an offset of BAR0: tower t at t × 0x0100_0000, the hub at 0x1000_0000 (R84). -/
def bar0 (o : Nat) : Block32 :=
  if o < 12 * 0x1000000 then .tower (o / 0x1000000) (o % 0x1000000)
  else if 0x10000000 ≤ o && o < 0x20000000 then .hub (o - 0x10000000)
  else .none

/-- The doorbell behind an offset of BAR2: queue q at q × 0x1000, event queue e at 0x0400_0000 + e × 0x1000 (R84). -/
def bar2 (o : Nat) : Block32 :=
  if o % 0x1000 != 0 then .none
  else if o < 0x4000000 then .wqDoor (BitVec.ofNat 14 (o / 0x1000))
  else if o < 0x4400000 then .eqDoor (BitVec.ofNat 10 ((o - 0x4000000) / 0x1000))
  else .none

/-- The block of an address (R20, R55, R84): the package's own addresses, and behind them those of the model for BAR4, BAR0 and BAR2 (log entry 37). -/
def blockAt (pa : Nat) : Block32 :=
  let o := pa % 2 ^ 32
  match pa / 2 ^ 32 with
  | 0xF0100 => if o < 12 * 2 ^ 24 then .tower (o / 2 ^ 24) (o % 2 ^ 24) else .none
  | 0xF0200 => .hub o
  | 0xF0300 => .msix o
  | 0xF0400 => bar0 o
  | 0xF0500 => bar2 o
  | _ => .none

/-- The low and high half of an address register of 4 KiB pages (R86). -/
def setLow (a : Nat) (v : Word) : Nat := a / 2 ^ 32 * 2 ^ 32 + v.toNat / 2 ^ 12 * 2 ^ 12
def setHigh (a : Nat) (v : Word) : Nat := v.toNat % 2 ^ 20 * 2 ^ 32 + a % 2 ^ 32

/-! ### Reading -/

/-- A bit at a place. -/
def bitAt (b : Bool) (n : Nat) : Nat := b2n b * 2 ^ n

/-- ROLESTAT.PHASE (R22). -/
def RolePhase.code : RolePhase → Nat
  | .idle => 0 | .drain => 1 | .flush => 2 | .enumerate => 3

/-- A register of a tower block (R20 to R22, R35, R36, R39, R41, R42, R48, R101, R111); write-only fields and other offsets read zero. -/
def Tower.regRead (t : Tower) (off : Nat) : Nat :=
  match off with
  | 0x0000 => t.roleset
  | 0x0008 => bitAt t.roleBusy 31 + t.rolePhase.code * 2 ^ 28 + bitAt t.roleOverrun 17 + bitAt t.roleDone 16 + t.roleResult.toNat
  | 0x0010 => t.tevq.toNat
  | 0x0014 => t.tpart.toNat
  | 0x0100 => t.therm.word.toNat
  | 0x0104 => t.prefovr.toNat * 16 + t.hmin.toNat
  | 0x0108 => t.thcnt.toNat
  | 0x0200 => b2n t.quiesce
  | 0x0204 => bitAt t.failed 31 + bitAt t.realign 4 + bitAt t.zeroing 3 + bitAt t.cherr 1 + b2n t.quiesced
  | 0x0208 => t.chashW.toNat
  | 0x020C => t.memcap
  | _ => if 0x0400 ≤ off && off ≤ 0x047C && off % 4 == 0 then t.bankmap ((off - 0x0400) / 4) else 0

/-- MSECSTAT.STATE (R55). -/
def MState.code : MState → Nat
  | .opened => 0 | .measured => 1 | .keyed => 2

/-- A fault waits for a slot of the ring (R194). -/
def State.fqFull (s : State) : Bool := s.faults.any (fun f => !f.recorded) && 2 ^ s.hub.fqLog.toNat ≤ s.hub.fqUnret

/-- A register of the hub block; write-only fields and other offsets read zero. -/
def State.hubRead32 (s : State) (off : Nat) : Nat :=
  let h := s.hub
  let f := s.fab
  match off with
  | 0x1000 => b2n h.lock
  | 0x1004 => bitAt h.mBusy 3 + bitAt h.mErr 2 + h.mState.code
  | 0x1010 => h.units.toNat
  | 0x3000 => bitAt f.en 31 + f.domain.toNat * 2 ^ 16 + f.node.toNat
  | 0x3004 => bitAt f.locked 31 + bitAt f.cfgerr 30 + bitAt f.linkdown 29 + bitAt f.proterr 28 + f.upCount
  | 0x3008 => f.upmask.toNat % 2 ^ 32
  | 0x300C => f.upmask.toNat / 2 ^ 32
  | 0x3010 => f.flat.toNat
  | 0x3014 => f.key.toNat
  | 0x4000 => h.hostKey.toNat
  | 0x4010 => b2n h.hqEn
  | 0x4014 => h.hqBase % 2 ^ 32
  | 0x4018 => h.hqBase / 2 ^ 32
  | 0x401C => h.heqBase % 2 ^ 32
  | 0x4020 => h.heqBase / 2 ^ 32
  | 0x4024 => h.hsyseq.toNat
  | 0x4030 => h.hbiasen.toNat
  | 0x4034 => h.hatomcap.toNat * 2
  | 0x5000 => h.fqBase % 2 ^ 32
  | 0x5004 => h.fqBase / 2 ^ 32
  | 0x5008 => bitAt h.fqEn 31 + h.fqTmo.toNat * 2 ^ 16 + h.fqVec.toNat * 2 ^ 5 + h.fqLog.toNat
  | 0x5010 => bitAt s.fqFull 31 + bitAt h.badReply 30 + s.faults.length
  | 0x5200 => h.invVa.toNat % 2 ^ 32
  | 0x5204 => h.invVa.toNat / 2 ^ 32
  | 0x5208 => h.invPa.toNat % 2 ^ 32
  | 0x520C => h.invPa.toNat / 2 ^ 32
  | 0x5210 => h.invAsid.toNat * 2 ^ 20 + h.invCount.toNat
  | 0x5218 => bitAt h.invBusy 31 + bitAt h.invOverrun 1 + b2n h.invDone
  | _ =>
    if off % 4 != 0 then 0
    else if hk : 0x2000 ≤ off ∧ off < 0x2100 then (h.keypol[(off - 0x2000) / 4]'(by omega)).toNat
    else if hd : 0x3100 ≤ off ∧ off < 0x3120 then
      (if off % 8 == 0 then f.fardec[(off - 0x3100) / 8]'(by omega) else f.farbase[(off - 0x3100) / 8]'(by omega)).toNat
    else if hw : 0x4040 ≤ off ∧ off < 0x4050 then (h.hwin[(off - 0x4040) / 4]'(by omega)).toNat
    else 0

/-- A 32-bit register read by the host (R4, R5, R84). -/
def State.regRead (s : State) (pa : Nat) : Nat :=
  match blockAt pa with
  | .tower t off => (s.tower t).regRead off
  | .hub off => s.hubRead32 off
  | .msix off =>
    if off % 4 != 0 then 0
    else if off < 0x8000 then (s.hub.msixWord (off / 4)).toNat
    else if off < 0x8100 then sumNat ((List.range 32).map fun b => bitAt (s.hub.msixPend.contains ((off - 0x8000) * 8 + b)) b)
    else 0
  | .wqDoor _ | .eqDoor _ | .none => 0

/-! ### Writing -/

/-- A write to a register of a tower block. -/
def State.towerWrite (s : State) (t off : Nat) (v : Word) : State :=
  match off with
  | 0x0004 => s.roleCmd t v
  | 0x0008 => s.modTower t fun w => { w with roleOverrun := w.roleOverrun && !v.getLsbD 17, roleDone := w.roleDone && !v.getLsbD 16 }
  | 0x0010 => s.modTower t fun w => { w with tevq := v.extractLsb' 0 10 }
  | 0x0014 => s.modTower t fun w => if w.quiesced then { w with tpart := v.extractLsb' 0 4 } else w
  | 0x0104 => s.modTower t fun w => { w with prefovr := v.extractLsb' 4 2, hmin := v.extractLsb' 0 3 }
  | 0x0200 => if v.getLsbD 0 then s.setQuiesce t else s.clearQuiesce t
  | 0x0204 => s.modTower t fun w => { w with cherr := w.cherr && !v.getLsbD 1 }
  | 0x0208 => s.writeChash t v
  | _ => s

/-- A write to HQCMD (R86, R88). -/
def State.hqcmd (s : State) (v : Word) : State :=
  let q := v.toNat % 2 ^ 14
  match bitsOf v.toNat 31 30 with
  | 1 => if (s.wq q).state == .disabled then s.enable q else s
  | 2 => s.disable q
  | 3 => s.resetQueue q
  | _ => s

/-- A base register is written only while its enable is 0 (R86, R194). -/
def Hub.unless (h : Hub) (en : Bool) (h' : Hub) : Hub := if en then h else h'

/-- A write to a register of the hub block. -/
def State.hubWrite32 (s : State) (off : Nat) (v : Word) : State :=
  let h := s.hub
  let f := s.fab
  let put (h : Hub) : State := { s with hub := h }
  let putF (f : Fabric) : State := { s with fab := f }
  match off with
  | 0x1000 => if v.getLsbD 0 then s.lockNow else s.unlockNow
  | 0x1004 => put { h with mErr := h.mErr && !v.getLsbD 2 }
  | 0x1010 => s.writeHpincfg v
  | 0x3000 => s.writeFabcfg v
  | 0x3004 => putF { f with
      cfgerr := f.cfgerr && !v.getLsbD 30
      linkdown := f.linkdown && !v.getLsbD 29
      proterr := f.proterr && !v.getLsbD 28 }
  | 0x3008 => if f.en then s else putF { f with upmask := f.upmask.extractLsb' 32 32 ++ v }
  | 0x300C => if f.en then s else putF { f with upmask := v ++ f.upmask.extractLsb' 0 32 }
  | 0x3014 => if f.en then s else putF { f with key := v.extractLsb' 0 10 }
  | 0x4000 => put { h with hostKey := v &&& 0x3FF }
  | 0x4010 => s.writeHqctl v
  | 0x4014 => put (h.unless h.hqEn { h with hqBase := setLow h.hqBase v })
  | 0x4018 => put (h.unless h.hqEn { h with hqBase := setHigh h.hqBase v })
  | 0x401C => put (h.unless h.hqEn { h with heqBase := setLow h.heqBase v })
  | 0x4020 => put (h.unless h.hqEn { h with heqBase := setHigh h.heqBase v })
  | 0x4024 => put { h with hsyseq := v.extractLsb' 0 10 }
  | 0x4028 => s.hqcmd v
  | 0x4030 => put { h with hbiasen := v.extractLsb' 0 12 }
  | 0x4034 => put { h with hatomcap := v.extractLsb' 1 5 }
  | 0x5000 => put (h.unless h.fqEn { h with fqBase := setLow h.fqBase v })
  | 0x5004 => put (h.unless h.fqEn { h with fqBase := setHigh h.fqBase v })
  | 0x5008 => s.writeFqcfg v
  | 0x500C => s.fqDoor v
  | 0x5014 => s.freply v
  | 0x5010 => put { h with badReply := h.badReply && !v.getLsbD 30 }
  | 0x5200 => put { h with invVa := h.invVa.extractLsb' 32 32 ++ (v &&& 0xFFFFF000) }
  | 0x5204 => put { h with invVa := (v &&& 0x00FFFFFF) ++ h.invVa.extractLsb' 0 32 }
  | 0x5208 => put { h with invPa := h.invPa.extractLsb' 32 32 ++ (v &&& 0xFFFFF000) }
  | 0x520C => put { h with invPa := (v &&& 0x000FFFFF) ++ h.invPa.extractLsb' 0 32 }
  | 0x5210 => put { h with invAsid := v.extractLsb' 20 12, invCount := v.extractLsb' 0 20 }
  | 0x5214 => s.invalidate v fun _ => true
  | 0x5218 => put { h with invOverrun := h.invOverrun && !v.getLsbD 1, invDone := h.invDone && !v.getLsbD 0 }
  | _ =>
    if off % 4 != 0 then s
    else if hk : 0x2000 ≤ off ∧ off < 0x2100 then s.writeKeypol (BitVec.ofNat 6 ((off - 0x2000) / 4)) v
    else if hd : 0x3100 ≤ off ∧ off < 0x3120 then
      (if off % 8 == 0 then s.writeFardec ⟨(off - 0x3100) / 8, by omega⟩ v
      else putF { f with farbase := f.farbase.set ((off - 0x3100) / 8) (v &&& 0x1FFF) (by omega) })
    else if hw : 0x4040 ≤ off ∧ off < 0x4050 then s.setWindow ⟨(off - 0x4040) / 4, by omega⟩ v
    else s

/-- A write to the MSI-X table; a vector that is unmasked while pending requests its interrupt (R104; log entry 37). -/
def State.msixWrite (s : State) (off : Nat) (v : Word) : State :=
  if off % 4 != 0 || 0x8000 ≤ off then s
  else
    let s : State := { s with hub := { s.hub with msix := s.hub.msix.put (off / 4) v } }
    let vec := off / 16
    if off % 16 == 12 && !s.hub.masked vec && s.hub.msixPend.contains vec then
      { s with hub := { s.hub with msixPend := s.hub.msixPend.filter (· != vec) }, irq := s.irq ++ [vec] }
    else s

/-- REGISTER_WRITE (R4, R5, R84). -/
def execRegisterWrite (pa : BitVec 52) (v : Word) (s : State) : Out :=
  .next (match blockAt pa.toNat with
    | .tower t off => s.towerWrite t off v
    | .hub off => s.hubWrite32 off v
    | .msix off => s.msixWrite off v
    | .wqDoor q => s.queueDoor q v
    | .eqDoor e => s.eventDoor e v
    | .none => s)

end Sys2Proof.Machine
end

