-- ==== Sys2Proof/Machine/Run.lean ====
section
/-!
DEFINITION. Runs (R136 to R140): forming a convoy, beginning and ending clauses, the word that issues next and what follows it.
-/
namespace Sys2Proof.Machine

/-! ### Beginning and ending a clause -/

/-- A thread of a halted team that is no longer RUNNING is STOPPED (R134). -/
def State.stopHalted (s : State) (k i : Nat) : State :=
  match s.team? k with
  | none => s
  | some t => if t.cause.isSome then s.modThread k i Thread.stop else s

/-- Threads of a halted team that are no longer RUNNING are STOPPED (R134). -/
def State.stopAll (s : State) (k : Nat) : List Nat → State
  | [] => s
  | i :: is => (s.stopHalted k i).stopAll k is

/-- The run of a thread ends (R134, R136): STOPPED in a halting team. -/
def State.endRun (s : State) (k i : Nat) : State :=
  match s.team? k with
  | none => s
  | some t => s.modThread k i fun th => if t.cause.isSome then { th with st := .stopped } else { th with st := .ready, since := s.now }

/-- The run ends at a clause header: the thread is READY, or WAITING when the header's WAIT names a nonzero counter (R134); it is RUNNING there while memory keeps the
header back. -/
def State.endAtHeader (s : State) (k i : Nat) : State :=
  match s.team? k, s.thread? k i with
  | some t, some th =>
    if t.cause.isSome then s.endRun k i
    else
      match s.fetch t th.pc with
      | (.word h, s) =>
        if hdrOk h && !th.waitOk h then s.modThread k i fun th => { th with st := .waiting .flags, hdr := h } else s.endRun k i
      | (.wait, s) => s
      | (_, s) => s.endRun k i
  | _, _ => s

/-- A thread at a clause header begins the clause (R136, R266): the header is fetched, checked and its WAIT tested; in a run under way the clause must fit the 24 words.
While memory keeps the header back the thread stays at it in its run. -/
def State.beginClause (s : State) (k i : Nat) (first : Bool) : State :=
  match s.team? k, s.thread? k i with
  | some t, some th =>
    match s.fetch t th.pc with
    | (.trap tr, s) => s.takeTrap k i tr
    | (.fault r l, s) => s.holdFetch k i th.pc r l
    | (.wait, s) => s
    | (.word h, s) =>
      if !first && hdrOk h && 24 < th.used + hdrLen h then
        if th.waitOk h then s.endRun k i else s.modThread k i fun th => { th with st := .waiting .flags, hdr := h }
      else if !hdrOk h then s.takeTrap k i (clauseTrap th.pc h)
      else if !th.waitOk h then s.modThread k i fun th => { th with st := .waiting .flags, hdr := h }
      else s.modThread k i fun th => { th with hdr := h, used := th.used + hdrLen h, pc := th.pc + 4 }
  | _, _ => s

/-- Words of the clause that remain from pc on (R136). -/
def Thread.remaining (t : Thread) : Nat := (t.nextClause - t.pc).toNat / 4

/-- A member begins its run (R136, R175, R201, R413): a cause it has not taken comes first. -/
def State.beginRun (s : State) (k i : Nat) : State :=
  match s.thread? k i with
  | none => s
  | some th =>
    match th.failed, th.later with
    | some tr, _ => (s.modThread k i fun th => { th with failed := none }).takeTrap k i tr
    | none, (_, tr) :: rest => (s.modThread k i fun th => { th with later := rest }).takeTrap k i tr
    | none, [] =>
      if th.pc == th.clause then s.beginClause k i true
      else s.modThread k i fun th => { th with used := th.remaining }

/-- Every member begins. -/
def State.beginRuns (s : State) (k : Nat) : List Nat → State
  | [] => s
  | i :: is => ((s.beginRun k i).beginRuns k is).stopHalted k i

/-! ### Forming a convoy (R138) -/

/-- A thread of the arbiter's list. -/
structure Cand where
  team : Nat
  tid : Nat
  since : Nat
  slot : Nat
  lane : BitVec 5
  pc : DWord
  deriving DecidableEq, Repr

/-- The READY threads homed in a quadrant of a core. -/
def State.cands (s : State) (p : Nat) (q : BitVec 2) : List Cand :=
  (s.teams.filter fun t => t.pcore == p && t.status == .resident && t.cause.isNone).flatMap fun t =>
    (List.range t.threads.length).filterMap fun i =>
      match t.threads[i]? with
      | some th =>
        if th.st == .ready && th.quad == q then
          some { team := t.key, tid := i, since := th.since, slot := th.slot, lane := th.lane, pc := th.pc }
        else none
      | none => none

/-- The greater age first, ties by the lowest slot (R138). -/
def older (a b : Cand) : Bool := a.since < b.since || (a.since == b.since && a.slot < b.slot)

/-- The members that fuse with the leader: the same team and PC, on lanes not taken (R138). -/
def fuse (l : Cand) : List (BitVec 5) → List Cand → List Cand
  | _, [] => []
  | taken, c :: cs =>
    if c.team == l.team && c.pc == l.pc && !taken.contains c.lane then c :: fuse l (c.lane :: taken) cs else fuse l taken cs

/-- The convoy, leader first. -/
def State.convoy (s : State) (p : Nat) (q : BitVec 2) : List Cand :=
  match sortBy older (s.cands p q) with
  | [] => []
  | l :: cs => l :: fuse l [l.lane] cs

/-- The lines of maps that a word reads of scratchpad as it issues are filled (R159). -/
def fillsDone (t : Team) (th : Thread) (i : Instr) : Bool :=
  let ls := match i with
    | .accld o | .accst o =>
      let w := o.lit.getD 0
      if accSp w then (List.range (128 * accTiles w)).flatMap fun j => spadLines ((th.reg o.d).toNat + j * (th.reg o.b).toNat) (128 * accSize w) else []
    | i => wordLines t th i
  ls.all fun l => match t.mapAt l with | some m => (m.filling.get? l).isNone | none => true

/-- The resource for which a thread waits before its word is free (R139, R159, R199, R219, R242, R372): a descriptor slot or a reservation-table entry with a
future entry, a place in the side log, the fill of a line. -/
def State.resourceFree (s : State) (t : Team) (th : Thread) : Bool :=
  let quad := quadIx t.pcore
  match th.word with
  | none => true
  | some i => fillsDone t th i && match i with
    | .copy _ => t.futureFree && s.slotsUsed quad < 64
    | .mma _ => t.futureFree && s.tableUsed quad < 32
    | .launch _ => t.futureFree
    | .st _ | .strel _ | .sth _ | .red _ | .redc _ => !s.logFull t.pcore
    | _ => true

/-- Threads that wait for a resource which is free become READY (R134). -/
def State.wakeResources (s : State) : State :=
  { s with teams := s.teams.map fun t =>
      if t.status == .resident && t.cause.isNone then
        { t with threads := t.threads.map fun th =>
            if th.st == .waiting .resource && s.resourceFree t th then { th.wake s.now with word := none } else th }
      else t }

/-- The header or word at which a thread would begin its run is kept back. -/
def State.startHeld (s : State) (k i : Nat) : Bool :=
  match s.team? k, s.thread? k i with
  | some t, some th => th.failed.isNone && th.later.isEmpty && th.pc == th.clause && s.fetchHeld t th.pc
  | _, _ => false

/-- RUN_START (R138). -/
def execRunStart (p : BitVec 11) (q : BitVec 2) (s : State) : Out :=
  .next (
    if s.runs.any (fun r => r.pcore == p.toNat && r.quad == q) || !s.runCycle (pcTower p.toNat) then s
    else
      let s' := s.wakeResources
      match s'.convoy p.toNat q with
      | [] => s
      | l :: cs =>
        let is := (l :: cs).map (·.tid)
        if is.any (s'.startHeld l.team) then s else
        let s' := s'.modThreads l.team is fun th => { th with st := .running, used := 0 }
        let s' := s'.beginRuns l.team is
        { s' with runs := s'.runs ++ [{ pcore := p.toNat, quad := q, team := l.team, todo := is, done := [], apart := [], stalled := false }] })

/-! ### The word that issues next -/

/-- Members still RUNNING. -/
def State.running (s : State) (k : Nat) (is : List Nat) : List Nat :=
  is.filter fun i => match s.thread? k i with | some th => th.st == .running | none => false

/-- The header under which a thread's next word stands; none yet at a header. -/
def Thread.hdrAt (t : Thread) : Word := if t.pc == t.clause then 0 else t.hdr

/-- Members at the leader's PC under its clause, and the others, whose words are decoded under another (R137, R266). -/
def State.together (s : State) (k : Nat) (is : List Nat) : List Nat × List Nat :=
  match is with
  | [] => ([], [])
  | l :: _ =>
    let at' := fun j => (s.thread? k j).map fun th => (th.pc, th.clause, th.hdrAt)
    is.partition fun i => at' i == at' l

/-- The run with the members that issue its next word: the convoy at its leader's PC, or a member apart (R138); of members that have begun their run under different
clauses, those of the leader's. -/
def State.regroup (s : State) (r : Run) : Run :=
  let todo := s.running r.team r.todo
  let done := s.running r.team r.done
  let apart := s.running r.team r.apart
  if !todo.isEmpty then
    let (l, others) := s.together r.team todo
    { r with todo := l, done := done, apart := apart ++ others }
  else
    match s.together r.team done with
    | ([], _) =>
      match apart with
      | [] => { r with todo := [], done := [], apart := [] }
      | a :: rest => { r with todo := [a], done := [], apart := rest }
    | (l, others) => { r with todo := l, done := [], apart := apart ++ others }

/-- The quadrant's run is replaced. -/
def State.setRun (s : State) (r : Run) : State :=
  { s with runs := s.runs.map fun x => if x.pcore == r.pcore && x.quad == r.quad then r else x }

/-- Every member traps at the word. -/
def State.trapMembers (s : State) (r : Run) (tr : Trap) : State := (s.trapAll r.team r.todo tr).stopAll r.team r.todo

/-- The members hold at the word for a fetch. -/
def State.holdMembers (s : State) (r : Run) (va : DWord) (rs l : Nat) : List Nat → State
  | [] => s
  | i :: is => ((s.holdFetch r.team i va rs l).stopHalted r.team i).holdMembers r va rs l is

/-- The run tries its next word again later. -/
def State.stallRun (s : State) (r : Run) : State :=
  { s with runs := s.runs.map fun x => if x.pcore == r.pcore && x.quad == r.quad then { x with stalled := true } else x }

/-- ILLEGAL_OPCODE at a word (R269). -/
def opcodeTrap (pc : DWord) (w : Word) : Trap where
  cause := cIllegalOpcode
  addr := pc
  info := w

/-- After a word, a member that is still RUNNING at a clause header ends its run there or begins the clause (R136); one of a halting team that has left RUNNING is
STOPPED (R134). -/
def State.settleOne (s : State) (k i : Nat) (hdr : Word) : State :=
  let s : State := match s.thread? k i with
    | some th =>
      if th.st == .running && th.pc == th.clause then (if hdrY hdr then s.endAtHeader k i else s.beginClause k i false) else s
    | none => s
  s.stopHalted k i

/-- Settle every member. -/
def State.settleAll (s : State) (k : Nat) (hdr : Word) : List Nat → State
  | [] => s
  | i :: is => (s.settleOne k i hdr).settleAll k hdr is

/-- Members that memory has kept at a header end their run there or begin the clause once it gives the header (R136). -/
def State.headMembers (s : State) (r : Run) (l : Nat) (hdr : Word) : State :=
  let s := s.settleAll r.team hdr r.todo
  if (s.thread? r.team l).any fun th => th.st == .running && th.pc == th.clause then s.stallRun r else s

/-- Fetch and decode the word of the members to issue (R141, R268, R269 checks 1 to 3), and make it current; none: they trapped or are held. -/
def State.take (s : State) (r : Run) : Option Instr × State :=
  match r.todo with
  | [] => (none, { s with runs := s.runs.filter fun x => !(x.pcore == r.pcore && x.quad == r.quad) })
  | l :: _ =>
    match s.team? r.team, s.thread? r.team l with
    | some t, some th =>
      if th.pc == th.clause then (none, s.headMembers r l th.hdr) else
      match s.fetch t th.pc with
      | (.trap tr, s) => (none, s.trapMembers r tr)
      | (.fault rs lv, s) => (none, s.holdMembers r th.pc rs lv r.todo)
      | (.wait, s) => (none, s.stallRun r)
      | (.word w, s) =>
        match hdrCls th.hdr with
        | none => (none, s.trapMembers r (opcodeTrap th.pc w))
        | some k =>
          let inside := 1 < th.remaining
          let xs : Option Got × State := if usesNext k (fieldsOf w) && inside then
              match s.fetch t (th.pc + 4) with | (g, s) => (some g, s)
            else (none, s)
          let x := xs.1
          let s := xs.2
          match x with
          | some (.trap tr) => (none, s.trapMembers r tr)
          | some (.fault rs lv) => (none, s.holdMembers r (th.pc + 4) rs lv r.todo)
          | some .wait => (none, s.stallRun r)
          | _ =>
            let lit := match x with | some (.word v) => some v | _ => none
            match decode k w lit with
            | .error _ => (none, s.trapMembers r (opcodeTrap th.pc w))
            | .ok i =>
              if i.isCtl && th.after i != th.nextClause then (none, s.trapMembers r (opcodeTrap th.pc w))
              else (some i, { s with cur := some { team := r.team, tids := if i.uni then r.todo else [l], hdr := th.hdr } })
    | _, _ => (none, { s with runs := s.runs.filter fun x => !(x.pcore == r.pcore && x.quad == r.quad) })

/-- After a word has been executed for the members of cur (R136, R137): they are done with it, and a cycle passes when every member has issued the word; a stall
leaves everything for another attempt in the next cycle (R139), but that a member which has left RUNNING in a halted team is STOPPED (R134). -/
def State.settle (s : State) (p : Nat) (q : BitVec 2) (tids : List Nat) (k : Nat) (hdr : Word) : State × Nat :=
  match s.cur with
  | none =>
    let s := s.stopAll k tids
    ({ s with runs := s.runs.map fun r => if r.pcore == p && r.quad == q then { r with stalled := true } else r }, 1)
  | some _ =>
    let s := { s with cur := none }.settleAll k hdr tids
    let runs := s.runs.map fun r =>
      if r.pcore == p && r.quad == q then
        { r with todo := r.todo.filter (fun i => !tids.contains i), done := r.done ++ tids, stalled := false }
      else r
    let issued := runs.all fun r => !(r.pcore == p && r.quad == q) || r.todo.isEmpty
    ({ s with runs := runs }, b2n issued)

end Sys2Proof.Machine
end

