-- ==== Sys2Proof/Machine/Bounds.lean ====
section
/-!
DEFINITION. The accuracy of the XFN functions (R334): each function's value in fixed point, and the FP32 values that lie within its bound (log entry 7).
-/
namespace Sys2Proof.Machine

/-! ### Fixed-point series -/

/-- floor(2^640 * pi) and floor(2^320 * ln 2). -/
def piFix : Nat :=
  0x3243F6A8885A308D313198A2E03707344A4093822299F31D0082EFA98EC4E6C89452821E638D01377BE5466CF34E90C6CC0AC29B7C97C50DD3F84D5B5B54709179216D5D98979FB1BD1310BA698DFB5AC
def ln2Fix : Nat := 0xB17217F7D1CF79ABC9E3B39803F2F6AF40F343267298B62D8A0D175B8BAAFA2BE7B876206DEBAC98

/-- The alternating series of sine (from term x, j = 1) and cosine (from term 1, j = 0), 320 fractional bits; y is x squared. -/
def altSeries : (fuel j : Nat) → (y t acc : Int) → Int
  | 0, _, _, _, acc => acc
  | n + 1, j, y, t, acc =>
    let t := -(t * y / 2 ^ 320 / ((j + 1) * (j + 2) : Nat))
    altSeries n (j + 2) y t (acc + t)

/-- The series of the exponential, 320 fractional bits. -/
def expSeries : (fuel j : Nat) → (x t acc : Nat) → Nat
  | 0, _, _, _, acc => acc
  | n + 1, j, x, t, acc =>
    let t := t * x / 2 ^ 320 / (j + 1)
    expSeries n (j + 1) x t (acc + t)

/-- e^x for x from 0 to 20. -/
def expFix (x : Nat) : Nat := expSeries 200 0 x (2 ^ 320) (2 ^ 320)

/-- n bits of the logarithm to base 2 of x, from 1 to 2 with 320 fractional bits, after those of acc. -/
def log2Bits : (n x acc : Nat) → Nat
  | 0, _, acc => acc
  | n + 1, x, acc =>
    let x := x * x / 2 ^ 320
    if 2 ^ 321 ≤ x then log2Bits n (x / 2) (2 * acc + 1) else log2Bits n x (2 * acc)

/-! ### The functions at an operand of magnitude m * 2^e: two bounds of the exact value, with 480 fractional bits -/

/-- The operand itself with 640 fractional bits. -/
def fixed (m : Nat) (e : Int) : Nat := m * 2 ^ (e + 640).toNat

/-- Bounds of a value from what has been computed of it and the error of that. -/
def around (x : Int) (d : Nat) : Int × Int := (x - d, x + d)

/-- Bounds of the value of the other sign. -/
def mirrored (neg : Bool) (x : Int × Int) : Int × Int := if neg then (-x.2, -x.1) else x

/-- 1 / sqrt(a). -/
def rsqFix (m : Nat) (e : Int) : Int × Int := around (isqrt (2 ^ (960 - e).toNat / m)) 4

/-- 2^a: the series' own error is below 2^-300 of it, and it is above zero. -/
def ex2Fix (neg : Bool) (m : Nat) (e : Int) : Int × Int :=
  let a : Int := if neg then -(fixed m e : Int) else fixed m e
  let n := a / 2 ^ 640
  let f := (a % 2 ^ 640).toNat / 2 ^ 320
  let x := expFix (f * ln2Fix / 2 ^ 320) * 2 ^ (n + 200).toNat / 2 ^ 40
  ((x - (x / 2 ^ 300 + 16) : Nat), (x + (x / 2 ^ 300 + 16) : Nat))

/-- log2 a, with an error below 2^-175. -/
def lg2Fix (m : Nat) (e : Int) : Int × Int :=
  let k := m.log2
  around (((k : Int) + e) * 2 ^ 480 + log2Bits 180 (m * 2 ^ (320 - k)) 0 * 2 ^ 300) (2 ^ 305)

/-- a less the multiples of two pi in it, with 320 fractional bits. -/
def reduced (m : Nat) (e : Int) : Nat := fixed m e % (2 * piFix) / 2 ^ 320

/-- sin a, with an error below 2^-303. -/
def sinFix (neg : Bool) (m : Nat) (e : Int) : Int × Int :=
  let r : Int := reduced m e
  mirrored neg (around (altSeries 70 1 (r * r / 2 ^ 320) r r * 2 ^ 160) (2 ^ 177))

/-- cos a, with an error below 2^-303. -/
def cosFix (m : Nat) (e : Int) : Int × Int :=
  let r : Int := reduced m e
  around (altSeries 70 0 (r * r / 2 ^ 320) (2 ^ 320) (2 ^ 320) * 2 ^ 160) (2 ^ 177)

/-- tanh a, for a below 10: from the exponential, with an error below 2^-300; below 2^-40, where that would not do, between a - a^3/3 and a - a^3/3 + 2a^5/15. -/
def tanhFix (neg : Bool) (m : Nat) (e : Int) : Int × Int :=
  let a := fixed m e
  mirrored neg <|
    if 2 ^ 600 ≤ a then
      let x := expFix (a / 2 ^ 319)
      around ((x - 2 ^ 320) * 2 ^ 480 / (x + 2 ^ 320)) (2 ^ 180)
    else
      let cube := a * a * a / 2 ^ 1280
      let fifth := cube * a * a / 2 ^ 1280
      let unit : Int := 2 ^ 160
      (((a : Int) - (cube / 3 + 1 : Nat)) / unit, ((a : Int) - (cube / 3 : Nat) + (2 * fifth / 15 + 2 : Nat)) / unit + 1)

/-! ### The bound -/

/-- The spacing of FP32 values at an exact value (R334), 480 fractional bits. -/
def ulpFix (x : Int) : Nat := 2 ^ Nat.max (x.natAbs.log2 - 23) 331

/-- An FP32 value lies within k ulp, or within a stated distance, of every value between two bounds. -/
def withinBound (k away : Nat) (x : Int × Int) (v : Word) : Bool :=
  match fdecode .f32 v.toNat with
  | .fin s m e =>
    let y : Int := if s then -(m * 2 ^ (e + 480).toNat : Nat) else (m * 2 ^ (e + 480).toNat : Nat)
    Nat.max (x.1 - y).natAbs (x.2 - y).natAbs ≤ Nat.max (k * Nat.min (ulpFix x.1) (ulpFix x.2)) away
  | _ => false

/-- A free value within its bound: the value offered where it lies there, else the nearest (R334). -/
def boundedBy (k away : Nat) (x : Int × Int) (v : Word) : Nat :=
  if withinBound k away x v then v.toNat else (fround .f32 .rne false false ⟨x.1 < 0, x.1.natAbs, -480, true⟩).1

end Sys2Proof.Machine
end

