-- ==== Sys2Proof/Machine/Transcend.lean ====
section
/-!
DEFINITION. The XFN class: reciprocal, roots, transcendental functions and division (R334 to R337; log entry 7).
-/
namespace Sys2Proof.Machine

/-- An FP32 function of a with a rounding mode (R334). -/
def State.fun1 (s : State) (i : Instr) (o : Alu) (f : RMode → Bool → Nat → FOut) : State :=
  s.alu i o.d fun t => outF (f (t.mode o) t.ftz (t.fa .f32 o))

/-- FP32 constants. -/
def f32One : Nat := 0x3F800000
def f32Inf : Nat := 0x7F800000
def f32Nan : Nat := 0x7FC00000

/-- 2^n as an exact value. -/
def pow2Exact (n : Int) : Exact := ⟨false, 1, n, false⟩

/-- RCP (R334, R335). -/
def execRcp (o : Alu) (s : State) : Out := .next (s.fun1 (.rcp o) o frcpOf)
/-- SQRT (R334, R335). -/
def execSqrt (o : Alu) (s : State) : Out := .next (s.fun1 (.sqrt o) o fsqrtOf)

/-- RSQ: between its exact cases a fixed function of the operand within 1 ulp (R334, R335). -/
def frsqOf (a : Nat) : FOut :=
  match fdecode .f32 a with
  | .nan sig => (f32Nan, if sig then fNV else 0)
  | .inf s => if s then (f32Nan, fNV) else (0, 0)
  | .fin s m e =>
    if m == 0 then (fwith .f32 s f32Inf, fDZ)
    else if s then (f32Nan, fNV)
    else
      let (b, ex) := frsqFloor m e
      if ex then (b, 0) else (boundedBy 1 0 (rsqFix m e) (Config.rsq (BitVec.ofNat 32 a)), fIX)
def execRsq (o : Alu) (s : State) : Out := .next (s.fun1 (.rsq o) o fun _ _ => frsqOf)

/-- An inexact result: IX, and UF when it is tiny; FTZ then writes zero of its sign (R252, R335). -/
def ftiny (ftz : Bool) (b : Nat) : FOut :=
  if fmag .f32 b < 2 ^ 23 then (if ftz then fwith .f32 (fsign .f32 b) 0 else b, fUF ||| fIX) else (b, fIX)

/-- EX2 (R334, R335): 2^n is exact; between, a fixed function of the operand within 2 ulp; FTZ writes +0 for a tiny result. -/
def fex2Of (ftz : Bool) (a : Nat) : FOut :=
  match fdecode .f32 a with
  | .nan sig => (f32Nan, if sig then fNV else 0)
  | .inf s => (if s then 0 else f32Inf, 0)
  | .fin s m e =>
    let (n, ix) := roundAt .rz ⟨s, m, e, false⟩ 0
    if m == 0 then (f32One, 0)
    else if !s && 128 ≤ n then (f32Inf, fOF ||| fIX)
    else if !ix && (!s || n ≤ 149) then fround .f32 .rne false ftz (pow2Exact (if s then -(n : Int) else n))
    else
      let b := boundedBy 2 0 (ex2Fix s m e) (Config.ex2 (BitVec.ofNat 32 a))
      if ftz && fmag .f32 b < 2 ^ 23 then (0, fUF ||| fIX) else ftiny ftz b
def execEx2 (o : Alu) (s : State) : Out := .next (s.fun1 (.ex2 o) o fun _ => fex2Of)

/-- LG2 (R334, R335): the logarithm of 2^n is n; between, within 2 ulp, or within 2^-22 for operands from 0.5 to 2. -/
def flg2Of (ftz : Bool) (a : Nat) : FOut :=
  match fdecode .f32 a with
  | .nan sig => (f32Nan, if sig then fNV else 0)
  | .inf s => if s then (f32Nan, fNV) else (f32Inf, 0)
  | .fin s m e =>
    if m == 0 then (fwith .f32 true f32Inf, fDZ)
    else if s then (f32Nan, fNV)
    else if m == 2 ^ m.log2 then ((i2fOf .f32 .rne false false ((m.log2 : Int) + e)).1, 0)
    else
      let k : Int := (m.log2 : Int) + e
      ftiny ftz (boundedBy 2 (if k == -1 || k == 0 then 2 ^ 458 else 0) (lg2Fix m e) (Config.lg2 (BitVec.ofNat 32 a)))
def execLg2 (o : Alu) (s : State) : Out := .next (s.fun1 (.lg2 o) o fun _ => flg2Of)

/-- SIN (R334, R335): within the larger of 2 ulp and 2^-24. -/
def fsinOf (ftz : Bool) (a : Nat) : FOut :=
  match fdecode .f32 a with
  | .nan sig => (f32Nan, if sig then fNV else 0)
  | .inf _ => (f32Nan, fNV)
  | .fin s m e => if m == 0 then (a, 0) else ftiny ftz (boundedBy 2 (2 ^ 456) (sinFix s m e) (Config.sin (BitVec.ofNat 32 a)))
def execSin (o : Alu) (s : State) : Out := .next (s.fun1 (.sin o) o fun _ => fsinOf)

/-- COS (R334, R335): as SIN. -/
def fcosOf (ftz : Bool) (a : Nat) : FOut :=
  match fdecode .f32 a with
  | .nan sig => (f32Nan, if sig then fNV else 0)
  | .inf _ => (f32Nan, fNV)
  | .fin _ m e => if m == 0 then (f32One, 0) else ftiny ftz (boundedBy 2 (2 ^ 456) (cosFix m e) (Config.cos (BitVec.ofNat 32 a)))
def execCos (o : Alu) (s : State) : Out := .next (s.fun1 (.cos o) o fun _ => fcosOf)

/-- TANH (R334, R335): 1 with the sign of a from 10 on; below, within 2 ulp. -/
def ftanhOf (ftz : Bool) (a : Nat) : FOut :=
  match fdecode .f32 a with
  | .nan sig => (f32Nan, if sig then fNV else 0)
  | .inf s => (fwith .f32 s f32One, 0)
  | .fin s m e =>
    if m == 0 then (a, 0)
    else if 10 ≤ (roundAt .rz ⟨s, m, e, false⟩ 0).1 then (fwith .f32 s f32One, fIX)
    else ftiny ftz (boundedBy 2 0 (tanhFix s m e) (Config.tanh (BitVec.ofNat 32 a)))
def execTanh (o : Alu) (s : State) : Out := .next (s.fun1 (.tanh o) o fun _ => ftanhOf)

/-- DIV (R336). -/
def execDiv (o : Alu) (s : State) : Out := .next (s.fp2 (.div o) o fdivOf)

/-- a and b of an integer division under its type (R337). -/
def Thread.divOps (t : Thread) (wide n : Bool) (o : Alu) : Int × Int :=
  if wide then (intOf n (t.reg64 o.a), intOf n (t.b64 o.b)) else (intOf n (t.reg o.a), intOf n (t.b32 o.b))

/-- An integer division with its zero-divisor trap (R337). -/
def State.idiv (s : State) (i : Instr) (wide n : Bool) (o : Alu) (f : Int → Int → Int) : State :=
  s.alu i o.d fun t =>
    let (a, b) := t.divOps wide n o
    if b == 0 then .trap { cause := cDivZero, addr := t.pc, info := wordOf i }
    else if wide then out64 n false (f a b) else out32 n false (f a b)

/-- IDIV: the quotient truncated toward zero (R337). -/
def execIdiv (wide n : Bool) (o : Alu) (s : State) : Out := .next (s.idiv (.idiv wide n o) wide n o Int.tdiv)
/-- IREM: the remainder, with the sign of a (R337). -/
def execIrem (wide n : Bool) (o : Alu) (s : State) : Out := .next (s.idiv (.irem wide n o) wide n o Int.tmod)

end Sys2Proof.Machine
end

