-- ==== Sys2Proof/Machine/Dispatch.lean ====
section
/-!
DEFINITION. One arm per step of Instr: its meaning.
-/
namespace Sys2Proof.Machine

def exec (i : Instr) (s : State) : Host.Outcome State Fault Refusal :=
  match i with
  | .add n o => Sys2Proof.Machine.execAdd n o s
  | .sub n o => Sys2Proof.Machine.execSub n o s
  | .mullo n o => Sys2Proof.Machine.execMullo n o s
  | .mulhi n o => Sys2Proof.Machine.execMulhi n o s
  | .mad n o => Sys2Proof.Machine.execMad n o s
  | .mulw n o => Sys2Proof.Machine.execMulw n o s
  | .madw n o => Sys2Proof.Machine.execMadw n o s
  | .add64 n o => Sys2Proof.Machine.execAdd64 n o s
  | .sub64 n o => Sys2Proof.Machine.execSub64 n o s
  | .min n o => Sys2Proof.Machine.execMin n o s
  | .max n o => Sys2Proof.Machine.execMax n o s
  | .sad n o => Sys2Proof.Machine.execSad n o s
  | .dp4i8 n o => Sys2Proof.Machine.execDp4i8 n o s
  | .dp2i16 n o => Sys2Proof.Machine.execDp2i16 n o s
  | .setc n o => Sys2Proof.Machine.execSetc n o s
  | .bfx n o => Sys2Proof.Machine.execBfx n o s
  | .neg o => Sys2Proof.Machine.execNeg o s
  | .abs o => Sys2Proof.Machine.execAbs o s
  | .and o => Sys2Proof.Machine.execAnd o s
  | .or o => Sys2Proof.Machine.execOr o s
  | .xor o => Sys2Proof.Machine.execXor o s
  | .andn o => Sys2Proof.Machine.execAndn o s
  | .orn o => Sys2Proof.Machine.execOrn o s
  | .not o => Sys2Proof.Machine.execNot o s
  | .tlog o => Sys2Proof.Machine.execTlog o s
  | .shl o => Sys2Proof.Machine.execShl o s
  | .shr o => Sys2Proof.Machine.execShr o s
  | .sar o => Sys2Proof.Machine.execSar o s
  | .rol o => Sys2Proof.Machine.execRol o s
  | .shf o => Sys2Proof.Machine.execShf o s
  | .bfi o => Sys2Proof.Machine.execBfi o s
  | .popc o => Sys2Proof.Machine.execPopc o s
  | .clz o => Sys2Proof.Machine.execClz o s
  | .ctz o => Sys2Proof.Machine.execCtz o s
  | .brev o => Sys2Proof.Machine.execBrev o s
  | .perm o => Sys2Proof.Machine.execPerm o s
  | .sel o => Sys2Proof.Machine.execSel o s
  | .mov o => Sys2Proof.Machine.execMov o s
  | .movh o => Sys2Proof.Machine.execMovh o s
  | .lea o => Sys2Proof.Machine.execLea o s
  | .fadd o => Sys2Proof.Machine.execFadd o s
  | .fsub o => Sys2Proof.Machine.execFsub o s
  | .fmul o => Sys2Proof.Machine.execFmul o s
  | .ffma o => Sys2Proof.Machine.execFfma o s
  | .fmin o => Sys2Proof.Machine.execFmin o s
  | .fmax o => Sys2Proof.Machine.execFmax o s
  | .fminn o => Sys2Proof.Machine.execFminn o s
  | .fmaxn o => Sys2Proof.Machine.execFmaxn o s
  | .fsetc o => Sys2Proof.Machine.execFsetc o s
  | .frnd o => Sys2Proof.Machine.execFrnd o s
  | .fclass o => Sys2Proof.Machine.execFclass o s
  | .fscale o => Sys2Proof.Machine.execFscale o s
  | .fcpys o => Sys2Proof.Machine.execFcpys o s
  | .vaddh o => Sys2Proof.Machine.execVaddh o s
  | .vmulh o => Sys2Proof.Machine.execVmulh o s
  | .vfmah o => Sys2Proof.Machine.execVfmah o s
  | .vaddb o => Sys2Proof.Machine.execVaddb o s
  | .vmulb o => Sys2Proof.Machine.execVmulb o s
  | .vfmab o => Sys2Proof.Machine.execVfmab o s
  | .dot2b o => Sys2Proof.Machine.execDot2b o s
  | .dot4e x y o => Sys2Proof.Machine.execDot4e x y o s
  | .pack f o => Sys2Proof.Machine.execPack f o s
  | .unpk f o => Sys2Proof.Machine.execUnpk f o s
  | .cvt s1 t o => Sys2Proof.Machine.execCvt s1 t o s
  | .f2i s1 i1 o => Sys2Proof.Machine.execF2i s1 i1 o s
  | .i2f t i1 o => Sys2Proof.Machine.execI2f t i1 o s
  | .rcp o => Sys2Proof.Machine.execRcp o s
  | .rsq o => Sys2Proof.Machine.execRsq o s
  | .sqrt o => Sys2Proof.Machine.execSqrt o s
  | .ex2 o => Sys2Proof.Machine.execEx2 o s
  | .lg2 o => Sys2Proof.Machine.execLg2 o s
  | .sin o => Sys2Proof.Machine.execSin o s
  | .cos o => Sys2Proof.Machine.execCos o s
  | .tanh o => Sys2Proof.Machine.execTanh o s
  | .div o => Sys2Proof.Machine.execDiv o s
  | .idiv wide n o => Sys2Proof.Machine.execIdiv wide n o s
  | .irem wide n o => Sys2Proof.Machine.execIrem wide n o s
  | .ld o => Sys2Proof.Machine.execLd o s
  | .st o => Sys2Proof.Machine.execSt o s
  | .lds o => Sys2Proof.Machine.execLds o s
  | .sts o => Sys2Proof.Machine.execSts o s
  | .ldacq o => Sys2Proof.Machine.execLdacq o s
  | .strel o => Sys2Proof.Machine.execStrel o s
  | .atom o => Sys2Proof.Machine.execAtom o s
  | .cas o => Sys2Proof.Machine.execCas o s
  | .cas128 o => Sys2Proof.Machine.execCas128 o s
  | .red o => Sys2Proof.Machine.execRed o s
  | .redc o => Sys2Proof.Machine.execRedc o s
  | .pref o => Sys2Proof.Machine.execPref o s
  | .fence o => Sys2Proof.Machine.execFence o s
  | .cwb o => Sys2Proof.Machine.execCwb o s
  | .cinv o => Sys2Proof.Machine.execCinv o s
  | .maps o => Sys2Proof.Machine.execMaps o s
  | .unmaps o => Sys2Proof.Machine.execUnmaps o s
  | .wbs o => Sys2Proof.Machine.execWbs o s
  | .ldh o => Sys2Proof.Machine.execLdh o s
  | .sth o => Sys2Proof.Machine.execSth o s
  | .copy o => Sys2Proof.Machine.execCopy o s
  | .scld o => Sys2Proof.Machine.execScld o s
  | .mma o => Sys2Proof.Machine.execMma o s
  | .accwin o => Sys2Proof.Machine.execAccwin o s
  | .accz o => Sys2Proof.Machine.execAccz o s
  | .accld o => Sys2Proof.Machine.execAccld o s
  | .accst o => Sys2Proof.Machine.execAccst o s
  | .accrd o => Sys2Proof.Machine.execAccrd o s
  | .accwr o => Sys2Proof.Machine.execAccwr o s
  | .ftest o => Sys2Proof.Machine.execFtest o s
  | .fcancel o => Sys2Proof.Machine.execFcancel o s
  | .fwait o => Sys2Proof.Machine.execFwait o s
  | .tbinit o => Sys2Proof.Machine.execTbinit o s
  | .tbinitRearm o => Sys2Proof.Machine.execTbinitRearm o s
  | .tbarv o => Sys2Proof.Machine.execTbarv o s
  | .tbexp o => Sys2Proof.Machine.execTbexp o s
  | .tbwait o => Sys2Proof.Machine.execTbwait o s
  | .stgwait o => Sys2Proof.Machine.execStgwait o s
  | .cont o => Sys2Proof.Machine.execCont o s
  | .bararv o => Sys2Proof.Machine.execBararv o s
  | .barsync o => Sys2Proof.Machine.execBarsync o s
  | .rdv o => Sys2Proof.Machine.execRdv o s
  | .rdvx o => Sys2Proof.Machine.execRdvx o s
  | .rdvv o => Sys2Proof.Machine.execRdvv o s
  | .rdvs o => Sys2Proof.Machine.execRdvs o s
  | .waita o => Sys2Proof.Machine.execWaita o s
  | .launch o => Sys2Proof.Machine.execLaunch o s
  | .resort o => Sys2Proof.Machine.execResort o s
  | .idemx o => Sys2Proof.Machine.execIdemx o s
  | .srd o => Sys2Proof.Machine.execSrd o s
  | .swr o => Sys2Proof.Machine.execSwr o s
  | .trap o => Sys2Proof.Machine.execTrap o s
  | .tret o => Sys2Proof.Machine.execTret o s
  | .brk o => Sys2Proof.Machine.execBrk o s
  | .nop o => Sys2Proof.Machine.execNop o s
  | .sleep o => Sys2Proof.Machine.execSleep o s
  | .chsel o => Sys2Proof.Machine.execChsel o s
  | .probe o => Sys2Proof.Machine.execProbe o s
  | .dbgmark o => Sys2Proof.Machine.execDbgmark o s
  | .bra o => Sys2Proof.Machine.execBra o s
  | .bz o => Sys2Proof.Machine.execBz o s
  | .bnz o => Sys2Proof.Machine.execBnz o s
  | .bltz o => Sys2Proof.Machine.execBltz o s
  | .bgez o => Sys2Proof.Machine.execBgez o s
  | .brx o => Sys2Proof.Machine.execBrx o s
  | .call o => Sys2Proof.Machine.execCall o s
  | .callx o => Sys2Proof.Machine.execCallx o s
  | .ret o => Sys2Proof.Machine.execRet o s
  | .exit o => Sys2Proof.Machine.execExit o s
  | .runStart p q => Sys2Proof.Machine.execRunStart p q s
  | .loadComplete r => Sys2Proof.Machine.execLoadComplete r s
  | .storeComplete r => Sys2Proof.Machine.execStoreComplete r s
  | .atomicComplete r => Sys2Proof.Machine.execAtomicComplete r s
  | .redcCombined r => Sys2Proof.Machine.execRedcCombined r s
  | .cacheOpComplete r => Sys2Proof.Machine.execCacheOpComplete r s
  | .mapBound r => Sys2Proof.Machine.execMapBound r s
  | .mapLineFill k line => Sys2Proof.Machine.execMapLineFill k line s
  | .mapWritebackDone r => Sys2Proof.Machine.execMapWritebackDone r s
  | .releasePrereqMet k tid => Sys2Proof.Machine.execReleasePrereqMet k tid s
  | .acquireCheckComplete k tid => Sys2Proof.Machine.execAcquireCheckComplete k tid s
  | .saigaPiece c i1 => Sys2Proof.Machine.execSaigaPiece c i1 s
  | .scoutProbe c => Sys2Proof.Machine.execScoutProbe c s
  | .copyCancelStop c => Sys2Proof.Machine.execCopyCancelStop c s
  | .copyComplete c => Sys2Proof.Machine.execCopyComplete c s
  | .continuationSpawn k => Sys2Proof.Machine.execContinuationSpawn k s
  | .passStart quad => Sys2Proof.Machine.execPassStart quad s
  | .passRetire quad => Sys2Proof.Machine.execPassRetire quad s
  | .accumOpComplete r => Sys2Proof.Machine.execAccumOpComplete r s
  | .waitaTimeout k tid => Sys2Proof.Machine.execWaitaTimeout k tid s
  | .sleepExpire k tid => Sys2Proof.Machine.execSleepExpire k tid s
  | .invalidateVaRange v => Sys2Proof.Machine.execInvalidateVaRange v s
  | .invalidateAsid v => Sys2Proof.Machine.execInvalidateAsid v s
  | .invalidateAll v => Sys2Proof.Machine.execInvalidateAll v s
  | .remoteLineDrop => Sys2Proof.Machine.execRemoteLineDrop s
  | .invalidationDone => Sys2Proof.Machine.execInvalidationDone s
  | .pageWalkComplete k va => Sys2Proof.Machine.execPageWalkComplete k va s
  | .faultRecordWrite => Sys2Proof.Machine.execFaultRecordWrite s
  | .fqdoorWrite v => Sys2Proof.Machine.execFqdoorWrite v s
  | .fqcfgWrite v => Sys2Proof.Machine.execFqcfgWrite v s
  | .freplyRetry fid => Sys2Proof.Machine.execFreplyRetry fid s
  | .freplyFail fid disp => Sys2Proof.Machine.execFreplyFail fid disp s
  | .faultWatchdog fid => Sys2Proof.Machine.execFaultWatchdog fid s
  | .sideLogReplay e => Sys2Proof.Machine.execSideLogReplay e s
  | .tpartWrite t v => Sys2Proof.Machine.execTpartWrite t v s
  | .predRecordPoll l => Sys2Proof.Machine.execPredRecordPoll l s
  | .unitEnterPlacement l u => Sys2Proof.Machine.execUnitEnterPlacement l u s
  | .placewaitExpire l u => Sys2Proof.Machine.execPlacewaitExpire l u s
  | .teamPlace l u => Sys2Proof.Machine.execTeamPlace l u s
  | .teamRestore k => Sys2Proof.Machine.execTeamRestore k s
  | .preemptPriority l u => Sys2Proof.Machine.execPreemptPriority l u s
  | .timeSliceExpire l u => Sys2Proof.Machine.execTimeSliceExpire l u s
  | .teamSaveComplete k => Sys2Proof.Machine.execTeamSaveComplete k s
  | .teamComplete k => Sys2Proof.Machine.execTeamComplete k s
  | .moduleReset => Sys2Proof.Machine.execModuleReset s
  | .registerWrite pa v => Sys2Proof.Machine.execRegisterWrite pa v s
  | .roleCmdGo t v => Sys2Proof.Machine.execRoleCmdGo t v s
  | .roleDrainDone t => Sys2Proof.Machine.execRoleDrainDone t s
  | .roleFlushDone t => Sys2Proof.Machine.execRoleFlushDone t s
  | .roleReenumerate t => Sys2Proof.Machine.execRoleReenumerate t s
  | .tahrEvaluate t td tj => Sys2Proof.Machine.execTahrEvaluate t td tj s
  | .tahrApply t => Sys2Proof.Machine.execTahrApply t s
  | .thcntTick t => Sys2Proof.Machine.execThcntTick t s
  | .chashWrite t v => Sys2Proof.Machine.execChashWrite t v s
  | .memctlQuiesceSet t => Sys2Proof.Machine.execMemctlQuiesceSet t s
  | .quiesceComplete t => Sys2Proof.Machine.execQuiesceComplete t s
  | .memctlQuiesceClear t => Sys2Proof.Machine.execMemctlQuiesceClear t s
  | .dramZeroingDone t => Sys2Proof.Machine.execDramZeroingDone t s
  | .rowRefresh t bank row => Sys2Proof.Machine.execRowRefresh t bank row s
  | .refreshRetryReissue r => Sys2Proof.Machine.execRefreshRetryReissue r s
  | .patrolScrub t bank row found => Sys2Proof.Machine.execPatrolScrub t bank row found s
  | .remapMissFill t bank row aOk bOk => Sys2Proof.Machine.execRemapMissFill t bank row aOk bOk s
  | .tsvDriftDetect t i1 => Sys2Proof.Machine.execTsvDriftDetect t i1 s
  | .tsvRealignStart t i1 => Sys2Proof.Machine.execTsvRealignStart t i1 s
  | .tsvRealignEnd t i1 => Sys2Proof.Machine.execTsvRealignEnd t i1 s
  | .msecctlLock => Sys2Proof.Machine.execMsecctlLock s
  | .msecctlUnlock => Sys2Proof.Machine.execMsecctlUnlock s
  | .unlockWritebackDone => Sys2Proof.Machine.execUnlockWritebackDone s
  | .keypolWrite i1 v => Sys2Proof.Machine.execKeypolWrite i1 v s
  | .hostCxlMemRead off n => Sys2Proof.Machine.execHostCxlMemRead off n s
  | .hostCxlMemWrite off d => Sys2Proof.Machine.execHostCxlMemWrite off d s
  | .hqctlWrite v => Sys2Proof.Machine.execHqctlWrite v s
  | .hqcmdEnable q => Sys2Proof.Machine.execHqcmdEnable q s
  | .hqcmdDisable q => Sys2Proof.Machine.execHqcmdDisable q s
  | .hqcmdReset q => Sys2Proof.Machine.execHqcmdReset q s
  | .queueDisableComplete q => Sys2Proof.Machine.execQueueDisableComplete q s
  | .wqDoorbell q v => Sys2Proof.Machine.execWqDoorbell q v s
  | .queueArbitrationSlot => Sys2Proof.Machine.execQueueArbitrationSlot s
  | .queueEntryFetch q n => Sys2Proof.Machine.execQueueEntryFetch q n s
  | .nopEntry q e => Sys2Proof.Machine.execNopEntry q e s
  | .launchEntry q e => Sys2Proof.Machine.execLaunchEntry q e s
  | .flushEntry q e => Sys2Proof.Machine.execFlushEntry q e s
  | .flushComplete q e => Sys2Proof.Machine.execFlushComplete q e s
  | .biasEntry q e => Sys2Proof.Machine.execBiasEntry q e s
  | .biasPageFlip q e => Sys2Proof.Machine.execBiasPageFlip q e s
  | .waitEntry q e => Sys2Proof.Machine.execWaitEntry q e s
  | .waitPoll q e => Sys2Proof.Machine.execWaitPoll q e s
  | .signalEntry q e => Sys2Proof.Machine.execSignalEntry q e s
  | .signalStoreDone q e => Sys2Proof.Machine.execSignalStoreDone q e s
  | .eventRecordWrite e => Sys2Proof.Machine.execEventRecordWrite e s
  | .eventDoorbell e v => Sys2Proof.Machine.execEventDoorbell e v s
  | .eventInterruptTimer e => Sys2Proof.Machine.execEventInterruptTimer e s
  | .eventContextPoll e => Sys2Proof.Machine.execEventContextPoll e s
  | .hpincfgWrite v => Sys2Proof.Machine.execHpincfgWrite v s
  | .hostCompletionTimeout r => Sys2Proof.Machine.execHostCompletionTimeout r s
  | .doeDiscovery i1 => Sys2Proof.Machine.execDoeDiscovery i1 s
  | .spdmNegotiateAlgorithms mldsa sha3 => Sys2Proof.Machine.execSpdmNegotiateAlgorithms mldsa sha3 s
  | .spdmKeyExchange sess mlkem aes => Sys2Proof.Machine.execSpdmKeyExchange sess mlkem aes s
  | .spdmMeasurements signed digest log => Sys2Proof.Machine.execSpdmMeasurements signed digest log s
  | .keyLoad sess msg => Sys2Proof.Machine.execKeyLoad sess msg s
  | .keyClear sess msg => Sys2Proof.Machine.execKeyClear sess msg s
  | .keyInstallDone id => Sys2Proof.Machine.execKeyInstallDone id s
  | .spdmSessionEnd sess => Sys2Proof.Machine.execSpdmSessionEnd sess s
  | .syncSlot j => Sys2Proof.Machine.execSyncSlot j s
  | .fabEmptyCell c => Sys2Proof.Machine.execFabEmptyCell c s
  | .fabLoadCell c => Sys2Proof.Machine.execFabLoadCell c s
  | .fabAcquireLoadCell c => Sys2Proof.Machine.execFabAcquireLoadCell c s
  | .fabStoreCell c => Sys2Proof.Machine.execFabStoreCell c s
  | .fabReleaseCell c => Sys2Proof.Machine.execFabReleaseCell c s
  | .fabReleaseApply src => Sys2Proof.Machine.execFabReleaseApply src s
  | .fabOperationPacket c => Sys2Proof.Machine.execFabOperationPacket c s
  | .fabReplyCell c => Sys2Proof.Machine.execFabReplyCell c s
  | .fabShootdownCell c => Sys2Proof.Machine.execFabShootdownCell c s
  | .fabReservedCell c => Sys2Proof.Machine.execFabReservedCell c s
  | .bulkPacketArrive b => Sys2Proof.Machine.execBulkPacketArrive b s
  | .fabRequestResume src => Sys2Proof.Machine.execFabRequestResume src s
  | .fabEpochLock flat => Sys2Proof.Machine.execFabEpochLock flat s
  | .fabLinkDown p => Sys2Proof.Machine.execFabLinkDown p s
  | .fabcfgWrite v => Sys2Proof.Machine.execFabcfgWrite v s
  | .fardecWrite n v => Sys2Proof.Machine.execFardecWrite n v s
  | .farTierTimeout r => Sys2Proof.Machine.execFarTierTimeout r s
  | .farTierLinkDown p => Sys2Proof.Machine.execFarTierLinkDown p s
  | .hostSnoop line drop => Sys2Proof.Machine.execHostSnoop line drop s
  | .fabEpochLoss => Sys2Proof.Machine.execFabEpochLoss s

end Sys2Proof.Machine
end

