-- ==== Sys2Proof/Machine/Freedoms.lean ====
section
/-!
DEFINITION. What the manual lets happen before an access completes (log entry 44): early visibility of narrow writes (R171), values taken in a race (R167), an RMW whose read stands apart from its write and pieces and write-backs that move byte by byte (R168), and registers in flux (R147).
-/
namespace Sys2Proof.Machine

/-- Change one outstanding access. -/
def State.modReq (s : State) (id : Nat) (f : Req → Req) : State := { s with reqs := s.reqs.map fun q => if q.id == id then f q else q }

/-! ### Writes seen before they are performed (R167, R171) -/

/-- What a write that is not performed will write to local memory, by addresses: a store, an RMW that has read, an ACCST whose rows can go. -/
def State.pendingBytes (s : State) (w : Req) (t : Team) : List (Nat × List Byte) :=
  match w.act, w.loc with
  | .store d, .glob _ p => if p.node.isNone then [(p.pa, d)] else []
  | .atomic _ op d _, .glob _ p => if p.node.isNone then ((w.got.bind fun old => op.apply old d).map fun bs => (p.pa, bs)).toList else []
  | .accst row st x _ ps, .glob base _ =>
    if t.placed && s.passesDone w && s.inOrder w && s.elemsBehind w x base st == 0 then s.tileBytes t row st x base ps else []
  | _, _ => []

/-- A write could be performed now. -/
def State.mayPut (s : State) (w : Req) (t : Team) : Bool :=
  match w.act, w.loc with
  | .accst _ st x _ ps, .glob base _ => s.rowsFree w t x base st ps true && (s.pagesFail x base st ps true).isNone
  | _, .glob _ p => s.canPerform w && s.hub.keyOk p.key.toNat p.pa && !s.writeFails p
  | _, _ => false

/-- An entry of the log that replays next goes on as an access of its own, whose write may then be visible before it is performed (R171, R178). -/
def State.showLogged (s : State) (n : Nat) : State :=
  match s.sideLog.find? fun e => e.id == n with
  | none => s
  | some e =>
    match s.team? e.team with
    | none => s
    | some t =>
      if e.fid.isSome || !s.replayTurn e || t.status != .resident || !(e.sc == .team || e.sc == .tower) || e.kind == .redc then s
      else
        match s.xteam t e.va e.kind e.ty with
        | (.ok p, s') =>
          if p.node.isSome || paRegion p.pa == 0xE || s'.writeFails p || (e.reduction && s'.atomRefused p (some (.atop e.op)) e.size) || !s'.replayOrder e p then s
          else ((s'.replaySend e p).dropEntry e).wakeHeld e.team
        | _ => s

/-- A write of team or tower scope to device memory that could be performed now becomes visible to its core or its tower (R171); one at a time over the same bytes. -/
def State.showReq (s : State) (id : Nat) : State :=
  match s.req? id with
  | none => s
  | some w =>
    match s.team? w.team with
    | none => s
    | some t =>
      let xs := s.pendingBytes w t
      let narrow := w.sc == .team || w.sc == .tower
      let alone := xs.all fun x => paRegion x.1 != 0xE && s.reqs.all fun q => q.id == id || !q.early || !q.shows x.1 x.2.length
      if narrow && !w.early && !xs.isEmpty && alone && s.mayPut w t then s.modReq id fun q => { q with early := true, shown := xs } else s

/-- A write becomes visible early (R171): an outstanding one, or one that the side log replays. -/
def State.showEarly (s : State) (id : Nat) : State := (s.showLogged id).showReq id

/-- A read and a write of two threads race (R167): they are not mutually scoped. -/
def State.races (s : State) (r w : Req) : Bool := !r.kin w && !bothScoped (s.reqAgent r) r.wide (s.reqAgent w) w.wide

/-- The local address of byte i of what an access reads. -/
def Req.byteAt (r : Req) (i : Nat) : Option Nat :=
  if r.size ≤ i then none
  else match r.act, r.loc with
    | .accld _ _ _ base ps, _ => (rowPlace ps (base + BitVec.ofNat 64 i)).bind fun p => if p.node.isNone then some p.pa else none
    | _, .glob _ p => if p.node.isNone then some (p.pa + i) else none
    | _, .spad _ _ => none

/-- The byte at an address among others by theirs. -/
def byteOf (xs : List (Nat × List Byte)) (a : Nat) : Option Byte := xs.findSome? fun x => if x.1 ≤ a then x.2[a - x.1]? else none

/-- A read with the bytes it has taken could be performed now; an RMW has not read. -/
def State.mayPeek (s : State) (r : Req) (t : Team) : Bool :=
  match r.act, r.loc with
  | .load _ _, .glob _ _ => s.canPerform r && r.vals.isNone
  | .atomic _ _ _ _, .glob _ p =>
    s.canPerform r && r.got.isNone && paRegion p.pa != 0xE && s.hub.keyOk p.key.toNat p.pa && (s.badByte p.key.toNat p.pa r.size).isNone
  | .accld _ st w _ ps, .glob base _ => t.placed && s.passesDone r && s.inOrder r && s.rowsFree r t w base st ps false
  | _, _ => false

/-- An RMW reads, with bytes that it takes of a write in a race; any other read takes them as it is performed. -/
def State.takePeeked (s : State) (r : Req) (t : Team) : State :=
  match r.act, r.loc with
  | .atomic _ _ _ _, .glob _ p =>
    let (bs, s) := s.devRead (r.via t p) p r.size
    s.modReq r.id fun q => { q with got := some ((List.range bs.length).map fun i => ((r.peeked.find? fun e => e.1 == p.pa + i).map (·.2)).getD (bs.getD i 0)) }
  | _, _ => s.modReq r.id fun q => { q with peeked := r.peeked }

/-- A read takes bytes, by their offsets, of a write that it races with and that is not performed (R167). -/
def State.peekStore (s : State) (load store : Nat) (offs : List Nat) : State :=
  match s.req? load, s.req? store with
  | some r, some w =>
    match s.team? r.team, s.team? w.team with
    | some t, some u =>
      let xs := if w.early then w.shown else s.pendingBytes w u
      let taken := offs.filterMap fun i => (r.byteAt i).bind fun a => (byteOf xs a).map (a, ·)
      let r' := { r with peeked := taken ++ r.peeked }
      if !taken.isEmpty && s.races r w && s.mayPeek r' t then
        (s.takePeeked r' t).modReq store fun x => { x with shown := xs, seen := r.threads.map (r.team, ·) ++ x.seen }
      else s
    | _, _ => s
  | _, _ => s

/-! ### RMWs (R168) -/

/-- The read of an RMW on device memory is performed, and not yet its write (R168); the hub performs one on host memory whole (R106). -/
def State.rmwRead (s : State) (id : Nat) : State :=
  match s.req? id with
  | none => s
  | some r =>
    match r.act, r.loc, s.team? r.team with
    | .atomic _ _ _ _, .glob _ p, some t => if p.node.isNone && s.mayPeek r t then s.takePeeked r t else s
    | _, _, _ => s

/-! ### Registers in flux (R147) -/

/-- The first destination register of an access, and the words that it brings once they can be read. -/
def State.landing (s : State) (r : Req) (t : Team) : Option (Reg × List Word) × State :=
  match r.act with
  | .load d false =>
    match r.vals with
    | some ws => (some (d, ws), s)
    | none =>
      if isAcq r.ord || !s.canPerform r then (none, s)
      else match s.readOf r t with
        | (.inr bs, s) => (some (d, loadWords r.size bs), s)
        | (.inl _, _) => (none, s)
  | .atomic d _ _ true =>
    match r.got, r.phase with
    | some bs, _ => (some (d, loadWords r.size bs), s)
    | none, .replied 0 bs => (some (d, loadWords r.size bs), s)
    | _, _ => (none, s)
  | .accrd d x n =>
    if t.placed && s.passesDone r && s.inOrder r then (some (d, r.vals.getD (s.accWords t x n)), s) else (none, s)
  | _ => (none, s)

/-- One destination register of a load shows what the load reads (R147); the others follow on their own. -/
def State.landReg (s : State) (id j : Nat) : State :=
  match s.req? id with
  | none => s
  | some r =>
    match s.team? r.team with
    | none => s
    | some t =>
      match s.landing r t with
      | (some (d, ws), s') =>
        if ws.length ≤ j || r.landed.contains j || isAcq r.ord then s
        else
          let s' := s'.modReq id fun q => { q with vals := some ws, landed := j :: q.landed }
          s'.modThreads r.team r.threads fun th => th.setReg (d + BitVec.ofNat 7 j) (ws.getD j 0)
      | (none, _) => s

/-! ### Maps and copies (R168) -/

/-- One dirty byte of a map is written back before the rest (R168). -/
def State.backByte (s : State) (id off : Nat) : State :=
  match s.req? id with
  | none => s
  | some r =>
    match r.act, s.team? r.team with
    | .unmap o _, some t =>
      match t.maps.find? (·.off == o) with
      | none => s
      | some m =>
        let n := r.id + 1 + (off - m.off)
        -- the number of the byte's write is free
        let free := (s.req? n).isNone && s.sideLog.all (·.id != n)
        if s.mapTurn r && m.filling.isEmpty && s.inOrder r && m.dirty.contains off && free then
          let l := off / 128 * 128
          (s.backLine t r.tid m (r.id + 1) [off] l true fun s => s.xteam t (m.va + BitVec.ofNat 64 (l - m.off)) .store .dflt).2
        else s
    | _, _ => s

/-- One byte of the next piece of a copy is moved to a destination ahead of the rest (R168): the piece can be reached, and nothing of it fails. -/
def State.pieceByte (s : State) (id i off : Nat) : State :=
  match s.copy? id with
  | none => s
  | some q =>
    match q.dests[i]? with
    | none => s
    | some x =>
      let d := descOf q.desc
      let n := s.pieceNow q d x.moved
      let m := off / d.de
      if !s.copyRuns q || q.cancel || q.fid.isSome || d.fifo || !s.runCycle (pcTower q.pcore) || m < x.moved || x.moved + n ≤ m || d.skips m || q.ahead.contains (i, off) then s
      else
        match s.reachElems q d x ((List.range n).map (x.moved + ·)) with
        | (.inl _, _) => s
        | (.inr ps, s') =>
          match s'.elemData q d ps m with
          | (.inr (some bs), s') =>
            if s'.pieceFails d ps [(m, .inr bs)] then s
            else
              -- what other bytes of a converted element, or other destinations, still need of this read
              let s' := if 1 < q.dests.length || d.conv != 0 then s'.modCopy id fun y => { y with taken := q.keep d [(m, .inr bs)] } else s'
              let s' := (s'.elemPut q d x ps m (off % d.de) [bs.getD (off % d.de) 0]).2
              s'.modCopy id fun y => { y with ahead := y.ahead ++ [(i, off)] }
          | _ => s

end Sys2Proof.Machine
end

