-- ==== Sys2Proof/Machine/Turns.lean ====
section
/-!
DEFINITION. Whose turn it is (log entry 2): the turns of the agenda, and when it is empty the order in which the model lets runs, completions, the scheduler, the engines, the hub and the towers go on.
-/
namespace Sys2Proof.Machine

/-! ### Steps bound to a cycle -/

/-- Steps that one cycle takes on its own, one after the other. -/
def State.takeAll (s : State) : List (State → Out) → State
  | [] => s
  | f :: fs => match f s with | .next t => t.takeAll fs | _ => s.takeAll fs

/-- The arbitration slot and the sync slots (R66, R119). -/
def State.clocked (s : State) : List (State → Out) :=
  [execQueueArbitrationSlot] ++ if s.fab.en then (List.range 64).map execSyncSlot else []

/-- The quads whose Oryx has work. -/
def State.oryxQuads (s : State) : List Nat := (s.passes.map (·.quadIx) ++ s.mmas.map (·.quadIx)).eraseDups

/-- Tahr evaluates at the cycles 140,000k (R31), at the temperatures of log entry 49 where no step of the agenda has brought others. -/
def State.evaluations (s : State) : List (State → Out) :=
  if s.now % 140000 == 0 && s.now != 0 then
    (List.finRange 12).map fun t => let x := Config.temps t.val (s.now / 140000); execTahrEvaluate t x.1 x.2
  else []

/-- At a cycle divisible by 256 evaluations take effect (R31) and the window counts (R36). -/
def State.windows (s : State) : List (State → Out) :=
  if s.now % 256 == 0 then (List.finRange 12).flatMap fun t => [execTahrApply t, execThcntTick t] else []

/-- The TSV interfaces of the towers (R51). -/
def State.tsvCycles (s : State) : State := { s with towers := s.towers.map fun t => t.tsvCycle s.now (List.finRange 5) }

/-- The end of a cycle: its slots are served, Tahr evaluates, and threads whose resource has come free are READY (R31, R66, R119, R134). -/
def State.leaveCycle (s : State) : State := (s.takeAll (s.clocked ++ s.evaluations)).wakeResources

/-- What memory has kept back is taken again, the oldest first (log entry 46). -/
def State.takeKept (s : State) : List Instr → State
  | [] => s
  | i :: is => match exec i s with | .next t => t.takeKept is | _ => s.takeKept is

/-- The same for all of it: what is kept back again comes in its old order. -/
def State.retryKept (s : State) : State := if s.kept.isEmpty then s else ({ s with kept := [] } : State).takeKept s.kept

/-- Timeouts of the far tier are posted (R82). -/
def State.postLapsed (s : State) : List Nat → State
  | [] => s
  | x :: xs => (if paRegion (32 * x) == 0xD then s.postFar (paLocal (32 * x) / 2 ^ 44) 2 else s).postLapsed xs

/-- Reads that have got no completion count once (R82; log entry 42). -/
def State.lapses (s : State) : State :=
  if s.mem.lapsed.isEmpty then s else ({ s with mem := { s.mem with lapsed := [] } } : State).postLapsed s.mem.lapsed

/-- Copies own the lines of destination pages as soon as they translate (R176). -/
def State.nameLines (s : State) : State :=
  if s.copies.any (·.unowned) then
    { s with copies := s.copies.map fun c => if c.unowned && s.copyRuns c then s.nameOwned c (descOf c.desc) else c }
  else s

/-- The start of a cycle: passes retire, what Tahr chose takes effect, pauses end, overdue faults are answered, passes start, what memory kept back is taken again, and
records of launches and LAUNCHes that waited go on (R31, R36, R51, R82, R117, R176, R196, R229, R242). -/
def State.enterCycle (s : State) : State :=
  let s := s.takeAll (s.oryxQuads.map fun q => execPassRetire (BitVec.ofNat 9 q))
  let s := (s.takeAll s.windows).tsvCycles.watchdog
  let s := s.takeAll (s.oryxQuads.map fun q => execPassStart (BitVec.ofNat 9 q))
  let s := s.retryKept.lapses.nameLines
  (s.recAll s.launches).wakeLaunches (s.launches.map (·.part)).eraseDups

/-- Runs that stalled try again. -/
def State.retryRuns (s : State) : State := { s with runs := s.runs.map fun r => { r with stalled := false } }

/-- So many cycles pass. -/
def State.elapse (s : State) : (n : Nat) → State
  | 0 => s
  | n + 1 => let t := s.leaveCycle; ({ t.retryRuns with now := t.now + 1 }.enterCycle).elapse n

/-! ### A turn of a run -/

/-- The next word of a run (R136, R138, R141): the members that issue it, its fetch and decoding, its meaning, and what follows it. -/
def State.issueRun (s : State) (r : Run) : Out :=
  let r := s.regroup r
  match (s.setRun r).take r with
  | (none, s) => .next s
  | (some i, s) =>
    match s.cur with
    | none => .next s
    | some c =>
      match exec i s with
      | .next t => let (u, n) := t.settle r.pcore r.quad c.tids c.team c.hdr; .next (u.elapse n)
      | o => o

/-- A turn of the n-th run. -/
def State.issueTurn (s : State) (n : Nat) : Out :=
  match s.runs[n]? with
  | some r => s.issueRun r
  | none => .next s

/-! ### Turns of the agenda -/

/-- The turn after which a state goes on: the cycles have passed. -/
def State.pop (s : State) (after : Nat) (rest : List Turn) : State := { s with agenda := rest }.elapse after

/-- A device step; a word is none. -/
def State.actTurn (s : State) (i : Instr) : Out := if i.isWord then .next s else exec i s

/-- The lines that n bytes from an address touch. -/
def hostLinesOf (a n : Nat) : List Nat := if n == 0 then [] else (List.range ((a + n - 1) / 128 - a / 128 + 1)).map fun i => a / 128 + i

/-- The host takes lines of its memory from the hub (R105). -/
def State.recallHost (s : State) : List Nat → State
  | [] => s
  | l :: ls => (s.cleanHost l true).recallHost ls

/-- A store of the host to its own memory (R105, R141; log entry 17). -/
def State.hostStore (s : State) (pa : Nat) (d : List Byte) : State :=
  if paRegion pa == 0xE && paRegion (pa + d.length - 1) == 0xE then
    let s := if hostCoherent pa then s.recallHost (hostLinesOf pa d.length) else s
    let s := s.notePast (hostOwn pa) d.length
    let m := s.mem.noteHost (hostOwn pa) d.length
    { s with mem := { m with bytes := Memory.writeN m.bytes (hostOwn pa) d } }
  else s

/-- A far-tier device gives a sector as poisoned from now on (R82; log entry 42). -/
def State.farPoison (s : State) (x : Nat) : State := if paRegion (32 * x) == 0xD then s.addPoison [s.farSeat (32 * x) / 32] else s

/-- The next read of a sector of the far tier, or of host memory, gets no completion (R82, R106; log entry 42). -/
def State.farLose (s : State) (x : Nat) : State :=
  if paRegion (32 * x) == 0xD || paRegion (32 * x) == 0xE then { s with mem := { s.mem with lost := s.mem.lost ++ [s.farSeat (32 * x) / 32] } } else s

/-! ### The order of turns when the agenda is empty (log entry 2) -/

/-- Steps that may complete an access (R341). -/
def reqSteps (r : Req) : List (State → Out) :=
  [execLoadComplete r.id, execStoreComplete r.id, execAtomicComplete r.id, execRedcCombined r.id, execCacheOpComplete r.id,
    execMapBound r.id, execMapWritebackDone r.id, execAccumOpComplete r.id]

/-- Steps of a thread (R175, R342, R366, R397). -/
def threadSteps (k i : Nat) : List (State → Out) :=
  [execReleasePrereqMet k i, execAcquireCheckComplete k i, execWaitaTimeout k i, execSleepExpire k i]

/-- Steps of a team (R117, R127, R128, R153, R159). -/
def teamSteps (t : Team) : List (State → Out) :=
  (List.range t.threads.length).flatMap (threadSteps t.key) ++
  (t.maps.flatMap fun m => m.filling.map fun l => execMapLineFill t.key l.1) ++
  [execContinuationSpawn t.key, execTeamSaveComplete t.key, execTeamComplete t.key]

/-- Steps of a copy (R207 to R226). -/
def copySteps (c : Copy) : List (State → Out) :=
  execScoutProbe c.id :: (List.range c.dests.length).map (execSaigaPiece c.id) ++ [execCopyCancelStop c.id, execCopyComplete c.id]

/-- Copies in the order in which their Saigas serve them: round-robin by slot after the one served last (R219). -/
def State.inTurn (s : State) : List Copy :=
  let past (c : Copy) : Nat := match s.saigaLast.get? (quadIx c.pcore) with | some l => b2n (c.slot ≤ l) | none => 0
  sortBy (fun a b => past a < past b || (past a == past b && a.slot < b.slot)) s.copies

/-- Steps of the Oryx of a quad (R229, R242). -/
def oryxSteps (q : Nat) : List (State → Out) := [execPassRetire (BitVec.ofNat 9 q), execPassStart (BitVec.ofNat 9 q)]

/-- Steps of the scheduler for a launch (R118 to R128). -/
def State.launchSteps (s : State) (l : Launch) : List (State → Out) :=
  [execPredRecordPoll l.key] ++
  (match s.nextEntry l with
    | some u => [execUnitEnterPlacement l.key u]
    | none => []) ++
  (l.placing.map fun p => execPlacewaitExpire l.key p.num) ++
  (l.placing.map fun p => execTeamPlace l.key p.num) ++
  ((s.teams.filter fun t => t.launch == l.key && t.status == .saved).map fun t => execTeamRestore t.key) ++
  (l.placing.map fun p => execPreemptPriority l.key p.num) ++
  (l.placing.map fun p => execTimeSliceExpire l.key p.num)

/-- Steps of an entry of a queue (R93). -/
def entrySteps (q : BitVec 14) (e : Nat) : List (State → Out) :=
  [execNopEntry q e, execLaunchEntry q e, execFlushEntry q e, execFlushComplete q e, execBiasEntry q e, execBiasPageFlip q e,
    execWaitEntry q e, execWaitPoll q e, execSignalEntry q e, execSignalStoreDone q e]

/-- Steps of a work queue (R88 to R90). -/
def queueSteps (w : Queue) : List (State → Out) :=
  let q := BitVec.ofNat 14 w.num
  [execQueueEntryFetch q 1] ++ (w.entries.flatMap fun e => entrySteps q e.num) ++ [execQueueDisableComplete q]

/-- Steps of an event queue (R100 to R104, R414). -/
def eventSteps (e : EventQ) : List (State → Out) :=
  let n := BitVec.ofNat 10 e.num
  [execEventRecordWrite n, execEventInterruptTimer n, execEventContextPoll n]

/-- Steps of a tower (R22, R34, R35, R39, R42, R51). -/
def towerSteps (t : TowerId) : List (State → Out) :=
  [execRoleDrainDone t, execRoleFlushDone t, execRoleReenumerate t, execTahrApply t, execThcntTick t, execQuiesceComplete t,
    execDramZeroingDone t] ++ (List.finRange 5).map (execTsvRealignEnd t)

/-- Steps of the hub: unlocking, keys, faults and invalidations (R58, R109, R191 to R196). -/
def State.hubSteps (s : State) : List (State → Out) :=
  [execUnlockWritebackDone] ++ (s.hub.keyWork.map fun k => execKeyInstallDone k.id) ++ [execFaultRecordWrite] ++
  (s.faults.map fun f => execFaultWatchdog (BitVec.ofNat 24 f.fid)) ++ [execRemoteLineDrop, execInvalidationDone]

/-- Steps of the fabric on cells that wait (R68, R71). -/
def State.fabSteps (s : State) : List (State → Out) :=
  s.fab.peers.flatMap fun p => [execFabReleaseApply p.node, execFabRequestResume p.node]

/-- The steps that the package takes on its own, in the order in which the model lets them. -/
def State.ownSteps (s : State) : List (State → Out) :=
  s.reqs.flatMap reqSteps ++ (s.sideLog.map fun e => execSideLogReplay e.id) ++ s.inTurn.flatMap copySteps ++
  ((s.mmas.map (·.quadIx) ++ s.passes.map (·.quadIx)).flatMap oryxSteps) ++ s.teams.flatMap teamSteps ++ s.fabSteps ++
  s.launches.flatMap s.launchSteps ++ s.wqs.flatMap queueSteps ++ s.eqs.flatMap eventSteps ++ s.hubSteps ++
  (List.finRange 12).flatMap towerSteps

/-- A step changed nothing but the counter of free values and the number of the last slot. -/
def State.same (s t : State) : Bool := decide ({ t with free := s.free, lastSlot := s.lastSlot } = s)

/-- The first of some steps that changes the state. -/
def State.firstOf (s : State) : List (State → Out) → Option State
  | [] => none
  | f :: fs =>
    match f s with
    | .next t => if s.same t then s.firstOf fs else some t
    | _ => s.firstOf fs

/-- The READY threads of resident teams: core and quadrant, with the age that orders them. -/
def State.readyThreads (s : State) : List (Nat × BitVec 11 × BitVec 2) :=
  (s.teams.filter fun t => t.status == .resident && t.cause.isNone).flatMap fun t =>
    t.threads.filterMap fun th =>
      if th.st == .ready || th.st == .waiting .resource then some (th.since, BitVec.ofNat 11 t.pcore, th.quad) else none

/-- RUN_START wherever a thread is READY, the oldest first (R138). -/
def State.startSteps (s : State) : List (State → Out) :=
  (sortBy (fun a b => a.1 < b.1) s.readyThreads).map fun x => execRunStart x.2.1 x.2.2

/-- The turn when the agenda is empty: what is bound to this cycle, the next word of a run that has not stalled, a step of the package itself, the start of a run, or a cycle passes. -/
def State.turn (s : State) : Out :=
  match s.firstOf s.clocked with
  | some t => .next t
  | none =>
    match s.runs.find? fun r => !r.stalled with
    | some r => s.issueRun r
    | none =>
      match s.firstOf s.ownSteps with
      | some t => .next t.retryRuns
      | none =>
        match s.firstOf s.startSteps with
        | some t => .next t
        | none => .next (s.elapse 1)

/-! ### Placing an instruction (log entry 5) -/

/-- The place of a program that is loaded from outside: the table, its second level, the clause. -/
def bootRoot : Nat := 0x10000
def bootLevel1 : Nat := 0x20000
def bootClause : Nat := 0x40000

/-- The core of the program: PCORE 48, in the lowest compute stratum of tower 0 (R12, R20). -/
def bootCore : Nat := 48

/-- The launch record of the program: one team of one thread, 128 registers, all of the scratchpad (R113). -/
def bootRecord : LaunchRec where
  entry := BitVec.ofNat 64 bootClause
  trapEntry := 0
  params := 0
  placetab := 0
  compl := 0x50000
  pred := 0
  gen := 1
  predgen := 0
  gridx := 1
  gridy := 1
  gridz := 1
  teamsize := 1
  crewlog := 0
  regs := 128
  spad := 262144
  clrows := 1
  clcols := 1
  placen := 0
  prio := 0
  idemp := false
  pref := false
  uchk := false
  ftz := false
  map := 0
  win := 0
  accrows := 128
  placewait := 0
  savepool := 0x60000
  saveslots := 1

/-- The header of a clause that holds one instruction and ends the run: LEN, the class, no WAIT, SETA and SETB 15, Y (R265). -/
def bootHeader (k : Cls) (long : Bool) : Word :=
  let c := match k with | .int => 0 | .flt => 1 | .xfn => 2 | .mem => 3 | .eng => 4 | .sys => 5
  BitVec.ofNat 32 ((if long then 2 else 1) * 2 ^ 28 + c * 2 ^ 25 + 15 * 2 ^ 9 + 15 * 2 ^ 5 + 2 ^ 4)

/-- Lay bytes into memory that stands under key ID 0, as module reset leaves it. -/
def State.lay (s : State) (pa : Nat) (bs : List Byte) : State := { s with mem := { s.mem with bytes := Memory.writeN s.mem.bytes pa bs } }

/-- The tables, the clause and its bytes. -/
def State.layProgram (s : State) (k : Cls) (long : Bool) (bs : List Byte) : State :=
  let s : State := { s with mem := { s.mem with tlb := [], walk := [] } }
  -- one 1 GiB leaf: valid, readable, writable, executable, in tower 0 (R185)
  (((s.lay bootRoot (leBytes 8 (bootLevel1 + 1))).lay bootLevel1 (leBytes 8 0x3F)).lay bootClause (bytesOfWord (bootHeader k long))).lay
    (bootClause + 4) bs

/-- The thread that is about to issue the instruction. -/
def bootThread (hdr : Word) (now : Nat) : Thread :=
  { Thread.blank with
    pc := BitVec.ofNat 64 (bootClause + 4)
    clause := BitVec.ofNat 64 bootClause
    st := .running
    since := now
    used := hdrLen hdr
    hdr := hdr }

/-- The team of the program. -/
def bootTeam (key launch : Nat) (hdr : Word) (now : Nat) : Team where
  key := key
  launch := launch
  teamid := 0
  rank := 0
  pcore := bootCore
  slot := 0
  status := .resident
  placedAt := now
  ran := 0
  threads := [bootThread hdr now]
  spad := []
  bars := Vector.replicate 16 { exp := 0, arr := 0, phase := false }
  base := 0
  simg := 0
  lim := 0
  maps := []
  futures := []
  lastSeq := 0
  rdvs := []
  resorts := []
  fresh := []
  conts := []
  spawns := []
  idemx := false
  cause := none

/-- The launch of the program. -/
def bootLaunch (key : Nat) (grid : Word) : Launch where
  key := key
  lrec := bootRecord
  root := BitVec.ofNat 64 bootRoot
  queue := 0
  part := 0
  ep := 0
  quantum := 0
  grid := grid
  owner := .entry 0 0
  begun := [0]
  placing := []
  predSeen := []
  predTeams := none
  predAll := false
  doneCnt := 0
  haltCnt := 0
  badWrite := false

/-- A program of one instruction is loaded, its thread is in a run, and its turn is next. -/
def State.bootWord (s : State) (k : Cls) (long : Bool) (bs : List Byte) : State :=
  let hdr := bootHeader k long
  let s := s.layProgram k long bs
  { s with
    agenda := .issue 0 0 :: s.agenda
    nextKey := s.nextKey + 2
    nextGrid := s.nextGrid + 1
    launches := bootLaunch s.nextKey s.nextGrid :: s.launches
    teams := bootTeam (s.nextKey + 1) s.nextKey hdr s.now :: s.teams
    runs := { pcore := bootCore, quad := 0, team := s.nextKey + 1, todo := [0], done := [], apart := [], stalled := false } ::
      s.runs.filter fun r => !(r.pcore == bootCore && r.quad == 0) }

end Sys2Proof.Machine
end

