-- ==== Sys2Proof/Machine/Step.lean ====
section
/-!
DEFINITION. One step of the package: the next turn of the agenda, or the turn that follows from the state (log entry 2); and the placing of an instruction where the next step fetches it (log entry 5).
-/
namespace Sys2Proof.Machine

/-- One step. -/
def step (s : State) : Host.Outcome State Fault Refusal :=
  match s.agenda with
  | [] => s.turn
  | .act n i :: rest => (s.pop n rest).actTurn i
  | .issue n r :: rest => (s.pop n rest).issueTurn r
  | .hostStore n pa d :: rest => .next ((s.pop n rest).hostStore pa.toNat d)
  | .softError n e :: rest => .next ((s.pop n rest).softError e)
  | .farPoison n x :: rest => .next ((s.pop n rest).farPoison x)
  | .farLost n x :: rest => .next ((s.pop n rest).farLose x)
  | .hostBack n l d :: rest => .next ((s.pop n rest).hostBack l d)
  | .hostRefuse n i :: rest => .next ((s.pop n rest).hostRefuse i)
  | .early n i :: rest => .next ((s.pop n rest).showEarly i)
  | .peek n l r o :: rest => .next ((s.pop n rest).peekStore l r o)
  | .rmwRead n i :: rest => .next ((s.pop n rest).rmwRead i)
  | .land n i r :: rest => .next ((s.pop n rest).landReg i r)
  | .wbByte n i o :: rest => .next ((s.pop n rest).backByte i o)
  | .pieceByte n i d o :: rest => .next ((s.pop n rest).pieceByte i d o)

/-- The state with an instruction loaded where the very next step fetches and issues it. -/
def State.withFetchWord (s : State) (nbits w : Nat) : State :=
  let x := tableInstr nbits w
  s.bootWord ((x.map (·.1)).getD .int) ((x.map (·.2.long)).getD false) (tableBytes nbits w)

end Sys2Proof.Machine
end

