-- ==== Sys2Proof/Safety.lean ====
section
/-!
DEFINITION. What counts as a safe run and the terms in which the claims are stated: canonical memory, a word that passes its common checks, the effect of a word on registers alone, and frames.
-/
namespace Sys2Proof.Machine

/-- The step answers a next state: the machine neither faults nor refuses. -/
def Runs (s : State) : Prop := ∃ t, step s = .next t

/-- Memory is in its canonical form. -/
def State.memOk (s : State) : Bool := Memory.wf s.mem.bytes

/-- A member of the word i lets it pass (R142, R144, R148): it reads no pending future, and its operands agree with the leader's where it checks them. -/
def State.memberPasses (s : State) (i : Instr) (c : Issue) (m : Nat) : Bool :=
  match s.thread? c.k m with
  | some th => (th.pendTok i).isNone && (!th.uchk || th.agrees c.thr i)
  | none => false

/-- The word i is being issued by c and passes the checks common to all words: it is current, its team and threads are there, its registers are within REGS (R269 check 4), and each member lets it pass. -/
def State.issues (s : State) (i : Instr) (c : Issue) : Bool :=
  (match s.cur with
    | some u => u.team == c.k && (u.hdr == c.hdr && c.w == wordOf i) && (match u.tids with | m :: ms => m == c.lead && c.mates == (if i.uni then ms else []) | [] => false)
    | none => false) &&
  decide (s.team? c.k = some c.team) && decide (s.thread? c.k c.lead = some c.thr) &&
  regsOk (s.lfield c.team (·.regs)) i && (s.thread? c.k c.lead).isSome && (match s.thread? c.k c.lead with | some th => (th.pendTok i).isNone | none => false) &&
  c.mates.all (s.memberPasses i c)

/-- The word writes registers from d on and raises flags in FPSTAT, in every member, which goes on at the next word (R142, R293). -/
def State.wrote (s : State) (c : Issue) (i : Instr) (d : Reg) (ws : List Word) (fl : Word) : State :=
  s.finish c.k c.all i fun t => (t.setRegs d ws).orFlags fl

/-- Every part of the state but its teams is the same. -/
def sameButTeams (s t : State) : Prop := { t with teams := s.teams } = s

/-- Every team but that of a key is the same, and of that team only its threads may differ. -/
def teamsFrame (k : Nat) (s t : State) : Prop :=
  t.teams.length = s.teams.length ∧
  ∀ (n : Nat) (a b : Team), s.teams[n]? = some a → t.teams[n]? = some b → (a.key ≠ k → b = a) ∧ { b with threads := a.threads } = a

/-- Threads that are not among the members are the same. -/
def othersFrame (k : Nat) (is : List Nat) (s t : State) : Prop :=
  ∀ j i, (j ≠ k ∨ i ∉ is) → t.thread? j i = s.thread? j i

/-- Of a thread, only the registers in a list with their pending marks, FPSTAT and its place in the program may differ. -/
def threadFrame (rs : List Reg) (a b : Thread) : Prop :=
  (∀ r, r ∉ rs → b.reg r = a.reg r ∧ b.isPend r = a.isPend r) ∧
  { b with regs := a.regs, pend := a.pend, fpstat := a.fpstat, pc := a.pc, clause := a.clause } = a

/-- Every byte of memory reads as before, at every address and under every key. -/
def memoryFrame (s t : State) : Prop := ∀ k a, t.byteUnder k a = s.byteUnder k a

end Sys2Proof.Machine
end

