-- ==== Sys2Proof/Certificates/Slice0/Obligations.lean ====
section
/-!
DEFINITION. The statements for the provers: what the rules of the specification say of the encodings, of every word and of every device step.
-/
namespace Sys2Proof.Claims
open Sys2Proof.Machine

/-! ### Reference results of the INT class, written from R292 to R311 -/

/-- Lo and Hi of a type of w bits (R295). -/
def lo (n : Bool) (w : Nat) : Int := if n then 0 else -(2 : Int) ^ (w - 1)
def hi (n : Bool) (w : Nat) : Int := if n then (2 : Int) ^ w - 1 else (2 : Int) ^ (w - 1) - 1

/-- The bits that an exact result leaves in a destination of w bits, with SAT or without (R295). -/
def fit (n sat : Bool) (w : Nat) (r : Int) : BitVec w := BitVec.ofInt w (if sat then min (max r (lo n w)) (hi n w) else r)

/-- An operand under a type: .n unsigned, .i two's complement (R292). -/
def under (n : Bool) {w : Nat} (v : BitVec w) : Int := if n then (v.toNat : Int) else v.toInt

/-- A 64-bit result in its pair, low half first (R3). -/
def inPair (v : DWord) : List Word := [v.setWidth 32, (v >>> 32).setWidth 32]

/-- Part k of a word, w bits wide, under a type (R302). -/
def part (n : Bool) (w k : Nat) (v : Word) : Int := under n ((v >>> (w * k)).setWidth w)

/-- The condition of SETC; 6 and 7 name none (R298). -/
def condition (c : Nat) (a b : Int) : Option Bool :=
  match c with
  | 0 => some (a = b) | 1 => some (a ≠ b) | 2 => some (a < b) | 3 => some (a ≤ b) | 4 => some (a > b) | 5 => some (a ≥ b)
  | _ => none

/-- Destination and result of the arithmetic and comparison words (R297 to R302). -/
def arith (i : Instr) (t : Thread) : Option (Reg × List Word) :=
  match i with
  | .add n o => some (o.d, [fit n (satOf o) 32 (under n (t.reg o.a) + under n (t.b32 o.b))])
  | .sub n o => some (o.d, [fit n (satOf o) 32 (under n (t.reg o.a) - under n (t.b32 o.b))])
  | .neg o => some (o.d, [fit false (satOf o) 32 (-(t.reg o.a).toInt)])
  | .abs o => some (o.d, [fit false (satOf o) 32 ((t.reg o.a).toInt.natAbs : Int)])
  | .min n o => some (o.d, [fit n false 32 (min (under n (t.reg o.a)) (under n (t.b32 o.b)))])
  | .max n o => some (o.d, [fit n false 32 (max (under n (t.reg o.a)) (under n (t.b32 o.b)))])
  | .setc n o => (condition ((srcExt o.b).fn.extractLsb' 0 3).toNat (under n (t.reg o.a)) (under n (t.b32 o.b))).map fun p =>
      (o.d, [if p then 1 else 0])
  | .sel o => some (o.d, [if t.reg (srcExt o.b).c ≠ 0 then t.reg o.a else t.b32 o.b])
  | .mullo n o => some (o.d, [fit n (satOf o) 32 (under n (t.reg o.a) * under n (t.b32 o.b))])
  | .mulhi n o => some (o.d, [fit n false 32 ((under n (t.reg o.a) * under n (t.b32 o.b)).fdiv (2 ^ 32))])
  | .mad n o => some (o.d, [fit n (satOf o) 32 (under n (t.reg o.d) + under n (t.reg o.a) * under n (t.b32 o.b))])
  | .mulw n o => some (o.d, inPair (fit n false 64 (under n (t.reg o.a) * under n (t.b32 o.b))))
  | .madw n o => some (o.d, inPair (fit n (satOf o) 64 (under n (t.reg64 o.d) + under n (t.reg o.a) * under n (t.b32 o.b))))
  | .add64 n o => some (o.d, inPair (fit n (satOf o) 64 (under n (t.reg64 o.a) + under n (t.b64 o.b))))
  | .sub64 n o => some (o.d, inPair (fit n (satOf o) 64 (under n (t.reg64 o.a) - under n (t.b64 o.b))))
  | .sad n o => some (o.d, [fit n (satOf o) 32 (under n (t.reg o.d) + ((under n (t.reg o.a) - under n (t.b32 o.b)).natAbs : Int))])
  | .dp4i8 n o => some (o.d, [fit n (satOf o) 32 (under n (t.reg o.d) +
      (part n 8 0 (t.reg o.a) * part n 8 0 (t.b32 o.b) + part n 8 1 (t.reg o.a) * part n 8 1 (t.b32 o.b) +
        part n 8 2 (t.reg o.a) * part n 8 2 (t.b32 o.b) + part n 8 3 (t.reg o.a) * part n 8 3 (t.b32 o.b)))])
  | .dp2i16 n o => some (o.d, [fit n (satOf o) 32 (under n (t.reg o.d) +
      (part n 16 0 (t.reg o.a) * part n 16 0 (t.b32 o.b) + part n 16 1 (t.reg o.a) * part n 16 1 (t.b32 o.b)))])
  | _ => none

/-- pos and len of a bit field (R307). -/
def pos (b : Word) : Nat := (b.extractLsb' 0 5).toNat
def len (b : Word) : Nat := min (b.extractLsb' 8 6).toNat (32 - pos b)

/-- Bit i of what selector s of PERM makes of the bytes x (R309). -/
def permBit (x : DWord) (s : Byte) (i : Nat) : Bool :=
  let k := (s.extractLsb' 0 3).toNat
  if s.getLsbD 3 then false else (x.getLsbD (8 * k + if s.getLsbD 4 then 7 - i else i)) ^^ s.getLsbD 5

/-- The word r is the result of a logic, shift, bit-field or permutation word (R303 to R309), or of a move of 32 bits (R310). -/
def isLogic (i : Instr) (t : Thread) (d : Reg) (r : Word) : Prop :=
  match i with
  | .and o => d = o.d ∧ r = t.reg o.a &&& t.b32 o.b
  | .or o => d = o.d ∧ r = t.reg o.a ||| t.b32 o.b
  | .xor o => d = o.d ∧ r = t.reg o.a ^^^ t.b32 o.b
  | .andn o => d = o.d ∧ r = t.reg o.a &&& ~~~(t.b32 o.b)
  | .orn o => d = o.d ∧ r = t.reg o.a ||| ~~~(t.b32 o.b)
  | .not o => d = o.d ∧ r = ~~~(t.reg o.a)
  | .tlog o => d = o.d ∧ ∀ j < 32, r.getLsbD j =
      (srcExt o.b).fn.getLsbD (((t.reg o.a).getLsbD j).toNat + 2 * ((t.b32 o.b).getLsbD j).toNat + 4 * ((t.reg (srcExt o.b).c).getLsbD j).toNat)
  | .shl o => d = o.d ∧ r.toNat = if 32 ≤ (t.b32 o.b).toNat then 0 else (t.reg o.a).toNat * 2 ^ (t.b32 o.b).toNat % 2 ^ 32
  | .shr o => d = o.d ∧ r.toNat = if 32 ≤ (t.b32 o.b).toNat then 0 else (t.reg o.a).toNat / 2 ^ (t.b32 o.b).toNat
  | .sar o => d = o.d ∧ r.toInt = (t.reg o.a).toInt.fdiv (2 ^ min (t.b32 o.b).toNat 31)
  | .rol o => d = o.d ∧ r.toNat =
      ((t.reg o.a).toNat * 2 ^ ((t.b32 o.b).toNat % 32) + (t.reg o.a).toNat / 2 ^ (32 - (t.b32 o.b).toNat % 32)) % 2 ^ 32
  | .shf o => d = o.d ∧ r.toNat =
      ((t.reg o.a).toNat * 2 ^ 32 + (t.b32 o.b).toNat) / 2 ^ ((t.reg (srcExt o.b).c).toNat % 64) % 2 ^ 32
  | .bfx n o => d = o.d ∧ ∀ j < 32, r.getLsbD j =
      (decide (0 < len (t.b32 o.b)) &&
        if j < len (t.b32 o.b) then (t.reg o.a).getLsbD (pos (t.b32 o.b) + j)
        else !n && (t.reg o.a).getLsbD (pos (t.b32 o.b) + len (t.b32 o.b) - 1))
  | .bfi o => d = o.d ∧ ∀ j < 32, r.getLsbD j =
      if pos (t.b32 o.b) ≤ j ∧ j < pos (t.b32 o.b) + len (t.b32 o.b) then (t.reg o.a).getLsbD (j - pos (t.b32 o.b)) else (t.reg o.d).getLsbD j
  | .popc o => d = o.d ∧ r.toNat = ((List.range 32).filter fun j => (t.reg o.a).getLsbD j).length
  | .clz o => d = o.d ∧ r.toNat ≤ 32 ∧ (∀ j, 32 - r.toNat ≤ j → j < 32 → (t.reg o.a).getLsbD j = false) ∧
      (r.toNat < 32 → (t.reg o.a).getLsbD (31 - r.toNat) = true)
  | .ctz o => d = o.d ∧ r.toNat ≤ 32 ∧ (∀ j < r.toNat, (t.reg o.a).getLsbD j = false) ∧ (r.toNat < 32 → (t.reg o.a).getLsbD r.toNat = true)
  | .brev o => d = o.d ∧ ∀ j < 32, r.getLsbD j = (t.reg o.a).getLsbD (31 - j)
  | .perm o => d = o.d ∧ ∀ k < 4, ∀ j < 8, r.getLsbD (8 * k + j) =
      permBit (t.b32 o.b ++ t.reg o.a) ((t.reg (srcExt o.b).c).extractLsb' (8 * k) 8) j
  | .mov o => d = o.d ∧ r = t.b32 o.b
  | .movh o => d = o.d ∧ r = t.reg o.a
  | _ => False

/-- LEA's index under a form of b (R311). -/
def leaIdx (t : Thread) : Src → DWord
  | .reg r => (t.reg r).signExtend 64
  | .imm v => v.signExtend 64
  | .lit v => v.signExtend 64
  | .ext r e => if e.fn.getLsbD 3 then (t.reg r).zeroExtend 64 else (t.reg r).signExtend 64
/-- LEA's shift (R311): FN[2:0] with an extension word, else 0. -/
def leaShift : Src → Nat
  | .ext _ e => (e.fn.extractLsb' 0 3).toNat
  | _ => 0

/-! ### Reference results of the FLT and XFN classes (R319 to R337) -/

/-- One result of 32 bits with its flags. -/
def with1 (d : Reg) (r : FOut) : Option (Reg × List Word × Word) := some (d, [BitVec.ofNat 32 r.1], r.2)

/-- Two packed lanes, each computed as the FP32 word of its kind is, with their flags ORed (R328). -/
def lanes (d : Reg) (x y : FOut) : Option (Reg × List Word × Word) := some (d, [BitVec.ofNat 32 (y.1 * 2 ^ 16 + x.1)], x.2 ||| y.2)

/-- Destination, result and flags of the words of one rounding or none (R322 to R328). -/
def flt (i : Instr) (t : Thread) : Option (Reg × List Word × Word) :=
  match i with
  | .fadd o => with1 o.d (faddOf .f32 (t.mode o) t.ftz (t.fa .f32 o) (t.fb o))
  | .fsub o => with1 o.d (faddOf .f32 (t.mode o) t.ftz (t.fa .f32 o) (fprep .f32 false false true (t.fb o)))
  | .fmul o => with1 o.d (fmulOf .f32 (t.mode o) t.ftz (t.fa .f32 o) (t.fb o))
  | .ffma o => with1 o.d (ffmaOf .f32 (t.mode o) t.ftz (t.fa .f32 o) (t.fb o) (t.fc o))
  | .fmin o => with1 o.d (fminOf .f32 false false (t.fa .f32 o) (t.fb o))
  | .fmax o => with1 o.d (fminOf .f32 true false (t.fa .f32 o) (t.fb o))
  | .fminn o => with1 o.d (fminOf .f32 false true (t.fa .f32 o) (t.fb o))
  | .fmaxn o => with1 o.d (fminOf .f32 true true (t.fa .f32 o) (t.fb o))
  | .fsetc o =>
    let r := fsetcOf ((srcExt o.b).fn.extractLsb' 0 4).toNat (t.fa .f32 o) (t.fb o)
    some (o.d, [if r.1 then 1 else 0], r.2)
  | .frnd o => with1 o.d (frndOf (t.mode o) (t.fa .f32 o))
  | .fclass o => some (o.d, [BitVec.ofNat 32 (fclassOf (t.reg o.a).toNat)], 0)
  | .fscale o => with1 o.d (fscaleOf (t.mode o) t.ftz (t.fa .f32 o) (t.b32 o.b).toInt)
  | .fcpys o => some (o.d, [(if (BitVec.ofNat 32 (t.bF32 o.b)).msb then 0x80000000 else 0) ||| (t.reg o.a &&& 0x7FFFFFFF)], 0)
  | .vaddh o => lanes o.d (faddOf .f16 (t.mode o) t.ftz (t.packedLane .f16 o 0).1 (t.packedLane .f16 o 0).2.1)
      (faddOf .f16 (t.mode o) t.ftz (t.packedLane .f16 o 1).1 (t.packedLane .f16 o 1).2.1)
  | .vmulh o => lanes o.d (fmulOf .f16 (t.mode o) t.ftz (t.packedLane .f16 o 0).1 (t.packedLane .f16 o 0).2.1)
      (fmulOf .f16 (t.mode o) t.ftz (t.packedLane .f16 o 1).1 (t.packedLane .f16 o 1).2.1)
  | .vaddb o => lanes o.d (faddOf .bf16 (t.mode o) t.ftz (t.packedLane .bf16 o 0).1 (t.packedLane .bf16 o 0).2.1)
      (faddOf .bf16 (t.mode o) t.ftz (t.packedLane .bf16 o 1).1 (t.packedLane .bf16 o 1).2.1)
  | .vmulb o => lanes o.d (fmulOf .bf16 (t.mode o) t.ftz (t.packedLane .bf16 o 0).1 (t.packedLane .bf16 o 0).2.1)
      (fmulOf .bf16 (t.mode o) t.ftz (t.packedLane .bf16 o 1).1 (t.packedLane .bf16 o 1).2.1)
  | .vfmah o => lanes o.d
      (ffmaOf .f16 (t.mode o) t.ftz (t.packedLane .f16 o 0).1 (t.packedLane .f16 o 0).2.1 (t.packedLane .f16 o 0).2.2)
      (ffmaOf .f16 (t.mode o) t.ftz (t.packedLane .f16 o 1).1 (t.packedLane .f16 o 1).2.1 (t.packedLane .f16 o 1).2.2)
  | .vfmab o => lanes o.d
      (ffmaOf .bf16 (t.mode o) t.ftz (t.packedLane .bf16 o 0).1 (t.packedLane .bf16 o 0).2.1 (t.packedLane .bf16 o 0).2.2)
      (ffmaOf .bf16 (t.mode o) t.ftz (t.packedLane .bf16 o 1).1 (t.packedLane .bf16 o 1).2.1 (t.packedLane .bf16 o 1).2.2)
  | _ => none

/-- d as a term of a dot product (R329). -/
def accTerm (t : Thread) (d : Reg) : Prod := (fdecode .f32 (fprep .f32 t.ftz false false (t.reg d).toNat)).term

/-- Destination, result and flags of the dot products and conversions (R329 to R333). -/
def convert (i : Instr) (t : Thread) : Option (Reg × List Word × Word) :=
  match i with
  | .dot2b o => with1 o.d (fsumOf .f32 (t.mode o) t.ftz (accTerm t o.d :: t.products o .bf16 .bf16 16 2))
  | .dot4e x y o => with1 o.d (fsumOf .f32 (t.mode o) t.ftz
      (accTerm t o.d :: t.products o (if x then .e5m2 else .e4m3) (if y then .e5m2 else .e4m3) 8 4))
  | .pack f o =>
    let x := fcvtOf .f32 f (t.mode o) (satOf o) t.ftz (t.fa .f32 o)
    let y := fcvtOf .f32 f (t.mode o) (satOf o) t.ftz (t.fb o)
    some (o.d, [BitVec.ofNat 32 (packInto f ((srcExt o.b).fn.extractLsb' 0 2).toNat (t.reg o.d).toNat x.1 y.1)], x.2 ||| y.2)
  | .unpk f o =>
    let w := (fmtInfo f).bits
    let p := ((srcExt o.b).fn.extractLsb' 0 2).toNat
    let x := fcvtOf f .f32 .rne false t.ftz (fprep f t.ftz false false ((t.reg o.a).toNat / 2 ^ (w * (2 * p)) % 2 ^ w))
    let y := fcvtOf f .f32 .rne false t.ftz (fprep f t.ftz false false ((t.reg o.a).toNat / 2 ^ (w * (2 * p + 1)) % 2 ^ w))
    some (o.d, [BitVec.ofNat 32 x.1, BitVec.ofNat 32 y.1], x.2 ||| y.2)
  | .cvt f g o =>
    let md := if (srcExt o.b).ro && (srcExt o.b).rm == 5 then RMode.dth (ditherAt ((t.b32 o.b).extractLsb' 0 6).toNat t.dphase.toNat) else t.mode o
    with1 o.d (fcvtOf f g md (satOf o) t.ftz (t.fa f o))
  | .f2i f k o =>
    let r := f2iOf f k (t.mode o) (t.fa f o)
    some (o.d, if itypeWide k then inPair (BitVec.ofInt 64 r.1) else [BitVec.ofInt 32 r.1], r.2)
  | .i2f g k o =>
    let v : Int := match k with
      | .i8 => ((t.reg o.a).setWidth 8).toInt
      | .i16 => ((t.reg o.a).setWidth 16).toInt
      | .i32 => (t.reg o.a).toInt
      | .i64 => (t.reg64 o.a).toInt
      | .n8 => ((t.reg o.a).setWidth 8).toNat
      | .n16 => ((t.reg o.a).setWidth 16).toNat
      | .n32 => (t.reg o.a).toNat
      | .n64 => (t.reg64 o.a).toNat
    with1 o.d (i2fOf g (t.mode o) (satOf o) t.ftz v)
  | _ => none

/-- Destination, result and flags of the XFN words with a defined result (R334 to R337); an integer division needs a divisor other than zero. -/
def xfn (i : Instr) (t : Thread) : Option (Reg × List Word × Word) :=
  match i with
  | .rcp o => with1 o.d (frcpOf (t.mode o) t.ftz (t.fa .f32 o))
  | .sqrt o => with1 o.d (fsqrtOf (t.mode o) t.ftz (t.fa .f32 o))
  | .rsq o => with1 o.d (frsqOf (t.fa .f32 o))
  | .ex2 o => with1 o.d (fex2Of t.ftz (t.fa .f32 o))
  | .lg2 o => with1 o.d (flg2Of t.ftz (t.fa .f32 o))
  | .sin o => with1 o.d (fsinOf t.ftz (t.fa .f32 o))
  | .cos o => with1 o.d (fcosOf t.ftz (t.fa .f32 o))
  | .tanh o => with1 o.d (ftanhOf t.ftz (t.fa .f32 o))
  | .div o => with1 o.d (fdivOf (t.mode o) t.ftz (t.fa .f32 o) (t.fb o))
  | .idiv false n o =>
    if t.b32 o.b = 0 then none else some (o.d, [fit n false 32 ((under n (t.reg o.a)).tdiv (under n (t.b32 o.b)))], 0)
  | .irem false n o =>
    if t.b32 o.b = 0 then none else some (o.d, [fit n false 32 ((under n (t.reg o.a)).tmod (under n (t.b32 o.b)))], 0)
  | .idiv true n o =>
    if t.b64 o.b = 0 then none else some (o.d, inPair (fit n false 64 ((under n (t.reg64 o.a)).tdiv (under n (t.b64 o.b)))), 0)
  | .irem true n o =>
    if t.b64 o.b = 0 then none else some (o.d, inPair (fit n false 64 ((under n (t.reg64 o.a)).tmod (under n (t.b64 o.b)))), 0)
  | _ => none

/-- The divisor of an integer division is zero (R337). -/
def divisorZero (i : Instr) (t : Thread) : Prop :=
  match i with
  | .idiv w _ o | .irem w _ o => if w then t.b64 o.b = 0 else t.b32 o.b = 0
  | _ => False

/-- The words that write registers and FPSTAT only (R293, R320). -/
def onlyRegisters (i : Instr) : Bool :=
  match i.cls with
  | some .int | some .flt | some .xfn => true
  | _ => false

/-- The integer (-1)^neg * m * 2^(e - g), at a scale g that no exponent falls below. -/
def scaled (neg : Bool) (m : Nat) (e g : Int) : Int := (if neg then -1 else 1) * (m * 2 ^ (e - g).toNat : Nat)

/-- The registers that a word may write. -/
def written (i : Instr) : List Reg := (usesOf i).dst.flatMap RegUse.regs

/-! ### What the MEM, ENG and SYS words do where nothing turns them away (R338 to R400) -/

/-- The word's earlier accesses must have been performed before it acts (R342, R358, R364, R377, R386, R388, R389). -/
def releasing : Instr → Bool
  | .ld o | .ldacq o | .ldh o | .lds o | .st o | .strel o | .sth o | .sts o | .red o | .redc o | .atom o | .cas o | .cas128 o | .fence o => isRel o.ord
  | .copy _ | .launch _ | .tbarv _ | .cont _ | .bararv _ | .barsync _ | .rdv _ | .rdvx _ | .rdvv _ | .rdvs _ => true
  | _ => false

/-- A load of n aligned bytes goes out: its counter counts it, and the word ends, or waits for the completion of an acquire or a handle (R340, R341, R344, R355). -/
def loadGoes (s : State) (c : Issue) (i : Instr) (o : MemOp) (handle : Bool) : Option State :=
  let va := c.thr.reg64 o.a + (o.lit.getD 0).signExtend 64
  if va.toNat % sizeBytes o.z ≠ 0 ∨ s.covered c.k c.lead va (sizeBytes o.z) = true ∨ s.room c (flagOf c.hdr o.g) = false then none
  else
    match s.xteam c.team va .load o.rt with
    | (.ok p, s) =>
      let s := s.addReq c (flagOf c.hdr o.g) (.load o.d handle) (.glob va p) (sizeBytes o.z) o.sc o.ord o.rt
      some (if isAcq o.ord || handle then s.awaitCheck c i else s.goOn c i)
    | _ => none

/-- A store or reduction goes out with its data, and the word ends (R344, R346, R348). -/
def storeGoes (s : State) (c : Issue) (i : Instr) (o : MemOp) (va : DWord) (k : Kind) (act : Act) : Option State :=
  let n := sizeBytes o.z
  if va.toNat % n ≠ 0 ∨ s.logOver c.k c.lead va n ≠ [] ∨ s.room c (flagOf c.hdr o.g) = false then none
  else
    match s.xteam c.team va k o.rt with
    | (.ok p, s) =>
      if (k = .redc ∧ redcOk p n = false) ∨ (act.rmw = true ∧ s.atomRefused p act.aop n = true) ∨ s.writeFails p = true then none
      else some ((s.addReq c (flagOf c.hdr o.g) act (.glob va p) n o.sc o.ord o.rt).goOn c i)
    | _ => none

/-- An atomic that returns the old value goes out (R346, R347). -/
def atomicGoes (s : State) (c : Issue) (i : Instr) (o : MemOp) (va : DWord) (op : AOp) (data : List Byte) : Option State :=
  let n := sizeBytes o.z
  if va.toNat % n ≠ 0 ∨ s.logOver c.k c.lead va n ≠ [] ∨ s.room c (flagOf c.hdr o.g) = false then none
  else
    match s.xteam c.team va .atomic o.rt with
    | (.ok p, s) =>
      if s.atomRefused p (some op) n = true then none
      else
        let s := s.addReq c (flagOf c.hdr o.g) (.atomic o.d op data true) (.glob va p) n o.sc o.ord o.rt
        some (if isAcq o.ord then s.awaitCheck c i else s.goOn c i)
    | _ => none

/-- An access to scratchpad goes out to the team that the word names, at scope .team for the own rank and .tower for a peer's (R158, R345); here no mapped line has to be filled first. -/
def spadGoes (s : State) (c : Issue) (i : Instr) (o : MemOp) (act : Act) : Option State :=
  let off := c.thr.spadOff o
  let n := sizeBytes o.z
  let rank := c.thr.spadRank o c.team.rank
  if off % n ≠ 0 ∨ s.spadSize c.team < off + n ∨ s.clusterSize c.team ≤ rank ∨ s.room c (flagOf c.hdr o.g) = false then none
  else
    match s.peer? c.team rank with
    | none => none
    | some u =>
      if u.needsFill off ≠ none then none
      else
        let s := s.addReq c (flagOf c.hdr o.g) act (.spad u.key off) n (if rank = c.team.rank then .team else .tower) o.ord o.rt
        some (if isAcq o.ord then s.awaitCheck c i else s.goOn c i)

/-- What a MEM word does where nothing turns it away. -/
def memory (s : State) (c : Issue) (i : Instr) : Option State :=
  match i with
  | .ld o | .ldacq o => loadGoes s c i o false
  | .ldh o => loadGoes s c i o true
  | .st o | .strel o | .sth o =>
    storeGoes s c i o (c.thr.reg64 o.a + (o.lit.getD 0).signExtend 64) .store (.store (c.thr.data o.d (sizeBytes o.z)))
  | .red o => storeGoes s c i o (c.thr.reg64 o.a + ((o.lit.getD 0).extractLsb' 0 24).signExtend 64) .red
      (.atomic o.d (.atop ((o.lit.getD 0).extractLsb' 24 8)) (c.thr.data o.d (sizeBytes o.z)) false)
  | .redc o => storeGoes s c i o (c.thr.reg64 o.a + (o.lit.getD 0).signExtend 64) .redc (.redc (c.thr.data o.d (sizeBytes o.z)))
  | .atom o => atomicGoes s c i o (c.thr.reg64 o.a + ((o.lit.getD 0).extractLsb' 0 24).signExtend 64)
      (.atop ((o.lit.getD 0).extractLsb' 24 8)) (c.thr.data o.d (sizeBytes o.z))
  | .cas o | .cas128 o => atomicGoes s c i o (c.thr.reg64 o.a + (o.lit.getD 0).signExtend 64)
      (.cas (c.thr.data o.d (sizeBytes o.z))) (c.thr.data (swapReg o.z o.d) (sizeBytes o.z))
  | .lds o => spadGoes s c i o (.load o.d false)
  | .sts o => spadGoes s c i o (.store (c.thr.data o.d (sizeBytes o.z)))
  -- R350: a release sets FSCOPE; an acquire waits for its check
  | .fence o =>
    let s := if isRel o.ord then s.modThreads c.k c.all fun t => { t with fscope := some o.sc } else s
    some (if isAcq o.ord then s.awaitCheck c i else s.goReady c i)
  -- R351: a translation may be cached; no value changes
  | .pref o =>
    some (((s.probe (some c.team.pcore) (pcTower c.team.pcore) (s.root c.team) (c.thr.reg64 o.a + (o.lit.getD 0).signExtend 64)).2).goOn c i)
  -- R352: D + 1 lines from the one that holds the address on
  | .cwb o | .cinv o =>
    if s.room c (flagOf c.hdr o.g) = false then none
    else
      let va := c.thr.reg64 o.a + (o.lit.getD 0).signExtend 64
      match s.cacheLines c.team (BitVec.ofNat 64 (va.toNat / 128 * 128)) (o.d.toNat + 1) with
      | (some ls, s) => some ((s.addReq c (flagOf c.hdr o.g) (.cache ls (match i with | .cinv _ => true | _ => false)) (.spad c.k 0) 0 o.sc .rlx .dflt).goOn c i)
      | (none, _) => none
  | .maps o =>
    if s.mapsTrap c.team (c.thr.reg o.a).toNat (o.lit.getD 0).toNat (c.thr.reg64 o.d) ≠ none ∨ s.room c (flagOf c.hdr o.g) = false then none
    else
      some ((s.addReq c (flagOf c.hdr o.g) (.maps (c.thr.reg o.a).toNat (o.lit.getD 0).toNat (c.thr.reg64 o.d))
        (.spad c.k (c.thr.reg o.a).toNat) 0 .team .rlx .dflt).goOn c i)
  -- R354: here a bound map whose dirty lines are all allowed to be written
  | .unmaps o | .wbs o =>
    let off := (c.thr.reg o.a).toNat
    if (s.mapsAhead c.team).any (fun m => m.1 == off) = false ∨ s.room c (flagOf c.hdr o.g) = false then none
    else
      match c.team.maps.find? fun m => m.off == off with
      | none => none
      | some m =>
        match s.linesTrap c.team m m.dirtyLines with
        | (some none, s) =>
          let s := s.addReq c (flagOf c.hdr o.g) (.unmap off (match i with | .wbs _ => true | _ => false)) (.spad c.k off) 0 .pkg .rlx .dflt
          some (({ s with nextKey := s.nextKey + s.spadSize c.team } : State).goOn c i)
        | _ => none
  | _ => none

/-- The status of a token that is done, if it is (R374): a value that is no token is its own status. -/
def done (t : Team) (x : Word) : Option Word :=
  if x.extractLsb' 30 2 = 0 then some x
  else match t.future? x with
    | some f => if f.resolved then some f.status else none
    | none => none

/-- Lines of mapped regions that a word reads as it issues have been filled (R159). -/
def filled (t : Team) (ls : List Nat) : Bool := ls.all fun l => match t.mapAt l with | some m => m.filled.contains l | none => true

/-- A word that names a barrier reads what its thread has stored there (R164), of lines that have been filled (R159). -/
def barrierFree (s : State) (c : Issue) (i : Instr) (off n : Nat) : Bool := !s.ownSts c.k c.lead off n && filled c.team (wordLines c.team c.thr i)

/-- A barrier word updates the barrier at g[A] (R220, R221). -/
def updates (s : State) (c : Issue) (i : Instr) (o : EngOp) (f : TBar → Option (TBar × Bool)) : Option State :=
  let off := (c.thr.reg o.a).toNat
  if off % 16 ≠ 0 ∨ s.spadSize c.team < off + 16 ∨ barrierFree s c i off 16 = false then none
  else
    match s.team? c.k with
    | some t => (f (t.tbar off)).map fun r => s.putTbar c.k off r.1 r.2
    | none => none

/-- Wait for a barrier whose phase is not p any more: the phase and its flags go to g[D] (R222, R387). -/
def observes (s : State) (c : Issue) (i : Instr) (d : Reg) (bar p : Nat) : Option State :=
  match s.team? c.k with
  | none => none
  | some t =>
    let b := t.tbar bar
    if b.phase = p then none
    else some ((s.finish c.k c.all i fun th => th.setReg d (BitVec.ofNat 32 (16 * b.phase + b.flags))).l1Acquire t.pcore .pkg)

/-- An accumulator access goes out (R239, R381). -/
def accGoes (s : State) (c : Issue) (i : Instr) (g : Bool) (act : Act) : Option State :=
  if s.room c (flagOf c.hdr g) = false then none
  else some ((s.addReq c (flagOf c.hdr g) act (.spad c.k 0) 0 .team .rlx .dflt).goOn c i)

/-- What an ENG word does where nothing turns it away. -/
def engine (s : State) (c : Issue) (i : Instr) : Option State :=
  match i with
  -- R377: a descriptor slot and a future are free; the copy is active and g[D] pending
  | .copy o =>
    let off := (c.thr.reg o.a).toNat
    let bs := s.spadSee c.team c.lead off 64
    if filled c.team (wordLines c.team c.thr i) = false ∨ s.copyTrap c.team off bs ≠ none ∨ 64 ≤ s.slotsUsed (quadIx c.team.pcore) ∨
        c.team.futureFree = false then none
    else
      let tok := (c.team.newFuture 1).1
      let t := (c.team.newFuture 1).2
      let d := descOf bs
      let q : Copy := {
        id := s.nextKey, team := c.k, tid := c.lead, pcore := t.pcore, tok := tok, desc := bs
        dests := s.destsOf t d s.nextKey, ending := none, cancel := false, fid := none, probed := [], refused := [], owns := [], unowned := d.globDst
        slot := s.freeSlot (quadIx t.pcore), taken := [], ahead := [] }
      let q := s.nameOwned q d
      let s : State := { s.modTeam c.k (fun _ => t) with nextKey := s.nextKey + 1, copies := s.copies ++ [q] }
      some ((s.modThreads c.k c.all fun th => th.setPend o.d tok).goReady c i)
  | .launch o =>
    if (c.thr.reg64 o.a).toNat % 256 ≠ 0 ∨ c.team.futureFree = false then none
    else
      let tok := (c.team.newFuture 3).1
      let s := s.modTeam c.k fun _ => (c.team.newFuture 3).2
      let part := ((s.launch? c.team.launch).map (·.part)).getD 0
      if 256 ≤ s.children part ∨ s.blockedLaunches part ≠ [] ∨ s.launchBusy s.nextKey (s.root (c.team.newFuture 3).2) (c.thr.reg64 o.a) part = true then none
      else some (s.goLaunch s.nextKey c.k c.lead o tok)
  -- R386: the arrivals count down, and the phase completes with them when no sector is awaited
  | .tbarv o => (updates s c i o (TBar.arrive (litOr o c.thr).toNat)).map fun s => s.goReady c i
  | .tbinit o => (updates s c i o (TBar.init (litOr o c.thr).toNat)).map fun s => s.goOn c i
  | .tbinitRearm o => (updates s c i o (TBar.rearm (litOr o c.thr).toNat)).map fun s => s.goOn c i
  | .tbexp o => (updates s c i o (TBar.expect (litOr o c.thr).toNat)).map fun s => s.goOn c i
  | .tbwait o =>
    let off := (c.thr.reg o.a).toNat
    if off % 16 ≠ 0 ∨ s.spadSize c.team < off + 16 ∨ barrierFree s c i off 16 = false then none else observes s c i o.d off ((litOr o c.thr).toNat % 16)
  | .stgwait o =>
    let off := (c.thr.reg o.a).toNat
    let k := ringSlots o
    let n := (c.thr.reg o.b).toNat
    if off % 16 ≠ 0 ∨ s.spadSize c.team < off + 16 * k ∨ barrierFree s c i off (16 * k) = false then none else observes s c i o.d (off + 16 * (n % k)) (n / k % 16)
  -- R388: the continuation is registered and the thread exits
  | .cont o =>
    let off := (c.thr.reg o.a).toNat
    let v := c.thr.reg o.b
    if off % 16 ≠ 0 ∨ s.spadSize c.team < off + 16 ∨ s.contTrap c o ≠ none ∨ barrierFree s c i off 16 = false then none
    else
      match s.team? c.k with
      | none => none
      | some t =>
        let b := t.tbar off
        if b.coff ≠ 0 then none
        else
          let s := s.modTeam c.k fun t => { t with conts := t.conts.filter (· != off) ++ [off] }
          some ((s.spadWrite c.k off { b with
            coff := (o.lit.getD 0).toNat, spawn := (v.extractLsb' 24 6).toNat, arg := (v.extractLsb' 0 24).toNat }.bytes).exitThread c.k c.lead)
  -- R358: an arrival whose count agrees
  | .bararv o | .barsync o =>
    let cnt := (o.lit.getD (c.thr.reg o.a)).toNat
    let n : Fin 16 := Fin.ofNat 16 o.b.toNat
    match s.team? c.k with
    | none => none
    | some t =>
      if cnt = 0 ∨ s.lfield c.team (·.teamsize) < cnt ∨ (t.bars[n]).arrive cnt = none then none
      else some (s.arriveBar c.k c.lead i n cnt (match i with | .barsync _ => true | _ => false))
  -- R360: the member joins its crew's instance
  | .rdv _ => some (s.joinRdv c.k c.lead i 0 0)
  | .rdvx o => some (s.joinRdv c.k c.lead i (c.thr.reg o.a) (litOr o c.thr))
  | .rdvv o | .rdvs o => some (s.joinRdv c.k c.lead i (c.thr.reg o.a) 0)
  -- R374: bit 31 and the status when done, 0 when not
  | .ftest o =>
    if c.thr.isPend o.a then some (s.finish c.k c.all i fun t => t.setReg o.d 0)
    else
      match done c.team (c.thr.reg o.a) with
      | some w => some ((s.finish c.k c.all i fun t => t.setReg o.d (0x80000000 ||| w)).l1Acquire c.team.pcore .pkg)
      | none => if (c.team.future? (c.thr.reg o.a)).isSome then some (s.finish c.k c.all i fun t => t.setReg o.d 0) else none
  | .fwait o => (done c.team (c.thr.reg o.a)).map fun w => (s.finish c.k c.all i fun t => t.setReg o.d w).l1Acquire c.team.pcore .pkg
  -- R376: an unresolved future's operation is asked to stop
  | .fcancel o =>
    if c.thr.isPend o.a then some ((s.cancelFuture c.k (c.thr.reg o.a)).goOn c i)
    else if (done c.team (c.thr.reg o.a)).isSome then some (s.goOn c i)
    else if (c.team.future? (c.thr.reg o.a)).isSome then some ((s.cancelFuture c.k (c.thr.reg o.a)).goOn c i)
    else none
  -- R366: at once when the word differs already or the timeout is 0; else the thread sleeps on it
  | .waita o =>
    let off := (c.thr.reg o.a).toNat
    if off % 4 ≠ 0 ∨ s.spadSize c.team < off + 4 ∨ filled c.team (wordLines c.team c.thr i) = false then none
    else
      let x : Word := BitVec.ofNat 32 (leNat (s.spadSee c.team c.lead off 4))
      if x ≠ c.thr.reg o.b ∨ o.lit = some 0 then some ((s.finish c.k c.all i fun t => t.setReg o.d x).l1Acquire c.team.pcore .pkg)
      else some (s.modThreads c.k c.all fun t => { t with st := .blocked (.waita off (c.thr.reg o.b) o.d (t.after i) (o.lit.map fun n => s.now + n.toNat)) })
  -- R150: alone in its routine or its team with every flag at zero it completes at once; it waits while another thread has not arrived
  | .resort o =>
    let j : ResortJoin := { tid := c.lead, key := c.thr.reg o.a, mask := o.lit.getD 0 }
    let wait (th : Thread) : Thread := { th with st := .blocked .resort, word := some i }
    if c.team.threads.any fun th => th.st == .blocked .resort && th.inTrap then none
    else if c.thr.inTrap then
      if c.team.resorts ≠ [] then none
      else if c.thr.flags.all (· == 0) then some ((s.modThread c.k c.lead wait).resortDone c.k [j])
      else some (s.modThread c.k c.lead wait)
    else if c.team.threads.length = 1 ∧ c.team.resorts = [] ∧ c.thr.flags.all (· == 0) then
      some (((s.modThread c.k c.lead wait).modTeam c.k fun t => { t with resorts := [], fresh := [] }).resortDone c.k [j])
    else if (List.range c.team.threads.length).any fun n => n != c.lead && !c.team.fresh.contains n && (c.team.resorts.all fun x => x.tid != n) &&
        (match c.team.threads[n]? with | some th => !th.final | none => false) then
      some ((s.modTeam c.k fun t => { t with resorts := t.resorts ++ [j] }).modThread c.k c.lead wait)
    else none
  | .idemx _ => some ((s.modTeam c.k fun t => { t with idemx := true }).goOn c i)
  -- R378: an entry and a future are free; g[D] is pending and the thread goes on
  | .mma o =>
    let off := (c.thr.reg o.a).toNat
    let bs := s.spadSee c.team c.lead off 64
    if filled c.team (wordLines c.team c.thr i) = false ∨ s.mmaTrap c.team off bs ≠ none ∨ 32 ≤ s.tableUsed (quadIx c.team.pcore) ∨ c.team.futureFree = false then none
    else
      let tok := (c.team.newFuture 2).1
      let t := (c.team.newFuture 2).2
      let m : Mma := {
        id := s.nextKey, team := c.k, quadIx := quadIx c.team.pcore, tok := tok, block := bs, started := 0, retired := 0, ending := none }
      let s : State := { s.modTeam c.k (fun _ => t) with nextKey := s.nextKey + 1, mmas := s.mmas ++ [m] }
      some (s.finish c.k c.all i fun th => th.setPend o.d tok)
  -- R379: entries and image words read at issue
  | .scld o =>
    if filled c.team (wordLines c.team c.thr i) = false ∨ scldTrap o c ≠ none ∨ s.softTrap c (s.scldAct o c) ≠ none then none
    else
      let e := (c.thr.reg o.a).toNat
      let n := (c.thr.reg o.b).toNat
      accGoes s c i o.g (.scld e (leWords n (s.spadSee c.team c.lead (16 * c.team.simg.toNat + 4 * e) (4 * n))))
  | .accwin o =>
    if s.accwinTrap o c ≠ none then none
    else some ((s.modTeam c.k fun t => { t with
      lim := t.base + BitVec.ofNat 14 (c.thr.reg o.a).toNat, simg := BitVec.ofNat 14 ((c.thr.reg o.b).toNat / 16) }).goOn c i)
  | .accz o =>
    if tileTrap c (c.thr.reg o.a).toNat (c.thr.reg o.b).toNat ≠ none ∨ s.softTrap c (.accz (c.thr.reg o.a).toNat (c.thr.reg o.b).toNat) ≠ none then none
    else accGoes s c i o.g (.accz (c.thr.reg o.a).toNat (c.thr.reg o.b).toNat)
  | .accrd o =>
    if elemTrap o c ≠ none ∨ s.softTrap c (.accrd o.d (c.thr.reg o.a).toNat 1) ≠ none then none else accGoes s c i o.g (.accrd o.d (c.thr.reg o.a).toNat (o.b.toNat % 8 + 1))
  | .accwr o =>
    if elemTrap o c ≠ none ∨ s.softTrap c (.accwr (c.thr.reg o.a).toNat []) ≠ none then none else accGoes s c i o.g (.accwr (c.thr.reg o.a).toNat (c.thr.regN o.d (o.b.toNat % 8 + 1)))
  -- R383: tiles in scratchpad, and tiles in global memory whose pages all translate
  | .accld o | .accst o =>
    let store := match i with | .accst _ => true | _ => false
    let w := o.lit.getD 0
    let r := (c.thr.reg o.a).toNat
    let stride := (c.thr.reg o.b).toNat
    let base := accBase o w c.thr
    let act (ps : Table Place) : Act := if store then .accst r stride w base ps else .accld r stride w base ps
    if s.tilesTrap o c ≠ none ∨ s.room c (flagOf c.hdr o.g) = false then none
    else if accSp w then
      if filled c.team ((List.range (128 * accTiles w)).flatMap fun j => spadLines (base.toNat + j * stride) (128 * accSize w)) = false then none
      else some ((s.addReq c (flagOf c.hdr o.g) (act []) (.spad c.k base.toNat) (accExtent w stride) .team .rlx .dflt).goOn c i)
    else
      match s.reachPages c i store (accType w) (accPages w base stride) [] with
      | (some ((v, p) :: ps), s) =>
        let s := s.addReq c (flagOf c.hdr o.g) (act ((v, p) :: ps)) (.glob base p) (accExtent w stride) (accScope w) .rlx (accType w)
        some (({ s with nextKey := s.nextKey + 16384 * accTiles w } : State).goOn c i)
      | _ => none
  | _ => none

/-- The members are RUNNING and wait for nothing, and the header of the clause is the one at issue. -/
def settled (s : State) (c : Issue) : Prop :=
  c.hdr = c.thr.hdr ∧ c.all.Nodup ∧ ∀ m ∈ c.all, ∃ th, s.thread? c.k m = some th ∧ th.st = .running ∧ th.word = none ∧ th.mates = []

/-- The state in which a word acts after its release prerequisites: at package scope or wider the tower's partials are folded first (R179). -/
def folded (s : State) (c : Issue) (i : Instr) : State :=
  if s.releaseScope c.team c.thr i = .pkg ∨ s.releaseScope c.team c.thr i = .sys then s.foldTower (pcTower c.team.pcore) else s

/-- An arrival reads its count once, before its release prerequisites (R358). -/
def counted (s : State) (c : Issue) (i : Instr) : State :=
  match i with
  | .bararv o | .barsync o => s.modThread c.k c.lead fun t => { t with arr := (o.lit.getD (c.thr.reg o.a)).toNat }
  | _ => s

/-- A trap of the members at a word. -/
def trapOf (cause : Byte) (addr : DWord) (info : Nat) : Trap := { cause := cause, addr := addr, info := BitVec.ofNat 32 info }

/-- The check of a scratchpad operand of n bytes at an offset (R158, R340, R369). -/
def object (off align n spad : Nat) : Option Trap :=
  if off % align ≠ 0 then some (trapOf 0x04 (BitVec.ofNat 64 off) align.log2)
  else if spad < off + n then some (trapOf 0x05 (BitVec.ofNat 64 off) 3)
  else none

/-- The checks of row and tile count (R382). -/
def tiles (c : Issue) (r t : Nat) : Option Trap :=
  if r % 128 ≠ 0 then some (trapOf 0x0A c.thr.pc 1)
  else if t = 0 ∨ 64 < t then some (trapOf 0x0A c.thr.pc 2)
  else if c.team.rows < r + 128 * t then some (trapOf 0x0B c.thr.pc 0)
  else none

/-- The checks of ACCRD and ACCWR (R384). -/
def elements (c : Issue) (x n : Nat) : Option Trap :=
  if 128 < x % 128 + n then some (trapOf 0x0A c.thr.pc 5) else if c.team.rows ≤ x / 128 then some (trapOf 0x0B c.thr.pc 0) else none

/-- The trap that a scratchpad access or an ENG word takes at its own checks, before any release half, in the order of its rule (R158, R232, R237, R340, R358, R369, R379, R382, R384, R388, R389). -/
def refusal (s : State) (c : Issue) (i : Instr) : Option Trap :=
  let spad := s.spadSize c.team
  match i with
  | .lds o | .sts o =>
    (object (c.thr.spadOff o) (sizeBytes o.z) (sizeBytes o.z) spad).or
      (if s.clusterSize c.team ≤ c.thr.spadRank o c.team.rank then some (trapOf 0x05 (BitVec.ofNat 64 (c.thr.spadOff o)) 3) else none)
  | .tbinit o | .tbinitRearm o | .tbexp o | .tbarv o | .tbwait o => object (c.thr.reg o.a).toNat 16 16 spad
  | .stgwait o => object (c.thr.reg o.a).toNat 16 (16 * ringSlots o) spad
  | .waita o => object (c.thr.reg o.a).toNat 4 4 spad
  | .cont o =>
    if (object (c.thr.reg o.a).toNat 16 16 spad).isSome then object (c.thr.reg o.a).toNat 16 16 spad
    else if barrierFree s c i (c.thr.reg o.a).toNat 16 = false then none
    else
      let count := ((c.thr.reg o.b).extractLsb' 24 6).toNat
      let coff := (o.lit.getD 0).toNat
      if count = 0 ∨ s.crewSize c.team < count then some (trapOf 0x0A c.thr.pc 2)
      else if coff = 0 ∨ coff % 4 ≠ 0 then some (trapOf 0x0A c.thr.pc 3)
      else none
  | .bararv o | .barsync o =>
    let cnt := (o.lit.getD (c.thr.reg o.a)).toNat
    if cnt = 0 ∨ s.lfield c.team (·.teamsize) < cnt then some (trapOf 0x07 c.thr.pc (min cnt 0xFFFF + o.b.toNat % 16 * 65536)) else none
  | .launch o => if (c.thr.reg64 o.a).toNat % 256 ≠ 0 then some (trapOf 0x04 (c.thr.reg64 o.a) 8) else none
  | .mma o =>
    let off := (c.thr.reg o.a).toNat
    if s.lfield c.team (·.accrows) = 0 ∨ off % 64 ≠ 0 ∨ spad < off + 64 then some (trapOf 0x0A (BitVec.ofNat 64 off) 0)
    else if filled c.team (wordLines c.team c.thr i) = false then none
    else s.mmaTrap c.team off (s.spadSee c.team c.lead off 64)
  | .accwin o =>
    let n := (c.thr.reg o.a).toNat
    let q := (c.thr.reg o.b).toNat
    if n % 128 ≠ 0 ∨ s.lfield c.team (·.accrows) < n ∨ q % 16 ≠ 0 ∨ spad < q + 8 * n ∨ (∃ m ∈ s.mmas, m.team = c.k) ∨
        (∃ r ∈ s.reqs, r.team = c.k ∧ isAcc r.act = true) then some (trapOf 0x0B c.thr.pc 0) else none
  | .scld o =>
    let e := (c.thr.reg o.a).toNat
    let n := (c.thr.reg o.b).toNat
    if n = 0 ∨ 16384 < n then some (trapOf 0x0A c.thr.pc 2) else if c.team.scales < e + n then some (trapOf 0x0B c.thr.pc 1) else none
  | .accz o => tiles c (c.thr.reg o.a).toNat (c.thr.reg o.b).toNat
  | .accrd o | .accwr o => elements c (c.thr.reg o.a).toNat (o.b.toNat % 8 + 1)
  | .accld o | .accst o => tiles c (c.thr.reg o.a).toNat (bitsOf (o.lit.getD 0).toNat 18 13 + 1)
  | _ => none

/-- The update of a barrier by TBINIT, its re-arm form and TBEXP, with the count (R221, R386). -/
def barrierUpdate (i : Instr) : Option (EngOp × (Nat → TBar → Option (TBar × Bool))) :=
  match i with
  | .tbinit o => some (o, TBar.init)
  | .tbinitRearm o => some (o, TBar.rearm)
  | .tbexp o => some (o, TBar.expect)
  | _ => none

/-- The address, kind, operation and data of a store or reduction (R338, R344, R346, R348, R355). -/
def storing (i : Instr) (t : Thread) : Option (MemOp × DWord × Kind × Byte) :=
  match i with
  | .st o | .strel o | .sth o => some (o, t.reg64 o.a + (o.lit.getD 0).signExtend 64, .store, 0)
  | .red o => some (o, t.reg64 o.a + ((o.lit.getD 0).extractLsb' 0 24).signExtend 64, .red, (o.lit.getD 0).extractLsb' 24 8)
  | .redc o => some (o, t.reg64 o.a + (o.lit.getD 0).signExtend 64, .redc, 0xFF)
  | _ => none

/-- A store or reduction whose translation faults retires into the side log with the fault it waits on, and its thread goes on (R197, R199). -/
def entersLog (s : State) (c : Issue) (i : Instr) : Option State :=
  match storing i c.thr with
  | none => none
  | some (o, va, k, op) =>
    if va.toNat % sizeBytes o.z ≠ 0 ∨ s.room c (flagOf c.hdr o.g) = false ∨ s.logOver c.k c.lead va (sizeBytes o.z) ≠ [] then none
    else
      match s.xteam c.team va k o.rt with
      | (.fault r l, s) =>
        if s.logFull c.team.pcore then none
        else
          match s.teamFault c.team va (if k = .store then .store else .reduction) r l 2 with
          | (some fid, s) =>
            if s.logFull c.team.pcore then none
            else some (({ s with
              nextKey := s.nextKey + 1
              sideLog := s.sideLog ++ [{
                id := s.nextKey, team := c.k, tid := c.lead, va := va, reduction := decide (k ≠ .store), size := sizeBytes o.z, op := op, ty := o.rt
                sc := o.sc, ord := o.ord, data := c.thr.data o.d (sizeBytes o.z), fid := some fid, fs := c.fs, gone := false, iw := wordOf i }] } : State).goOn c i)
          | _ => none
      | _ => none

/-- A load or atomic whose translation faults holds its thread at the word until the fault is answered (R134, R197). -/
def heldThere (s : State) (c : Issue) (i : Instr) : Option State :=
  let hold (o : MemOp) (va : DWord) (k : Kind) (need : BitVec 3) (past : Bool) : Option State :=
    if va.toNat % sizeBytes o.z ≠ 0 ∨ s.room c (flagOf c.hdr o.g) = false ∨ past = true then none
    else
      match s.xteam c.team va k o.rt with
      | (.fault r l, s) =>
        match s.teamFault c.team va .load r l need with
        | (some fid, s) => some (s.modThreads c.k c.all fun t => { t with st := .held fid va })
        | _ => none
      | _ => none
  match i with
  | .ld o | .ldacq o | .ldh o =>
    let va := c.thr.reg64 o.a + (o.lit.getD 0).signExtend 64
    hold o va .load 1 (s.covered c.k c.lead va (sizeBytes o.z))
  | .atom o =>
    let va := c.thr.reg64 o.a + ((o.lit.getD 0).extractLsb' 0 24).signExtend 64
    hold o va .atomic 3 (decide (s.logOver c.k c.lead va (sizeBytes o.z) ≠ []))
  | .cas o | .cas128 o =>
    let va := c.thr.reg64 o.a + (o.lit.getD 0).signExtend 64
    hold o va .atomic 3 (decide (s.logOver c.k c.lead va (sizeBytes o.z) ≠ []))
  | _ => none

/-- The release prerequisites of a word hold, and memory keeps back no walk that says where it goes (R71, R166, R342). -/
def prerequisites (s : State) (c : Issue) (i : Instr) : Prop :=
  let sc := s.releaseScope c.team c.thr i
  s.releaseHeld c.team c.thr i = false ∧ s.released c.k c.all sc (s.releaseDest c.team c.thr i) = true ∧ s.settledEarly c.team.pcore sc = true

/-- The literal, or the B field where there is none (R392, R395). -/
def code (o : EngOp) : Word := match o.lit with | some w => w | none => o.b.zeroExtend 32

/-- Where a SYS word leads (R392 to R400). -/
def system (s : State) (c : Issue) (i : Instr) : Option State :=
  match i with
  | .srd o =>
    let v := s.special c.team c.thr c.lead o.b.toNat
    some (s.finish c.k c.all i fun t => t.setRegs o.d (if specialWide o.b.toNat then inPair v else [v.setWidth 32]))
  | .swr o =>
    some (s.finish c.k c.all i fun t =>
      t.setSpecial o.b.toNat (if specialWide o.b.toNat then c.thr.reg64 o.a else (c.thr.reg o.a).zeroExtend 64))
  | .trap o => some (s.trapAll c.k c.all { cause := 0x0E, addr := c.thr.pc, info := code o })
  | .brk o => some (s.trapAll c.k c.all { cause := 0x0D, addr := c.thr.pc, info := code o })
  | .nop _ => some (s.goOn c i)
  | .sleep o =>
    let n := (o.lit.getD (c.thr.reg o.a)).toNat
    if n = 0 then some (s.goReady c i)
    else some (s.modThreads c.k c.all fun t => { t.step i with st := .blocked (.sleep (s.now + n)) })
  | .dbgmark o => some (({ s with trace := s.trace ++ [(c.thr.pc, code o)] } : State).goOn c i)
  | .chsel o =>
    if s.room c (flagOf c.hdr o.g) = false then none
    else
      let r := s.probe (some c.team.pcore) (pcTower c.team.pcore) (s.root c.team) (c.thr.reg64 o.a + (o.lit.getD 0).signExtend 64)
      match r.1 with
      | .held => none
      | x => some (r.2.finish c.k c.all i fun t => t.setReg o.d (match x with | .leaf _ p => r.2.chselWord p | _ => 0))
  | .probe o =>
    if s.room c (flagOf c.hdr o.g) = false then none
    else
      let r := s.probe (some c.team.pcore) (pcTower c.team.pcore) (s.root c.team) (c.thr.reg64 o.a + (o.lit.getD 0).signExtend 64)
      match r.1 with
      | .held => none
      | x => some (r.2.finish c.k c.all i fun t => t.setReg o.d (match x with | .leaf e _ => r.2.probeWord e | _ => 0))
  | _ => none

/-- A thread at a clause header. -/
def atHeader (t : Thread) (va : DWord) : Thread := { t with pc := va, clause := va }

/-- The target of a direct branch: the VA of the word plus 4 times the literal, sign-extended (R314). -/
def branchTo (t : Thread) (o : CtlOp) : DWord := t.pc + (o.off.getD 0).signExtend 64 * 4

/-- The header that follows the clause (R267, R314). -/
def fallTo (t : Thread) : DWord := t.clause + BitVec.ofNat 64 (4 * ((t.hdr.extractLsb' 28 4).toNat + 1))

/-- Where a control word leads, for the leader and each member (R314 to R316); an indirect target is a multiple of 4. -/
def control (i : Instr) (l : Thread) : Option (Thread → Thread) :=
  match i with
  | .bra o => some fun t => atHeader t (branchTo l o)
  | .bz o => some fun t => atHeader t (if l.reg o.a = 0 then branchTo l o else fallTo l)
  | .bnz o => some fun t => atHeader t (if l.reg o.a ≠ 0 then branchTo l o else fallTo l)
  | .bltz o => some fun t => atHeader t (if (l.reg o.a).toInt < 0 then branchTo l o else fallTo l)
  | .bgez o => some fun t => atHeader t (if 0 ≤ (l.reg o.a).toInt then branchTo l o else fallTo l)
  | .brx o | .ret o => if (l.reg64 o.a).toNat % 4 ≠ 0 then none else some fun t => atHeader t (l.reg64 o.a)
  | .call o => some fun t => atHeader (t.setRegs o.d (inPair (fallTo l))) (branchTo l o)
  | .callx o => if (l.reg64 o.a).toNat % 4 ≠ 0 then none else some fun t => atHeader (t.setRegs o.d (inPair (fallTo t))) (l.reg64 o.a)
  | _ => none


/-- Nothing of an access has been seen or read before it completes (R147, R167, R168). -/
def untouched (r : Req) : Prop := r.peeked = [] ∧ r.vals = none ∧ r.landed = [] ∧ r.got = none

/-- A relaxed read of a tagged line is remembered for the next acquire fence of its threads (R174). -/
def noted (s : State) (r : Req) (va : DWord) (p : Place) : State :=
  match s.tagOf p.pa with
  | some tg => s.modThreads r.team r.threads fun th => { th with reads := th.reads ++ [(va, tg)] }
  | none => s

/-- A load that meets the notify word of a completed copy acquires its completion (R165, R176). -/
def observed (s : State) (t : Team) (k off n : Nat) : State :=
  match s.team? k with
  | some u => if ∃ x ∈ u.notes, x < off + n ∧ off < x + 4 then s.l1Drop t.pcore else s
  | none => s

/-- A line of a map of team k holds no dirty byte. -/
def clean (s : State) (k off l : Nat) : Bool := !(((s.team? k).bind fun t => t.maps.find? (·.off == off)).any fun m => m.dirtyLines.contains l)

/-- The scratchpad with a line's bytes where nothing has been written since (R159). -/
def filledOver (t : Team) (line : Nat) (bs : List Byte) : Table Byte :=
  ((List.range bs.length).zip bs).foldl (fun sp e => if (t.mapAt line).any fun m => m.dirty.contains (line + e.1) then sp else sp.putD 0 (line + e.1) e.2) t.spad

/-- A combining page and its partials lie in tower memory (R179). -/
def foldable (s : State) (p : Place) : Prop := paRegion p.pa < 12 ∧ ∀ q ∈ s.mem.partials, q.pa / p.size = p.pa / p.size → paRegion q.pa < 12

/-- The partials of other pages. -/
def otherPartials (s : State) (p : Place) : List Partial := s.mem.partials.filter fun q => q.pa / p.size != p.pa / p.size

/-- A value is folded into a tower's partial of an element, or begins one (R179). -/
def combined (s : State) (tower : Nat) (p : Place) (v : Nat) : State :=
  let ps := match s.mem.partials.find? (fun q => q.tower == tower && q.pa == p.pa) with
    | some q => s.mem.partials.map fun x => if x = q then { q with val := foldOp p.cfmt.toNat q.val v } else x
    | none => s.mem.partials ++ [{ tower := tower, pa := p.pa, size := p.size, cfmt := p.cfmt, key := p.key, val := v }]
  { s with mem := { s.mem with partials := ps } }

/-! ### Device steps -/

/-- Tower t changes by f, and nothing else. -/
def tower (s : State) (t : TowerId) (f : Tower → Tower) : State := { s with towers := s.towers.set t.val (f s.towers[t.val]) }

/-- Tower t. -/
def at' (s : State) (t : TowerId) : Tower := s.towers[t.val]

/-- The hub changes, and nothing else. -/
def hub (s : State) (f : Hub → Hub) : State := { s with hub := f s.hub }

/-- The fabric changes, and nothing else. -/
def fab (s : State) (f : Fabric → Fabric) : State := { s with fab := f s.fab }

/-- The throttle state after an evaluation, when it is not forced (R33). -/
def throttle (td tj : Nat) (pref : Bool) (hmin h : Nat) : Nat :=
  let h := if h = 7 then 6 else h
  max hmin (if 100 ≤ tj ∨ (pref = true ∧ 85 ≤ td) then min (h + 1) 6 else if tj < 95 ∧ (pref = false ∨ td < 83) then h - 1 else h)

/-- The refresh multiplier after an evaluation (R33). -/
def refreshCode (td r : Nat) : Nat :=
  if 95 ≤ td then 2
  else
    let r := if r = 2 ∧ td < 93 then 1 else r
    if r ≤ 1 then (if 85 ≤ td then 1 else if td < 83 then 0 else r) else r

/-- The RESULT with which a request for compute set k and pinned set p is rejected, tests in the order of R23. -/
def rejected (w : Tower) (k p : BitVec 4) : Option Byte :=
  if w.quiesce = true ∨ w.quiesced = true ∨ w.zeroing = true then some 4
  else if 360 < (if k[0] then 140 else 0) + (if k[1] then 125 else 0) + (if k[2] then 110 else 0) + (if k[3] then 100 else 0) then some 1
  else if p &&& k ≠ 0 then some 2
  else if k = w.compute ∧ p = w.pinned then some 3
  else none

/-- Teams placed on a stratum of tower t that leaves compute (R24). -/
def leaving (s : State) (t : TowerId) (compute req : BitVec 4) : List Team :=
  s.teams.filter fun x => x.placed && pcTower x.pcore == t.val && (compute &&& ~~~req).getLsbD (pcStratum x.pcore)

/-- The L1s of some strata of a tower hold nothing. -/
def l1Emptied (s : State) (t : TowerId) (set : BitVec 4) : State :=
  { s with mem := { s.mem with l1 := s.mem.l1.filter fun c => !(pcTower c.pcore == t.val && set.getLsbD (pcStratum c.pcore)) } }

/-- The bytes that memory keeps through MODULE_RESET: tower DRAM, the far tier and what the host holds itself (log entry 15). -/
def keptByte (a : Nat) : Bool :=
  (a < 12 * 2 ^ 48 && a % 2 ^ 48 < 0x080000000000) || a / 2 ^ 48 == 0xD || (a / 2 ^ 48 == 0xE && !hostCoherent a)

/-- Writes of a launch's completion record that are made at once, each with release order at its scope, in order (R116, R117). -/
def recorded (s : State) (l : Launch) : List (Nat × List Byte × Scope) → Option State
  | [] => some s
  | (off, bs, sc) :: ws =>
    if s.recHeld l off bs.length sc = true then none
    else
      match (s.modLaunch l.key fun x => { x with recTodo := ws }).hubWrite l.key l.root (l.lrec.compl + BitVec.ofNat 64 off) bs (some sc) with
      | (.done, u) => recorded u l ws
      | _ => none

/-- A relaxed read of a tagged line by a replayed reduction is remembered for its thread's next acquire fence (R174). -/
def replayNoted (s : State) (e : LogEntry) (p : Place) : State :=
  if e.gone = true ∨ isAcq e.ord = true then s
  else
    match s.tagOf p.pa with
    | some tg => s.modThread e.team e.tid fun t => { t with reads := t.reads ++ [(e.va, tg)] }
    | none => s

/-- The access as which a replayed entry goes on: it keeps its number (R76, R106). -/
def replayReq (e : LogEntry) (p : Place) : Req where
  id := e.id
  team := e.team
  tid := e.tid
  mates := []
  flag := none
  act := if e.reduction = true then .atomic 0 (.atop e.op) e.data false else .store e.data
  loc := .glob e.va p
  size := e.size
  sc := e.sc
  ord := e.ord
  ty := e.ty
  phase := .pending
  at_ := 0
  fs := e.fs
  after := []
  dead := if e.gone = true then [e.tid] else []
  iw := e.iw
  early := false
  seen := []
  peeked := []
  vals := none
  landed := []
  got := none

/-- What a replayed entry fails with: the cause, its TINFO, and the state when it does (R190, R200, R201). -/
def replayFails (s : State) (e : LogEntry) (t : Team) : Option (Byte × Word × State) :=
  match s.xteam t e.va e.kind e.ty with
  | (.trap c code, s) => some (c, BitVec.ofNat 32 (code + 256), s)
  | (.ok p, s) =>
    if e.reduction = true ∧ e.op = 0xFF then
      if redcOk p e.size = false then some (0x05, 263, s) else if s.writeFails p = true then some (0x11, 256, s) else none
    else if s.writeFails p = true then some (0x11, 256, s)
    else if e.reduction = false then none
    else if (s.badByte p.key.toNat p.pa e.size).isSome = true ∧ p.node = none then some (0x11, 256, s.spoil p.key.toNat p.pa e.size)
    else if s.atomRefused p (some (.atop e.op)) e.size = true then some (0x13, e.iw ||| 256, s)
    else none
  | _ => none

/-- A cell has reached this node from another, and its acknowledgement counts: the bulk packets up to it have landed there (R64, R67, R71). -/
def heard (s : State) (c : Cell) : State :=
  s.putPair { s.pairOf c.src with acked := c.ack, flights := (s.pairOf c.src).flights.filter fun f => decide (2 ^ 31 ≤ (c.ack - f.seq).toNat) }

/-- A byte at a lies in none of the sectors of far memory that n bytes at pa reach through other addresses (R81). -/
def apart (s : State) (pa n a : Nat) : Prop := ∀ j < n, s.farSeat a / 32 = s.farSeat (pa + j) / 32 → a / 32 = (pa + j) / 32

/-- A cell that may be performed as it arrives (R67, R68, R71). -/
def acts (s : State) (c : Cell) (typ : BitVec 4) : Prop :=
  s.fab.en = true ∧ c.dst = s.fab.node ∧ c.src ≠ s.fab.node ∧ c.typ = typ ∧ (s.pairOf c.src).waiting = [] ∧ (heard s c).mayPerform c = true

/-- A little-endian field of a payload: n bytes from byte lo on (R65). -/
def field (c : Cell) (lo n : Nat) : Nat := c.payload.toNat / 2 ^ (8 * lo) % 2 ^ (8 * n)
end Sys2Proof.Claims

open Sys2Proof Sys2Proof.Machine

/-- ADD, SUB, NEG, ABS, MIN, MAX, SETC, SEL, MULLO, MULHI, MAD, MULW, MADW, ADD64, SUB64, SAD, DP4I8 and DP2I16 write the exact result, saturated or reduced modulo 2^w, to their destination in every member, and raise no flag (R293, R295, R297 to R302). Conditions 6 and 7 of SETC name no result. -/
def Obligations.IntegerArithmeticResults : Prop :=
  ∀ (s : State) (i : Instr) (c : Issue) (d : Reg) (ws : List Word),
    s.issues i c = true → Claims.arith i c.thr = some (d, ws) → exec i s = .next (s.wrote c i d ws 0)

/-- AND, OR, XOR, ANDN, ORN, NOT, TLOG, SHL, SHR, SAR, ROL, SHF, BFX, BFI, POPC, CLZ, CTZ, BREV, PERM, MOV and MOVH write the one word that R303 to R310 describe bit by bit. LEA writes G64(D) := (G64(A) + idx × 2^sh) mod 2^64 (R311). -/
def Obligations.IntegerLogicResults : Prop :=
  (∀ (s : State) (i : Instr) (c : Issue) (d : Reg) (r : Word),
    s.issues i c = true → Claims.isLogic i c.thr d r → exec i s = .next (s.wrote c i d [r] 0)) ∧
  (∀ (s : State) (o : Alu) (c : Issue), s.issues (.lea o) c = true →
    exec (.lea o) s = .next (s.wrote c (.lea o) o.d
      (Claims.inPair (BitVec.ofNat 64 ((c.thr.reg64 o.a).toNat + (Claims.leaIdx c.thr o.b).toNat * 2 ^ Claims.leaShift o.b))) 0))
/-- FADD to FCPYS and the packed words write their result and OR their flags into FPSTAT in every member (R320 to R328). DOT2B, DOT4E, PACK, UNPK, CVT, F2I and I2F write their result and OR their flags into FPSTAT in every member (R329 to R333). -/
def Obligations.FloatResults : Prop :=
  (∀ (s : State) (i : Instr) (c : Issue) (d : Reg) (ws : List Word) (fl : Word),
    s.issues i c = true → Claims.flt i c.thr = some (d, ws, fl) → exec i s = .next (s.wrote c i d ws fl)) ∧
  (∀ (s : State) (i : Instr) (c : Issue) (d : Reg) (ws : List Word) (fl : Word),
    s.issues i c = true → Claims.convert i c.thr = some (d, ws, fl) → exec i s = .next (s.wrote c i d ws fl))

/-- RCP, RSQ, SQRT, EX2, LG2, SIN, COS, TANH and DIV write their result; IDIV and IREM write the truncated quotient and its remainder for a divisor other than zero, and trap DIVIDE_BY_ZERO with nothing written for zero (R334 to R337). Between the exact cases, RSQ, EX2, LG2, SIN, COS and TANH are free values of Config within their bounds (log entry 7). -/
def Obligations.XfnResults : Prop :=
  (∀ (s : State) (i : Instr) (c : Issue) (d : Reg) (ws : List Word) (fl : Word),
    s.issues i c = true → Claims.xfn i c.thr = some (d, ws, fl) → exec i s = .next (s.wrote c i d ws fl)) ∧
  (∀ (s : State) (i : Instr) (c : Issue), s.issues i c = true → Claims.divisorZero i c.thr →
    exec i s = .next (s.trapAll c.k c.all { cause := cDivZero, addr := c.thr.pc, info := wordOf i }))

/-- Every rounding is single: the sum, product or multiply-add of finite operands is the exact value, in whatever form it is written, rounded once to the format (R251, R322). A value that a format represents is not changed by rounding to it, in any mode, and raises no flag while subnormals are kept (R249, R252). -/
def Obligations.RoundingIsSingle : Prop :=
  (∀ (f : Fmt) (md : RMode) (ftz : Bool) (a b c : Nat) (an bn cn : Bool) (am bm cm : Nat) (ae be ce g : Int) (x : Exact),
    fdecode f a = .fin an am ae → fdecode f b = .fin bn bm be → fdecode f c = .fin cn cm ce → x.m ≠ 0 → x.st = false →
    (g ≤ ae → g ≤ be → g ≤ x.e → Claims.scaled x.neg x.m x.e g = Claims.scaled an am ae g + Claims.scaled bn bm be g →
      faddOf f md ftz a b = fround f md false ftz x) ∧
    (g ≤ ae + be → g ≤ x.e → Claims.scaled x.neg x.m x.e g = Claims.scaled (an != bn) (am * bm) (ae + be) g →
      fmulOf f md ftz a b = fround f md false ftz x) ∧
    (g ≤ ae + be → g ≤ ce → g ≤ x.e →
      Claims.scaled x.neg x.m x.e g = Claims.scaled (an != bn) (am * bm) (ae + be) g + Claims.scaled cn cm ce g →
      ffmaOf f md ftz a b c = fround f md false ftz x)) ∧
  (∀ (f : Fmt) (md : RMode) (sat neg : Bool) (b m : Nat) (e : Int), b < 2 ^ (fmtInfo f).bits → fdecode f b = .fin neg m e →
    fround f md sat false { neg := neg, m := m, e := e, st := false } = (b, 0))

/-- The frame of the INT, FLT and XFN classes: whatever becomes of the word, memory and everything else outside the teams, their MMAs and the FIFO streams of those is the same (a trap that halts a team drops its MMAs: R117, R243); and when it passes its checks and does not trap, everything outside the teams is the same, and only its destination registers, FPSTAT and the members' place in the program differ, and INT words leave FPSTAT (R293, R320). -/
def Obligations.RegisterWordsFrame : Prop :=
  (∀ (s t : State) (i : Instr), Claims.onlyRegisters i = true → exec i s = .next t →
    { t with teams := s.teams, mmas := s.mmas, streams := s.streams } = s ∧ memoryFrame s t) ∧
  ∀ (s t : State) (i : Instr) (c : Issue), Claims.onlyRegisters i = true → s.issues i c = true → exec i s = .next t →
    (¬ Claims.divisorZero i c.thr) →
    sameButTeams s t ∧ teamsFrame c.k s t ∧ othersFrame c.k c.all s t ∧ memoryFrame s t ∧
    ∀ m ∈ c.all, ∀ a b, s.thread? c.k m = some a → t.thread? c.k m = some b →
      threadFrame (Claims.written i) a b ∧ (i.cls = some .int → b.fpstat = a.fpstat)

/-- The MEM words without a release half do at once what R344 to R355 give them: the access goes out with its data, its counter counts it, and the thread goes on or waits for the acquire; FENCE, PREF, CWB, CINV and the map words likewise. -/
def Obligations.MemoryWordsPerform : Prop :=
  ∀ (s t : State) (i : Instr) (c : Issue), s.issues i c = true → Claims.releasing i = false → Claims.memory s c i = some t → exec i s = .next t

/-- The ENG words that have no release half do at once what R366 to R391 give them. -/
def Obligations.EngineWordsPerform : Prop :=
  ∀ (s t : State) (i : Instr) (c : Issue), s.issues i c = true → Claims.releasing i = false → Claims.engine s c i = some t → exec i s = .next t

/-- A word with a release half waits for its prerequisites and, once they hold (no earlier access of its members is outstanding but a write on its way to the same peer, at system scope their bulk packets are acknowledged, no store that the core already reads is still short of its scope, and memory keeps back no walk that says where the word goes: R71, R166, R189), does what its rule gives: STREL and the releases of STH, STS, RED, ATOM, CAS, CAS128 and FENCE; COPY, LAUNCH, TBARV, CONT, BARARV, BARSYNC, RDV, RDVX, RDVV and RDVS (R342, R358, R364, R377, R386, R388, R389). RELEASE_PREREQ_MET performs it. -/
def Obligations.ReleaseWordsPerform : Prop :=
  ∀ (s t : State) (i : Instr) (c : Issue), i.wf = true → s.issues i c = true → Claims.releasing i = true → Claims.settled s c →
    c.team.status = .resident → Claims.prerequisites s c i →
    let u := Claims.folded (Claims.counted s c i) c i
    (Claims.memory u c i = some t ∨ Claims.engine u c i = some t) →
    exec i s = .next (Claims.counted (s.awaitRelease c i) c i) ∧
    exec (.releasePrereqMet c.k c.lead) (Claims.counted (s.awaitRelease c i) c i) = .next (t.wakeMembers c.k c.all)

/-- SRD, SWR, TRAP, BRK, NOP, SLEEP, DBGMARK, CHSEL and PROBE do what R392 to R400 give them. -/
def Obligations.SystemWordsPerform : Prop :=
  ∀ (s t : State) (i : Instr) (c : Issue), s.issues i c = true → Claims.system s c i = some t → exec i s = .next t

/-- BRA, BZ, BNZ, BLTZ, BGEZ, BRX, CALL, CALLX and RET lead every member to the leader's target, and the calls leave the VA of the following header in G64(D) (R314 to R316). An indirect target that is no multiple of 4 traps MISALIGNED and nothing is written (R315). EXIT ends its thread (R317). TRET inside a routine returns to the pc and clause that TPC and TCLAUSE name, checks the header there, and leaves the thread READY and outside its routine; outside a routine it traps ILLEGAL_OPCODE (R206, R396). -/
def Obligations.ControlWordsPerform : Prop :=
  ((∀ (s : State) (i : Instr) (c : Issue) (f : Thread → Thread), s.issues i c = true → Claims.control i c.thr = some f →
    exec i s = .next (s.modThreads c.k c.all f)) ∧
  (∀ (s : State) (o : CtlOp) (i : Instr) (c : Issue), s.issues i c = true → (i = .brx o ∨ i = .callx o ∨ i = .ret o) →
    (c.thr.reg64 o.a).toNat % 4 ≠ 0 → exec i s = .next (s.trapAll c.k c.all { cause := 0x04, addr := c.thr.reg64 o.a, info := 2 })) ∧
  (∀ (s : State) (o : CtlOp) (c : Issue), s.issues (.exit o) c = true → exec (.exit o) s = .next (s.exitThread c.k c.lead))) ∧
  ((∀ (s t : State) (o : EngOp) (c : Issue) (h : Word) (cl : DWord), s.issues (.tret o) c = true → c.thr.inTrap = true →
    s.fetch c.team c.thr.tclause = (.word h, t) → hdrOk h = true → tretTarget c.thr.tpc c.thr.tclause h = some cl →
    exec (.tret o) s = .next (t.modThread c.k c.lead fun th =>
      { th with inTrap := false, pc := th.tpc, clause := cl, st := .ready, since := t.now, used := 0, hdr := h })) ∧
  (∀ (s : State) (o : EngOp) (c : Issue), s.issues (.tret o) c = true → c.thr.inTrap = false →
    exec (.tret o) s = .next (s.takeTrap c.k c.lead { cause := 0x02, addr := c.thr.pc, info := wordOf (.tret o) })))

/-- A word that names a register at or above REGS, or an odd one where a pair or a 128-bit operand is named, traps ILLEGAL_REGISTER in every member, whatever the word (R269 check 4). A word that reads a pending future blocks its thread at the word until the future resolves, whatever the word; nothing else changes (R148). Under U, a member with such a source, and one with UCHK = 1 whose operands differ from the leader's, have none of the word's effects: the one is blocked there, the other takes UNIFORM_VIOLATION, and the leader goes on without it (R142, R144), said here of a convoy of two at the INT words. An effective address that is no multiple of the access size traps MISALIGNED with the size in TINFO, and nothing is sent (R340). LDS, STS and the ENG words trap at their own checks, with the cause, TADDR and TINFO of their rules (R158, R232, R237, R358, R369, R379, R382, R384, R388, R389), a barrier's update that R221 refuses with BARRIER_COUNT and its count (R385), and COPY, after its release prerequisites, with what R209 gives for the first check that fails. -/
def Obligations.WordsAreChecked : Prop :=
  (∀ (s : State) (i : Instr) (u : Cur) (t : Team) (m : Nat) (ms : List Nat), i.isWord = true → s.cur = some u → s.team? u.team = some t →
    u.tids = m :: ms → regsOk (s.lfield t (·.regs)) i = false →
    exec i s = .next (s.trapAll u.team (m :: (if i.uni then ms else []))
      { cause := 0x03, addr := ((s.thread? u.team m).map (·.pc)).getD 0, info := wordOf i })) ∧
  (∀ (s : State) (i : Instr) (u : Cur) (t : Team) (th : Thread) (m : Nat) (tok : Word), i.isWord = true → s.cur = some u →
    s.team? u.team = some t → u.tids = [m] → s.thread? u.team m = some th → regsOk (s.lfield t (·.regs)) i = true → th.pendTok i = some tok →
    exec i s = .next (s.modThread u.team m fun x => { x with st := .blocked (.future tok) })) ∧
  (∀ (s : State) (i : Instr) (u : Cur) (t : Team) (l th : Thread) (m n : Nat) (d : Reg) (ws : List Word), i.uni = true → s.cur = some u →
    s.team? u.team = some t → u.tids = [m, n] → s.thread? u.team m = some l → s.thread? u.team n = some th → m ≠ n →
    regsOk (s.lfield t (·.regs)) i = true → l.pendTok i = none → Claims.arith i l = some (d, ws) →
    let c : Issue := { k := u.team, lead := m, mates := [], hdr := u.hdr, team := t, thr := l, w := wordOf i }
    (∀ tok, th.pendTok i = some tok → exec i s = .next ((s.modThread u.team n fun x => { x with st := .blocked (.future tok) }).wrote c i d ws 0)) ∧
    (th.pendTok i = none → th.uchk = true → (∃ r ∈ srcRegs i, th.reg r ≠ l.reg r) →
      exec i s = .next ((s.takeTrap u.team n { cause := 0x08, addr := th.pc, info := wordOf i }).wrote c i d ws 0))) ∧
  (∀ (s : State) (i : Instr) (o : MemOp) (c : Issue) (off : DWord), s.issues i c = true →
    ((i = .ld o ∨ i = .ldacq o ∨ i = .ldh o ∨ i = .st o ∨ i = .strel o ∨ i = .sth o ∨ i = .redc o ∨ i = .cas o ∨ i = .cas128 o) ∧
        off = (o.lit.getD 0).signExtend 64 ∨
      (i = .red o ∨ i = .atom o) ∧ off = ((o.lit.getD 0).extractLsb' 0 24).signExtend 64) →
    (c.thr.reg64 o.a + off).toNat % sizeBytes o.z ≠ 0 →
    exec i s = .next (s.trapAll c.k c.all { cause := 0x04, addr := c.thr.reg64 o.a + off, info := BitVec.ofNat 32 (sizeBytes o.z).log2 })) ∧
  (∀ (s : State) (i : Instr) (c : Issue) (tr : Trap), s.issues i c = true → Claims.refusal s c i = some tr → exec i s = .next (s.trapAll c.k c.all tr)) ∧
  (∀ (s : State) (i : Instr) (o : EngOp) (f : Nat → TBar → Option (TBar × Bool)) (c : Issue) (t : Team), s.issues i c = true →
    Claims.barrierUpdate i = some (o, f) → let off := (c.thr.reg o.a).toNat; let n := (litOr o c.thr).toNat
    Claims.object off 16 16 (s.spadSize c.team) = none → Claims.barrierFree s c i off 16 = true → s.team? c.k = some t → f n (t.tbar off) = none →
    exec i s = .next (s.trapAll c.k c.all (Claims.trapOf 0x07 (BitVec.ofNat 64 off) n))) ∧
  (∀ (s : State) (o : EngOp) (c : Issue) (tr : Trap), s.issues (.copy o) c = true → Claims.settled s c → c.team.status = .resident →
    Claims.prerequisites s c (.copy o) → let off := (c.thr.reg o.a).toNat
    off % 64 ≠ 0 ∨ s.spadSize c.team < off + 64 ∨ Claims.filled c.team (wordLines c.team c.thr (.copy o)) = true →
    s.copyTrap c.team off (s.spadSee c.team c.lead off 64) = some tr →
    exec (.releasePrereqMet c.k c.lead) (s.awaitRelease c (.copy o)) = .next (((Claims.folded s c (.copy o)).trapAll c.k c.all tr).wakeMembers c.k c.all)) ∧
  (∀ (s : State) (t : Team) (off : Nat) (bs : List Byte), let d := descOf bs; let spad := s.spadSize t
    let fields := d.fields bs spad (s.lfield t (·.accrows))
    (off % 64 ≠ 0 ∨ spad < off + 64 → s.copyTrap t off bs = some (Claims.trapOf 0x0A (BitVec.ofNat 64 off) 0)) ∧
    (off % 64 = 0 → off + 64 ≤ spad →
      (∀ n, (n, false) ∈ fields → (∀ x ∈ fields, x.1 < n → x.2 = true) → s.copyTrap t off bs = some (Claims.trapOf 0x0A (BitVec.ofNat 64 off) n)) ∧
      ((∀ x ∈ fields, x.2 = true) → 2 ^ s.clusterSize t ≤ d.mcast → s.copyTrap t off bs = some (Claims.trapOf 0x0F (BitVec.ofNat 64 off) d.mcast))))

/-- A store or reduction whose translation faults (ST, STH, STREL, RED, REDC, with a release half once its prerequisites hold) retires into the side log with the fault it waits on, and its thread goes on (R197, R199). A load, LDH or atomic whose translation faults sends nothing: its threads are HELD at the word, each register as it was, under the fault (R134, R197). -/
def Obligations.FaultingStoreEntersLog : Prop :=
  ∀ (s t : State) (i : Instr) (c : Issue), i.wf = true → s.issues i c = true →
    (Claims.releasing i = false → (Claims.entersLog s c i = some t ∨ Claims.heldThere s c i = some t) → exec i s = .next t) ∧
    (Claims.releasing i = true → Claims.settled s c → c.team.status = .resident → Claims.prerequisites s c i → let u := Claims.folded s c i
      (Claims.entersLog u c i = some t ∨ Claims.heldThere u c i = some t) →
      exec i s = .next (s.awaitRelease c i) ∧ exec (.releasePrereqMet c.k c.lead) (s.awaitRelease c i) = .next (t.wakeMembers c.k c.all))

/-- LOAD_COMPLETE delivers the bytes of a relaxed load to its destination in every member that still receives them, and the access ends (R341, R344, R345): of scratchpad, zeros once the team that holds it has completed (R158), and a load that meets the notify word of a completed copy acquires its completion (R165, R176); of local memory, what the core reads there with its thread's own pending stores laid over (R200), and a read of a tagged line is remembered (R174); of a peer, what its reply brought, or the bytes of a copy that this package holds; and the words that it had already read, where some of its registers show them (R147; log entry 43). A word of local memory that cannot be read, a key that is gone, and a peer's refusal end the access with a late trap (R46, R110, R413; TINFO code 2 of a peer's ACCESS_VIOLATION is log entry 26). LDH ends with its test of the loaded word: a value that is no token, and the status of a resolved future, go to g[D]; an unresolved future leaves g[D] pending; a token that names no future traps FUTURE_INVALID at the word (R355, R374; a value that is no token is log entry 31). -/
def Obligations.LoadsComplete : Prop :=
  ((∀ (s : State) (n k off : Nat) (r : Req) (t : Team) (d : Reg), s.req? n = some r → r.act = .load d false → r.loc = .spad k off →
    isAcq r.ord = false → s.canPerform r = true → s.team? r.team = some t → Claims.untouched r →
    exec (.loadComplete n) s = .next (((Claims.observed s t k off r.size).modThreads r.team r.threads fun th => th.setRegs d (loadWords r.size
      (match s.team? k with
        | some u => if u.status = .complete then List.replicate r.size 0 else u.spadN off r.size
        | none => List.replicate r.size 0))).endReq r)) ∧
  (∀ (s s1 : State) (n : Nat) (r : Req) (t : Team) (d : Reg) (va : DWord) (p : Place) (bs : List Byte), s.req? n = some r → r.act = .load d false →
    r.loc = .glob va p → p.node = none → isAcq r.ord = false → s.canPerform r = true → s.team? r.team = some t → Claims.untouched r →
    (∀ q ∈ s.reqs, q.early = false) → s.hub.keyOk p.key.toNat p.pa = true → s.badByte p.key.toNat p.pa r.size = none →
    s.loadBytes t.pcore p r.ty true r.size = (bs, s1) →
    exec (.loadComplete n) s = .next (((Claims.noted s1 r va p).modThreads r.team r.threads fun th =>
      th.setRegs d (loadWords r.size (s1.overLog r.team r.tid va r.id bs))).endReq r)) ∧
  (∀ (s : State) (n : Nat) (r : Req) (t : Team) (d : Reg) (va : DWord) (p : Place), s.req? n = some r → r.act = .load d false →
    r.loc = .glob va p → p.node = none → isAcq r.ord = false → s.canPerform r = true → s.team? r.team = some t → Claims.untouched r →
    (∀ x, r.dead = [] → s.hub.keyOk p.key.toNat p.pa = true → s.badByte p.key.toNat p.pa r.size = some x →
      exec (.loadComplete n) s = .next (((s.spoil p.key.toNat p.pa r.size).endReq r).lateAll r.team r.id r.threads
        { cause := 0x11, addr := va + BitVec.ofNat 64 (x - p.pa), info := 256 })) ∧
    (r.dead = [] → s.hub.keyOk p.key.toNat p.pa = false →
      exec (.loadComplete n) s = .next ((s.endReq r).lateAll r.team r.id r.threads { cause := 0x05, addr := va, info := 261 }))) ∧
  (∀ (s : State) (n : Nat) (r : Req) (t : Team) (d : Reg) (va : DWord) (p : Place) (w : BitVec 12), s.req? n = some r →
    r.act = .load d false → r.loc = .glob va p → p.node = some w → isAcq r.ord = false → s.canPerform r = true → s.team? r.team = some t →
    Claims.untouched r →
    (∀ bs, r.phase = .replied 0 bs → p.keeps r.ty = false →
      exec (.loadComplete n) s = .next (((s.noteRead r va p).modThreads r.team r.threads fun th =>
        th.setRegs d (loadWords r.size (s.overLog r.team r.tid va r.id (bs.take r.size)))).endReq r)) ∧
    (∀ bs, r.phase = .pending → s.remoteBytes p r.size = some bs →
      exec (.loadComplete n) s = .next (((s.noteRead r va p).modThreads r.team r.threads fun th =>
        th.setRegs d (loadWords r.size (s.overLog r.team r.tid va r.id bs))).endReq r)) ∧
    (∀ c bs, r.dead = [] → r.phase = .replied c bs → c ≠ 0 → c ≠ 0x06 →
      exec (.loadComplete n) s = .next ((s.endReq r).lateAll r.team r.id r.threads
        { cause := c, addr := va, info := BitVec.ofNat 32 ((if c = 0x05 then 2 else 0) + 256) }))) ∧
  (∀ (s : State) (n : Nat) (r : Req) (t : Team) (d : Reg) (ws : List Word), s.req? n = some r → r.act = .load d false → isAcq r.ord = false →
    s.canPerform r = true → s.team? r.team = some t → r.vals = some ws →
    exec (.loadComplete n) s = .next ((s.modThreads r.team r.threads fun th => th.setRegsBut r.landed 0 d ws).endReq r))) ∧
  (∀ (s s1 : State) (n : Nat) (r : Req) (t : Team) (th : Thread) (d : Reg) (va : DWord) (p : Place) (bs : List Byte), s.req? n = some r →
    r.act = .load d true → r.loc = .glob va p → p.node = none → isAcq r.ord = false → s.canPerform r = true → s.team? r.team = some t →
    Claims.untouched r → (∀ q ∈ s.reqs, q.early = false) → s.hub.keyOk p.key.toNat p.pa = true →
    t.threads[r.tid]? = some th → s.badByte p.key.toNat p.pa r.size = none → s.loadBytes t.pcore p r.ty true r.size = (bs, s1) →
    let x : Word := BitVec.ofNat 32 (leNat (s1.overLog r.team r.tid va r.id bs))
    let s2 := Claims.noted s1 r va p
    (x.extractLsb' 30 2 = 0 → exec (.loadComplete n) s = .next ((s2.modThread r.team r.tid (·.setReg d x)).endReq r)) ∧
    (∀ f, x.extractLsb' 30 2 ≠ 0 → t.future? x = some f → f.resolved = true →
      exec (.loadComplete n) s = .next ((s2.modThread r.team r.tid (·.setReg d f.status)).endReq r)) ∧
    (∀ f, x.extractLsb' 30 2 ≠ 0 → t.future? x = some f → f.resolved = false →
      exec (.loadComplete n) s = .next ((s2.modThread r.team r.tid (·.setPend d x)).endReq r)) ∧
    (x.extractLsb' 30 2 ≠ 0 → t.future? x = none →
      exec (.loadComplete n) s = .next (((s2.dropReq r).takeTrap r.team r.tid { cause := 0x09, addr := th.pc, info := x }).flagsDown
        r.team r.threads r.flag)))

/-- STORE_COMPLETE performs a store or a reduction that returns nothing, and the access ends (R341): scratchpad takes the bytes unless its team has completed (R158); local memory takes them, or the result of the reduction on the bytes it read, and the line is tagged by a release or by a thread that has made a release fence (R173, R344, R346); a peer's reply of status 0 ends it. A write that local memory cannot take, bytes that a reduction cannot read, a key that is gone, and a refusal in a peer's reply end it with its cause as a deferred trap (that a write which fails after issue is one is log entry 25), or as a late one for a reduction at a peer (R46, R65, R76, R110, R201, R413; TINFO code 2 of a peer's ACCESS_VIOLATION is log entry 26). -/
def Obligations.StoresComplete : Prop :=
  (∀ (s : State) (n k off : Nat) (r : Req) (t u : Team) (data : List Byte), s.req? n = some r → r.act = .store data → r.loc = .spad k off →
    s.canPerform r = true → s.team? r.team = some t → s.team? k = some u →
    exec (.storeComplete n) s = .next ((if u.status = .complete then s else s.spadWrite k off data).endReq r)) ∧
  (∀ (s : State) (n : Nat) (r : Req) (t : Team) (va : DWord) (p : Place) (data : List Byte), s.req? n = some r → r.act = .store data →
    r.loc = .glob va p → p.node = none → s.canPerform r = true → s.team? r.team = some t →
    (s.hub.keyOk p.key.toNat p.pa = true → s.writeFails p = false →
      exec (.storeComplete n) s = .next (((s.storeBytes t.pcore (r.via t p) p data).tagWrite p.pa r.ord r.sc r.fs (s.agentOf t)).endReq r)) ∧
    (r.dead = [] → s.hub.keyOk p.key.toNat p.pa = true → s.writeFails p = true →
      exec (.storeComplete n) s = .next ((s.endReq r).deferAll r.team r.id r.threads { cause := 0x11, addr := va, info := 256 })) ∧
    (r.dead = [] → s.hub.keyOk p.key.toNat p.pa = false →
      exec (.storeComplete n) s = .next ((s.endReq r).deferAll r.team r.id r.threads { cause := 0x05, addr := va, info := 261 }))) ∧
  (∀ (s : State) (n : Nat) (r : Req) (t : Team) (va : DWord) (p : Place) (d : Reg) (op : BitVec 8) (data : List Byte), s.req? n = some r →
    r.act = .atomic d (.atop op) data false → r.loc = .glob va p → p.node = none → isAcq r.ord = false → s.canPerform r = true →
    s.team? r.team = some t → s.hub.keyOk p.key.toNat p.pa = true → s.writeFails p = false →
    (∀ old s1, r.got = none → s.badByte p.key.toNat p.pa r.size = none → (Claims.noted s r va p).devRead (r.via t p) p r.size = (old, s1) →
      exec (.storeComplete n) s = .next (((s1.storeBytes t.pcore (r.via t p) p
        (leBytes data.length (atopVal op.toNat data.length (leNat old) (leNat data)))).tagWrite p.pa r.ord r.sc r.fs (s1.reqAgent r)).endReq r)) ∧
    (∀ old, r.got = some old →
      let s1 := Claims.noted s r va p
      exec (.storeComplete n) s = .next (((s1.storeBytes t.pcore (r.via t p) p
        (leBytes data.length (atopVal op.toNat data.length (leNat old) (leNat data)))).tagWrite p.pa r.ord r.sc r.fs (s1.reqAgent r)).endReq r)) ∧
    (∀ x, r.dead = [] → r.got = none → s.badByte p.key.toNat p.pa r.size = some x →
      exec (.storeComplete n) s = .next (((s.spoil p.key.toNat p.pa r.size).endReq r).deferAll r.team r.id r.threads
        { cause := 0x11, addr := va + BitVec.ofNat 64 (x - p.pa), info := 256 }))) ∧
  (∀ (s : State) (n : Nat) (r : Req) (t : Team) (va : DWord) (p : Place) (d : Reg) (op : AOp) (data : List Byte), s.req? n = some r →
    r.act = .atomic d op data false → r.loc = .glob va p → p.node = none → s.canPerform r = true → s.team? r.team = some t → r.dead = [] →
    (s.hub.keyOk p.key.toNat p.pa = false →
      exec (.storeComplete n) s = .next ((s.endReq r).deferAll r.team r.id r.threads { cause := 0x05, addr := va, info := 261 })) ∧
    (s.hub.keyOk p.key.toNat p.pa = true → s.writeFails p = true →
      exec (.storeComplete n) s = .next ((s.endReq r).deferAll r.team r.id r.threads { cause := 0x11, addr := va, info := 256 }))) ∧
  (∀ (s : State) (n : Nat) (r : Req) (t : Team) (va : DWord) (p : Place) (w : BitVec 12) (bs : List Byte), s.req? n = some r →
    r.loc = .glob va p → p.node = some w → s.canPerform r = true → s.team? r.team = some t →
    (∀ data, r.act = .store data → r.phase = .replied 0 bs → exec (.storeComplete n) s = .next (s.endReq r)) ∧
    (∀ d op data, r.act = .atomic d op data false → r.phase = .replied 0 bs → exec (.storeComplete n) s = .next ((s.noteRead r va p).endReq r)) ∧
    (∀ data c, r.act = .store data → r.phase = .replied c bs → c ≠ 0 → c ≠ 0x06 → r.dead = [] →
      exec (.storeComplete n) s = .next ((s.endReq r).deferAll r.team r.id r.threads
        { cause := c, addr := va, info := BitVec.ofNat 32 ((if c = 0x05 then 2 else 0) + 256) })) ∧
    (∀ d op data c, r.act = .atomic d op data false → r.phase = .replied c bs → c ≠ 0 → c ≠ 0x06 → r.dead = [] →
      exec (.storeComplete n) s = .next ((s.endReq r).lateAll r.team r.id r.threads
        { cause := c, addr := va, info := BitVec.ofNat 32 ((if c = 0x05 then 2 else 0) + 256) })))

/-- ATOMIC_COMPLETE performs ATOM and CAS on local memory: the bytes read, in the same step or before it (R168), go to the destination, and the new value is written: that of the operation, or a CAS's swap value where the bytes read equal its comparison, else nothing (R346, R347); a relaxed read of a tagged line is remembered (R174). At a peer the reply's bytes go to the destination; a peer's refusal, a key that is gone and bytes that cannot be read end it with a late trap (R46, R65, R110, R413; TINFO code 2 of a peer's ACCESS_VIOLATION is log entry 26). -/
def Obligations.AtomicsComplete : Prop :=
  (∀ (s s1 : State) (n : Nat) (r : Req) (t : Team) (d : Reg) (op : AOp) (va : DWord) (p : Place) (data old : List Byte), s.req? n = some r →
    r.act = .atomic d op data true → r.loc = .glob va p → p.node = none → isAcq r.ord = false → s.canPerform r = true → s.team? r.team = some t →
    s.hub.keyOk p.key.toNat p.pa = true → r.landed = [] →
    (r.got = none ∧ s.badByte p.key.toNat p.pa r.size = none ∧ (Claims.noted s r va p).devRead (r.via t p) p r.size = (old, s1) ∨
      r.got = some old ∧ s1 = Claims.noted s r va p) →
    exec (.atomicComplete n) s = .next (((match op with
      | .atop c => (s1.storeBytes t.pcore (r.via t p) p (leBytes data.length (atopVal c.toNat data.length (leNat old) (leNat data)))).tagWrite
          p.pa r.ord r.sc r.fs (s1.reqAgent r)
      | .cas cmp => if old = cmp then (s1.storeBytes t.pcore (r.via t p) p data).tagWrite p.pa r.ord r.sc r.fs (s1.reqAgent r) else s1).modThreads
        r.team r.threads fun th => th.setRegs d (loadWords r.size old)).endReq r)) ∧
  (∀ (s : State) (n : Nat) (r : Req) (t : Team) (d : Reg) (op : AOp) (va : DWord) (p : Place) (data : List Byte), s.req? n = some r →
    r.act = .atomic d op data true → r.loc = .glob va p → isAcq r.ord = false → s.canPerform r = true → s.team? r.team = some t →
    r.landed = [] → r.dead = [] →
    (∀ w bs, p.node = some w → r.phase = .replied 0 bs →
      exec (.atomicComplete n) s = .next (((s.noteRead r va p).modThreads r.team r.threads fun th => th.setRegs d (loadWords r.size bs)).endReq r)) ∧
    (∀ w c bs, p.node = some w → r.phase = .replied c bs → c ≠ 0 → c ≠ 0x06 →
      exec (.atomicComplete n) s = .next ((s.endReq r).lateAll r.team r.id r.threads
        { cause := c, addr := va, info := BitVec.ofNat 32 ((if c = 0x05 then 2 else 0) + 256) })) ∧
    (p.node = none → s.hub.keyOk p.key.toNat p.pa = false →
      exec (.atomicComplete n) s = .next ((s.endReq r).lateAll r.team r.id r.threads { cause := 0x05, addr := va, info := 261 })) ∧
    (∀ x, p.node = none → s.hub.keyOk p.key.toNat p.pa = true → r.got = none → s.badByte p.key.toNat p.pa r.size = some x →
      exec (.atomicComplete n) s = .next (((s.spoil p.key.toNat p.pa r.size).endReq r).lateAll r.team r.id r.threads
        { cause := 0x11, addr := va + BitVec.ofNat 64 (x - p.pa), info := 256 })))

/-- REDC_COMBINED folds the value into its tower's partial of the element, or begins one, and its line is read and tagged as by an RMW (R173, R174, R179, R348); CACHE_OP_COMPLETE treats its lines in order once no copy owns one and no tower holds one (R352); MAP_BOUND binds a region with no line filled (R353); MAP_WRITEBACK_DONE, in the order in which the team's map words issued, after its thread's earlier accesses to the bytes, and once every dirty line can be written back, writes them back, so that its lines hold what memory does, and, for UNMAPS, unbinds the map (R164, R354); a map that is bound no more ends it. MAP_LINE_FILL puts the 128 bytes that the line's global place holds into the scratchpad line, which is filled and no longer being filled, and is not dirty by it; bytes that have been written there stay (R159); a line that cannot be read fails the accesses that wait for it with a late trap (R413). -/
def Obligations.OtherAccessesComplete : Prop :=
  ((∀ (s : State) (n : Nat) (r : Req) (t : Team) (va : DWord) (p : Place) (data : List Byte), s.req? n = some r → r.act = .redc data →
    r.loc = .glob va p → p.node = none → isAcq r.ord = false → s.canPerform r = true → s.team? r.team = some t →
    s.hub.keyOk p.key.toNat p.pa = true → s.writeFails p = false →
    exec (.redcCombined n) s = .next (((Claims.combined (Claims.noted s r va p) (pcTower t.pcore) p (leNat data)).tagWrite
      p.pa r.ord r.sc r.fs (s.agentOf t)).endReq r)) ∧
  (∀ (s : State) (n : Nat) (r : Req) (t : Team) (ls : List (Nat × Nat)) (drop : Bool), s.req? n = some r → r.act = .cache ls drop → s.team? r.team = some t →
    (∀ l ∈ ls, s.owned none l.1 128 = false ∧ s.towerHolds l.1 = false) →
    exec (.cacheOpComplete n) s = .next ((s.treatLines t.pcore r.sc drop ls).endReq r)) ∧
  (∀ (s : State) (n off len : Nat) (r : Req) (va : DWord), s.req? n = some r → r.act = .maps off len va → s.mapTurn r = true →
    exec (.mapBound n) s = .next ((s.modTeam r.team (fun t => { t with
      maps := t.maps ++ [{ off := off, len := len, va := va, filled := [], filling := [], dirty := [], pages := [] }] })).endReq r)) ∧
  (∀ (s s1 : State) (n off : Nat) (keep : Bool) (r : Req) (t : Team), s.req? n = some r → r.act = .unmap off keep → s.team? r.team = some t →
    s.mapTurn r = true →
    (∀ m, t.maps.find? (fun m => m.off == off) = some m → m.filling = [] → s.inOrder r = true → s.writeBack t r.tid m (r.id + 1) m.dirtyLines = (true, s1) →
      let s2 := s1.fillWritten r.team off (m.dirtyLines.filter fun l => Claims.clean s1 r.team off l)
      exec (.mapWritebackDone n) s = .next ((if keep then s2 else
        s2.modTeam r.team (fun t => { t with maps := t.maps.filter (fun m => m.off != off) })).endReq r)) ∧
    (t.maps.find? (fun m => m.off == off) = none → exec (.mapWritebackDone n) s = .next (s.endReq r)))) ∧
  (∀ (s : State) (k line : Nat) (t : Team) (m : SpadMap) (p : Place), s.team? k = some t → t.mapAt line = some m →
    m.filling.get? line = some p → p.node = none → s.holds t.pcore none p 128 = false → s.hub.keyOk p.key.toNat p.pa = true →
    (∀ s1 bs, s.badByte p.key.toNat p.pa 128 = none → s.loadBytes t.pcore p .dflt true 128 = (bs, s1) →
      exec (.mapLineFill k line) s = .next ((s1.modTeam k (fun t => { t with
        spad := Claims.filledOver t line bs
        maps := t.maps.map fun m => if m.off ≤ line ∧ line < m.off + m.len then
          { m with filled := m.filled ++ [line], filling := m.filling.erase line } else m })).stirAll k line bs.length)) ∧
    (∀ x, s.badByte p.key.toNat p.pa 128 = some x →
      exec (.mapLineFill k line) s = .next ((s.spoil p.key.toNat p.pa 128).failFill k line
        { cause := 0x11, addr := m.va + BitVec.ofNat 64 (line - m.off) + BitVec.ofNat 64 (x - p.pa), info := 256 })))

/-- A load of a page that is no combining page, of a host line that the hub holds no copy of under another key, leaves every byte of memory as it reads, at every address and under every key. Before a load or an atomic of a combining page the page is folded (R179): its partials go, those of other pages stay, and memory reads as the fold leaves it; the fold leaves at each element its home value with every tower's partial of it combined in, tower 0's first. -/
def Obligations.LoadsKeepMemory : Prop :=
  (∀ (s t : State) (n : Nat) (r : Req), s.req? n = some r →
    (∀ va p, r.loc = .glob va p → p.share ≠ 3 ∧ ∀ c, s.mem.hubHost.get? (p.pa / 128) = some c → c.key = p.key.toNat) →
    exec (.loadComplete n) s = .next t → memoryFrame s t) ∧
  (∀ (s t : State) (n : Nat) (r : Req) (va : DWord) (p : Place) (x : Team), s.req? n = some r → r.loc = .glob va p → p.node = none →
    isAcq r.ord = false → s.canPerform r = true → s.team? r.team = some x → Claims.untouched r → p.share = 3 → Claims.foldable s p →
    s.hub.keyOk p.key.toNat p.pa = true → s.badByte p.key.toNat p.pa r.size = none →
    (∀ d, r.act = .load d false → exec (.loadComplete n) s = .next t →
      t.mem.partials = Claims.otherPartials s p ∧ ∀ k a, t.byteUnder k a = (s.foldPage p.pa p.size).byteUnder k a) ∧
    (∀ d op data, r.act = .atomic d op data true → exec (.atomicComplete n) s = .next t → t.mem.partials = Claims.otherPartials s p)) ∧
  (∀ (s : State) (p : Place) (k c a : Nat), Claims.foldable s p →
    (∀ q ∈ s.mem.partials, q.pa / p.size = p.pa / p.size → q.key.toNat = k ∧ q.cfmt.toNat = c ∧ q.pa % cfmtBytes c = 0) →
    a / p.size = p.pa / p.size → a % cfmtBytes c = 0 → paRegion a < 12 →
    leNat ((s.foldPage p.pa p.size).readUnder k a (cfmtBytes c)) =
      (sortBy (fun x y => decide (x.tower < y.tower)) (s.mem.partials.filter fun q => q.pa == a)).foldl
        (fun h q => leNat (leBytes (cfmtBytes c) (foldOp c h q.val))) (leNat (s.readUnder k a (cfmtBytes c))))

/-- A store to local memory, of bytes of one sector, once performed, reads back under its key, and changes no other byte: at every address that names none of the stored bytes (the two routes to host memory name the same bytes, R105, and far-tier addresses may name one device byte, R81), memory reads as before under the store's key in the same sector, and under every key in every other sector that does not share its line's recoding (R52 to R54, R344). For a combining page, before is as the fold of the page leaves it, and the page's partials are gone (R179). -/
def Obligations.StoreWritesItsBytes : Prop :=
  ∀ (s t : State) (n : Nat) (r : Req) (va : DWord) (p : Place) (data : List Byte), s.req? n = some r → r.act = .store data → r.loc = .glob va p →
    p.node = none → (p.share = 3 → Claims.foldable s p) → s.canPerform r = true → s.hub.keyOk p.key.toNat p.pa = true → s.writeFails p = false →
    p.pa % 32 + data.length ≤ 32 → (∀ c, s.mem.hubHost.get? (p.pa / 128) = some c → c.key = p.key.toNat) → exec (.storeComplete n) s = .next t →
    let u := if p.share = 3 then s.foldPage p.pa p.size else s
    (∀ i (h : i < data.length), t.byteUnder p.key.toNat (p.pa + i) = data[i]) ∧
    (∀ k a, (∀ i < data.length, hostOwn a ≠ hostOwn (p.pa + i)) → (s.farSeat a / 32 = s.farSeat p.pa / 32 → a / 32 = p.pa / 32 ∧ k = p.key.toNat) →
      (k = p.key.toNat ∨ p.cmp = false ∧ p.pa / 128 ∉ s.mem.recoded) → t.byteUnder k a = u.byteUnder k a) ∧
    (p.share = 3 → t.mem.partials = Claims.otherPartials s p)

/-- A word of Trelah changes no memory as it issues: its accesses are performed by later steps (R341). But for TRET, which fetches, a word reads no memory as it issues but page-table entries, under key ID 0 (R189): every byte of memory reads as before at every address and under every key, unless the hub holds a copy of a host line under another key ID, which such a read sends back (R54, R105); tags, peer lines, combining partials, and the keys and coding of sectors stay. No tower changes but that a bank under refresh notes the retry of such a read (R45); and the hub, the fabric, the queues, the accumulators, the passes, the launches and the clock are as they were. -/
def Obligations.WordsChangeNoMemory : Prop :=
  ∀ (s t : State) (i : Instr), i.isWord = true → (∀ o, i ≠ .tret o) → exec i s = .next t →
    ((∀ x ∈ s.mem.hubHost, x.2.key = 0) → memoryFrame s t) ∧
    t.mem.tags = s.mem.tags ∧ t.mem.remote = s.mem.remote ∧ t.mem.partials = s.mem.partials ∧ t.mem.sectorKey = s.mem.sectorKey ∧ t.mem.recoded = s.mem.recoded ∧
    (∀ n : TowerId, { t.towers[n.val] with retry := s.towers[n.val].retry } = s.towers[n.val]) ∧ t.hub = s.hub ∧ t.fab = s.fab ∧
    t.wqs = s.wqs ∧ t.eqs = s.eqs ∧ t.launches = s.launches ∧ t.acc = s.acc ∧ t.scale = s.scale ∧ t.passes = s.passes ∧ t.now = s.now

/-- RUN_START selects the convoy of R138, once the threads whose resource is free have become READY (R134): with a READY thread homed in the quadrant of the core, no run in progress there, a cycle the throttle allows, and no member's header kept back by memory, its members become RUNNING and begin their clause, and the quadrant's run begins with the leader first. -/
def Obligations.RunStartTakesConvoy : Prop :=
  ∀ (s : State) (p : BitVec 11) (q : BitVec 2) (l : Cand) (cs : List Cand),
    (∀ r ∈ s.runs, ¬(r.pcore = p.toNat ∧ r.quad = q)) → s.runCycle (pcTower p.toNat) = true → s.wakeResources.convoy p.toNat q = l :: cs →
    let is := (l :: cs).map (·.tid)
    (∀ i ∈ is, s.wakeResources.startHeld l.team i = false) →
    let t := (s.wakeResources.modThreads l.team is fun th => { th with st := .running, used := 0 }).beginRuns l.team is
    exec (.runStart p q) s = .next { t with
      runs := t.runs ++ [{ pcore := p.toNat, quad := q, team := l.team, todo := is, done := [], apart := [], stalled := false }] }

/-- The convoy of a quadrant: its leader is a READY thread than which none is older, with ties to the lowest slot; every other member is a READY thread of the leader's team at the leader's PC; no two members share a lane; and no such thread on a free lane is left out (R138). Of members that have begun their run, those that stand at the leader's PC under the leader's clause and header issue its word, and the others go on apart: each word is decoded under its own clause (R137, R266). -/
def Obligations.ConvoyIsFused : Prop :=
  (∀ (s : State) (p : Nat) (q : BitVec 2) (l : Cand) (cs : List Cand), s.convoy p q = l :: cs →
    let fits (c : Cand) : Prop := c.team = l.team ∧ c.pc = l.pc
    l ∈ s.cands p q ∧ (∀ c ∈ s.cands p q, l.since < c.since ∨ (l.since = c.since ∧ l.slot ≤ c.slot)) ∧
    (∀ c ∈ cs, c ∈ s.cands p q ∧ fits c) ∧ ((l :: cs).map (·.lane)).Nodup ∧
    (∀ c ∈ s.cands p q, fits c → c.lane ∈ (l :: cs).map (·.lane))) ∧
  (∀ (s : State) (r : Run) (l : Nat) (is : List Nat), s.running r.team r.todo = l :: is →
    let at' (i : Nat) := (s.thread? r.team i).map fun th => (th.pc, th.clause, if th.pc = th.clause then 0 else th.hdr)
    (s.regroup r).todo.head? = some l ∧ (∀ i ∈ (s.regroup r).todo, i ∈ l :: is ∧ at' i = at' l) ∧
    (∀ i ∈ l :: is, at' i = at' l → i ∈ (s.regroup r).todo) ∧ (∀ i ∈ l :: is, at' i ≠ at' l → i ∈ (s.regroup r).apart))

/-- A thread that begins its run at a well-formed header whose WAIT names no nonzero counter goes on at its first word; one whose WAIT does is WAITING; an ill-formed header traps ILLEGAL_CLAUSE with the header word (R136, R265, R266, R205). One whose translation faults is held on its fault (R197); while memory keeps its header back a thread stays at it. The failed check of an acquire is taken first (R175), then a cause that waits for the thread (R201, R413). -/
def Obligations.ClauseBegins : Prop :=
  (∀ (s : State) (k i : Nat) (u : Team) (th : Thread), s.team? k = some u → s.thread? k i = some th → th.failed = none → th.later = [] → th.pc = th.clause →
    (∀ t h, s.fetch u th.pc = (.word h, t) → s.beginRun k i =
      if hdrOk h = false then t.takeTrap k i { cause := 0x01, addr := th.pc, info := h }
      else if ∀ n : Fin 12, h.getLsbD (13 + n.val) = true → th.flags[n] = 0 then
        t.modThread k i fun x => { x with hdr := h, used := x.used + (h.extractLsb' 28 4).toNat, pc := x.pc + 4 }
      else t.modThread k i fun x => { x with st := .waiting .flags, hdr := h }) ∧
    (∀ t, s.fetch u th.pc = (.wait, t) → s.beginRun k i = t) ∧
    (∀ t t2 r l fid, s.fetch u th.pc = (.fault r l, t) → t.team? k = some u → t.teamFault u th.pc .fetch r l 4 = (some fid, t2) →
      s.beginRun k i = t2.modThread k i fun x => { x with st := .held fid th.pc })) ∧
  (∀ (s : State) (k i : Nat) (th : Thread) (tr : Trap), s.thread? k i = some th → th.failed = some tr →
    s.beginRun k i = (s.modThread k i fun x => { x with failed := none }).takeTrap k i tr) ∧
  (∀ (s : State) (k i : Nat) (th : Thread) (tr : Trap) (n : Nat) (l : List (Nat × Trap)), s.thread? k i = some th → th.failed = none → th.later = (n, tr) :: l →
    s.beginRun k i = (s.modThread k i fun x => { x with later := l }).takeTrap k i tr)

/-- SAIGA_PIECE moves the next piece of a destination of a copy that is at work, in a cycle the throttle allows: when its elements have moved they count (R214); a page that faults stalls the copy on its fault (R197, R215), and one whose probe is unanswered on the probe's (R198); a fatal cause ends it FAILED (R216). SCOUT_PROBE translates the next page ahead of the copy and marks it probed; a probe that faults opens or joins a fault entry, and the copy goes on (R217, R198). E2M1 elements become the E4M3 code of the same value (R213): sixteen codes, the odd ones from the high half of the byte. -/
def Obligations.PiecesMove : Prop :=
  (∀ (s : State) (c i : Nat) (q : Copy) (x : Dest), s.copy? c = some q → q.dests[i]? = some x → s.copyRuns q = true → q.cancel = false → q.fid = none →
    q.unowned = false → x.moved < (descOf q.desc).count → s.runCycle (pcTower q.pcore) = true → s.pieceNow q (descOf q.desc) x.moved ≠ 0 →
    let d := descOf q.desc
    let n := s.pieceNow q d x.moved
    (∀ t, s.moveRange q d i x x.moved n = (.done, t) →
      exec (.saigaPiece c i) s = .next { t.advance q d i (x.moved + n) with saigaLast := t.saigaLast.put (quadIx q.pcore) q.slot }) ∧
    (∀ t k need va r l, s.moveRange q d i x x.moved n = (.fault k need va r l, t) → exec (.saigaPiece c i) s = .next (t.stallCopy q k need va r l)) ∧
    (∀ t fid, s.moveRange q d i x x.moved n = (.await fid, t) → exec (.saigaPiece c i) s = .next (t.modCopy c fun y => { y with fid := some fid })) ∧
    (∀ t cause, s.moveRange q d i x x.moved n = (.fatal cause, t) → exec (.saigaPiece c i) s = .next (t.stopCopy q (.failed cause)))) ∧
  (∀ (s t : State) (c : Nat) (q : Copy) (u : Team) (dst : Bool) (va : DWord), s.copy? c = some q → s.team? q.team = some u → q.toProbe = some (dst, va) →
    s.copyRuns q = true → (descOf q.desc).scout ≠ 0 → q.reached < (descOf q.desc).count →
    let look := s.translate none (pcTower q.pcore) (s.root u) va (if dst then .store else .load) .dflt
    (∀ p, look = (.ok p, t) → exec (.scoutProbe c) s = .next (t.modCopy c fun q => { q with probed := q.probed.put (pageKey dst va) none })) ∧
    (∀ r l fid t2, look = (.fault r l, t) →
      t.openFault (t.root u) va .scout r l (if dst then 2 else 1) (t.grid u) u.teamid (q.pcore / 4 * 4) = (some fid, t2) →
      exec (.scoutProbe c) s = .next (t2.modCopy c fun q => { q with probed := q.probed.put (pageKey dst va) (some fid) }))) ∧
  (∀ (d : Desc) (m : Nat) (b : Byte), d.conv = 1 →
    ∃ x y : Byte, d.convert m [b] = [x] ∧
      y = (if (d.coords m).1 % 2 = 0 then b.extractLsb' 0 4 else b.extractLsb' 4 4).zeroExtend 8 ∧
      (x.msb = decide (8 ≤ y.toNat)) ∧
      (x.toNat % 128 = [0x00, 0x30, 0x38, 0x3C, 0x40, 0x44, 0x48, 0x4C].getD (y.toNat % 8) 0))

/-- COPY_COMPLETE ends a copy that has ended or whose destinations have all received every element, in the order of R224: drops reach the barriers (R218), the notify word is stored, its line of a map filled first (R159), and the future resolves with DROPPED, OUTCOME and CAUSE (R225); the copy is gone. COPY_CANCEL_STOP ends a cancelled copy that is stalled at once: the remaining sectors are released with CANCELLED, and it owns no line; one that is not stalled finishes its sectors in progress first, each destination up to the end of one or of the copy, in a cycle the throttle allows and once memory keeps none of them back (R30, R226). -/
def Obligations.CopiesEnd : Prop :=
  (∀ (s : State) (c : Nat) (q : Copy), s.copy? c = some q → (q.ending ≠ none ∨ ∀ x ∈ q.dests, (descOf q.desc).count ≤ x.moved) →
    let d := descOf q.desc
    let drop := q.dests.any (·.dropped)
    let s1 := if drop then s.dropFlags q d q.dests else s
    let s2 := if d.nen then ((s1.fillSync q.team d.noff).spadWrite q.team d.noff (leBytes 4 d.nval)).modTeam q.team fun t => { t with notes := d.noff :: t.notes } else s1
    exec (.copyComplete c) s = .next ((({ s2 with copies := s2.copies.filter fun x => x.id != c } : State).resolve q.team q.tok
      (BitVec.ofNat 32 ((if drop then 1024 else 0) + match q.ending with
        | none => 0
        | some .cancelled => 256
        | some (.failed cause) => 512 + cause.toNat))).l1Drop q.pcore)) ∧
  (∀ (s : State) (c : Nat) (q : Copy), s.copy? c = some q → q.cancel = true → q.ending = none → (∃ x ∈ q.dests, x.moved < (descOf q.desc).count) →
    let d := descOf q.desc
    (s.copyStalled q = true → exec (.copyCancelStop c) s = .next ((s.releaseDests q d false true q.dests).modCopy q.id fun y => { y with
      ending := some .cancelled, fid := none, owns := [], unowned := false, taken := [], ahead := []
      dests := y.dests.map fun x => { x with counted := d.sectors } })) ∧
    (s.copyStalled q = false → s.runCycle (pcTower q.pcore) = false → exec (.copyCancelStop c) s = .next s) ∧
    (∀ ms u q', s.copyStalled q = false → s.runCycle (pcTower q.pcore) = true → s.stopTargets q d (List.range q.dests.length) = (ms, u) →
      (∀ e ∈ ms, ∃ x, q.dests[e.1]? = some x ∧ (x.moved < d.count → d.de ∣ 32 → x.moved ≤ e.2 ∧ (e.2 = d.count ∨ 32 ∣ e.2 * d.de))) ∧
      ((∀ e ∈ ms, u.sectorWaits q d e = none) → (u.finishSectors c d ms).copy? c = some q' → (∃ x ∈ q'.dests, x.moved < d.count) →
        exec (.copyCancelStop c) s = .next ((u.finishSectors c d ms).stopCopy q' .cancelled))))

/-- CONTINUATION_SPAWN starts the oldest spawn of a resident team in the lowest crew whose threads have all exited: its first threads, as many as the spawn counts, start afresh at ENTRY plus the offset, each at its home position, with the argument in g0 and its place in the crew in g1; every other thread of the team is as before, and the spawn waits no longer (R135, R153). -/
def Obligations.ContinuationsSpawn : Prop :=
  ∀ (s : State) (k c : Nat) (t : Team) (r : LaunchRec) (sp : Spawn) (rest : List Spawn), s.team? k = some t → s.lrec? t = some r → t.spawns = sp :: rest →
    t.status = .resident → t.cause = none → t.freeCrew (s.crewSize t) = some c →
    let size := s.crewSize t
    let among (j : Nat) : Prop := c * size ≤ j ∧ j < c * size + min sp.count size
    (∀ j th, c * size ≤ j → j < c * size + size → t.threads[j]? = some th → th.st = .exited) ∧
    (∀ b < c, ∃ j th, b * size ≤ j ∧ j < b * size + size ∧ t.threads[j]? = some th ∧ th.st ≠ .exited) ∧
    ∃ u : State, exec (.continuationSpawn k) s = .next u ∧
      (∀ j th, among j → t.threads[j]? = some th → u.thread? k j = some
        (((Thread.fresh r (r.entry + BitVec.ofNat 64 sp.off) th.slot th.quad th.lane s.now).setReg 0 sp.arg).setReg 1 (BitVec.ofNat 32 (j - c * size)))) ∧
      (∀ j, ¬ among j → u.thread? k j = s.thread? k j) ∧
      (∃ t', u.team? k = some t' ∧ t'.spawns = rest)

/-- PASS_START starts the next pass of the MMA chosen by EP and age, when the array may start one (R229, R30, R242): each element takes Round(acc + t × s) of its row and column for FP8 and the two group sums for BF16, +0 replacing acc on a tile's first pass under ZF (R241); the pass counts in its window of 256 cycles, and its blocks leave the FIFOs, from the front of a stream that owes nothing. A pass that meets an uncorrectable error fails the MMA with UNCORRECTABLE_DATA: no pass starts, and once its started passes have retired its future is resolved with that status (R243). PASS_RETIRE, 56 cycles after the start or later, writes the tile, and the MMA's future resolves with status 0 with its last pass (R229, R243). -/
def Obligations.PassesRun : Prop :=
  (∀ (s : State) (q : BitVec 9) (m : Mma) (t : Team), (∀ p ∈ s.passes, p.quadIx = q.toNat → p.start + 32 ≤ s.now) → s.passRoom q.toNat = true →
    s.nextMma q.toNat = some m → s.team? m.team = some t → s.passMet m t = false →
    let b := blockOf m.block
    ∃ u p, exec (.passStart q) s = .next u ∧ u.passes = s.passes ++ [p] ∧ p.mma = m.id ∧ p.start = s.now ∧ p.quadIx = m.quadIx ∧
      p.row = t.base.toNat + b.tile m.started ∧ p.vals.length = 16384 ∧
      u.mmas = s.mmas.map (fun x => if x.id = m.id then { x with started := m.started + 1 } else x) ∧
      u.passWin.getD m.quadIx (0, 0) = (s.now / 256, (if (s.passWin.getD m.quadIx (0, 0)).1 = s.now / 256 then (s.passWin.getD m.quadIx (0, 0)).2 else 0) + 1) ∧
      (∀ f, b.af ≠ b.bf → (f = b.af ∨ f = b.bf) → (s.stream m.team f).owed = [] →
        (u.stream m.team f).bytes = (s.stream m.team f).bytes.drop (b.blockBytes m.started)) ∧
      (∀ i < 128, ∀ c < 128, ((p.row + i) * 128 + c, BitVec.ofNat 32 (passValue b (b.dOf m.started) i c
          (if b.zf = true ∧ (b.pass m.started).2.2 = 0 then 0 else (s.accNow m.quadIx (p.row + i) c).toNat)
          (s.scaleAt m.quadIx (2 * t.base.toNat + b.scaleA m.started + i))
          (s.scaleAt m.quadIx (2 * t.base.toNat + b.scaleB m.started))
          ((s.stream m.team b.af).bytes.take (b.blockBytes m.started))
          ((s.stream m.team b.bf).bytes.take (b.blockBytes m.started)))) ∈ p.vals)) ∧
  (∀ (s : State) (q : BitVec 9) (m : Mma) (t : Team), (∀ p ∈ s.passes, p.quadIx = q.toNat → p.start + 32 ≤ s.now) → s.passRoom q.toNat = true →
    s.nextMma q.toNat = some m → s.team? m.team = some t → s.passMet m t = true →
    ∃ u : State, exec (.passStart q) s = .next u ∧ u.passes.length = s.passes.length ∧
      (∀ x, u.mma? m.id = some x → x.ending = some (.failed 0x11) ∧ x.started ≠ x.retired) ∧
      (m.started = m.retired → u.mma? m.id = none ∧ ∀ f, t.future? m.tok = some f →
        ∃ t' g, u.team? m.team = some t' ∧ t'.future? m.tok = some g ∧ g.resolved = true ∧ g.status = 0x211)) ∧
  (∀ (s : State) (q : BitVec 9) (p : Pass) (m : Mma), (s.passes.find? fun p => p.quadIx == q.toNat) = some p → p.start + 56 ≤ s.now →
    s.mma? p.mma = some m → m.ending = none →
    ∃ u : State, exec (.passRetire q) s = .next u ∧ u.passes = s.passes.erase p ∧
      u.acc.getD p.quadIx [] = (s.acc.getD p.quadIx []).splice (p.row * 128) ((p.row + 128) * 128) p.vals ∧
      (m.retired + 1 ≠ (blockOf m.block).passes → u.mma? p.mma = some { m with retired := m.retired + 1 }) ∧
      (m.retired + 1 = (blockOf m.block).passes → u.mma? p.mma = none ∧
        ∀ t f, s.team? m.team = some t → t.future? m.tok = some f → ∃ t', u.team? m.team = some t' ∧ ∃ g, t'.future? m.tok = some g ∧ g.resolved = true ∧ g.status = 0))

/-- ACCUM_OP_COMPLETE performs an accumulator access of a team that has its place once the passes it follows are done (R239, R381): SCLD writes scale entries, ACCZ zeroes rows, ACCRD gives elements to registers, ACCWR takes them, ACCLD and ACCST move tiles row by row (R379 to R384). Elements on a peer's pages go as accesses of their own, for which the word waits (R63, R65, R383). A read of ACCLD that fails, here or at a peer, ends it with a late trap, each other element having its old value or its new one (R413). That an ACCST which a peer refuses, or whose pages can be accessed no more, ends so too is log entry 25. -/
def Obligations.AccumulatorAccessesComplete : Prop :=
  ∀ (s : State) (n : Nat) (r : Req) (t : Team), s.req? n = some r → s.team? r.team = some t → t.placed = true → s.passesDone r = true →
    (r.size = 0 ∨ s.inOrder r = true) →
    let quad := quadIx t.pcore
    (∀ e vs, r.act = .scld e vs → exec (.accumOpComplete n) s = .next ((s.setScales quad (2 * t.base.toNat + e) vs).endReq r)) ∧
    (∀ row k, r.act = .accz row k → exec (.accumOpComplete n) s = .next ((s.setRows quad (t.base.toNat + row) (128 * k) []).endReq r)) ∧
    (∀ d x k, r.act = .accrd d x k → r.vals = none → r.landed = [] → exec (.accumOpComplete n) s = .next ((s.modThreads r.team r.threads fun th =>
      th.setRegs d ((List.range k).map fun i => s.accAt quad (t.base.toNat + x / 128) (x % 128 + i))).endReq r)) ∧
    (∀ d x k ws, r.act = .accrd d x k → r.vals = some ws →
      exec (.accumOpComplete n) s = .next ((s.modThreads r.team r.threads fun th => th.setRegsBut r.landed 0 d ws).endReq r)) ∧
    (∀ x vs, r.act = .accwr x vs → exec (.accumOpComplete n) s = .next ((s.setElems quad (t.base.toNat * 128 + x) vs).endReq r)) ∧
    (∀ row stride w base ps, r.act = .accld row stride w base ps → s.pagesFail w base stride ps false = none → s.rowsFree r t w base stride ps false = true →
      (∀ es, es ≠ [] → s.elemsDue r w stride base ps false = es → exec (.accumOpComplete n) s = .next (s.sendElems r (accSize w) (fun _ => none) es)) ∧
      (s.elemsDue r w stride base ps false = [] → s.elemsBack r = false → exec (.accumOpComplete n) s = .next s) ∧
      (∀ rows es s1, s.elemsDue r w stride base ps false = [] → s.elemsBack r = true → s.loadRows r t stride w base ps (128 * accTiles w) 0 = (rows, es, none, s1) →
        exec (.accumOpComplete n) s = .next ((s1.putRows quad (t.base.toNat + row) rows).endReq r)) ∧
      (∀ rows es s1 c a, r.dead = [] → s.elemsDue r w stride base ps false = [] → s.elemsBack r = true →
        s.loadRows r t stride w base ps (128 * accTiles w) 0 = (rows, es, some (c, a), s1) →
        exec (.accumOpComplete n) s = .next (((s1.putSome quad (t.base.toNat + row)
          ((rows.flatMap fun e => (List.range 128).zip e.2 |>.map fun x => (e.1 * 128 + x.1, x.2)) ++ es)).endReq r).lateAll r.team r.id r.threads
            { cause := c, addr := a, info := BitVec.ofNat 32 ((if c = 0x05 then 2 else 0) + 256) }))) ∧
    (∀ row stride w base ps, r.act = .accst row stride w base ps → s.pagesFail w base stride ps true = none → s.rowsFree r t w base stride ps true = true →
      (∀ es, es ≠ [] → s.elemsDue r w stride base ps true = es → exec (.accumOpComplete n) s = .next (s.sendElems r (accSize w)
        (fun x => some (((s.rowOut t quad row w (x / 128)).drop (x % 128 * accSize w)).take (accSize w))) es)) ∧
      (s.elemsDue r w stride base ps true = [] → s.elemsBack r = true →
        (s.elemBad r = none →
          exec (.accumOpComplete n) s = .next ((s.storeRows r t quad row stride w base ps (128 * accTiles w) 0).endReq r)) ∧
        (∀ c a, r.dead = [] → s.elemBad r = some (c, a) →
          exec (.accumOpComplete n) s = .next (((s.storeRows r t quad row stride w base ps (128 * accTiles w) 0).endReq r).lateAll r.team r.id r.threads
            { cause := c, addr := a, info := BitVec.ofNat 32 ((if c = 0x05 then 2 else 0) + 256) })))) ∧
    (∀ row stride w base ps tr, r.dead = [] → (r.act = .accld row stride w base ps ∧ s.pagesFail w base stride ps false = some tr ∨
        r.act = .accst row stride w base ps ∧ s.pagesFail w base stride ps true = some tr) →
      exec (.accumOpComplete n) s = .next ((s.endReq r).lateAll r.team r.id r.threads tr))

/-- ACQUIRE_CHECK_COMPLETE ends an acquire that passes its check: the loaded bytes are delivered and the core's .wt and .si lines go (R161, R175); one whose check fails has no effect, and its threads are READY at the word with SCOPE_MISMATCH to take, with both scopes (R175); a FENCE whose reads are complete and pass goes on and forgets them, and one with a read that fails has its trap to take (R174). SLEEP_EXPIRE wakes a thread at its cycle (R397); WAITA_TIMEOUT gives g[D] the word, as the thread's own earlier stores leave it (R164), and leads the thread past its word (R366). -/
def Obligations.WaitersGoOn : Prop :=
  ((∀ (s : State) (k tid : Nat) (t : Team) (th : Thread) (i : Instr) (r : Req) (d : Reg) (hnd : Bool), s.team? k = some t → s.thread? k tid = some th →
    th.st = .waiting .check → th.word = some i → (∀ o, i ≠ .fence o) →
    (s.reqs.find? fun r => r.team == k && r.threads.contains tid && isAcq r.ord) = some r → s.canPerform r = true →
    (∀ tr, s.checkTrap r t = some tr → exec (.acquireCheckComplete k tid) s = .next ((((s.dropReq r).modThreads r.team r.threads fun th =>
      { th with st := .ready, since := s.now, used := 0, word := none, failed := some tr })).flagsDown r.team r.threads r.flag)) ∧
    (s.checkTrap r t = none → r.act = .load d hnd →
      exec (.acquireCheckComplete k tid) s = .next ((s.loadDone r d hnd).l1Acquire t.pcore r.sc)) ∧
    (∀ op data, s.checkTrap r t = none → r.act = .atomic d op data true →
      exec (.acquireCheckComplete k tid) s = .next ((s.atomicDone r d op data).l1Acquire t.pcore r.sc))) ∧
  (∀ (s : State) (k tid : Nat) (t : Team) (th : Thread) (o : MemOp), s.team? k = some t → s.thread? k tid = some th →
    th.st = .waiting .check → th.word = some (.fence o) →
    (∀ r ∈ s.reqs, r.team = k → tid ∈ r.threads → r.act.reads = false) → (∀ x ∈ th.reads, tagPasses (some x.2) o.sc (s.agentOf t) = true) →
    exec (.acquireCheckComplete k tid) s = .next ((s.modThread k tid fun u => { u.leave (.fence o) s.now with reads := [] }).l1Acquire t.pcore o.sc)) ∧
  (∀ (s : State) (k tid : Nat) (t : Team) (th : Thread) (o : MemOp) (tr : Trap), s.team? k = some t → s.thread? k tid = some th →
    th.st = .waiting .check → th.word = some (.fence o) →
    (∀ r ∈ s.reqs, r.team = k → tid ∈ r.threads → r.act.reads = false) → s.fenceTrap t o.sc th.reads = some tr →
    exec (.acquireCheckComplete k tid) s = .next (s.modThread k tid fun u =>
      { u with st := .ready, since := s.now, used := 0, word := none, failed := some tr })) ∧
  (∀ (s : State) (r : Req) (t : Team) (va : DWord) (p : Place) (tg : Tag), r.loc = .glob va p → p.node = none → s.tagOf p.pa = some tg →
    s.checkTrap r t = if inScope tg.2 tg.1 (s.agentOf t) ∧ inScope (s.agentOf t) r.sc tg.2 then none else
      some { cause := 0x06, addr := va, info := BitVec.ofNat 32 (scopeCode tg.1 + 4 * scopeCode r.sc + if outside s.fab.node tg.2 then 16 else 0) })) ∧
  ((∀ (s : State) (k tid till : Nat) (t : Thread), s.thread? k tid = some t → t.st = .blocked (.sleep till) → till ≤ s.now →
    exec (.sleepExpire k tid) s = .next (s.modThread k tid fun t => { t with st := .ready, since := s.now, used := 0 })) ∧
  (∀ (s : State) (k tid off n : Nat) (v : Word) (d : Reg) (next : DWord) (t : Team) (th : Thread), s.team? k = some t → s.thread? k tid = some th →
    th.st = .blocked (.waita off v d next (some n)) → n ≤ s.now →
    exec (.waitaTimeout k tid) s = .next ((s.modThread k tid fun th =>
      ((th.setReg d (BitVec.ofNat 32 (leNat (s.spadSee t tid off 4)))).wake s.now).moveTo next).l1Acquire t.pcore .pkg)))

/-- PRED_RECORD_POLL reads the predecessor's header: with its generation, the number of its teams and its completion are known, and the words it wants are read; a header of another generation changes nothing of the launch (R118). A team waits, under MAP 0, for the word of its number, under MAP 1 for the whole record, under MAP 3 for those within WIN of it, and under MAP 2 or with no predecessor for nothing (R118). UNIT_ENTER_PLACEMENT takes the lowest unit of a launch that may enter, one to be restored before one never started, while fewer than 64 are in placement and memory or a peer keeps back none of its entries, with its sums at that cycle (R120, R121); that units to be restored come first here too is the model's reading (log entry 40); PLACEWAIT_EXPIRE lets a unit with a preference fall back once PLACEWAIT cycles have passed (R121). -/
def Obligations.UnitsEnterPlacement : Prop :=
  ((∀ (s s1 s2 : State) (k : Nat) (l : Launch) (h : List Byte) (seen : List Nat), s.launch? k = some l → l.lrec.pred ≠ 0 → l.lrec.map ≠ 2 →
    s.readPred l l.lrec.pred 64 = (some h, s1) → fieldAt h 0 4 = l.lrec.predgen.toNat →
    s1.readWords { l with predTeams := some (fieldAt h 24 8), predAll := l.predAll || fieldAt h 4 4 == 2 }
      (if l.lrec.map = 1 then [] else (List.range (fieldAt h 24 8)).filter fun j => !l.predSeen.contains j) l.predSeen = (seen, s2) →
    exec (.predRecordPoll k) s = .next (s2.modLaunch k fun x => { x with
      predTeams := some (fieldAt h 24 8), predAll := l.predAll || fieldAt h 4 4 == 2, predSeen := seen })) ∧
  (∀ (s s1 : State) (k : Nat) (l : Launch) (h : List Byte), s.launch? k = some l → l.lrec.pred ≠ 0 → l.lrec.map ≠ 2 →
    s.readPred l l.lrec.pred 64 = (some h, s1) → fieldAt h 0 4 ≠ l.lrec.predgen.toNat → exec (.predRecordPoll k) s = .next s1) ∧
  (∀ (l : Launch) (i : Nat), l.eligible i = true ↔ l.lrec.pred = 0 ∨ l.lrec.map = 2 ∨ ∃ tp, l.predTeams = some tp ∧
    (l.lrec.map = 1 → l.predAll = true) ∧ (l.lrec.map = 0 → i < tp → i ∈ l.predSeen) ∧
    (l.lrec.map = 3 → ∀ j < tp, i ≤ j + l.lrec.win → j ≤ i + l.lrec.win → j ∈ l.predSeen))) ∧
  ((∀ (s s1 : State) (k u : Nat) (l : Launch) (sums : Vector Nat 12), s.launch? k = some l → l.placing.length < 64 → s.mayEnter l u = true →
    ((u ∈ l.begun ∧ s.unitSaved l u = true ∧ ∀ v ∈ l.begun, v < u → s.unitSaved l v = true → s.mayEnter l v = false) ∨
      (u < l.lrec.units ∧ (∀ v ∈ l.begun, s.unitSaved l v = true → s.mayEnter l v = false) ∧ ∀ v < u, s.mayEnter l v = false)) →
    let es := (l.lrec.unitTeams u).flatMap fun t => (List.range l.lrec.placen).map fun e => l.lrec.placen * t + e
    (∀ i ∈ es, s.hubBusy l.key false l.root 2 (l.lrec.placetab + BitVec.ofNat 64 (8 * i)) 8 = false) →
    s.sumEntries l es (Vector.replicate 12 0) = (some sums, s1) →
    exec (.unitEnterPlacement k u) s = .next (s1.modLaunch k fun x => { x with
      placing := x.placing ++ [{ num := u, since := s1.now, sums := sums, fallback := false }] })) ∧
  (∀ (s : State) (k u : Nat) (l : Launch), s.launch? k = some l →
    exec (.placewaitExpire k u) s = .next (s.modLaunch k fun x => { x with placing := x.placing.map fun p =>
      if p.num = u ∧ p.noPref = false ∧ p.since + l.lrec.placewait < s.now then { p with fallback := true } else p })))

/-- TEAM_PLACE dispatches a unit that is next and has a place: each member starts resident on the core and first row given to it, as R123 and R135 leave a fresh team: its scratchpad, its 16 named barriers, its ACCROWS rows of the accumulator and their scale entries are zero, and every thread is READY at ENTRY with its registers, flag counters and FPSTAT zero; the unit leaves placement (R120 to R123). -/
def Obligations.TeamsArePlaced : Prop :=
  ∀ (s : State) (k u : Nat) (l : Launch) (p : Sys2Proof.Machine.PUnit) (place : List (Nat × Nat)), s.launch? k = some l → s.unitSaved l u = false →
    (l.placing.find? fun p => p.num == u) = some p → s.isNext l u = true → s.place l p = some place →
    ∃ t : State, exec (.teamPlace k u) s = .next t ∧
      (∃ l', t.launch? k = some l' ∧ (∀ q ∈ l'.placing, q.num ≠ u) ∧ u ∈ l'.begun) ∧
      (∀ x ∈ s.starts l u place, ((s.starts l u place).map (·.key)).Nodup → ∃ m, t.team? x.key = some m ∧ m.teamid = x.teamid ∧ m.rank = x.rank ∧ m.pcore = x.pcore ∧
        m.slot = x.slot ∧ m.status = .resident ∧ m.cause = none ∧ m.spad = [] ∧ m.base = BitVec.ofNat 14 x.row ∧ m.lim = m.base ∧ m.simg = 0 ∧
        m.threads.length = l.lrec.teamsize ∧ m.maps = [] ∧ m.futures = [] ∧ (∀ b ∈ m.bars.toList, b.exp = 0 ∧ b.arr = 0 ∧ b.phase = false) ∧
        (∀ i < l.lrec.accrows, ∀ c < 128, t.accAt (quadIx x.pcore) (x.row + i) c = 0) ∧
        (∀ e < 2 * l.lrec.accrows, t.scaleAt (quadIx x.pcore) (2 * x.row + e) = 0) ∧
        ∀ th ∈ m.threads, th.pc = l.lrec.entry ∧ th.clause = th.pc ∧ th.st = .ready ∧ th.since = s.now ∧ (∀ r, th.reg r = 0) ∧ th.inTrap = false ∧
          (∀ n : Fin 12, th.flags[n] = 0) ∧ th.fpstat = 0 ∧ th.uchk = l.lrec.uchk ∧ th.ftz = l.lrec.ftz)

/-- TEAM_RESTORE restores the unit of a saved team that is next and has a place, once memory keeps back none of its save slots: its members are restored each at its own place, their mailboxes are read, and the unit leaves placement (R128, R203). TEAM_SAVE_COMPLETE, once all members of the unit in progress may leave, discards it when the launch is idempotent and no team of the unit has committed, else writes back its maps and, where all of that could be done and no write-back to a peer is outstanding, saves each member (R127, R155, R159). -/
def Obligations.TeamsAreSavedAndRestored : Prop :=
  (∀ (s : State) (k : Nat) (t : Team) (l : Launch) (p : Sys2Proof.Machine.PUnit) (place : List (Nat × Nat)), s.team? k = some t → s.launch? t.launch = some l →
    s.unitSaved l (t.teamid / l.lrec.cluster) = true → (l.placing.find? fun p => p.num == t.teamid / l.lrec.cluster) = some p →
    s.isNext l (t.teamid / l.lrec.cluster) = true → s.place l p = some place →
    let ms := s.unitMembers l (t.teamid / l.lrec.cluster)
    (∀ m ∈ ms, s.slotBusy l m = false ∧ s.slotHeld l m = false) →
    exec (.teamRestore k) s = .next (((((s.restoreTeams l (ms.zip place)).modLaunch l.key (·.placed (t.teamid / l.lrec.cluster))).readMail
      (rootAsid l.root) (ms.map (·.key))).sweepFaults).nextChild l.part)) ∧
  (∀ (s : State) (k : Nat) (t : Team) (l : Launch), s.team? k = some t → s.launch? t.launch = some l →
    let ms := s.unitMembers l (t.teamid / l.lrec.cluster)
    (∀ m ∈ ms, s.mayLeave m = true) →
    (l.lrec.idemp = true → (∀ m ∈ s.unitTeams l (t.teamid / l.lrec.cluster), m.idemx = false) → exec (.teamSaveComplete k) s = .next (s.discard (ms.map (·.key)))) ∧
    (∀ u, (l.lrec.idemp = false ∨ ∃ m ∈ s.unitTeams l (t.teamid / l.lrec.cluster), m.idemx = true) → (∀ m ∈ ms, s.slotHeld l m = false) → s.backAll ms = (true, u) →
      (∀ m ∈ ms, ∀ r ∈ u.reqs, u.holdsSave m r = false) →
      exec (.teamSaveComplete k) s = .next (u.saveTeams l (ms.map (·.key)))))

/-- PREEMPT_PRIORITY, for a unit that has fallen back, or has no preference, and has no room, begins to save the shortest run of teams of lower EP on its first tower, lowest EP and most recently placed first, that makes room (R126); TIME_SLICE_EXPIRE, for a unit that has no room, does so over the towers of its order with teams of its own EP whose quantum has passed, and saves them all when even they do not suffice: this is the model's reading (log entry 40). -/
def Obligations.TeamsArePreempted : Prop :=
  (∀ (s : State) (k u w : Nat) (l : Launch) (p : Sys2Proof.Machine.PUnit) (ks : List Nat) (vs : List Team), s.launch? k = some l → (l.placing.find? fun p => p.num == u) = some p →
    (p.fallback = true ∨ p.noPref = true) → s.unitRoom l p = none → (s.towerOrder l p).head? = some w →
    vs = sortBy (fun a b => s.epOf a < s.epOf b || (s.epOf a == s.epOf b && (b.placedAt < a.placedAt || (a.placedAt == b.placedAt && b.key < a.key))))
      ((s.residents w).filter fun t => s.epOf t < l.ep) →
    s.enough (fun s => (s.fitTower l.lrec (s.unitNeeds l u) w).isSome) [] (vs.map (·.key)) = some ks →
    exec (.preemptPriority k u) s = .next (s.beginSave ks) ∧ (s.beginSave ks).teams.length = s.teams.length ∧ ks <+: vs.map (·.key)) ∧
  (∀ (s : State) (k u : Nat) (l : Launch) (p : Sys2Proof.Machine.PUnit) (vs : List Team), s.launch? k = some l → (l.placing.find? fun p => p.num == u) = some p →
    s.unitRoom l p = none →
    vs = sortBy (fun a b => b.placedAt < a.placedAt || (a.placedAt == b.placedAt && b.key < a.key))
      ((s.towerOrder l { p with fallback := true }).flatMap fun w => (s.residents w).filter fun t => s.epOf t == l.ep && s.sliceOver t) →
    exec (.timeSliceExpire k u) s = .next (s.beginSave ((s.enough (fun s => (s.unitRoom l p).isSome) [] (vs.map (·.key))).getD (vs.map (·.key)))))

/-- TEAM_COMPLETE ends a team whose threads are final and whose work is done, with no map and nothing in the side log, once memory keeps back nothing of its record: it is complete, DONE and HALTED count it, and its word, GEN and its cause at 64 + 4 × TEAMID of the completion record, and both counts are written (R116, R117). After the last team the record's STATE becomes 2 at system scope and the launch completes (R117). The writes go in this order; while one to a peer has not been answered none follows, and the launch does not complete, so that its record is visible before its event (R103, R117). -/
def Obligations.TeamsComplete : Prop :=
  (∀ (s u : State) (k : Nat) (t : Team) (l : Launch), s.team? k = some t → s.launch? t.launch = some l → s.mayComplete t = true → s.wordBusy l t = false → t.maps = [] →
    l.recTodo = [] → l.recWaits = [] →
    let cause := (t.cause.getD 0).toNat
    let halts := l.haltCnt + if cause = 0 then 0 else 1
    let writes : List (Nat × List Byte × Scope) := [(64 + 4 * t.teamid, leBytes 4 (l.lrec.gen.toNat % 2 ^ 24 * 256 + cause), .pkg),
      (8, leBytes 8 (l.doneCnt + 1), .pkg), (16, leBytes 8 halts, .pkg)] ++ if l.doneCnt + 1 = l.lrec.teams then [(4, leBytes 4 2, .sys)] else []
    let s1 := s.modTeam k fun t => { t with status := .complete, maps := [], spad := [], threads := t.threads.map fun th => { th with later := [] } }
    let s2 := ({ s1 with streams := s1.streams.filter fun x => x.team != k } : State).modLaunch l.key fun _ =>
      { l with doneCnt := l.doneCnt + 1, haltCnt := halts, recTodo := writes }
    Claims.recorded s2 l writes = some u →
    (l.doneCnt + 1 ≠ l.lrec.teams → exec (.teamComplete k) s = .next u) ∧
    (∀ l', l.doneCnt + 1 = l.lrec.teams → u.launch? l.key = some l' → exec (.teamComplete k) s = .next (u.endLaunch l'))) ∧
  (∀ (s : State) (k n : Nat) (l : Launch), s.launch? k = some l → l.recWaits ≠ [] → s.recGo k n = s)

/-- A trap outside the routine, with TRAPENTRY not 0, saves the pc, the clause, the cause, the address and the information, and the thread is READY at TRAPENTRY, inside its routine (R204); one taken inside, or with TRAPENTRY 0, halts the thread and its team with the cause, unless an earlier cause halted it: its other threads stop, a RUNNING one at the end of its run (R117, R134, R204). Neither changes a register, but for one that is pending on the future of an MMA that the halt drops (R243). -/
def Obligations.TrapEntry : Prop :=
  ∀ (s : State) (k i : Nat) (t : Team) (th : Thread) (tr : Trap), s.team? k = some t → s.thread? k i = some th →
    (th.inTrap = false → s.trapEntry k ≠ 0 → let s' := s.takeTrap k i tr
      s'.thread? k i = some { th with
        tpc := th.pc, tclause := th.clause, tcause := tr.cause, taddr := tr.addr, tinfo := tr.info, word := none, mates := []
        inTrap := true, pc := s.trapEntry k, clause := s.trapEntry k, st := .ready, since := s.now, used := 0 } ∧
      othersFrame k [i] s s' ∧ sameButTeams s s') ∧
    ((th.inTrap = true ∨ s.trapEntry k = 0) → ∃ t', (s.takeTrap k i tr).team? k = some t' ∧
      t'.cause = some (t.cause.getD tr.cause) ∧ t'.conts = [] ∧ t'.spawns = [] ∧
      (∃ x, t'.threads[i]? = some x ∧ x.st = .halted ∧ x.tpc = th.pc ∧ x.tclause = th.clause ∧ x.tcause = tr.cause ∧ x.taddr = tr.addr ∧
        x.tinfo = tr.info ∧ ∀ r : Fin 128, th.pend.getLsbD r.val = false → x.regs[r] = th.regs[r]) ∧
      (∀ j y, j ≠ i → t.threads[j]? = some y → ∃ x, t'.threads[j]? = some x ∧ (∀ r : Fin 128, y.pend.getLsbD r.val = false → x.regs[r] = y.regs[r]) ∧
        x.st = if y.final = true ∨ y.st = .running then y.st else .stopped))

/-- A fault joins the unanswered fault of its page, or takes a new entry with the cycle and a FID that no entry bears (R193, R195): the next in a count, which is the model's choice (log entry 16); the table holds 16,384. -/
def Obligations.FaultsOpenOrJoin : Prop :=
  ∀ (s : State) (root va : DWord) (k : FKind) (r l : Nat) (need : BitVec 3) (g : Word) (tm p : Nat),
    (∀ f, (s.faults.find? fun f => f.asid == root.extractLsb' 0 12 && f.va.toNat / 4096 == va.toNat / 4096 && f.answer.isNone) = some f →
      s.openFault root va k r l need g tm p = (some f.fid, s)) ∧
    ((s.faults.find? fun f => f.asid == root.extractLsb' 0 12 && f.va.toNat / 4096 == va.toNat / 4096 && f.answer.isNone) = none →
      (s.faults.length < 16384 → (∀ f ∈ s.faults, f.fid ≠ s.freeFid) ∧
        ((∀ f ∈ s.faults, f.fid ≠ s.nextFid) → s.freeFid = s.nextFid) ∧ s.openFault root va k r l need g tm p = (some s.freeFid, { s with
        nextFid := (s.freeFid + 1) % 16777216
        faults := s.faults ++ [{
          fid := s.freeFid, asid := root.extractLsb' 0 12, va := va, kind := k, reason := BitVec.ofNat 2 r, level := BitVec.ofNat 2 l, need := need
          grid := g, teamid := tm, pcore := p, opened := s.now, recorded := false, answer := none }] })) ∧
      (16384 ≤ s.faults.length → s.openFault root va k r l need g tm p = (none, s)))

/-- FAULT_RECORD_WRITE puts the oldest unrecorded fault in the next slot of the ring with the phase of the round, while the ring has room and memory takes the record, and interrupts when the ring held nothing (R194, R195). FQDOOR_WRITE returns slots, and FQCFG_WRITE takes TIMEOUT and VECTOR always, LOG2N only while EN = 0 (that a write which clears EN does not take it is log entry 31), and starts the ring again as EN rises with a LOG2N that is allowed (R194); then the hub answers what the new TIMEOUT makes overdue (R196). -/
def Obligations.FaultQueueServes : Prop :=
  (∀ (s : State) (f : FaultEntry), (s.faults.find? fun f => !f.recorded) = some f → s.hub.fqEn = true → s.hub.fqUnret < 2 ^ s.hub.fqLog.toNat →
    s.paCheck (s.hub.fqBase + 32 * s.hub.fqSlot) = none → s.writeFails (hubPlace (s.hub.fqBase + 32 * s.hub.fqSlot)) = false →
    s.hubHolds 0 (s.hub.fqBase + 32 * s.hub.fqSlot) 32 = false →
    ∃ t : State, exec .faultRecordWrite s = .next t ∧ t.hub.fqUnret = s.hub.fqUnret + 1 ∧
      t.hub.fqSlot = (if s.hub.fqSlot + 1 = 2 ^ s.hub.fqLog.toNat then 0 else s.hub.fqSlot + 1) ∧
      t.hub.fqPhase = (if s.hub.fqSlot + 1 = 2 ^ s.hub.fqLog.toNat then !s.hub.fqPhase else s.hub.fqPhase) ∧
      t.mem = (s.devWrite none (hubPlace (s.hub.fqBase + 32 * s.hub.fqSlot)) (withPhase 31 s.hub.fqPhase f.bytes)).mem ∧
      (s.hub.fqUnret ≠ 0 → t.irq = s.irq ∧ t.hub.msixPend = s.hub.msixPend) ∧
      (s.hub.fqUnret = 0 → s.hub.masked s.hub.fqVec.toNat = false → t.irq = s.irq ++ [s.hub.fqVec.toNat])) ∧
  (∀ (s : State) (v : Word), exec (.fqdoorWrite v) s = .next (Claims.hub s fun h => { h with
    fqUnret := h.fqUnret - returned h.fqLog.toNat h.fqUnret h.fqSlot v.toNat })) ∧
  (∀ (s : State) (v : Word), exec (.fqcfgWrite v) s = .next (State.watchdog (Claims.hub s fun h =>
    let h' := { h with fqTmo := v.extractLsb' 16 15, fqVec := v.extractLsb' 5 11 }
    if h.fqEn = true then { h' with fqEn := v.msb }
    else if v.msb = true ∧ 6 ≤ v.toNat % 32 ∧ v.toNat % 32 ≤ 16 then
      { h' with fqLog := v.extractLsb' 0 5, fqEn := true, fqSlot := 0, fqPhase := true, fqUnret := 0 }
    else { h' with fqLog := v.extractLsb' 0 5 })))

/-- The answer to an outstanding fault reaches its waiters and the entry leaves once it is recorded (R193, R196, R197), after the hub has answered every FID that is overdue: FREPLY_RETRY lets entries replay, copies go on and held threads reissue; FREPLY_FAIL gives the cause of its DISP, and FAULT_WATCHDOG gives WATCHDOG once TIMEOUT × 14,000 cycles have passed. An answer to an FID that is not outstanding sets BADREPLY (R196). -/
def Obligations.FaultsAreAnswered : Prop :=
  (∀ (s : State), (∀ f ∈ s.faults, f.answer = none → s.hub.fqTmo ≠ 0 → s.now < f.opened + s.hub.fqTmo.toNat * 14000) → s.watchdog = s) ∧
  (∀ (s w : State) (n : BitVec 24) (f : FaultEntry), w = s.watchdog → (w.faults.find? fun f => f.fid == n.toNat && f.answer.isNone) = some f →
    exec (.freplyRetry n) s = .next ((w.modFault n.toNat fun f => { f with answer := some .retry }).retryWaiters n.toNat).sweepFaults ∧
    (∀ d : BitVec 8, d ≠ 0 → exec (.freplyFail n d) s = .next (((w.modFault n.toNat fun f => { f with
      answer := some (.fail (if d = 0x10 ∨ d = 0x11 then d else 0x05)) }).failWaitersOf [n.toNat] (if d = 0x10 ∨ d = 0x11 then d else 0x05)).sweepFaults))) ∧
  (∀ (s : State) (n : BitVec 24) (f : FaultEntry), (s.faults.find? fun f => f.fid == n.toNat && f.answer.isNone) = some f → s.hub.fqTmo ≠ 0 →
    f.opened + s.hub.fqTmo.toNat * 14000 ≤ s.now →
    exec (.faultWatchdog n) s = .next (((s.modFault n.toNat fun f => { f with answer := some (.fail 0x12) }).failWaitersOf [n.toNat] 0x12).sweepFaults)) ∧
  (∀ (s w : State) (n : BitVec 24) (d : BitVec 8), w = s.watchdog → (w.faults.find? fun f => f.fid == n.toNat && f.answer.isNone) = none → d ≠ 0 →
    exec (.freplyRetry n) s = .next (Claims.hub w fun h => { h with badReply := true }) ∧
    exec (.freplyFail n d) s = .next (Claims.hub w fun h => { h with badReply := true }))

/-- SIDE_LOG_REPLAY translates an entry afresh in its turn (R200). At a local place that memory takes, once the older accesses of its thread to those bytes are performed and no RMW stands between its read and its write, a store writes its bytes, a RED the result of its operation on the bytes it reads, and a REDC folds its value into its tower's partial (R168, R178, R346, R348): the line is tagged as its order or its thread's release fence says (R173), the entry leaves, and its team's held threads may go on. An entry for a peer, or a RED on the non-coherent route to the host, leaves the log as an access of its own with its number (R76, R106). A fault holds the entry again under that fault, a write-back of a map with KIND 5 (R195). A refusal at R190, of an operation that its place does not take (R106), memory that fails or that a RED cannot read drops it: a thread that has not exited takes a deferred trap with bit 8 of TINFO set, and the team of one that has exited halts (R200, R201). -/
def Obligations.SideLogReplays : Prop :=
  ∀ (s s1 : State) (n : Nat) (e : LogEntry) (t : Team), (s.sideLog.find? fun e => e.id == n) = some e → s.team? e.team = some t → e.fid = none →
    s.replayTurn e = true → t.status = .resident →
    (∀ p, s.xteam t e.va e.kind e.ty = (.ok p, s1) → s1.writeFails p = false → s1.replayOrder e p = true →
      let via := atHub (pcTower t.pcore) (e.reduction || p.eff e.ty == .nc) e.sc
      let red := e.reduction = true ∧ e.op ≠ 0xFF
      (p.node = none → s1.holds t.pcore none p e.size = false → s1.rmwHeld (s1.teamAgent e.team) (p.wide e.sc) p.pa e.size = false →
        (e.reduction = false → exec (.sideLogReplay n) s = .next ((((s1.storeBytes t.pcore via p e.data).tagWrite
          p.pa e.ord e.sc e.fs (s1.teamAgent e.team)).dropEntry e).wakeHeld e.team)) ∧
        (∀ old u, red → p.pcie = false → s1.badByte p.key.toNat p.pa e.size = none → s1.atomRefused p (some (.atop e.op)) e.size = false →
          (Claims.replayNoted s1 e p).devRead via p e.size = (old, u) →
          exec (.sideLogReplay n) s = .next ((((u.storeBytes t.pcore via p (leBytes e.data.length
            (atopVal e.op.toNat e.data.length (leNat old) (leNat e.data)))).tagWrite p.pa e.ord e.sc e.fs (s1.teamAgent e.team)).dropEntry e).wakeHeld e.team)) ∧
        (e.reduction = true → e.op = 0xFF → p.pcie = false → redcOk p e.size = true →
          exec (.sideLogReplay n) s = .next ((((Claims.combined (Claims.replayNoted s1 e p) (pcTower t.pcore) p (leNat e.data)).tagWrite
            p.pa e.ord e.sc e.fs (s1.teamAgent e.team)).dropEntry e).wakeHeld e.team))) ∧
      ((p.node ≠ none ∧ (e.reduction = false ∨ red) ∨ p.pcie = true ∧ red ∧ s1.badByte p.key.toNat p.pa e.size = none) →
        (red → s1.atomRefused p (some (.atop e.op)) e.size = false) →
        exec (.sideLogReplay n) s = .next (((({ s1 with reqs := s1.reqs ++ [Claims.replayReq e p] } : State).dropEntry e)).wakeHeld e.team))) ∧
    (∀ r l fid s2, s.xteam t e.va e.kind e.ty = (.fault r l, s1) →
      s1.teamFault t e.va (if e.wb then .writeback else if e.reduction then .reduction else .store) r l (needOf e.kind) = (some fid, s2) →
      exec (.sideLogReplay n) s = .next { s2 with sideLog := s2.sideLog.map fun x => if x.id = n then { x with fid := some fid } else x }) ∧
    (∀ c info u, Claims.replayFails s e t = some (c, info, u) →
      (e.gone = false → exec (.sideLogReplay n) s = .next (((u.dropEntry e).deferTrap e.team e.tid e.id { cause := c, addr := e.va, info := info }).wakeHeld e.team)) ∧
      (e.gone = true → exec (.sideLogReplay n) s = .next (((u.dropEntry e).haltTeam e.team c).wakeHeld e.team)))

/-- INVALIDATE_VA_RANGE, INVALIDATE_ASID and INVALIDATE_ALL start the command of their KIND when GO is set, with the registers of its range as they stand: BUSY; with one in progress the write only sets OVERRUN; without GO it changes nothing (R191). REMOTE_LINE_DROP, once no load that could still bring one of them in is outstanding, drops the bytes that this package holds of the peer lines of the range, and what the hub has loaded of them (R192). INVALIDATION_DONE, for teams without maps, once no access that used a covered translation is outstanding and, with RDROP, the side-log entries of the range have drained (R79), drops every covered TLB and walk-cache entry and discards the covered probes of every scout, and sets DONE, and no byte of memory changes (R192). PAGE_WALK_COMPLETE looks up the VA for the team's core, which walks and fills (R189). Step 4 of R190 on a local page: the memory must exist, its HOME must be that of its region, and its key ID must be loaded and allowed (R54, R187); and a remote access of class 0 must be .nc, one of class 2 only reads, and one of class 3 is refused, with SHARING_VIOLATION (R77). -/
def Obligations.TranslationsAreInvalidated : Prop :=
  ((∀ (s : State) (v : Word) (i : Instr),
    (i = .invalidateVaRange v ∧ v.extractLsb' 0 2 = 0 ∨ i = .invalidateAsid v ∧ v.extractLsb' 0 2 = 1 ∨
      i = .invalidateAll v ∧ (v.extractLsb' 0 2 = 2 ∨ v.extractLsb' 0 2 = 3)) →
    (v.msb = false → exec i s = .next s) ∧
    (v.msb = true → exec i s = .next (Claims.hub s fun h => if h.invBusy = true then { h with invOverrun := true } else
      { h with invBusy := true, invCmd := some {
        kind := v.extractLsb' 0 2, rdrop := v.getLsbD 2, node := v.extractLsb' 16 12, va := h.invVa, pa := h.invPa, asid := h.invAsid, count := h.invCount } }))) ∧
  (∀ (s : State) (c : InvCmd), s.hub.invCmd = some c → c.rdrop = true → c.dropped = false → s.remoteQuiet c = true →
    let len := (if c.count = 0 then 1048576 else c.count.toNat) * 4096
    exec .remoteLineDrop s = .next (Claims.hub { s with
      mem := { s.mem with remote := s.mem.remote.filter fun e =>
        e.1 < c.node.toNat * 2 ^ 52 + c.pa.toNat || c.node.toNat * 2 ^ 52 + c.pa.toNat + len ≤ e.1 }
      fab := { s.fab with asks := s.fab.asks.filter fun a =>
        !(a.node == c.node && a.typ == 1 && decide (a.pa < c.pa.toNat + len) && decide (c.pa.toNat < a.pa + a.n)) } } fun h => { h with
      invCmd := some { c with dropped := true } })) ∧
  (∀ (s : State) (c : InvCmd), s.hub.invCmd = some c → s.hub.invBusy = true → (c.rdrop = true → c.dropped = true ∧ s.remoteQuiet c = true) → s.invQuiet c = true →
    s.logQuiet c = true → (∀ t ∈ s.teams, t.placed = true → t.maps = []) →
    ∃ t : State, exec .invalidationDone s = .next t ∧
      { t.hub with winPast := s.hub.winPast } = { s.hub with invBusy := false, invDone := true, invCmd := none } ∧
      (∀ e, e ∈ t.mem.tlb ↔ e ∈ s.mem.tlb ∧ c.covers e.asid e.va e.size = false) ∧
      (∀ w, w ∈ t.mem.walk ↔ w ∈ s.mem.walk ∧
        let span := if w.level = 0 then 2 ^ 43 else if w.level = 1 then 2 ^ 30 else 2 ^ 21
        c.covers w.asid (w.tag * span) span = false) ∧
      (∀ q i, s.copy? i = some q → ∃ x, t.copy? i = some x ∧ { x with probed := q.probed, refused := q.refused } = q ∧
        ∀ n, x.probed.get? n = (if c.covers (s.asidOf q.team) (n % 2 ^ 52 * 4096) 4096 then none else q.probed.get? n) ∧
          x.refused.get? n = (if c.covers (s.asidOf q.team) (n % 2 ^ 52 * 4096) 4096 then none else q.refused.get? n)) ∧
      t.mem.bytes = s.mem.bytes) ∧
  (∀ (s : State) (k : Nat) (va : DWord) (t : Team), s.team? k = some t → t.placed = true → va.toNat < 2 ^ 56 →
    exec (.pageWalkComplete k va) s = .next (s.lookup (some t.pcore) (pcTower t.pcore) (s.root t) va.toNat).2)) ∧
  ((∀ (s : State) (p : Place) (k : Kind) (ty : RType), p.node = none → p.share ≠ 3 →
    s.step4 p k ty = match s.paCheck p.pa with
      | some c => some (0x05, c)
      | none => match homeBad p with
        | some c => some (0x05, c)
        | none => if s.hub.keyOk p.key.toNat p.pa then none else some (0x05, 5)) ∧
  (∀ (s : State) (p : Place) (n : BitVec 12) (ty : RType), p.node = some n → n.toNat < s.fab.domain.toNat → s.fab.en = true → p.pa < 14 * 2 ^ 48 →
    (p.share = 0 → ty ≠ .nc → s.step4 p .load ty = some (0x10, 0) ∧ s.step4 p .store ty = some (0x10, 0)) ∧
    (p.share = 2 → s.step4 p .store ty = some (0x10, 0) ∧ s.step4 p .atomic ty = some (0x10, 0) ∧ s.step4 p .red ty = some (0x10, 0)) ∧
    (∀ k, p.share = 3 → p.cfmt.toNat < 5 → s.step4 p k ty = some (0x10, 0))))
/-- The role machine of a tower. ROLECMD_GO: a write without GO does nothing; one while BUSY sets OVERRUN; a rejected one sets DONE with its RESULT; an accepted one sets BUSY, keeps the sets asked for and pre-empts the teams of strata that leave (R21 to R24); RESULT 0x04 while ZEROING is R112's; that an accepted request keeps the DONE and RESULT of the one before is log entry 50. ROLE_DRAIN_DONE, once no team is left there, goes on to flush; ROLE_FLUSH_DONE empties the L1s of the leaving strata and, where no slice changes its mode, nothing else (R25); ROLE_REENUMERATE puts the sets into effect with RESULT 0 and posts event 0x10 (R26). -/
def Obligations.RoleCommandsRun : Prop :=
  ∀ (s : State) (t : TowerId), let w := Claims.at' s t
    (∀ v : Word, let c := v.extractLsb' 0 4; let p := v.extractLsb' 4 4
      (v.msb = false → exec (.roleCmdGo t v) s = .next s) ∧
      (v.msb = true → w.roleBusy = true → exec (.roleCmdGo t v) s = .next (Claims.tower s t fun w => { w with roleOverrun := true })) ∧
      (∀ r, v.msb = true → w.roleBusy = false → Claims.rejected w c p = some r →
        exec (.roleCmdGo t v) s = .next (Claims.tower s t fun w => { w with roleResult := r, roleDone := true })) ∧
      (v.msb = true → w.roleBusy = false → Claims.rejected w c p = none → exec (.roleCmdGo t v) s = .next ((Claims.tower s t fun w =>
        { w with roleBusy := true, rolePhase := .drain, reqCompute := c, reqPinned := p }).beginSave
          (((s.residents t.val).filter fun x => (w.compute &&& ~~~c).getLsbD (pcStratum x.pcore)).map (·.key))))) ∧
    (w.rolePhase = .drain → Claims.leaving s t w.compute w.reqCompute = [] →
      exec (.roleDrainDone t) s = .next (Claims.tower s t fun w => { w with rolePhase := .flush })) ∧
    (w.rolePhase = .flush → (∀ i : Fin 5, w.tsv[i].pauseTill = none) → w.pinned = w.reqPinned →
      exec (.roleFlushDone t) s = .next (Claims.tower (Claims.l1Emptied s t (w.compute &&& ~~~w.reqCompute)) t fun w =>
        { w with rolePhase := .enumerate, powerEnd := s.now + (if w.reqCompute &&& ~~~w.compute ≠ 0 then 28000 else 0) })) ∧
    (w.rolePhase = .enumerate → w.powerEnd ≤ s.now → w.pinned = w.reqPinned →
      exec (.roleReenumerate t) s = .next ((Claims.tower (Claims.l1Emptied s t (w.reqCompute &&& ~~~w.compute)) t fun w =>
        { w with compute := w.reqCompute, rolePhase := .idle, roleBusy := false, roleResult := 0, roleDone := true }).post w.tevq.toNat
          (eventBytes (0x4000 + t.val) 0x10 0 0 (w.reqPinned.toNat * 16 + w.reqCompute.toNat))))

/-- TAHR_EVALUATE, at each cycle 140,000k, takes RMULT, the forced halt and HST from the two temperatures, PREF and HMIN as R33 says, an empty tower's logic counting as 0 degrees; its result is applied by TAHR_APPLY at a cycle divisible by 256 strictly after it (R31). THCNT counts a window of 256 cycles in which HST is not 0 once (R36). -/
def Obligations.ThrottleFollowsTemperature : Prop :=
  ∀ (s : State) (t : TowerId), let w := Claims.at' s t
    (∀ td tj : Nat, s.now % 140000 = 0 → w.lastEval < s.now →
      let j := if w.compute = 0 then 0 else tj
      let f := 105 ≤ td ∨ 110 ≤ j ∨ w.therm.forced = true ∧ (103 ≤ td ∨ 105 ≤ j)
      exec (.tahrEvaluate t td tj) s = .next (Claims.tower s t fun w => { w with lastEval := s.now, tahrNext := some {
        hst := if f then 7 else BitVec.ofNat 3 (Claims.throttle td j (s.pref t.val) w.hmin.toNat w.therm.hst.toNat)
        rmult := BitVec.ofNat 2 (Claims.refreshCode td w.therm.rmult.toNat)
        forced := decide f, pref := s.pref t.val, dtemp := BitVec.ofNat 8 (min td 255), ltemp := BitVec.ofNat 8 (min j 255) } })) ∧
    (∀ x, w.tahrNext = some x → s.now % 256 = 0 → w.lastEval < s.now →
      exec (.tahrApply t) s = .next (Claims.tower s t fun w => { w with therm := x, tahrNext := none })) ∧
    (w.therm.hst ≠ 0 → w.lastTick ≤ s.now / 256 →
      exec (.thcntTick t) s = .next (Claims.tower s t fun w => { w with thcnt := w.thcnt + 1, lastTick := s.now / 256 + 1 })) ∧
    (w.therm.hst = 0 → exec (.thcntTick t) s = .next s)

/-- Configuration of a tower: TPART_WRITE and CHASH_WRITE are taken while it is quiesced, and CHASH refused else with CHERR (R40, R111); MEMCTL_QUIESCE_SET is ignored while LOCK or a role command stands (R41); QUIESCE_COMPLETE, with no TSV interface paused, sets QUIESCED and leaves no device copy dirty or old; MEMCTL_QUIESCE_CLEAR applies CHASH and BANKMAP, starts zeroing if the channel hash or the bank-set map changed (R43), and ends host bias of the tower's pages (R94). DRAM_ZEROING_DONE, with no TSV interface paused, ends the zeroing: every byte of the sets that the mapping can reach reads zero. -/
def Obligations.TowersAreConfigured : Prop :=
  ∀ (s : State) (t : TowerId), let w := Claims.at' s t
    (∀ v, exec (.tpartWrite t v) s = .next (Claims.tower s t fun w => if w.quiesced = true then { w with tpart := v.extractLsb' 0 4 } else w)) ∧
    (∀ v, exec (.chashWrite t v) s = .next (Claims.tower s t fun w =>
      if w.quiesced = true ∧ s.hub.lock = false then { w with chashW := v &&& 0x3F3F } else { w with cherr := true })) ∧
    (exec (.memctlQuiesceSet t) s = .next (Claims.tower s t fun w => if s.hub.lock = true ∨ w.roleBusy = true then w else { w with quiesce := true })) ∧
    (w.quiesce = true → w.quiesced = false → (∀ i : Fin 5, w.tsv[i].pauseTill = none) →
      let m := s.mem.recall (t.val * 2 ^ 48) (t.val * 2 ^ 48 + 2 ^ 48)
      exec (.quiesceComplete t) s = .next (Claims.tower { s with mem := m } t fun w => { w with quiesced := true }) ∧
        (∀ e ∈ m.hidden, e.1 / 2 ^ 48 ≠ t.val) ∧ (∀ e ∈ m.stale, e.1 / 2 ^ 48 ≠ t.val)) ∧
    (exec (.memctlQuiesceClear t) s = .next (if s.hub.lock = true ∨ w.roleBusy = true ∨ w.quiesce = false then s
      else
        let s' := Claims.tower s t fun w => { w with
          quiesce := false, quiesced := false, chash := w.chashW, condemnedEff := w.condemned
          zeroing := w.zeroing || decide (w.chashW ≠ w.chash ∨ setMap w.condemnedEff ≠ setMap w.condemned) }
        { s' with mem := { s.mem with hostBias := s.mem.hostBias.filter fun x => x * 2 ^ 21 / 2 ^ 48 ≠ t.val } })) ∧
    (w.zeroing = true → (∀ i : Fin 5, w.tsv[i].pauseTill = none) →
      ∃ u : State, exec (.dramZeroingDone t) s = .next u ∧ u.towers = (Claims.tower s t fun w => { w with zeroing := false }).towers ∧
        (∀ a, t.val * 2 ^ 48 ≤ a → a < t.val * 2 ^ 48 + 16 * setBytes → Memory.read u.mem.bytes a = 0) ∧
        (∀ a, a < t.val * 2 ^ 48 ∨ t.val * 2 ^ 48 + 16 * setBytes ≤ a → Memory.read u.mem.bytes a = Memory.read s.mem.bytes a) ∧
        u.teams = s.teams ∧ u.hub = s.hub)

/-- MODULE_RESET leaves the machine as State.reset does, but for what endures: tower DRAM, far memory and the host's own memory keep their bytes, with their keys and poison; the recorded bank map comes from flash and is in effect; key ID 0 takes a new key; messages and interrupts already sent stay sent (R44, R47, R48, R53; what endures otherwise is log entry 15). -/
def Obligations.ModuleResetResets : Prop :=
  ∀ s : State, ∃ t : State, exec .moduleReset s = .next t ∧
    t.teams = [] ∧ t.launches = [] ∧ t.wqs = [] ∧ t.eqs = [] ∧ t.reqs = [] ∧ t.copies = [] ∧ t.mmas = [] ∧ t.faults = [] ∧ t.sideLog = [] ∧ t.runs = [] ∧
    t.now = 0 ∧ t.fab = State.reset.fab ∧
    t.hub = { State.reset.hub with keyGen := s.hub.keyGen.put 0 (s.hub.gen 0 + 1), keyPast := s.hub.keyPast } ∧
    (∀ n : TowerId, t.towers[n.val] = { State.reset.towers[n.val] with
      condemned := s.towers[n.val].condemned, condemnedEff := s.towers[n.val].condemned }) ∧
    t.mem.bytes = (s.mem.bytes.filter fun e => Claims.keptByte e.1) ∧ t.mem.sectorKey = s.mem.sectorKey ∧ t.mem.poison = s.mem.poison ∧ t.mem.recoded = s.mem.recoded ∧
    t.mem.tags = [] ∧ t.mem.tlb = [] ∧ t.mem.l1 = [] ∧ t.mem.remote = [] ∧
    t.irq = s.irq ∧ t.hostOut = s.hostOut ∧ t.trace = s.trace

/-- Memory's upkeep. ROW_REFRESH, once the row's interval has passed, takes a bank that is idle for 490 cycles and notes the refresh, but not while a retry that the bank has sent is to be reissued, 30 cycles after its last refresh, and REFRESH_RETRY_REISSUE gives the bank back to a retried request once they have passed and nothing else waits for it (R44, R45). PATROL_SCRUB leaves a clean row, moves a row with a correctable error to the next shorter bin, or repairs one that is in the shortest, and poisons a sector for an uncorrectable one (R44, R46). REMAP_MISS_FILL caches an entry one of whose copies is good and heals it, and fails the tower when both are bad, with event 0x11: what its lines hold dirty is discarded, so that memory is as the hub had it (R49, R50). A drift of a TSV interface is noted with the last cycle to which its realignment may be deferred, 350,000 cycles on; a realignment pauses the interface for at most 2,800 cycles, and REALIGN shows it (R51). -/
def Obligations.TowerMemoryIsKept : Prop :=
  ∀ (s : State) (t : TowerId), let w := Claims.at' s t
    (∀ (b : BitVec 10) (row : Nat), (∀ x ∈ w.refresh, x.1 ≠ b.toNat) → s.rowDue t.val b.toNat row ≤ s.now →
      exec (.rowRefresh t b row) s = .next (Claims.tower s t fun w => { w with
        retry := w.retry.filter fun x => x != b.toNat
        refresh := w.refresh ++ [(b.toNat, s.now + 490)]
        rows := (w.rows.filter fun r => !(r.bank == b.toNat && r.row == row)) ++ [{ bank := b.toNat, row := row, at_ := s.now, rmult := w.therm.rmult }] })) ∧
    (∀ (b : BitVec 10) (row n : Nat), b.toNat ∈ w.retry → (b.toNat, n) ∈ w.refresh → s.now < n + 30 → exec (.rowRefresh t b row) s = .next s) ∧
    (∀ (b row at' : Nat) (m : BitVec 2), (w.rows.find? fun r => r.bank == b && r.row == row) = some { bank := b, row := row, at_ := at', rmult := m } →
      s.rowDue t.val b row = at' + (if s.bin32 t.val b row = true then 32 else if s.bin64 t.val b row = true then 64 else 128) * 1400000 / 2 ^ m.toNat) ∧
    (∀ (n b : Nat) (r : Req) (va : DWord) (p : Place), s.req? n = some r → r.loc = .glob va p → p.node = none → p.pa / 2 ^ 48 = t.val → s.inDram p.pa = true →
      w.bankOf (p.pa % 2 ^ 48) = b → s.bankWaits t.val b n = false →
      exec (.refreshRetryReissue n) s = .next (Claims.tower s t fun w => { w with refresh := w.refresh.filter fun x => !(x.1 == b && decide (x.2 ≤ s.now)) })) ∧
    (∀ (b : BitVec 10) (row : Nat), let e := (b.toNat, row)
      exec (.patrolScrub t b row .clean) s = .next s ∧
      exec (.patrolScrub t b row .correctable) s = .next (if s.bin32 t.val b.toNat row = true then s.repairRow t.val b.toNat row
        else Claims.tower s t fun w => if s.bin64 t.val b.toNat row = true then { w with bin32 := w.bin32 ++ [e] } else { w with bin64 := w.bin64 ++ [e] }) ∧
      (∀ x, x * 32 / 2 ^ 48 = t.val → s.inDram (32 * x) = true → w.bankOf (32 * x % 2 ^ 48) = b.toNat → x ∉ s.mem.poison →
        exec (.patrolScrub t b row (.uncorrectable x)) s = .next { s with mem := { s.mem with poison := s.mem.poison ++ [x] } })) ∧
    (∀ (b : BitVec 10) (row : Nat) (a c : Bool) (r : Repair), (w.repairs.find? fun r => r.bank == b.toNat && r.row == row) = some r → r.cached = false →
      (a = true ∨ c = true → w.repairs.countP (·.cached) < 4096 → exec (.remapMissFill t b row a c) s = .next (Claims.tower s t fun w => { w with
        repairs := w.repairs.map fun x => if x = r then { x with aOk := true, bOk := true, cached := true } else x })) ∧
      (a = false → c = false → s.hub.lock = false → w.failed = false → ∃ u : State, exec (.remapMissFill t b row a c) s = .next u ∧
        (Claims.at' u t).failed = true ∧
        (∀ a x, s.mem.hidden.rising = true → s.mem.hidden.get? a = some x → a / 2 ^ 48 = t.val → a % 2 ^ 48 < 0x080000000000 →
          u.mem.hidden.get? a = none ∧ Memory.read u.mem.bytes a = x.byte) ∧
        (u.eventQ w.tevq.toNat).waiting = (s.eventQ w.tevq.toNat).waiting ++ [eventBytes (0x4000 + t.val) 0x11 0 0 0])) ∧
    (∀ i : Fin 5, let put (x : Tsv) (w : Tower) : Tower := { w with tsv := w.tsv.set i x, realign := (w.tsv.set i x).toList.any fun x => x.pauseTill.isSome }
      (w.tsv[i].drift = false → exec (.tsvDriftDetect t i) s = .next (Claims.tower s t (put { w.tsv[i] with drift := true, due := s.now + 350000 }))) ∧
      (w.tsv[i].drift = true → exec (.tsvDriftDetect t i) s = .next (Claims.tower s t (put w.tsv[i]))) ∧
      (w.tsv[i].drift = true → w.tsv[i].pauseTill = none →
        exec (.tsvRealignStart t i) s = .next (Claims.tower s t (put { w.tsv[i] with drift := false, pauseTill := some (s.now + 2800) }))) ∧
      exec (.tsvRealignEnd t i) s = .next (Claims.tower s t (put { w.tsv[i] with pauseTill := none })))

/-- MSECCTL_LOCK measures an open machine whose towers neither quiesce nor change role, and sets ERR else (R57); MSECCTL_UNLOCK opens it, BUSY until UNLOCK_WRITEBACK_DONE writes back and drops what is held under other IDs than 0 and erases every key but ID 0's; KEYPOL_WRITE sets a word while unlocked, the entry of ID 0 staying 01 (R56); HPINCFG_WRITE sets UNITS while unlocked with every tower quiesced, and a changed UNITS empties the hub's cache and fills pinned memory with zeros (R99). REGISTER_WRITE does at the registers named here what that register's own step does, or sets their fields, and nothing outside the blocks, the MSI-X table and the two windows of log entry 37 (R4, R20, R55, R84); that HBIASEN takes a value whenever it is written (R94) is log entry 39. -/
def Obligations.ConfigurationIsLocked : Prop :=
  (∀ s : State, s.hub.mState = .opened →
    ((∀ n : TowerId, s.towers[n.val].quiesce = false ∧ s.towers[n.val].roleBusy = false) →
      exec .msecctlLock s = .next (Claims.hub s fun h => { h with lock := true, mState := .measured, digest := s.digestNow, runlog := 0 })) ∧
    ((∃ n : TowerId, s.towers[n.val].quiesce = true ∨ s.towers[n.val].roleBusy = true) →
      exec .msecctlLock s = .next (Claims.hub s fun h => { h with mErr := true }))) ∧
  (∀ s : State, s.hub.mState ≠ .opened →
    exec .msecctlLock s = .next s ∧ exec .msecctlUnlock s = .next (Claims.hub s fun h => { h with lock := false, mState := .opened, mBusy := true })) ∧
  (∀ s : State, s.hub.mBusy = true → let u := s.recallKeys fun k => k != 0
    exec .unlockWritebackDone s = .next (Claims.hub u fun h => { h with mBusy := false, keys := [], keyWork := [] }) ∧ ∀ c ∈ u.mem.l1, c.key.toNat = 0) ∧
  (∀ (s : State) (i : BitVec 6) (v : Word),
    (s.hub.lock = true → exec (.keypolWrite i v) s = .next s) ∧
    (s.hub.lock = false → ∃ h : Hub, exec (.keypolWrite i v) s = .next { s with hub := h } ∧ { h with keypol := s.hub.keypol } = s.hub ∧
      ∀ j : Fin 64, h.keypol[j] = if j.val ≠ i.toNat then s.hub.keypol[j] else if j.val = 0 then (v &&& ~~~3) ||| 1 else v)) ∧
  (∀ (s : State) (v : Word),
    (s.hub.lock = false → (∀ n : TowerId, s.towers[n.val].quiesced = true) → (v.extractLsb' 0 6).toNat ≤ 32 →
      ∃ u : State, exec (.hpincfgWrite v) s = .next u ∧ u.hub = { s.hub with units := v.extractLsb' 0 6 } ∧ u.towers = s.towers ∧
        (v.extractLsb' 0 6 = s.hub.units → u.mem = s.mem) ∧
        (v.extractLsb' 0 6 ≠ s.hub.units → (∀ a, a / 2 ^ 48 = 12 → Memory.read u.mem.bytes a = 0) ∧ u.mem.hubHost = [] ∧
          (s.mem.hubHost = [] → ∀ a, a / 2 ^ 48 ≠ 12 → Memory.read u.mem.bytes a = Memory.read s.mem.bytes a))) ∧
    (s.hub.lock = true ∨ (∃ n : TowerId, s.towers[n.val].quiesced = false) ∨ 32 < (v.extractLsb' 0 6).toNat → exec (.hpincfgWrite v) s = .next s)) ∧
  (∀ (s : State) (v : Word) (t : TowerId),
    let at' (n : Nat) : BitVec 52 := BitVec.ofNat 52 (0xF010000000000 + t.val * 2 ^ 24 + n)
    exec (.registerWrite (at' 0x0004) v) s = exec (.roleCmdGo t v) s ∧ exec (.registerWrite (at' 0x0014) v) s = exec (.tpartWrite t v) s ∧
    exec (.registerWrite (at' 0x0208) v) s = exec (.chashWrite t v) s ∧
    exec (.registerWrite (at' 0x0200) v) s = (if v[0] then exec (.memctlQuiesceSet t) s else exec (.memctlQuiesceClear t) s) ∧
    exec (.registerWrite (at' 0x0010) v) s = .next (Claims.tower s t fun w => { w with tevq := v.extractLsb' 0 10 }) ∧
    exec (.registerWrite (at' 0x0104) v) s = .next (Claims.tower s t fun w => { w with prefovr := v.extractLsb' 4 2, hmin := v.extractLsb' 0 3 }) ∧
    exec (.registerWrite 0xF0200_00001010 v) s = exec (.hpincfgWrite v) s ∧ exec (.registerWrite 0xF0200_00003000 v) s = exec (.fabcfgWrite v) s ∧
    exec (.registerWrite 0xF0200_00004010 v) s = exec (.hqctlWrite v) s ∧ exec (.registerWrite 0xF0200_00005008 v) s = exec (.fqcfgWrite v) s ∧
    exec (.registerWrite 0xF0200_0000500C v) s = exec (.fqdoorWrite v) s ∧
    exec (.registerWrite 0xF0200_00004000 v) s = .next (Claims.hub s fun h => { h with hostKey := v &&& 0x3FF }) ∧
    exec (.registerWrite 0xF0200_00004030 v) s = .next (Claims.hub s fun h => { h with hbiasen := v.extractLsb' 0 12 }) ∧
    (∀ pa : BitVec 52, pa.toNat / 2 ^ 40 ≠ 0xF01 → pa.toNat / 2 ^ 40 ≠ 0xF02 → pa.toNat / 2 ^ 40 ≠ 0xF03 → pa.toNat / 2 ^ 40 ≠ 0xF04 → pa.toNat / 2 ^ 40 ≠ 0xF05 → exec (.registerWrite pa v) s = .next s))
/-- The host reads and writes tower DRAM through the HDM range under HOSTKEY: 64 GiB of offsets for each tower in turn; an access to a failed tower, to no DRAM or under a key not allowed gives poisoned data, or is dropped (R50, R54, R85). Where memory keeps nothing back, nor an earlier host access to those lines, and no device copy holds a byte of the lines dirty, a read within a sector that can be read gives its bytes and the host takes the lines that it may cache (R94; that it does so, and that a host write or snoop drops copies of such lines in core L1s, is log entry 45); a write reads back under its key, tags its lines (.sys, host), and no other byte reads differently under that key (R85, R173). HWIN windows reach pinned memory (R98). HOST_SNOOP of a line that the hub holds dirty writes it back: every byte of it reads as before, and the hub's copy is clean, or gone if asked (R105). A completion timeout ends a load of host memory with a late UNCORRECTABLE_DATA (R106, R413). -/
def Obligations.HostReachesMemory : Prop :=
  (∀ (s : State) (t : TowerId) (off : BitVec 40), off.toNat / 2 ^ 36 = t.val →
    let pa := t.val * 2 ^ 48 + off.toNat % 2 ^ 36
    let k := s.hub.hostKey.toNat
    (∀ n, n ≠ 0 → s.inDram pa = true → s.inDram (pa + n - 1) = true → (Claims.at' s t).failed = false → s.hub.keyOk k pa = true →
      s.hostHolds pa k n = false → s.hostKept off.toNat n = false → pa % 32 + n ≤ 32 → s.badByte k pa n = none → (∀ e ∈ s.mem.hidden, e.1 / 128 ≠ pa / 128) →
      (∀ e ∈ s.mem.hiddenKey, e.1 / 4 ≠ pa / 128) →
      exec (.hostCxlMemRead off n) s = .next (State.giveHost { s with hostOut := s.hostOut ++ [.data (s.readUnder k pa n) false] } (linesAt pa n))) ∧
    (∀ (n : Nat) (d : List Byte), n ≠ 0 → d ≠ [] → s.inDram pa = false ∨ (Claims.at' s t).failed = true ∨ s.hub.keyOk k pa = false →
      exec (.hostCxlMemRead off n) s = .next { s with hostOut := s.hostOut ++ [.data [] true] } ∧ exec (.hostCxlMemWrite off d) s = .next s) ∧
    (∀ d : List Byte, d ≠ [] → s.inDram pa = true → s.inDram (pa + d.length - 1) = true → (Claims.at' s t).failed = false → s.hub.keyOk k pa = true →
      s.hostWriteHolds pa k d.length = false → s.hostKept off.toNat d.length = false → (∀ e ∈ s.mem.hidden, e.1 / 128 ∉ linesAt pa d.length) →
      ∃ u : State, exec (.hostCxlMemWrite off d) s = .next u ∧
        (∀ i (h : i < d.length), u.byteUnder k (pa + i) = d[i] ∧ u.tagOf (pa + i) = some (.sys, .host)) ∧
        (∀ a, (∀ i < d.length, a ≠ pa + i) → u.byteUnder k a = s.byteUnder k a) ∧
        u.teams = s.teams ∧ u.towers = s.towers ∧ u.hub = s.hub ∧ u.fab = s.fab)) ∧
  (∀ (s : State) (w : Fin 4) (off : BitVec 40) (x n b : Nat), off.toNat = 12 * 2 ^ 36 + w.val * 2 ^ 26 + x → x + n ≤ 2 ^ 26 → n ≠ 0 → x % 32 + n ≤ 32 →
    s.hub.hwin[w].msb = true → b = (s.hub.hwin[w].extractLsb' 0 6).toNat → b < s.hub.units.toNat →
    let pa := 12 * 2 ^ 48 + b * 2 ^ 26 + x
    s.hostHolds pa 0 n = false → s.hostKept off.toNat n = false → s.badByte 0 pa n = none → (∀ e ∈ s.mem.hidden, e.1 / 128 ≠ pa / 128) → (∀ e ∈ s.mem.hiddenKey, e.1 / 4 ≠ pa / 128) →
    exec (.hostCxlMemRead off n) s = .next (State.giveHost { s with hostOut := s.hostOut ++ [.data (s.readUnder 0 pa n) false] } (linesAt pa n))) ∧
  (∀ (s : State) (line : Nat) (drop : Bool),
    (s.mem.hubHost.get? line = none → exec (.hostSnoop line drop) s = .next (if drop then s.dropL1 [line] else s)) ∧
    (∀ c, s.mem.hubHost.get? line = some c → c.dirty = true → hostCoherent (line * 128) = true →
      ∃ u : State, exec (.hostSnoop line drop) s = .next u ∧
        u.mem.hubHost = (if drop then s.mem.hubHost.erase line else s.mem.hubHost.put line { c with dirty := false }) ∧
        (∀ i < 128, u.byteUnder 0 (line * 128 + i) = s.byteUnder 0 (line * 128 + i)) ∧ u.teams = s.teams ∧ u.reqs = s.reqs)) ∧
  (∀ (s : State) (n : Nat) (r : Req) (va : DWord) (p : Place) (d : Reg) (hnd : Bool), s.req? n = some r → r.loc = .glob va p → p.node = none →
    p.pa / 2 ^ 48 = 0xE → r.act = .load d hnd → r.dead = [] →
    exec (.hostCompletionTimeout n) s = .next ((s.endReq r).lateAll r.team r.id r.threads { cause := 0x11, addr := va, info := 256 }))

/-- HQCTL_WRITE sets EN, and every event queue starts again as it rises, with what waits for it (R86, R100). HQCMD_ENABLE of a disabled queue reads its context: a valid one makes it ACTIVE at head 0, notes that in the context and writes 0 to HEADADDR, another makes it ERROR with code 1 and event 0x03 (R87, R88); that a context which cannot be read names its event queue all the same is the model's choice (log entry 51). HQCMD_DISABLE, RESET and QUEUE_DISABLE_COMPLETE move it as R88 says, with event 0x04. A doorbell sets the tail of an ACTIVE queue, one being disabled among them; a tail beyond the ring or behind the entries promised is an error (R89). QUEUE_ENTRY_FETCH of a queue that has been granted takes entries from the ring in order and starts as many as it was granted, or fails with code 2 (R90). That several entries which are due start together, in ring order, is log entry 28, and that contexts stay as EN falls is log entry 39. All of this where memory keeps back nothing of the queue's context, ring and HEADADDR, nor an earlier operation on the queue. -/
def Obligations.QueuesAreControlled : Prop :=
  (∀ (s : State) (v : Word), exec (.hqctlWrite v) s = .next { s with
    hub := { s.hub with hqEn := v[0] }
    eqs := if v[0] = true ∧ s.hub.hqEn = false then s.eqs.map fun q => { EventQ.blank q.num with waiting := q.waiting } else s.eqs }) ∧
  (∀ (s : State) (q : BitVec 14), (s.wq q.toNat).state = .disabled →
    let a := s.hub.hqBase + 64 * q.toNat
    let bs := s.readUnder 0 a 64
    let h := fieldAt bs 16 8
    s.hubHolds 0 a 64 = false → s.hubHolds 0 h 4 = false → s.queueKept q = false →
    (s.paCheck a = none → s.badByte 0 a 64 = none → ctxOk bs = true → s.paCheck h = none →
      s.writeFails (hubPlace h) = false →
      ∃ u : State, exec (.hqcmdEnable q) s = .next u ∧ (u.wq q.toNat).state = .active ∧ (u.wq q.toNat).ctx = bs ∧ (u.wq q.toNat).head = 0 ∧
        (u.wq q.toNat).tail = 0 ∧ u.eqs = s.eqs ∧
        u.mem = ((s.noteState q.toNat 1 0).devWrite none (hubPlace h) (leBytes 4 0)).mem ∧ ∀ n, n ≠ q.toNat → u.wq n = s.wq n) ∧
    ((s.paCheck a ≠ none ∨ s.badByte 0 a 64 ≠ none ∨ ctxOk bs = false) →
      ∃ u : State, exec (.hqcmdEnable q) s = .next u ∧ (u.wq q.toNat).state = .error ∧ (u.wq q.toNat).err = 1 ∧
        (let n := fieldAt bs 10 2 % 1024; (u.eventQ n).waiting = (s.eventQ n).waiting ++ [eventBytes q.toNat 0x03 1 0 0]) ∧
        ∀ n, n ≠ q.toNat → u.wq n = s.wq n)) ∧
  (∀ (s : State) (q : BitVec 14), let w := s.wq q.toNat; let ctx := s.hubHolds 0 (s.hub.hqBase + 64 * q.toNat) 64
    s.queueKept q = false →
    (w.state ≠ .disabled → exec (.hqcmdEnable q) s = .next s) ∧
    exec (.hqcmdDisable q) s = .next (if w.state = .active then s.putQueue { w with state := .disabling, due := 0 } else s) ∧
    (w.state = .error → ctx = false → ∃ u : State, exec (.hqcmdReset q) s = .next u ∧ u.wq q.toNat = { w with state := .disabled, err := 0 }) ∧
    (w.state ≠ .error → exec (.hqcmdReset q) s = .next s) ∧
    (w.state = .disabling → (∀ e ∈ w.entries, e.granted = false) → (∀ l ∈ s.launches, l.queue ≠ q.toNat) → ctx = false →
      ∃ u : State, exec (.queueDisableComplete q) s = .next u ∧ u.wq q.toNat = { w with state := .disabled, entries := [] } ∧
        (u.eventQ w.eq).waiting = (s.eventQ w.eq).waiting ++ [eventBytes q.toNat 0x04 0 0 0]) ∧
    (∀ v : Word, s.hub.hqEn = false ∨ (w.state ≠ .active ∧ w.state ≠ .disabling) → exec (.wqDoorbell q v) s = .next s) ∧
    (∀ v : Word, s.hub.hqEn = true → w.state = .active ∨ w.state = .disabling → v.toNat < w.size →
      ((w.tail + w.size - w.head) % w.size ≤ (v.toNat + w.size - w.head) % w.size →
        exec (.wqDoorbell q v) s = .next (s.putQueue { w with tail := v.toNat })) ∧
      ((v.toNat + w.size - w.head) % w.size < (w.tail + w.size - w.head) % w.size → ctx = false →
        exec (.wqDoorbell q v) s = .next (s.queueError w 4))) ∧
    (∀ v : Word, s.hub.hqEn = true → w.state = .active ∨ w.state = .disabling → w.size ≤ v.toNat → ctx = false → exec (.wqDoorbell q v) s = .next (s.queueError w 3)) ∧
    (∀ (n : Nat) (l : List (List Byte)) (t u : State), w.state = .active → w.due ≠ 0 → n ≠ 0 → n ≤ (w.tail + w.size - w.head) % w.size →
      ctx = false → s.hubHolds 0 w.headAddr 4 = false → (∀ i < n, s.hubHolds 0 (w.slotAt i) 64 = false) → s.fetchEntries w n 0 = (some l, t) →
      ({ t with nextKey := t.nextKey + n } : State).hubStore w.headAddr (leBytes 4 ((w.head + n) % w.size)) = (true, u) →
      let new : List QEntry := (List.range l.length).map fun i =>
        { num := t.nextKey + i, bytes := l.getD i [], granted := false, started := false, progress := 0, order := 0 }
      exec (.queueEntryFetch q n) s = .next ((u.putQueue { w with
        head := (w.head + n) % w.size, entries := w.entries ++ new, due := w.due - n }).startEntries q.toNat (new.take w.due))) ∧
    (∀ (n : Nat) (t : State), w.state = .active → w.due ≠ 0 → n ≠ 0 → n ≤ (w.tail + w.size - w.head) % w.size →
      ctx = false → s.hubHolds 0 w.headAddr 4 = false → (∀ i < n, s.hubHolds 0 (w.slotAt i) 64 = false) → s.fetchEntries w n 0 = (none, t) →
      exec (.queueEntryFetch q n) s = .next (t.queueError w 2)))

/-- QUEUE_ARBITRATION_SLOT, once in each 16 cycles, grants a queue of the owning level if one is eligible, else of the highest level that has one: its next entry starts, at once or as soon as it is fetched, and fails at once with the status of its header or operands (R91, R119). A granted entry then does its command (R93): NOP ends; LAUNCH starts its launch or fails with the status of R114; FLUSH leaves no device copy of its range dirty and, under MODE 1 in window mode, none at all below the hub (R97); BIAS flips its pages in turn, each after those BIAS entries that started before it and have still to flip it, leaves one that is at its target, and fails in window mode (R95, R96); WAIT polls its word and SIGNAL stores its own with release order at system scope. That an entry is granted before it is fetched, and that EQ counts modulo 1,024, is log entry 28. -/
def Obligations.QueueEntriesRun : Prop :=
  (∀ s : State, s.now % 16 = 0 → s.lastSlot ≠ some (s.now / 16) →
    let slot := s.now / 16 % 64
    let lv := if slot % 2 = 0 then 7 else if slot % 4 = 1 then 6 else if slot % 8 = 3 then 5 else if slot % 16 = 7 then 4
      else if slot % 32 = 15 then 3 else if slot = 31 then 2 else 1
    ((∀ l < 8, s.eligible l = []) → exec .queueArbitrationSlot s = .next { s with lastSlot := some (s.now / 16) }) ∧
    (∀ l q, l < 8 → s.eligible l ≠ [] → (l = lv ∨ s.eligible lv = [] ∧ ∀ m < 8, l < m → s.eligible m = []) →
      q ∈ s.eligible l → (∀ x ∈ s.eligible l, match s.rr.get? l with
        | some last => if last < q then x ≤ last ∨ q ≤ x else x ≤ last ∧ q ≤ x
        | none => q ≤ x) →
      let s' : State := { s with lastSlot := some (s.now / 16), rr := s.rr.put l q }
      exec .queueArbitrationSlot s = .next (match (s.wq q).startable with
        | some e => s'.startEntries q [e]
        | none => s'.modQueue q fun w => { w with due := w.due + 1 }))) ∧
  (∀ (s : State) (q : Nat) (e : QEntry) (es : List QEntry), s.startEntries q (e :: es) =
    (if s.entryStatus e = 0 then { s.modEntry q e.num (fun x => { x with granted := true, order := s.nextKey }) with nextKey := s.nextKey + 1 }
      else s.endEntry q e.num (s.entryStatus e)).startEntries q es) ∧
  (∀ (s : State) (q : BitVec 14) (e : Nat) (x : QEntry), let q' := q.toNat
    (s.entry? q' e 0 false = some x → exec (.nopEntry q e) s = .next (s.endEntry q' e 0)) ∧
    (∀ st t, s.entry? q' e 1 false = some x →
      s.startLaunch e (s.wq q').root (BitVec.ofNat 64 (x.f 8 8)) q' (s.wq q').part (s.wq q').prio (s.wq q').quantum (.entry q' e) = (st, t) →
      s.launchBusy e (s.wq q').root (BitVec.ofNat 64 (x.f 8 8)) (s.wq q').part = false →
      exec (.launchEntry q e) s = .next (if st = 0 then t.modEntry q' e (fun x => { x with started := true }) else t.endEntry q' e st)) ∧
    (s.entry? q' e 2 false = some x → exec (.flushEntry q e) s = .next (s.modEntry q' e fun x => { x with started := true })) ∧
    (s.entry? q' e 3 false = some x → exec (.biasEntry q e) s = .next (s.modEntry q' e fun x => { x with started := true })) ∧
    (s.entry? q' e 4 false = some x → exec (.waitEntry q e) s = .next (s.modEntry q' e fun x => { x with started := true })) ∧
    (s.entry? q' e 5 false = some x → exec (.signalEntry q e) s = .next (s.modEntry q' e fun x => { x with started := true })) ∧
    (s.entry? q' e 2 true = some x → let lo := x.f 8 8; let hi := x.f 8 8 + x.f 16 8
      s.owned none lo (x.f 16 8) = false → s.towerHolds lo = false →
      let gone : Prop := x.f 24 1 = 1 ∧ s.windowed lo = true
      exec (.flushComplete q e) s = .next (({ s with mem := { s.mem with
        hidden := s.mem.hidden.dropRange lo hi
        hiddenKey := s.mem.hiddenKey.dropRange (lo / 32) (hi / 32)
        stale := if gone then s.mem.stale.dropRange lo hi else s.mem.stale
        l1 := if gone then s.mem.l1.filter fun c => !(decide (lo ≤ c.line * 128) && decide (c.line * 128 < hi)) else s.mem.l1 } } : State).endEntry q' e 0)) ∧
    (s.entry? q' e 3 true = some x → (∃ w ∈ s.wqs, ∃ y ∈ w.entries, y.opc = 3 ∧ y.granted = true ∧ y.order < x.order ∧
        y.f 8 8 / 2 ^ 21 + y.progress ≤ x.f 8 8 / 2 ^ 21 + x.progress ∧ x.f 8 8 / 2 ^ 21 + x.progress < y.f 8 8 / 2 ^ 21 + y.f 16 4) →
      exec (.biasPageFlip q e) s = .next s) ∧
    (s.entry? q' e 3 true = some x → s.flipWaits x = false → let page := x.f 8 8 / 2 ^ 21 + x.progress
      (s.hub.hbiasen.getLsbD (page * 2 ^ 21 / 2 ^ 48) = false → exec (.biasPageFlip q e) s = .next (s.endEntry q' e 5)) ∧
      (s.hub.hbiasen.getLsbD (page * 2 ^ 21 / 2 ^ 48) = true → (page ∈ s.mem.hostBias ↔ x.f 20 1 ≠ 1) →
        exec (.biasPageFlip q e) s = .next (if page + 1 = x.f 8 8 / 2 ^ 21 + x.f 16 4 then s.endEntry q' e 0
          else s.modEntry q' e fun y => { y with progress := y.progress + 1 })) ∧
      (s.hub.hbiasen.getLsbD (page * 2 ^ 21 / 2 ^ 48) = true → (page ∈ s.mem.hostBias ↔ x.f 20 1 = 1) →
        s.owned none (page * 2 ^ 21) (2 ^ 21) = false → s.towerHolds (page * 2 ^ 21) = false →
        ∃ u : State, exec (.biasPageFlip q e) s = .next u ∧ (page ∈ u.mem.hostBias ↔ x.f 20 1 ≠ 1) ∧
          (∀ p, p ≠ page → (p ∈ u.mem.hostBias ↔ p ∈ s.mem.hostBias)) ∧ u.mem.bytes = s.mem.bytes ∧
          (x.f 20 1 = 1 → ∀ l ∈ u.mem.hostLines, l * 128 / 2 ^ 21 ≠ page) ∧
          (x.f 20 1 ≠ 1 → ∀ a, a / 2 ^ 21 = page → u.mem.hidden.get? a = none ∧ u.mem.stale.get? a = none))) ∧
    (s.entry? q' e 4 true = some x → let pa := x.f 8 8
      s.hubHolds 0 pa 8 = false →
      ((2 ^ 52 ≤ pa ∨ s.paCheck pa ≠ none ∨ s.badByte 0 pa 8 ≠ none ∨ tagPasses (s.tagOf pa) .sys (.hub s.fab.node) = false) →
        exec (.waitPoll q e) s = .next ((s.spoil 0 pa 8).endEntry q' e 4)) ∧
      (pa < 2 ^ 52 → s.paCheck pa = none → s.badByte 0 pa 8 = none → tagPasses (s.tagOf pa) .sys (.hub s.fab.node) = true →
        ∀ bs u, s.devRead none (hubPlace pa) 8 = (bs, u) →
        exec (.waitPoll q e) s = .next (if (x.f 24 1 = 0 ∧ x.f 16 8 ≤ leNat bs) ∨ (x.f 24 1 = 1 ∧ leNat bs = x.f 16 8) ∨
          (2 ≤ x.f 24 1 ∧ leNat bs ≠ x.f 16 8) then u.endEntry q' e 0 else u))) ∧
    (s.entry? q' e 5 true = some x → let pa := x.f 8 8
      s.hubHolds 0 pa 8 = false →
      (∀ t, pa < 2 ^ 52 → s.hubStore pa (leBytes 8 (x.f 16 8)) = (true, t) →
        exec (.signalStoreDone q e) s = .next ((t.setTag pa (.sys, .hub t.fab.node)).endEntry q' e 0)) ∧
      (∀ t, pa < 2 ^ 52 → s.hubStore pa (leBytes 8 (x.f 16 8)) = (false, t) → exec (.signalStoreDone q e) s = .next (t.endEntry q' e 4)) ∧
      (2 ^ 52 ≤ pa → exec (.signalStoreDone q e) s = .next (s.endEntry q' e 4)))) ∧
  (∀ (s : State) (q e : Nat) (st : Nat) (w : Queue) (x : QEntry), s.queue? q = some w → (w.entries.find? fun x => x.num == e) = some x →
    let s' : State := { s with wqs := s.wqs.map fun w => if w.num = q then { w with entries := w.entries.filter fun x => x.num ≠ e } else w }
    let eq := fieldAt w.ctx 10 2 % 1024
    s.endEntry q e st = if st ≠ 0 then s'.post eq (eventBytes q 2 st (fieldAt x.bytes 4 4) 0)
      else if fieldAt x.bytes 1 1 / 2 % 2 = 1 then s'.post eq (eventBytes q 1 0 (fieldAt x.bytes 4 4) 0) else s')

/-- A launch starts when its record can be read, has zeros in its zero fields and its fields within limits, names a partition with a tower, and its completion record can be written; a failed check gives its status in that order (R114). It takes the lower of its own priority and the queue's, and a completion record in STATE 1, on a peer's page once the peer has answered every store of it (R115, R116), and a GRIDID that no launch in progress bears (R131): the next in a count, which is the model's choice (log entry 16). -/
def Obligations.LaunchesStart : Prop :=
  (∀ (s t : State) (who : Nat) (root va : DWord) (q part cap quantum : Nat) (o : Owner),
    (s.hubRead who false root 256 va 256 = (none, t) → s.startLaunch who root va q part cap quantum o = (0x10, t)) ∧
    (∀ bs, s.hubRead who false root 256 va 256 = (some bs, t) → let r := recOf bs
      (recZeros bs = false → s.startLaunch who root va q part cap quantum o = (0x11, t)) ∧
      (recZeros bs = true → r.inLimits = false → s.startLaunch who root va q part cap quantum o = (0x12, t)) ∧
      (recZeros bs = true → r.inLimits = true → (11 < part ∨ ∀ n : TowerId, t.towers[n.val].tpart.toNat ≠ part) →
        s.startLaunch who root va q part cap quantum o = (0x13, t)) ∧
      (recZeros bs = true → r.inLimits = true → part ≤ 11 → (∃ n : TowerId, t.towers[n.val].tpart.toNat = part) →
        let head := leBytes 4 r.gen.toNat ++ leBytes 4 1 ++ leBytes 8 0 ++ leBytes 8 0 ++ leBytes 8 r.teams ++ leBytes 32 0
        (∀ u, t.writeHead' who root r.compl head = (false, u) → s.startLaunch who root va q part cap quantum o = (0x14, u)) ∧
        (∀ u, t.writeHead' who root r.compl head = (true, u) → ∃ l : Launch,
          s.startLaunch who root va q part cap quantum o = (0, { u with nextKey := u.nextKey + 1, nextGrid := l.grid + 1, launches := u.launches ++ [l] }) ∧
          l.key = u.nextKey ∧ l.lrec = r ∧ l.ep = min r.prio cap ∧ l.part = part ∧ l.queue = q ∧ l.quantum = quantum ∧ l.root = root ∧
          l.owner = o ∧ l.begun = [] ∧ l.placing = [] ∧ l.doneCnt = 0 ∧ (u.launches.length < 2 ^ 32 → ∀ x ∈ u.launches, x.grid ≠ l.grid) ∧
          ((∀ x ∈ u.launches, x.grid ≠ u.nextGrid) → l.grid = u.nextGrid))))) ∧
  (∀ (s t : State) (who : Nat) (root va : DWord) (bs : List Byte) (p : Place), s.translate none hubTlb root va .store .dflt = (.ok p, t) →
    (p.node = none → s.writeHead' who root va bs = (decide ((s.hubWrite who root va bs (some .pkg)).1 ≠ .refused), (s.hubWrite who root va bs (some .pkg)).2)) ∧
    (p.node ≠ none → ((s.writeHead' who root va bs).1 = true ↔ ∀ a ∈ s.headAsks who p, ∃ bs, a.reply = some (0, bs))))

/-- EVENT_CONTEXT_POLL takes a valid context while records wait (R100, R414), also one that cannot be read, which is the model's choice (log entry 51). EVENT_RECORD_WRITE puts the oldest record into the next slot, where memory takes it, with the phase of the pass, never over one not returned, and interrupts with every COUNT-th (R102, R104); EVENT_INTERRUPT_TIMER interrupts TIMER microseconds after the first record not signalled (R104). EVENT_DOORBELL returns slots as R102 counts them. An interrupt on a masked vector stays pending (R104). -/
def Obligations.EventsAreWritten : Prop :=
  (∀ (s : State) (e : BitVec 10), let q := s.eventQ e.toNat; let bs := s.eventCtx e.toNat
    s.hub.hqEn = true → q.held = false → q.waiting ≠ [] → s.hubHolds 0 (s.hub.heqBase + 64 * e.toNat) 64 = false →
    exec (.eventContextPoll e) s = .next (s.putEventQ (if eventCtxOk bs then { q with
      held := true, base := fieldAt bs 0 8, log2n := fieldAt bs 8 1, vec := fieldAt bs 10 2
      count := if fieldAt bs 12 1 = 0 then 1 else fieldAt bs 12 1, time := fieldAt bs 14 2 } else { q with held := false }))) ∧
  (∀ (s : State) (e : BitVec 10) (r : List Byte) (rest : List (List Byte)), let q := s.eventQ e.toNat; let wrap := q.slot + 1 = 2 ^ q.log2n
    q.waiting = r :: rest → q.held = true → q.unreturned < 2 ^ q.log2n → s.paCheck (q.base + 16 * q.slot) = none →
    s.writeFails (hubPlace (q.base + 16 * q.slot)) = false → s.hubHolds 0 (q.base + 16 * q.slot) 16 = false →
    ∃ t : State, exec (.eventRecordWrite e) s = .next t ∧ t.mem = (s.devWrite none (hubPlace (q.base + 16 * q.slot)) (withPhase 2 q.phase r)).mem ∧
      t.eventQ e.toNat = { q with
        waiting := rest, slot := if wrap then 0 else q.slot + 1, phase := if wrap then !q.phase else q.phase, unreturned := q.unreturned + 1
        unsignalled := if q.unsignalled + 1 = q.count then 0 else q.unsignalled + 1, firstAt := if q.unsignalled = 0 then s.now else q.firstAt } ∧
      (q.unsignalled + 1 ≠ q.count → t.irq = s.irq ∧ t.hub.msixPend = s.hub.msixPend) ∧
      (q.unsignalled + 1 = q.count → s.hub.masked q.vec = false → t.irq = s.irq ++ [q.vec]) ∧
      (q.unsignalled + 1 = q.count → s.hub.masked q.vec = true → t.irq = s.irq ∧ q.vec ∈ t.hub.msixPend)) ∧
  (∀ (s : State) (e : BitVec 10), let q := s.eventQ e.toNat
    2 ^ q.log2n ≤ q.unreturned → exec (.eventRecordWrite e) s = .next s) ∧
  (∀ (s : State) (e : BitVec 10) (v : Word) (o k : Nat), let q := s.eventQ e.toNat; let n := 2 ^ q.log2n
    s.hub.hqEn = true → q.held = true → o < n → (o + q.unreturned) % n = q.slot % n → k < n → (o + k) % n = v.toNat % n →
    exec (.eventDoorbell e v) s = .next (s.putEventQ { q with
      unreturned := if q.unreturned = n ∧ k = 0 then 0 else if k ≤ q.unreturned then q.unreturned - k else q.unreturned })) ∧
  (∀ (s : State) (e : BitVec 10), let q := s.eventQ e.toNat
    q.held = true → q.time ≠ 0 → q.unsignalled ≠ 0 → q.firstAt + q.time * 1400 ≤ s.now →
    exec (.eventInterruptTimer e) s = .next ((s.putEventQ { q with unsignalled := 0 }).interrupt q.vec))

/-- A session needs both algorithms negotiated and ML-KEM-768 with AES-256-GCM (R108); a signed measurement that holds the digest and the log, while MEASURED, lets keys in (R57). A key message in a session is refused with its status, tests in the order of the codes, or its work is taken up (R109), and KEY_INSTALL_DONE writes back and drops what is held under the ID, L1 lines among it, and makes the key, or its erasure, the ID's (R110). Ending a session leaves keys (R110). The answers to DOE discovery and the words of messages are the model's (log entry 38). -/
def Obligations.KeysAreInstalled : Prop :=
  (∀ (s : State) (i : Nat), exec (.doeDiscovery i) s = .next (s.tell (.text 0 (if i = 0 then [1, 0, 1] else if i = 1 then [1, 1, 0] else [0xFFFF, 0xFF, 0])))) ∧
  (∀ (s : State) (a b : Bool), exec (.spdmNegotiateAlgorithms a b) s = .next (if a = true ∨ b = true then
    (Claims.hub s fun h => { h with doeAlg := some (a, b) }).tell (.text 1 [1, a.toNat, b.toNat]) else s.tell (.text 1 [0]))) ∧
  (∀ (s : State) (n : Nat) (a b : Bool),
    (s.hub.doeAlg = some (true, true) → a = true → b = true → (∀ x ∈ s.hub.sessions, x.num ≠ n) →
      exec (.spdmKeyExchange n a b) s = .next ((Claims.hub s fun h => { h with sessions := h.sessions ++ [{ num := n }] }).tell (.text 2 [1, n]))) ∧
    (s.hub.doeAlg ≠ some (true, true) ∨ a = false ∨ b = false → exec (.spdmKeyExchange n a b) s = .next (s.tell (.text 2 [0, n]))) ∧
    exec (.spdmSessionEnd n) s = .next (Claims.hub s fun h => { h with sessions := h.sessions.filter fun x => x.num ≠ n })) ∧
  (∀ (s : State) (signed : Bool) (digest : Digests) (log : Bool), s.hub.doeAlg ≠ none → (signed = true → s.hub.doeAlg = some (true, true)) →
    ∃ t : State, exec (.spdmMeasurements signed digest log) s = .next t ∧ t.teams = s.teams ∧ t.mem = s.mem ∧
      t.hub = { s.hub with mState := if signed = true ∧ digest.measured = true ∧ log = true ∧ s.hub.mState = .measured then .keyed else s.hub.mState } ∧
      t.hostOut = s.hostOut ++ [.text 3 ([1, signed.toNat] ++ (if digest.firmware = true then [Config.firmwareDigest.toNat] else []) ++
        (if digest.measured = true then [s.hub.digest.toNat] else []) ++ (if log then [s.hub.runlog.toNat] else []))]) ∧
  (∀ (s : State) (n : Nat) (m : BitVec 544) (k : BitVec 32), ({ num := n } : Session) ∈ s.hub.sessions →
    (s.hub.mState ≠ .keyed → exec (.keyLoad n m) s = .next (s.tell (.text 4 [n, 1])) ∧ exec (.keyClear n k) s = .next (s.tell (.text 4 [n, 1]))) ∧
    (s.hub.mState = .keyed → (m.extractLsb' 16 16 = 0 ∨ 1023 < (m.extractLsb' 16 16).toNat) → exec (.keyLoad n m) s = .next (s.tell (.text 4 [n, 2]))) ∧
    (s.hub.mState = .keyed → 0 < (m.extractLsb' 16 16).toNat → (m.extractLsb' 16 16).toNat ≤ 1023 → m.extractLsb' 0 16 ≠ 0x0001 →
      exec (.keyLoad n m) s = .next (s.tell (.text 4 [n, 3]))) ∧
    (s.hub.mState = .keyed → 0 < (m.extractLsb' 16 16).toNat → (m.extractLsb' 16 16).toNat ≤ 1023 → m.extractLsb' 0 16 = 0x0001 →
      exec (.keyLoad n m) s = .next (Claims.hub s fun h => { h with
        keyWork := h.keyWork ++ [{ id := m.extractLsb' 16 10, value := some (m.extractLsb' 32 512), session := n }] })) ∧
    (s.hub.mState = .keyed → 0 < (k.extractLsb' 16 16).toNat → (k.extractLsb' 16 16).toNat ≤ 1023 → k.extractLsb' 0 16 = 0x0002 →
      exec (.keyClear n k) s = .next (Claims.hub s fun h => { h with keyWork := h.keyWork ++ [{ id := k.extractLsb' 16 10, value := none, session := n }] }))) ∧
  (∀ (s : State) (id : BitVec 10) (w : KeyWork), (s.hub.keyWork.find? fun w => w.id == id) = some w →
    ∃ t : State, exec (.keyInstallDone id) s = .next t ∧ t.hub.keys.get? id.toNat = w.value ∧ t.hub.gen id.toNat = s.hub.gen id.toNat + 1 ∧
      (∀ v, w.value = some v → id ≠ 0 → t.hub.pair (id.toNat, t.hub.gen id.toNat) = v) ∧
      (∀ k, k ≠ id.toNat → t.hub.keys.get? k = s.hub.keys.get? k ∧ t.hub.gen k = s.hub.gen k) ∧ (∀ c ∈ t.mem.l1, c.key ≠ id) ∧
      t.mem = (s.recallKeys fun k => k == id.toNat).mem ∧ t.hub.keyWork = s.hub.keyWork.erase w ∧ t.hostOut = s.hostOut ++ [.text 4 [w.session, 0]])
/-- A cell that arrives and may be performed is performed as R65 and R76 say: loads, stores, releases and operation packets act on this package's memory under FABKEY.KEYID and are answered with STATUS 0, or refused with 0x05, 0x06 or 0x11 and no effect (R73); a release tags its line, and a relaxed write leaves the line's tag or one of the peer's thread (R173; log entry 35); a reply reaches the request, or the access of the hub, that its tag names (R64); a shootdown drops peer lines; an empty cell only acknowledges; a reserved TYPE sets PROTERR (R64). A request behind one that waits, a release before its bulk bytes, or one without room for its reply, waits in order (R68, R71). -/
def Obligations.CellsArePerformed : Prop :=
  (∀ (s : State) (c : Cell), let u := Claims.heard s c; let pa := Claims.field c 0 8 % 2 ^ 52; let n := max 1 (Claims.field c 8 1)
    let sc := scopeAt (Claims.field c 9 1)
    (Claims.acts s c 0 → exec (.fabEmptyCell c) s = .next u) ∧
    (∀ acq : Bool, Claims.acts s c (if acq then 6 else 1) → let i : Instr := if acq then .fabAcquireLoadCell c else .fabLoadCell c
      (∀ st, u.peerRefuses pa n = some st → exec i s = .next (u.replyTo c st [])) ∧
      (u.peerRefuses pa n = none → u.badByte u.fab.key.toNat pa n ≠ none → exec i s = .next ((u.spoil u.fab.key.toNat pa n).replyTo c 0x11 [])) ∧
      (u.peerRefuses pa n = none → u.badByte u.fab.key.toNat pa n = none → acq = true → tagPasses (u.tagOf pa) sc (.thread c.src 0 0 0) = false →
        exec i s = .next (u.replyTo c 0x06 [])) ∧
      (∀ bs v, u.peerRefuses pa n = none → u.badByte u.fab.key.toNat pa n = none → (acq = true → tagPasses (u.tagOf pa) sc (.thread c.src 0 0 0) = true) →
        u.devRead none (u.peerPlace pa) n = (bs, v) → exec i s = .next (v.replyTo c 0 bs))) ∧
    (∀ rel : Bool, Claims.acts s c (if rel then 5 else 2) → let i : Instr := if rel then .fabReleaseCell c else .fabStoreCell c
      (∀ st, u.peerRefuses pa 32 = some st → exec i s = .next (u.replyTo c st [])) ∧
      (u.peerRefuses pa 32 = none → u.writeFails (u.peerPlace pa) = true → exec i s = .next (u.replyTo c 0x11 [])) ∧
      (u.peerRefuses pa 32 = none → u.writeFails (u.peerPlace pa) = false → ∃ v : State, exec i s = .next v ∧
        (∀ j < 32, c.payload.getLsbD (64 + j) = true → v.byteUnder s.fab.key.toNat (pa + j) = BitVec.ofNat 8 (Claims.field c (16 + j) 1)) ∧
        (∀ a, (∀ j < 32, c.payload.getLsbD (64 + j) = true → a ≠ pa + j) → Claims.apart s pa 32 a → v.byteUnder s.fab.key.toNat a = s.byteUnder s.fab.key.toNat a) ∧
        (rel = true → pa / 2 ^ 48 < 0xE → v.tagOf pa = some (scopeAt (Claims.field c 12 1), .thread c.src 0 0 0)) ∧
        (rel = false → v.tagOf pa = s.tagOf pa ∨ ∃ x, v.tagOf pa = some (x, .thread c.src 0 0 0)) ∧ v.fab = (u.replyTo c 0 []).fab ∧ v.teams = s.teams ∧ v.reqs = s.reqs)) ∧
    (Claims.acts s c 7 → let lo := c.src.toNat * 2 ^ 52 + Claims.field c 0 8 % 2 ^ 52
      exec (.fabShootdownCell c) s = .next (({ u with mem := { u.mem with
        remote := if Claims.field c 12 1 % 2 = 1 then u.mem.remote.filter fun e => decide (e.1 < lo) || decide (lo + Claims.field c 8 4 * 4096 ≤ e.1)
          else u.mem.remote } } : State).replyTo c 0 [])) ∧
    (∀ t id, Claims.acts s c 4 → ((s.pairOf c.src).tags.find? fun x => x.1 == c.tag.toNat) = some (t, id) →
      let w := u.putPair { u.pairOf c.src with tags := (u.pairOf c.src).tags.filter fun x => x.1 != t }
      ((∀ a ∈ s.fab.asks, a.id ≠ id) → exec (.fabReplyCell c) s = .next { w with
        reqs := s.reqs.map fun r => if r.id = id then { r with phase := .replied c.status (cellBytes c 0 64) } else r }) ∧
      (∀ a, (s.fab.asks.find? fun a => a.id == id) = some a → a.who ≠ 0 → (∀ l ∈ s.launches, id ∉ l.recWaits) →
        exec (.fabReplyCell c) s = .next (Claims.fab w fun f => { f with
          asks := f.asks.map fun x => if x.id = id then { x with reply := some (c.status, cellBytes c 0 64) } else x })) ∧
      (∀ a, (s.fab.asks.find? fun a => a.id == id) = some a → (∃ l ∈ s.launches, id ∈ l.recWaits) →
        exec (.fabReplyCell c) s = .next { w with
          fab := { w.fab with asks := w.fab.asks.filter fun x => x.id != id }
          launches := s.launches.map fun l =>
            if id ∈ l.recWaits then { l with recWaits := l.recWaits.erase id, badWrite := l.badWrite || c.status != 0 } else l })) ∧
    (s.fab.en = true → 8 ≤ c.typ.toNat → exec (.fabReservedCell c) s = .next (Claims.fab s fun f => { f with proterr := true }))) ∧
  (∀ (s v : State) (c : Cell) (op : AOp) (old : List Byte), Claims.acts s c 3 →
    let u := Claims.heard s c; let pa := Claims.field c 0 8 % 2 ^ 52; let n := max 1 (Claims.field c 9 1)
    let ord := orderAt (Claims.field c 10 1 / 4 % 4); let sc := scopeAt (Claims.field c 10 1)
    let data := cellBytes c (if Claims.field c 8 1 ≤ 9 then 16 else 32) n
    (Claims.field c 8 1 ≤ 9 ∧ op = .atop (BitVec.ofNat 8 (Claims.field c 8 1)) ∨
      (Claims.field c 8 1 = 16 ∨ Claims.field c 8 1 = 17) ∧ op = .cas (cellBytes c 16 (Claims.field c 9 1))) →
    (∀ st, u.peerRefuses pa n = some st → exec (.fabOperationPacket c) s = .next (u.replyTo c st [])) ∧
    (u.peerRefuses pa n = none → u.badByte u.fab.key.toNat pa n ≠ none →
      exec (.fabOperationPacket c) s = .next ((u.spoil u.fab.key.toNat pa n).replyTo c 0x11 [])) ∧
    (u.peerRefuses pa n = none → u.badByte u.fab.key.toNat pa n = none → isAcq ord = true → tagPasses (u.tagOf pa) sc (.thread c.src 0 0 0) = false →
      exec (.fabOperationPacket c) s = .next (u.replyTo c 0x06 [])) ∧
    (u.peerRefuses pa n = none → u.badByte u.fab.key.toNat pa n = none → (isAcq ord = true → tagPasses (u.tagOf pa) sc (.thread c.src 0 0 0) = true) →
      u.devRead none (u.peerPlace pa) n = (old, v) →
      exec (.fabOperationPacket c) s = .next ((match op.apply old data with
        | some new => (v.devWrite none (v.peerPlace pa) new).peerTag pa (isRel ord) sc c.src
        | none => v).replyTo c 0 (if Claims.field c 11 1 % 2 = 1 then old else [])))) ∧
  (∀ (s : State) (c : Cell), s.fab.en = true → c.dst = s.fab.node → c.src ≠ s.fab.node → c.typ ≠ 4 →
    ((s.pairOf c.src).waiting ≠ [] ∨ 16 ≤ (s.pairOf c.src).replies.length ∨
      (c.typ = 5 ∨ c.typ = 3 ∧ 2 ≤ Claims.field c 10 1 / 4 % 4) ∧ 2 ^ 31 ≤ ((s.pairOf c.src).landed - c.bseq).toNat) →
    let w := (Claims.heard s c).putPair { (Claims.heard s c).pairOf c.src with waiting := (s.pairOf c.src).waiting ++ [c] }
    (c.typ = 1 → exec (.fabLoadCell c) s = .next w) ∧ (c.typ = 2 → exec (.fabStoreCell c) s = .next w) ∧
    (c.typ = 3 → exec (.fabOperationPacket c) s = .next w) ∧ (c.typ = 5 → exec (.fabReleaseCell c) s = .next w) ∧
    (c.typ = 6 → exec (.fabAcquireLoadCell c) s = .next w) ∧ (c.typ = 7 → exec (.fabShootdownCell c) s = .next w)) ∧
  (∀ (s : State) (c : Cell) (st : Byte) (data : List Byte), s.replyTo c st data = s.putPair { s.pairOf c.src with
    replies := (s.pairOf c.src).replies ++ [{
      src := s.fab.node, dst := c.src, typ := 4, bseq := 0, ack := (s.pairOf c.src).landed, tag := c.tag, status := st, payload := payloadOf data }] })

/-- SYNC_SLOT, in its slot time, sends one cell to the node that R66 gives the port: the head request with the lowest free tag or the head reply, in turns, or an empty cell, with the acknowledgement of the moment (R64, R68). The lowest free TAG, and a reply first on a fresh pair, are the model's choice (log entry 14). BULK_PACKET_ARRIVE writes the bytes its mask names and takes its number in (R70, R71), but waits behind one of its node and line that is kept back (R70; log entry 46). FAB_RELEASE_APPLY and FAB_REQUEST_RESUME perform a waiting cell once its bulk bytes have landed, or its reply has room (R68, R71). -/
def Obligations.CellsTravel : Prop :=
  (∀ (s : State) (j port : Nat), s.fab.en = true → s.fab.locked = true → s.fab.upPort j = some port → s.fab.portDown.getLsbD port = false →
    (s.now - s.fab.epoch) % 8 = 0 → let t := (s.now - s.fab.epoch) / 8
    s.fab.slotUsed.get? j ≠ some t → s.fab.upCount ≠ 0 →
    let n := s.fab.domain.toNat
    let d := BitVec.ofNat 12 ((s.fab.node.toNat + s.fab.upCount * (t % ((n + s.fab.upCount - 1) / s.fab.upCount)) + j) % n)
    (d ≠ s.fab.node → exec (.syncSlot j) s = .next (((Claims.fab s fun f => { f with slotUsed := f.slotUsed.put j t }).fillQueue d 16).sendCell d)) ∧
    (d = s.fab.node → exec (.syncSlot j) s = .next s)) ∧
  (∀ (s : State) (n : BitVec 12), let p := s.pairOf n; let out (u : State) (c : Cell) : State :=
      { u with fab := { u.fab with cellsOut := u.fab.cellsOut ++ [{ c with ack := p.landed }] } }
    (p.requests = [] → p.replies = [] → s.sendCell n = out s { src := s.fab.node, dst := p.node, typ := 0, bseq := 0, ack := p.landed, tag := 0, status := 0, payload := 0 }) ∧
    (∀ c cs, p.replies = c :: cs → (p.requests = [] ∨ p.freeTag = none ∨ p.lastReply = false) →
      s.sendCell n = out (s.putPair { p with replies := cs, lastReply := true }) c) ∧
    (∀ x xs t, p.requests = x :: xs → p.freeTag = some t → (p.replies = [] ∨ p.lastReply = true) →
      s.sendCell n = out (s.putPair { p with requests := xs, tags := p.tags ++ [(t, x.1)], lastReply := false }) { x.2 with tag := BitVec.ofNat 8 t }) ∧
    (∀ t, p.freeTag = some t → t < 256 ∧ (∀ x ∈ p.tags, x.1 ≠ t) ∧ ∀ v < t, ∃ x ∈ p.tags, x.1 = v)) ∧
  (∀ (s : State) (b : Bulk), s.fab.en = true → b.src ≠ s.fab.node → let pa := b.line.toNat / 128 * 128; let p := s.pairOf b.src
    s.lineKept b = false → s.peerHolds pa 128 = false → s.rmwHeld (.thread b.src 0 0 0) .pkg pa 128 = false → s.peerRefuses pa 128 = none → s.writeFails (s.peerPlace pa) = false → b.data.length = 128 →
    ∃ v : State, exec (.bulkPacketArrive b) s = .next v ∧
      (∀ j (h : j < b.data.length), b.mask.getLsbD j = true → v.byteUnder s.fab.key.toNat (pa + j) = b.data[j]) ∧
      (∀ a, (∀ j < 128, b.mask.getLsbD j = true → a ≠ pa + j) → Claims.apart s pa 128 a → v.byteUnder s.fab.key.toNat a = s.byteUnder s.fab.key.toNat a) ∧
      (p.ahead = [] → b.seq = p.landed + 1 → (v.pairOf b.src).landed = b.seq ∧ (v.pairOf b.src).ahead = []) ∧
      (p.ahead = [] → (p.landed - b.seq).toNat < 2 ^ 31 → (v.pairOf b.src).landed = p.landed ∧ (v.pairOf b.src).ahead = []) ∧
      v.teams = s.teams ∧ v.mem.tags = s.mem.tags) ∧
  (∀ (s : State) (b x : Bulk), s.fab.en = true → b.src ≠ s.fab.node → Instr.bulkPacketArrive x ∈ s.kept → x.src = b.src →
    x.line.toNat / 128 = b.line.toNat / 128 → exec (.bulkPacketArrive b) s = .next { s with kept := s.kept ++ [.bulkPacketArrive b] }) ∧
  (∀ (s : State) (n : BitVec 12) (c : Cell), (s.pairOf n).waiting = [c] → s.mayPerform c = true →
    let u := (s.putPair { s.pairOf n with waiting := [] }).perform c
    (isRelease c = true → exec (.fabReleaseApply n) s = .next u) ∧ (isRelease c = false → exec (.fabRequestResume n) s = .next u))

/-- FABCFG is taken while EN is 0, and a value that sets EN must name a DOMAIN of 1 to 3,072 nodes above NODE with a port up, else only CFGERR (R74, R75; that a refused write changes nothing else is log entry 31, and what a write of EN = 0 keeps and clears log entry 14). FAB_EPOCH_LOCK begins the slot epoch, while EN = 1 (log entry 14), and FAB_EPOCH_LOSS ends LOCKED (R66, R74); FAB_LINK_DOWN takes a port down with event 0x12 (R75). FARDEC_WRITE keeps EN clear for a value R81 refuses. FAR_TIER_TIMEOUT ends a load with a late UNCORRECTABLE_DATA, and FAR_TIER_LINK_DOWN its port, each with event 0x13 (R82, R101; the event's data is log entry 36). -/
def Obligations.FabricIsConfigured : Prop :=
  (∀ (s : State) (v : Word), let dom : BitVec 12 := v.extractLsb' 16 12; let node : BitVec 12 := v.extractLsb' 0 12
    (s.fab.en = true → exec (.fabcfgWrite v) s = .next (Claims.fab s fun f => { f with en := v.msb, locked := f.locked && v.msb })) ∧
    (s.fab.en = false → v.msb = false → exec (.fabcfgWrite v) s = .next (Claims.fab s fun f => { f with domain := dom, node := node })) ∧
    (s.fab.en = false → v.msb = true → (1 ≤ dom.toNat ∧ dom.toNat ≤ 3072 ∧ node.toNat < dom.toNat ∧ s.fab.upmask ≠ 0) →
      exec (.fabcfgWrite v) s = .next (Claims.fab s fun f => { f with en := true, domain := dom, node := node })) ∧
    (s.fab.en = false → v.msb = true → ¬(1 ≤ dom.toNat ∧ dom.toNat ≤ 3072 ∧ node.toNat < dom.toNat ∧ s.fab.upmask ≠ 0) →
      exec (.fabcfgWrite v) s = .next (Claims.fab s fun f => { f with cfgerr := true }))) ∧
  (∀ (s : State) (flat : BitVec 16), exec (.fabEpochLock flat) s = .next (if s.fab.en = true ∧ s.fab.locked = false then
    Claims.fab s fun f => { f with locked := true, flat := flat, epoch := s.now, slotUsed := [] } else s)) ∧
  (∀ s : State, exec .fabEpochLoss s = .next (Claims.fab s fun f => { f with locked := false })) ∧
  (∀ (s : State) (p : BitVec 6), s.fab.upmask.getLsbD p.toNat = true → s.fab.portDown.getLsbD p.toNat = false →
    exec (.fabLinkDown p) s = .next ((Claims.fab s fun f => { f with linkdown := true, portDown := f.portDown ||| (1#64 <<< p.toNat) }).post
      s.hub.hsyseq.toNat (eventBytes 0x4011 0x12 0 0 p.toNat))) ∧
  (∀ (s : State) (n : Fin 4) (v : Word), let bad := v.extractLsb' 29 2 = 3 ∨ v.extractLsb' 27 2 = 3 ∨ v.extractLsb' 0 14 = 0 ∨
      8192 < (s.fab.farbase[n].extractLsb' 0 13).toNat + (v.extractLsb' 0 14).toNat
    (bad → exec (.fardecWrite n v) s = .next (Claims.fab s fun f => { f with fardec := f.fardec.set n (v &&& 0x78C03FFF) })) ∧
    (¬bad → exec (.fardecWrite n v) s = .next (Claims.fab s fun f => { f with fardec := f.fardec.set n (v &&& 0xF8C03FFF) }))) ∧
  (∀ (s : State) (n port x : Nat) (r : Req) (va : DWord) (p : Place) (d : Reg) (h : Bool), s.req? n = some r → r.loc = .glob va p → p.node = none →
    p.pa / 2 ^ 48 = 0xD → s.fab.farPort (p.pa % 2 ^ 48) = some (port, x) → r.act = .load d h → r.dead = [] →
    exec (.farTierTimeout n) s = .next (((s.endReq r).lateAll r.team r.id r.threads { cause := 0x11, addr := va, info := 256 }).post
      (((s.endReq r).lateAll r.team r.id r.threads { cause := 0x11, addr := va, info := 256 }).hub.hsyseq.toNat) (eventBytes 0x4012 0x13 0 0 (port + 512)))) ∧
  (∀ (s : State) (p : Fin 4), p.val ∉ s.fab.farDown →
    exec (.farTierLinkDown p) s = .next ((Claims.fab s fun f => { f with farDown := f.farDown ++ [p.val] }).post
      s.hub.hsyseq.toNat (eventBytes 0x4012 0x13 0 0 (p.val + 768))))
/-- A step runs the decoded instruction. When the next turn is a run's, and, once the cycles before it have passed, the bytes at the PC of the member that issues decode to i, the step is exec of i with that word current for the leader, or for the whole convoy under U, and then what follows every word (R136, R138, R141, R142): the members are done with it, or try again after a stall (R139), and a cycle passes once every member has issued it, or at a stall (log entry 8). When the next turn is a device step, the step is exec of it. Turns are the model's way to name an order (log entry 2). -/
def Obligations.StepRunsInstruction : Prop :=
  (∀ (s s1 s2 u v : State) (n m c : Nat) (rest : List Turn) (r : Run) (l : Nat) (ls : List Nat) (t : Team) (th : Thread) (w : Word) (k : Cls) (lit : Option Word)
      (i : Instr), s.agenda = .issue n m :: rest →
    let s0 : State := s.pop n rest
    s0.runs[m]? = some r → let r' := s0.regroup r
    r'.todo = l :: ls → s0.team? r'.team = some t → s0.thread? r'.team l = some th → th.pc ≠ th.clause →
    (s0.setRun r').fetch t th.pc = (.word w, s1) → hdrCls th.hdr = some k →
    (usesNext k (fieldsOf w) = true → 1 < th.remaining ∧ ∃ x, lit = some x ∧ s1.fetch t (th.pc + 4) = (.word x, s2)) →
    (usesNext k (fieldsOf w) = false → lit = none ∧ s2 = s1) →
    decode k w lit = .ok i → (i.isCtl = true → th.after i = th.nextClause) →
    exec i { s2 with cur := some { team := r'.team, tids := if i.uni then l :: ls else [l], hdr := th.hdr } } = .next v →
    v.settle r'.pcore r'.quad (if i.uni then l :: ls else [l]) r'.team th.hdr = (u, c) → step s = .next (u.elapse c)) ∧
  (∀ (v : State) (p k : Nat) (q : BitVec 2) (is : List Nat) (h : Word), v.cur = none → v.settle p q is k h = ({ v.stopAll k is with
    runs := v.runs.map fun r => if r.pcore = p ∧ r.quad = q then { r with stalled := true } else r }, 1) ∧
    (∀ t, v.team? k = some t → t.cause = none → v.stopAll k is = v)) ∧
  (∀ (v : State) (p k i : Nat) (q : BitVec 2) (h : Word) (c : Cur) (t : Team) (th : Thread) (r : Run), v.cur = some c → v.team? k = some t → v.thread? k i = some th →
    t.cause = none → th.st = .running → th.pc ≠ th.clause → v.runs = [r] → r.pcore = p → r.quad = q → r.todo = [i] →
    v.settle p q [i] k h = ({ v with cur := none, runs := [{ r with todo := [], done := r.done ++ [i], stalled := false }] }, 1)) ∧
  (∀ (s : State) (n : Nat) (i : Instr) (rest : List Turn), s.agenda = .act n i :: rest → i.isWord = false → step s = exec i (s.pop n rest)) ∧
  (∀ (s : State) (rest : List Turn), s.pop 0 rest = { s with agenda := rest })

/-- Words that the programs of R401 to R412 spell out decode to what they stand for: STREL.b32.pkg, LDACQ.b128.sys, CAS128.sys.ar, RED.n32.pkg ADD, FSETC GT, FFMA with a negated and a third operand, RSQ, RDVX, BARARV, CHSEL, MMA and FWAIT. -/
def Obligations.WordsDecode : Prop :=
  let mem (z : Size) (d a : Reg) (sc : Scope) (ord : Order) (lit : Option Word) : MemOp :=
    { z := z, u := false, g := false, lit := lit, d := d, a := a, sc := sc, ord := ord, rt := .dflt }
  let eng (d a b : Reg) (lit : Option Word) : EngOp := { u := false, g := false, lit := lit, d := d, a := a, b := b }
  let ext (c : Reg) (na : Bool) (fn : BitVec 14) : Ext :=
    { c := c, na := na, nb := false, nc := false, aa := false, ab := false, ac := false, sat := false, ro := false, rm := 0, fn := fn }
  decode .mem 0x2A068C50 none = .ok (.strel (mem .b32 26 24 .pkg .rel none)) ∧
  decode .mem 0x24020268 none = .ok (.ldacq (mem .b128 8 4 .sys .acq none)) ∧
  decode .mem 0x44040278 none = .ok (.cas128 (mem .b128 16 4 .sys .ar none)) ∧
  decode .mem 0x4A244A40 (some 0) = .ok (.red (mem .b32 17 20 .pkg .rlx (some 0))) ∧
  decode .flt 0x0872E4C8 (some 4) = .ok (.fsetc { u := false, d := 75, a := 73, b := .ext 72 (ext 0 false 4) }) ∧
  decode .flt 0x036226A9 (some 0x13000000) = .ok (.ffma { u := false, d := 8, a := 77, b := .ext 41 (ext 9 true 0) }) ∧
  decode .xfn 0x01132480 none = .ok (.rsq { u := false, d := 76, a := 73, b := .reg 0 }) ∧
  decode .eng 0x1512444A none = .ok (.rdvx (eng 73 8 74 none)) ∧
  decode .eng 0x12200001 (some 0x80) = .ok (.bararv (eng 0 0 1 (some 0x80))) ∧
  decode .sys 0x07048500 none = .ok (.chsel (eng 18 10 0 none)) ∧
  decode .eng 0x02030C80 none = .ok (.mma (eng 12 25 0 none)) ∧
  decode .eng 0x0B020400 none = .ok (.fwait (eng 8 8 0 none))

/-- Every well-formed word survives its encoding: the words that encode gives decode, in a clause of a class that holds it, to the same instruction, with every operand and qualifier at every value the encoding admits (R266, R268 to R281). -/
def Obligations.EncodedWordsDecode : Prop :=
  ∀ (i : Instr) (k : Cls), i.isWord = true → i.wf = true → i.inClass k = true →
    decodeBytes k ((encode i).flatMap bytesOfWord) = .ok i

/-- After module reset every tower computes on S2 and S3 with no pinned slice, runs in H0 with CHASH masks 0x3F and 0x00, and is not quiesced (R20, R31, R39, R42); the security state is OPEN, unlocked, with key ID 0 allowed everywhere (R55, R56); the fabric, the work queues and the fault queue are disabled, UPMASK all ones (R74, R86, R194); nothing runs, no line is tagged and every byte of memory reads zero (the last is the model's choice, log entry 3). -/
def Obligations.ResetState : Prop :=
  let s := State.reset
  (∀ n : TowerId, let w := s.towers[n.val]
    w.compute = 0b1100 ∧ w.pinned = 0 ∧ w.roleBusy = false ∧ w.therm.hst = 0 ∧ w.therm.rmult = 0 ∧ w.therm.forced = false ∧ w.chash = 0x3F00 ∧
    w.quiesce = false ∧ w.quiesced = false ∧ w.failed = false ∧ w.tpart = 0 ∧ w.prefovr = 0 ∧ w.hmin = 0) ∧
  s.hub.lock = false ∧ s.hub.mState = .opened ∧ s.hub.policy 0 = 1 ∧ (∀ k, 0 < k → k < 1024 → s.hub.policy k = 0) ∧
  s.fab.en = false ∧ s.fab.upmask = BitVec.allOnes 64 ∧ s.hub.hqEn = false ∧ s.hub.fqEn = false ∧ s.hub.hbiasen = 0 ∧ s.hub.units = 0 ∧
  s.teams = [] ∧ s.launches = [] ∧ s.runs = [] ∧ s.faults = [] ∧ s.copies = [] ∧ s.mem.tags = [] ∧ (∀ a, s.byteUnder 0 a = 0) ∧ s.memOk = true ∧ s.now = 0

/-- Every step keeps memory in its canonical form: addresses strictly rising, no entry equal to what an unlisted address reads as (log entry 3), whatever the turn. -/
def Obligations.MemoryStaysCanonical : Prop :=
  ∀ s t : State, s.memOk = true → step s = .next t → t.memOk = true
end

