-- ==== Sys2Proof/Laws/Gate.lean ====
section
/-!
SUPPORT. The checks common to all words (R142, R144, R148, R269): what is left of a word that passes them.
-/
namespace Sys2Proof.Machine

/-- No member reads a pending future: all of them remain, and nothing changes. -/
theorem blockPending_all (s : State) (k : Nat) (i : Instr) (ms : List Nat)
    (h : ∀ m ∈ ms, ((s.thread? k m).bind (·.pendTok i)) = none) : s.blockPending k i ms = (s, ms) := by
  induction ms with
  | nil => rfl
  | cons m ms ih =>
    have h1 := h m (by simp)
    have h2 := ih (fun x hx => h x (by simp [hx]))
    simp only [State.blockPending]
    rw [h1, h2]

/-- Operands agree wherever they are checked: all members remain, and nothing changes. -/
theorem checkUniform_all (s : State) (k : Nat) (i : Instr) (l : Thread) (ms : List Nat)
    (h : ∀ m ∈ ms, ∃ th, s.thread? k m = some th ∧ (th.uchk = false ∨ th.agrees l i = true)) : s.checkUniform k i l ms = (s, ms) := by
  induction ms with
  | nil => rfl
  | cons m ms ih =>
    obtain ⟨th, h1, h2⟩ := h m (by simp)
    have h3 := ih (fun x hx => h x (by simp [hx]))
    have h4 : (th.uchk && !th.agrees l i) = false := by
      cases h2 with
      | inl h => simp [h]
      | inr h => simp [h]
    simp only [State.checkUniform, h1, h4, h3]
    rfl

/-- A word that passes its common checks is executed for all of its members, in an unchanged state. -/
theorem gate_of_issues {s : State} {i : Instr} {c : Issue} (h : s.issues i c = true) : s.gate i = (s, some c) := by
  unfold State.issues at h
  simp only [Bool.and_eq_true, decide_eq_true_eq] at h
  obtain ⟨⟨⟨⟨⟨⟨h1, h2⟩, h3⟩, h4⟩, h5⟩, h6⟩, h7⟩ := h
  cases hc : s.cur with
  | none => simp [hc] at h1
  | some u =>
    simp only [hc] at h1
    cases ht : u.tids with
    | nil => simp [ht] at h1
    | cons m ms =>
      simp only [ht, Bool.and_eq_true, beq_iff_eq] at h1
      obtain ⟨⟨hk, hh, hw⟩, hm, hms⟩ := h1
      have hp : ∀ x ∈ c.mates, ∃ th, s.thread? c.k x = some th ∧ th.pendTok i = none ∧ (th.uchk = false ∨ th.agrees c.thr i = true) := by
        intro x hx
        have := List.all_eq_true.mp h7 x hx
        unfold State.memberPasses at this
        cases hth : s.thread? c.k x with
        | none => simp [hth] at this
        | some th =>
          simp only [hth, Bool.and_eq_true, Bool.or_eq_true, Option.isNone_iff_eq_none, Bool.not_eq_true'] at this
          exact ⟨th, rfl, this.1, this.2⟩
      simp only [h3, Option.isNone_iff_eq_none] at h6
      have hb : s.blockPending c.k i (c.lead :: c.mates) = (s, c.lead :: c.mates) := by
        apply blockPending_all
        intro x hx
        rcases List.mem_cons.mp hx with rfl | hx
        · simp [h3, h6]
        · obtain ⟨th, e, p, _⟩ := hp x hx
          simp [e, p]
      have hu : s.checkUniform c.k i c.thr c.mates = (s, c.mates) := by
        apply checkUniform_all
        intro x hx
        obtain ⟨th, e, _, q⟩ := hp x hx
        exact ⟨th, e, q⟩
      unfold State.gate
      simp only [hc, hk, h2, ht]
      rw [← hms, hm]
      simp only [h4, Bool.not_true, Bool.false_eq_true, if_false]
      rw [hb]
      simp only [h3, hu, hh, ← hw]

/-- An INT, FLT or XFN word that passes its checks and has a result gives it to every member, with its flags. -/
theorem alu_of_issues {s : State} {i : Instr} {c : Issue} {d : Reg} {f : Thread → AluOut} {ws : List Word} {fl : Word} (h : s.issues i c = true) (hf : f c.thr = .val ws fl) :
    s.alu i d f = s.finish c.k c.all i fun t => (t.setRegs d ws).orFlags fl := by
  simp only [State.alu, gate_of_issues h, hf]

/-- One that passes its checks and has none traps in every member. -/
theorem alu_trap_of_issues {s : State} {i : Instr} {c : Issue} {d : Reg} {f : Thread → AluOut} {tr : Trap} (h : s.issues i c = true) (hf : f c.thr = .trap tr) :
    s.alu i d f = s.trapAll c.k c.all tr := by
  simp only [State.alu, gate_of_issues h, hf]

/-- A global access that passes its checks, is aligned, has room and has no release half does its act. -/
theorem globalWord_of_issues {s : State} {i : Instr} {c : Issue} {o : MemOp} {off : DWord} {act : State → Issue → State} (h : s.issues i c = true)
    (ha : (c.thr.reg64 o.a + off).toNat % sizeBytes o.z = 0) (hr : isRel o.ord = false) (hm : s.room c (flagOf c.hdr o.g) = true) : s.globalWord i o off act = act s c := by
  simp [State.globalWord, gate_of_issues h, alignTrap, ha, hr, hm, -BitVec.toNat_add]

/-- One whose address is not a multiple of its size traps MISALIGNED in every member (R340). -/
theorem globalWord_misaligned {s : State} {i : Instr} {c : Issue} {o : MemOp} {off : DWord} {act : State → Issue → State} (h : s.issues i c = true)
    (ha : (c.thr.reg64 o.a + off).toNat % sizeBytes o.z ≠ 0) : s.globalWord i o off act = s.trapAll c.k c.all (misaligned (c.thr.reg64 o.a + off) (sizeBytes o.z)) := by
  simp [State.globalWord, gate_of_issues h, alignTrap, ha, -BitVec.toNat_add]

/-- One with a release half waits for its prerequisites (R342). -/
theorem globalWord_release {s : State} {i : Instr} {c : Issue} {o : MemOp} {off : DWord} {act : State → Issue → State} (h : s.issues i c = true)
    (ha : (c.thr.reg64 o.a + off).toNat % sizeBytes o.z = 0) (hr : isRel o.ord = true) : s.globalWord i o off act = s.awaitRelease c i := by
  simp [State.globalWord, gate_of_issues h, alignTrap, ha, hr, -BitVec.toNat_add]

end Sys2Proof.Machine
end

