-- ==== Sys2Proof/Laws/Memory.lean ====
section
/-!
SUPPORT. Sparse maps and memory: what a read gives after a write, that every memory operation keeps the canonical form, and that memory after reset has it.
-/
namespace Sys2Proof.Machine

/-! ### Reading after writing -/

/-- A key written holds its new value; every other key is as before. -/
theorem Table.get?_put {α : Type} (t : Table α) (k j : Nat) (v : α) : (t.put k v).get? j = if k = j then some v else t.get? j := by
  induction t with
  | nil => simp [Table.put, Table.get?]
  | cons e r ih =>
    obtain ⟨n, w⟩ := e
    unfold Table.put
    split
    · simp [Table.get?]
    · split
      · next h => subst h; simp only [Table.get?]; split <;> rfl
      · next h1 h2 =>
        simp only [Table.get?, ih]
        split
        · next h3 => rw [if_neg (by omega)]
        · rfl

/-- An erased key holds nothing; every other key is as before. -/
theorem Table.get?_erase {α : Type} (t : Table α) (k j : Nat) : (t.erase k).get? j = if k = j then none else t.get? j := by
  induction t with
  | nil => simp [Table.erase, Table.get?]
  | cons e r ih =>
    obtain ⟨n, w⟩ := e
    unfold Table.erase at ih ⊢
    by_cases h : n = k
    · subst h
      simp only [List.filter_cons, bne_self_eq_false, Bool.false_eq_true, if_false, ih, Table.get?]
      split <;> rfl
    · simp only [List.filter_cons, bne_iff_ne, ne_eq, h, not_false_eq_true, if_true, Table.get?, ih]
      split
      · next h3 => rw [if_neg (by omega)]
      · rfl

/-- A key written in a table that lists no value d reads as its new value, and every other as before. -/
theorem Table.getD_putD {α : Type} [DecidableEq α] (d : α) (t : Table α) (k j : Nat) (v : α) : (t.putD d k v).getD j d = if k = j then v else t.getD j d := by
  unfold Table.putD Table.getD
  split
  · next h => rw [Table.get?_erase]; split <;> simp [h]
  · rw [Table.get?_put]; split <;> simp

/-- A byte written reads back; every other byte reads as before. -/
theorem Memory.read_write (m : List Host.Cell) (a b : Nat) (v : Byte) : Memory.read (Memory.write m a v) b = if a = b then v else Memory.read m b := Table.getD_putD ..

/-- Bytes written read back in place; every byte outside them reads as before. -/
theorem Memory.read_writeN (m : List Host.Cell) (a b : Nat) (bs : List Byte) :
    Memory.read (Memory.writeN m a bs) b = if h : a ≤ b ∧ b < a + bs.length then bs[b - a]'(by omega) else Memory.read m b := by
  induction bs generalizing m a with
  | nil => rw [dif_neg (by simp only [List.length_nil]; omega)]; rfl
  | cons v bs ih =>
    rw [Memory.writeN, ih, Memory.read_write]
    by_cases h1 : a = b
    · subst h1
      rw [dif_neg (by omega), if_pos rfl, dif_pos (by simp only [List.length_cons]; omega)]
      simp
    · by_cases h2 : a + 1 ≤ b ∧ b < a + 1 + bs.length
      · have h3 : a ≤ b ∧ b < a + (v :: bs).length := by simp only [List.length_cons]; omega
        rw [dif_pos h2, dif_pos h3]
        have h4 : b - a = (b - (a + 1)) + 1 := by omega
        simp only [h4, List.getElem_cons_succ]
      · have h3 : ¬(a ≤ b ∧ b < a + (v :: bs).length) := by simp only [List.length_cons]; omega
        rw [dif_neg h2, dif_neg h3, if_neg h1]

/-! ### The canonical form -/

/-- Every key of a written table is the key written or a key from before. -/
theorem Table.mem_put {α : Type} (t : Table α) (k : Nat) (v : α) (e : Nat × α) (h : e ∈ t.put k v) : e = (k, v) ∨ e ∈ t := by
  induction t with
  | nil => simpa [Table.put] using h
  | cons x r ih =>
    obtain ⟨n, w⟩ := x
    unfold Table.put at h
    split at h
    · simpa using h
    · split at h
      · rcases List.mem_cons.mp h with h | h
        · exact .inl h
        · exact .inr (List.mem_cons_of_mem _ h)
      · rcases List.mem_cons.mp h with h | h
        · exact .inr (by simp [h])
        · rcases ih h with h | h
          · exact .inl h
          · exact .inr (List.mem_cons_of_mem _ h)

/-- A write keeps the keys in rising order. -/
theorem Table.rising_put {α : Type} (t : Table α) (k : Nat) (v : α) (h : t.rising = true) : (t.put k v).rising = true := by
  induction t with
  | nil => rfl
  | cons x r ih =>
    obtain ⟨n, w⟩ := x
    simp only [Table.rising, Bool.and_eq_true, List.all_eq_true, decide_eq_true_eq] at h
    unfold Table.put
    split
    · next hk =>
      simp only [Table.rising, Bool.and_eq_true, List.all_eq_true, decide_eq_true_eq]
      refine ⟨fun e he => ?_, h⟩
      rcases List.mem_cons.mp he with rfl | he
      · exact hk
      · exact Nat.lt_trans hk (h.1 e he)
    · split
      · next hk => subst hk; simpa only [Table.rising, Bool.and_eq_true, List.all_eq_true, decide_eq_true_eq] using h
      · simp only [Table.rising, Bool.and_eq_true, List.all_eq_true, decide_eq_true_eq]
        refine ⟨fun e he => ?_, ih h.2⟩
        rcases Table.mem_put r k v e he with rfl | he
        · simp only; omega
        · exact h.1 e he

/-- A table that keeps only some entries keeps its keys in rising order. -/
theorem Table.rising_filter {α : Type} (t : Table α) (p : Nat × α → Bool) (h : t.rising = true) : Table.rising (t.filter p) = true := by
  induction t with
  | nil => rfl
  | cons x r ih =>
    simp only [Table.rising, Bool.and_eq_true, List.all_eq_true, decide_eq_true_eq] at h
    rw [List.filter_cons]
    split
    · simp only [Table.rising, Bool.and_eq_true, List.all_eq_true, decide_eq_true_eq]
      exact ⟨fun e he => h.1 e (List.mem_filter.mp he).1, ih h.2⟩
    · exact ih h.2

/-- Writing a byte keeps the canonical form. -/
theorem Memory.wf_write (m : List Host.Cell) (a : Nat) (b : Byte) (h : Memory.wf m = true) : Memory.wf (Memory.write m a b) = true := by
  simp only [Memory.wf, Bool.and_eq_true, List.all_eq_true, bne_iff_ne, ne_eq] at h ⊢
  unfold Memory.write Table.putD
  split
  · exact ⟨Table.rising_filter m _ h.1, fun e he => h.2 e (List.mem_filter.mp he).1⟩
  · next hb =>
    refine ⟨Table.rising_put m a b h.1, fun e he => ?_⟩
    rcases Table.mem_put m a b e he with rfl | he
    · exact hb
    · exact h.2 e he

/-- Writing bytes keeps the canonical form. -/
theorem Memory.wf_writeN (m : List Host.Cell) (a : Nat) (bs : List Byte) (h : Memory.wf m = true) : Memory.wf (Memory.writeN m a bs) = true := by
  induction bs generalizing m a with
  | nil => exact h
  | cons b bs ih => exact ih _ _ (Memory.wf_write m a b h)

/-! ### The memory operations of the machine keep it -/

/-- Memory after reset is canonical. -/
theorem reset_memOk : State.reset.memOk = true := rfl

/-- A write by lay keeps memory canonical. -/
theorem lay_memOk (s : State) (pa : Nat) (bs : List Byte) (h : s.memOk = true) : (s.lay pa bs).memOk = true := Memory.wf_writeN _ _ _ h

/-- Poison changes no byte. -/
theorem addPoison_memOk (s : State) (xs : List Nat) (h : s.memOk = true) : (s.addPoison xs).memOk = true := h

/-- Storing a recoded line plainly keeps memory canonical. -/
theorem unpack_memOk (s : State) (k line : Nat) (h : s.memOk = true) : (s.unpack k line).memOk = true := by
  have hp : (if s.unmarked k line then s.addPoison (lineSectors line) else s).memOk = true := by
    split <;> exact h
  exact Memory.wf_writeN _ _ _ hp

/-- What hides a byte from the host changes no byte. -/
theorem hide_bytes (s : State) (t a : Nat) (old : Byte) : (s.hide t a old).bytes = s.mem.bytes := by
  unfold State.hide
  simp only []
  split <;> rfl

/-- What hides a sector from the host changes no byte. -/
theorem hideSector_bytes (s : State) (t x : Nat) : (s.hideSector t x).bytes = s.mem.bytes := by
  unfold State.hideSector
  split <;> rfl

/-- What the host may still read of its own memory changes no byte. -/
theorem noteHost_bytes (m : MemSys) (a n : Nat) : (m.noteHost a n).bytes = m.bytes := by
  unfold MemSys.noteHost
  split <;> rfl

/-- Bringing a sector under a key keeps memory canonical. -/
theorem rekey_memOk (s : State) (via : Option Nat) (k x pa : Nat) (h : s.memOk = true) : (s.rekey via k x pa).memOk = true := by
  unfold State.rekey
  split
  · exact unpack_memOk s k _ h
  · split
    · apply Memory.wf_writeN
      cases via with
      | none => exact h
      | some t => exact (hideSector_bytes s t x).symm ▸ h
    · split <;> exact h

/-- Noting what a write replaces changes no byte. -/
theorem noteAt_memOk (s : State) (a n : Nat) (h : s.memOk = true) : (s.noteAt a n).memOk = true := by
  unfold State.noteAt
  split
  · split <;> exact h
  · exact h

/-- Noting what a write replaces changes no byte, on either route. -/
theorem notePast_memOk (s : State) (a n : Nat) (h : s.memOk = true) : (s.notePast a n).memOk = true := by
  unfold State.notePast
  split
  · exact noteAt_memOk _ _ _ (noteAt_memOk s a n h)
  · exact noteAt_memOk s a n h

/-- Writing a host line back keeps memory canonical. -/
theorem cleanHost_memOk (s : State) (line : Nat) (drop : Bool) (h : s.memOk = true) : (s.cleanHost line drop).memOk = true := by
  unfold State.cleanHost
  split
  · exact h
  · next c _ =>
    have hm : Memory.wf (if c.dirty then (s.notePast (line * 128) 128).mem.noteHost (hostOwn (line * 128)) 128 else (s.notePast (line * 128) 128).mem).bytes = true := by
      split
      · rw [noteHost_bytes]; exact notePast_memOk s _ _ h
      · exact notePast_memOk s _ _ h
    simp only []
    generalize (if c.dirty then (s.notePast (line * 128) 128).mem.noteHost (hostOwn (line * 128)) 128 else (s.notePast (line * 128) 128).mem) = m at hm ⊢
    simp only [State.memOk]
    generalize List.replicate 128 (0 : Byte) = z
    have hb : Memory.wf (if c.dirty then Memory.writeN m.bytes (hostOwn (line * 128)) (Memory.readN m.bytes (line * 128) 128) else m.bytes) = true := by
      split
      · exact Memory.wf_writeN _ _ _ hm
      · exact hm
    split
    · exact Memory.wf_writeN _ _ z hb
    · exact hb

/-- Taking a host line into the hub keeps memory canonical. -/
theorem takeHost_memOk (s : State) (k a : Nat) (h : s.memOk = true) : (s.takeHost k a).memOk = true := by
  unfold State.takeHost
  split
  · exact h
  · simp only []
    have hs : (if ((s.mem.hubHost.get? (a / 128)).map (·.key)).getD k == k then s else s.cleanHost (a / 128) true).memOk = true := by
      split
      · exact h
      · exact cleanHost_memOk s _ _ h
    generalize (if ((s.mem.hubHost.get? (a / 128)).map (·.key)).getD k == k then s else s.cleanHost (a / 128) true) = u at hs ⊢
    split
    · exact hs
    · exact Memory.wf_writeN _ _ _ hs

/-- Marking a host line dirty keeps memory canonical. -/
theorem dirtyHost_memOk (s : State) (a : Nat) (h : s.memOk = true) : (s.dirtyHost a).memOk = true := by
  unfold State.dirtyHost
  split <;> exact h

/-- Writing a byte under a key keeps memory canonical. -/
theorem writeByte_memOk (s : State) (via : Option Nat) (k a : Nat) (b : Byte) (h : s.memOk = true) : (s.writeByte via k a b).memOk = true := by
  unfold State.writeByte
  simp only []
  have h0 : (if hostCoherent a then (s.takeHost k a).dirtyHost a else s).memOk = true := by
    split
    · exact dirtyHost_memOk _ _ (takeHost_memOk _ _ _ h)
    · exact h
  generalize (if hostCoherent a then (s.takeHost k a).dirtyHost a else s) = s0 at h0 ⊢
  have h1 := rekey_memOk s0 via k (s0.seat a / 32) (a / 32) h0
  generalize s0.rekey via k (s0.seat a / 32) (a / 32) = s1 at h1 ⊢
  have h2 : Memory.wf (s1.mem.noteHost (s0.seat a) 1).bytes = true := by rw [noteHost_bytes]; exact h1
  simp only [State.memOk]
  apply Memory.wf_write
  cases via with
  | none => exact h2
  | some t =>
    simp only []
    split
    · rw [hide_bytes]; exact h2
    · exact h2

/-- Writing bytes under a key keeps memory canonical. -/
theorem writeBytes_memOk (s : State) (via : Option Nat) (k a : Nat) (bs : List Byte) (h : s.memOk = true) : (s.writeBytes via k a bs).memOk = true := by
  induction bs generalizing s a with
  | nil => exact h
  | cons b bs ih => exact ih _ _ (writeByte_memOk s via k a b h)

/-- Writing memory keeps it canonical. -/
theorem writePhys_memOk (s : State) (via : Option Nat) (k a : Nat) (bs : List Byte) (h : s.memOk = true) : (s.writePhys via k a bs).memOk = true :=
  writeBytes_memOk _ via k a bs (notePast_memOk s a bs.length h)

/-- Storing a line recoded keeps memory canonical. -/
theorem packLine_memOk (s : State) (via : Option Nat) (k line : Nat) (h : s.memOk = true) : (s.packLine via k line).memOk = true := by
  have hr : ((lineSectors line).foldl (fun s x => s.rekey via k x x) s).memOk = true := by
    generalize lineSectors line = xs
    induction xs generalizing s with
    | nil => exact h
    | cons x xs ih => exact ih _ (rekey_memOk s via k x x h)
  unfold State.packLine
  split
  · simp only []
    split <;> exact hr
  · exact h

/-- Storing lines recoded keeps memory canonical. -/
theorem packLines_memOk (s : State) (via : Option Nat) (k : Nat) (ls : List Nat) (h : s.memOk = true) : (s.packLines via k ls).memOk = true := by
  induction ls generalizing s with
  | nil => exact h
  | cons l ls ih => exact ih _ (packLine_memOk s via k l h)

/-- Poisoning what a read found unmarked keeps memory canonical. -/
theorem spoil_memOk (s : State) (k a n : Nat) (h : s.memOk = true) : (s.spoil k a n).memOk = true := by
  have hl : (s.lapse a n).memOk = true := by
    unfold State.lapse
    split <;> exact h
  unfold State.spoil
  simp only []
  split <;> exact hl

/-- Writing back what device copies hold changes no byte. -/
theorem settleLines_bytes (m : MemSys) (ls : List Nat) : (m.settleLines ls).bytes = m.bytes := by
  induction ls generalizing m with
  | nil => rfl
  | cons l ls ih => rw [MemSys.settleLines, ih]; rfl

/-- Folding a partial into its home keeps memory canonical. -/
theorem foldOne_memOk (s : State) (q : Partial) (h : s.memOk = true) : (s.foldOne q).memOk = true := by
  unfold State.foldOne
  apply writePhys_memOk
  simp only [State.memOk, settleLines_bytes]
  exact h

/-- Folding partials in order keeps memory canonical. -/
theorem foldList_memOk (s : State) (qs : List Partial) (h : s.memOk = true) : (s.foldList qs).memOk = true := by
  induction qs generalizing s with
  | nil => exact h
  | cons q qs ih => exact ih _ (foldOne_memOk s q h)

/-- Folding a page keeps memory canonical. -/
theorem foldPage_memOk (s : State) (pa size : Nat) (h : s.memOk = true) : (s.foldPage pa size).memOk = true := foldList_memOk _ _ h

/-- A page folds, where it combines. -/
theorem foldIf_memOk (s : State) (b : Bool) (pa size : Nat) (h : s.memOk = true) : (if b then s.foldPage pa size else s).memOk = true := by
  cases b with
  | true => exact foldPage_memOk s _ _ h
  | false => exact h

/-- Lines that the host gives back keep memory canonical. -/
theorem fromHost_memOk (s : State) (ls : List Nat) (h : s.memOk = true) : (s.fromHost ls).memOk = true := by
  unfold State.fromHost
  split <;> exact h

/-- Fetching lines anew under another key keeps memory canonical. -/
theorem meetKey_memOk (s : State) (k : Nat) (ls : List Nat) (h : s.memOk = true) : (s.meetKey k ls).memOk = true := by
  induction ls generalizing s with
  | nil => exact h
  | cons l ls ih => exact ih _ (by split <;> exact h)

/-- A device write keeps memory canonical. -/
theorem devWrite_memOk (s : State) (via : Option Nat) (p : Place) (bs : List Byte) (h : s.memOk = true) : (s.devWrite via p bs).memOk = true := by
  unfold State.devWrite
  simp only []
  have h1 := meetKey_memOk _ p.key.toNat (linesAt p.pa bs.length) (fromHost_memOk _ (linesAt p.pa bs.length) (foldIf_memOk s (p.share == 3) p.pa p.size h))
  generalize State.meetKey _ _ _ = s1 at h1 ⊢
  have h2 : (if via.isNone then { s1 with mem := s1.mem.settleLines (linesAt p.pa bs.length) } else s1 : State).memOk = true := by
    split
    · simp only [State.memOk, settleLines_bytes]; exact h1
    · exact h1
  have h3 := writePhys_memOk _ via p.key.toNat p.pa bs h2
  simp only [State.memOk]
  split
  · exact packLines_memOk _ _ _ _ h3
  · exact h3

/-- A choice among values changes no byte. -/
theorem pickOf_memOk {α : Type} (s : State) (x : α) (ys : List α) (h : s.memOk = true) : (s.pickOf x ys).2.memOk = true := by
  induction ys generalizing s x with
  | nil => exact h
  | cons y ys ih =>
    unfold State.pickOf State.freeChoice
    simp only []
    split
    · exact ih _ _ h
    · exact h

/-- A read that may see a stale copy keeps memory canonical. -/
theorem readStale_memOk (s : State) (tower : Option Nat) (k pa n : Nat) (bs : List Byte) (h : s.memOk = true) :
    (s.readStale tower k pa n bs).2.memOk = true := by
  cases tower with
  | none => exact h
  | some t =>
    simp only [State.readStale]
    split
    · exact h
    · exact pickOf_memOk s _ _ h

/-- A read on the non-coherent route keeps memory canonical. -/
theorem readHost_memOk (s : State) (pa : Nat) (bs : List Byte) (h : s.memOk = true) : (s.readHost pa bs).2.memOk = true := by
  induction bs generalizing s pa with
  | nil => exact h
  | cons b bs ih => exact ih _ _ (pickOf_memOk s b _ h)

/-- Where a window read goes changes no byte. -/
theorem windowAt_memOk (s : State) (e : DWord) (pa : Nat) (h : s.memOk = true) : (s.windowAt e pa).2.memOk = true := by
  unfold State.windowAt
  split
  · exact pickOf_memOk s _ _ h
  · exact h

/-- A plain read keeps memory canonical. -/
theorem plainRead_memOk (s : State) (tower : Option Nat) (k : Nat) (e : DWord) (pa n : Nat) (h : s.memOk = true) : (s.plainRead tower k e pa n).2.memOk = true := by
  unfold State.plainRead
  simp only []
  have h1 := meetKey_memOk _ k (linesAt pa n) (fromHost_memOk _ (linesAt pa n) (takeHost_memOk _ k pa h))
  generalize State.meetKey _ _ _ = s1 at h1 ⊢
  have h2 := windowAt_memOk s1 e pa h1
  generalize s1.windowAt e pa = r at h2 ⊢
  have h3 := readStale_memOk r.2 tower k r.1 n (r.2.readUnder k r.1 n) h2
  generalize r.2.readStale _ _ _ _ _ = u at h3 ⊢
  split
  · exact h3
  · exact readHost_memOk _ _ _ h3

/-- A device read keeps memory canonical. -/
theorem devRead_memOk (s : State) (tower : Option Nat) (p : Place) (n : Nat) (h : s.memOk = true) : (s.devRead tower p n).2.memOk = true :=
  plainRead_memOk _ _ _ _ _ _ (foldIf_memOk s (p.share == 3) p.pa p.size h)

/-! ### Words in registers -/

/-- The data of a store has its size (R339). -/
theorem Thread.data_length (t : Thread) (d : Reg) (z : Size) : (t.data d (sizeBytes z)).length = sizeBytes z := by
  cases z <;> simp [Thread.data, sizeBytes, bytesOfWords, Thread.regN, leBytes, List.range, List.range.loop]

/-- A register written reads back; every other reads as before. -/
theorem Thread.reg_setReg (t : Thread) (r q : Reg) (v : Word) : (t.setReg r v).reg q = if r = q then v else t.reg q := by
  unfold Thread.reg Thread.setReg
  simp only [Vector.getElem_set]
  by_cases h : r = q
  · subst h; simp
  · rw [if_neg h, if_neg (fun e => h (BitVec.eq_of_toNat_eq e))]

end Sys2Proof.Machine
end

