-- ==== Sys2Proof/Laws/PerInstr.lean ====
section
/-!
SUPPORT. For every constructor of Instr: the number of words that its encoding has (R268): one, two with a literal or extension word, none for a device step.
-/
namespace Sys2Proof.Laws.EncodeLength

/-- The encoding of a word is one word long, two with its literal or extension word; a device step has none. -/
def Statement (i : Instr) : Prop := (encode i).length = if i.isWord then (if i.long then 2 else 1) else 0

/-- It holds whatever the instruction. -/
theorem holds (i : Instr) : Statement i := by
  unfold Statement encode Instr.fields Instr.isWord Instr.long
  cases i.body with
  | dev => rfl
  | alu k op u o =>
    obtain ⟨u, d, a, b⟩ := o
    cases b <;> rfl
  | mem n k o =>
    obtain ⟨z, u, g, lit, d, a, sc, ord, rt⟩ := o
    cases lit <;> rfl
  | eng k op u o =>
    obtain ⟨u, g, lit, d, a, b⟩ := o
    cases lit <;> rfl
  | ctl op u o =>
    obtain ⟨u, off, d, a⟩ := o
    cases off <;> rfl

theorem add (n : Bool) (o : Alu) : Statement (.add n o) := holds _
theorem sub (n : Bool) (o : Alu) : Statement (.sub n o) := holds _
theorem mullo (n : Bool) (o : Alu) : Statement (.mullo n o) := holds _
theorem mulhi (n : Bool) (o : Alu) : Statement (.mulhi n o) := holds _
theorem mad (n : Bool) (o : Alu) : Statement (.mad n o) := holds _
theorem mulw (n : Bool) (o : Alu) : Statement (.mulw n o) := holds _
theorem madw (n : Bool) (o : Alu) : Statement (.madw n o) := holds _
theorem add64 (n : Bool) (o : Alu) : Statement (.add64 n o) := holds _
theorem sub64 (n : Bool) (o : Alu) : Statement (.sub64 n o) := holds _
theorem min (n : Bool) (o : Alu) : Statement (.min n o) := holds _
theorem max (n : Bool) (o : Alu) : Statement (.max n o) := holds _
theorem sad (n : Bool) (o : Alu) : Statement (.sad n o) := holds _
theorem dp4i8 (n : Bool) (o : Alu) : Statement (.dp4i8 n o) := holds _
theorem dp2i16 (n : Bool) (o : Alu) : Statement (.dp2i16 n o) := holds _
theorem setc (n : Bool) (o : Alu) : Statement (.setc n o) := holds _
theorem bfx (n : Bool) (o : Alu) : Statement (.bfx n o) := holds _
theorem neg (o : Alu) : Statement (.neg o) := holds _
theorem abs (o : Alu) : Statement (.abs o) := holds _
theorem and (o : Alu) : Statement (.and o) := holds _
theorem or (o : Alu) : Statement (.or o) := holds _
theorem xor (o : Alu) : Statement (.xor o) := holds _
theorem andn (o : Alu) : Statement (.andn o) := holds _
theorem orn (o : Alu) : Statement (.orn o) := holds _
theorem not (o : Alu) : Statement (.not o) := holds _
theorem tlog (o : Alu) : Statement (.tlog o) := holds _
theorem shl (o : Alu) : Statement (.shl o) := holds _
theorem shr (o : Alu) : Statement (.shr o) := holds _
theorem sar (o : Alu) : Statement (.sar o) := holds _
theorem rol (o : Alu) : Statement (.rol o) := holds _
theorem shf (o : Alu) : Statement (.shf o) := holds _
theorem bfi (o : Alu) : Statement (.bfi o) := holds _
theorem popc (o : Alu) : Statement (.popc o) := holds _
theorem clz (o : Alu) : Statement (.clz o) := holds _
theorem ctz (o : Alu) : Statement (.ctz o) := holds _
theorem brev (o : Alu) : Statement (.brev o) := holds _
theorem perm (o : Alu) : Statement (.perm o) := holds _
theorem sel (o : Alu) : Statement (.sel o) := holds _
theorem mov (o : Alu) : Statement (.mov o) := holds _
theorem movh (o : Alu) : Statement (.movh o) := holds _
theorem lea (o : Alu) : Statement (.lea o) := holds _
theorem fadd (o : Alu) : Statement (.fadd o) := holds _
theorem fsub (o : Alu) : Statement (.fsub o) := holds _
theorem fmul (o : Alu) : Statement (.fmul o) := holds _
theorem ffma (o : Alu) : Statement (.ffma o) := holds _
theorem fmin (o : Alu) : Statement (.fmin o) := holds _
theorem fmax (o : Alu) : Statement (.fmax o) := holds _
theorem fminn (o : Alu) : Statement (.fminn o) := holds _
theorem fmaxn (o : Alu) : Statement (.fmaxn o) := holds _
theorem fsetc (o : Alu) : Statement (.fsetc o) := holds _
theorem frnd (o : Alu) : Statement (.frnd o) := holds _
theorem fclass (o : Alu) : Statement (.fclass o) := holds _
theorem fscale (o : Alu) : Statement (.fscale o) := holds _
theorem fcpys (o : Alu) : Statement (.fcpys o) := holds _
theorem vaddh (o : Alu) : Statement (.vaddh o) := holds _
theorem vmulh (o : Alu) : Statement (.vmulh o) := holds _
theorem vfmah (o : Alu) : Statement (.vfmah o) := holds _
theorem vaddb (o : Alu) : Statement (.vaddb o) := holds _
theorem vmulb (o : Alu) : Statement (.vmulb o) := holds _
theorem vfmab (o : Alu) : Statement (.vfmab o) := holds _
theorem dot2b (o : Alu) : Statement (.dot2b o) := holds _
theorem dot4e (x y : Bool) (o : Alu) : Statement (.dot4e x y o) := holds _
theorem pack (f : Fmt) (o : Alu) : Statement (.pack f o) := holds _
theorem unpk (f : Fmt) (o : Alu) : Statement (.unpk f o) := holds _
theorem cvt (s t : Fmt) (o : Alu) : Statement (.cvt s t o) := holds _
theorem f2i (s : Fmt) (i : IType) (o : Alu) : Statement (.f2i s i o) := holds _
theorem i2f (t : Fmt) (i : IType) (o : Alu) : Statement (.i2f t i o) := holds _
theorem rcp (o : Alu) : Statement (.rcp o) := holds _
theorem rsq (o : Alu) : Statement (.rsq o) := holds _
theorem sqrt (o : Alu) : Statement (.sqrt o) := holds _
theorem ex2 (o : Alu) : Statement (.ex2 o) := holds _
theorem lg2 (o : Alu) : Statement (.lg2 o) := holds _
theorem sin (o : Alu) : Statement (.sin o) := holds _
theorem cos (o : Alu) : Statement (.cos o) := holds _
theorem tanh (o : Alu) : Statement (.tanh o) := holds _
theorem div (o : Alu) : Statement (.div o) := holds _
theorem idiv (wide n : Bool) (o : Alu) : Statement (.idiv wide n o) := holds _
theorem irem (wide n : Bool) (o : Alu) : Statement (.irem wide n o) := holds _
theorem ld (o : MemOp) : Statement (.ld o) := holds _
theorem st (o : MemOp) : Statement (.st o) := holds _
theorem lds (o : MemOp) : Statement (.lds o) := holds _
theorem sts (o : MemOp) : Statement (.sts o) := holds _
theorem ldacq (o : MemOp) : Statement (.ldacq o) := holds _
theorem strel (o : MemOp) : Statement (.strel o) := holds _
theorem atom (o : MemOp) : Statement (.atom o) := holds _
theorem cas (o : MemOp) : Statement (.cas o) := holds _
theorem cas128 (o : MemOp) : Statement (.cas128 o) := holds _
theorem red (o : MemOp) : Statement (.red o) := holds _
theorem redc (o : MemOp) : Statement (.redc o) := holds _
theorem pref (o : MemOp) : Statement (.pref o) := holds _
theorem fence (o : MemOp) : Statement (.fence o) := holds _
theorem cwb (o : MemOp) : Statement (.cwb o) := holds _
theorem cinv (o : MemOp) : Statement (.cinv o) := holds _
theorem maps (o : MemOp) : Statement (.maps o) := holds _
theorem unmaps (o : MemOp) : Statement (.unmaps o) := holds _
theorem wbs (o : MemOp) : Statement (.wbs o) := holds _
theorem ldh (o : MemOp) : Statement (.ldh o) := holds _
theorem sth (o : MemOp) : Statement (.sth o) := holds _
theorem copy (o : EngOp) : Statement (.copy o) := holds _
theorem scld (o : EngOp) : Statement (.scld o) := holds _
theorem mma (o : EngOp) : Statement (.mma o) := holds _
theorem accwin (o : EngOp) : Statement (.accwin o) := holds _
theorem accz (o : EngOp) : Statement (.accz o) := holds _
theorem accld (o : EngOp) : Statement (.accld o) := holds _
theorem accst (o : EngOp) : Statement (.accst o) := holds _
theorem accrd (o : EngOp) : Statement (.accrd o) := holds _
theorem accwr (o : EngOp) : Statement (.accwr o) := holds _
theorem ftest (o : EngOp) : Statement (.ftest o) := holds _
theorem fcancel (o : EngOp) : Statement (.fcancel o) := holds _
theorem fwait (o : EngOp) : Statement (.fwait o) := holds _
theorem tbinit (o : EngOp) : Statement (.tbinit o) := holds _
theorem tbinitRearm (o : EngOp) : Statement (.tbinitRearm o) := holds _
theorem tbarv (o : EngOp) : Statement (.tbarv o) := holds _
theorem tbexp (o : EngOp) : Statement (.tbexp o) := holds _
theorem tbwait (o : EngOp) : Statement (.tbwait o) := holds _
theorem stgwait (o : EngOp) : Statement (.stgwait o) := holds _
theorem cont (o : EngOp) : Statement (.cont o) := holds _
theorem bararv (o : EngOp) : Statement (.bararv o) := holds _
theorem barsync (o : EngOp) : Statement (.barsync o) := holds _
theorem rdv (o : EngOp) : Statement (.rdv o) := holds _
theorem rdvx (o : EngOp) : Statement (.rdvx o) := holds _
theorem rdvv (o : EngOp) : Statement (.rdvv o) := holds _
theorem rdvs (o : EngOp) : Statement (.rdvs o) := holds _
theorem waita (o : EngOp) : Statement (.waita o) := holds _
theorem launch (o : EngOp) : Statement (.launch o) := holds _
theorem resort (o : EngOp) : Statement (.resort o) := holds _
theorem idemx (o : EngOp) : Statement (.idemx o) := holds _
theorem srd (o : EngOp) : Statement (.srd o) := holds _
theorem swr (o : EngOp) : Statement (.swr o) := holds _
theorem trap (o : EngOp) : Statement (.trap o) := holds _
theorem tret (o : EngOp) : Statement (.tret o) := holds _
theorem brk (o : EngOp) : Statement (.brk o) := holds _
theorem nop (o : EngOp) : Statement (.nop o) := holds _
theorem sleep (o : EngOp) : Statement (.sleep o) := holds _
theorem chsel (o : EngOp) : Statement (.chsel o) := holds _
theorem probe (o : EngOp) : Statement (.probe o) := holds _
theorem dbgmark (o : EngOp) : Statement (.dbgmark o) := holds _
theorem bra (o : CtlOp) : Statement (.bra o) := holds _
theorem bz (o : CtlOp) : Statement (.bz o) := holds _
theorem bnz (o : CtlOp) : Statement (.bnz o) := holds _
theorem bltz (o : CtlOp) : Statement (.bltz o) := holds _
theorem bgez (o : CtlOp) : Statement (.bgez o) := holds _
theorem brx (o : CtlOp) : Statement (.brx o) := holds _
theorem call (o : CtlOp) : Statement (.call o) := holds _
theorem callx (o : CtlOp) : Statement (.callx o) := holds _
theorem ret (o : CtlOp) : Statement (.ret o) := holds _
theorem exit (o : CtlOp) : Statement (.exit o) := holds _
theorem runStart (p : BitVec 11) (q : BitVec 2) : Statement (.runStart p q) := holds _
theorem loadComplete (r : Nat) : Statement (.loadComplete r) := holds _
theorem storeComplete (r : Nat) : Statement (.storeComplete r) := holds _
theorem atomicComplete (r : Nat) : Statement (.atomicComplete r) := holds _
theorem redcCombined (r : Nat) : Statement (.redcCombined r) := holds _
theorem cacheOpComplete (r : Nat) : Statement (.cacheOpComplete r) := holds _
theorem mapBound (r : Nat) : Statement (.mapBound r) := holds _
theorem mapLineFill (k : Nat) (line : Nat) : Statement (.mapLineFill k line) := holds _
theorem mapWritebackDone (r : Nat) : Statement (.mapWritebackDone r) := holds _
theorem releasePrereqMet (k tid : Nat) : Statement (.releasePrereqMet k tid) := holds _
theorem acquireCheckComplete (k tid : Nat) : Statement (.acquireCheckComplete k tid) := holds _
theorem saigaPiece (c : Nat) (i : Nat) : Statement (.saigaPiece c i) := holds _
theorem scoutProbe (c : Nat) : Statement (.scoutProbe c) := holds _
theorem copyCancelStop (c : Nat) : Statement (.copyCancelStop c) := holds _
theorem copyComplete (c : Nat) : Statement (.copyComplete c) := holds _
theorem continuationSpawn (k : Nat) : Statement (.continuationSpawn k) := holds _
theorem passStart (quad : BitVec 9) : Statement (.passStart quad) := holds _
theorem passRetire (quad : BitVec 9) : Statement (.passRetire quad) := holds _
theorem accumOpComplete (r : Nat) : Statement (.accumOpComplete r) := holds _
theorem waitaTimeout (k tid : Nat) : Statement (.waitaTimeout k tid) := holds _
theorem sleepExpire (k tid : Nat) : Statement (.sleepExpire k tid) := holds _
theorem invalidateVaRange (v : Word) : Statement (.invalidateVaRange v) := holds _
theorem invalidateAsid (v : Word) : Statement (.invalidateAsid v) := holds _
theorem invalidateAll (v : Word) : Statement (.invalidateAll v) := holds _
theorem remoteLineDrop : Statement (.remoteLineDrop) := holds _
theorem invalidationDone : Statement (.invalidationDone) := holds _
theorem pageWalkComplete (k : Nat) (va : DWord) : Statement (.pageWalkComplete k va) := holds _
theorem faultRecordWrite : Statement (.faultRecordWrite) := holds _
theorem fqdoorWrite (v : Word) : Statement (.fqdoorWrite v) := holds _
theorem fqcfgWrite (v : Word) : Statement (.fqcfgWrite v) := holds _
theorem freplyRetry (fid : BitVec 24) : Statement (.freplyRetry fid) := holds _
theorem freplyFail (fid : BitVec 24) (disp : BitVec 8) : Statement (.freplyFail fid disp) := holds _
theorem faultWatchdog (fid : BitVec 24) : Statement (.faultWatchdog fid) := holds _
theorem sideLogReplay (e : Nat) : Statement (.sideLogReplay e) := holds _
theorem tpartWrite (t : TowerId) (v : Word) : Statement (.tpartWrite t v) := holds _
theorem predRecordPoll (l : Nat) : Statement (.predRecordPoll l) := holds _
theorem unitEnterPlacement (l u : Nat) : Statement (.unitEnterPlacement l u) := holds _
theorem placewaitExpire (l u : Nat) : Statement (.placewaitExpire l u) := holds _
theorem teamPlace (l u : Nat) : Statement (.teamPlace l u) := holds _
theorem teamRestore (k : Nat) : Statement (.teamRestore k) := holds _
theorem preemptPriority (l u : Nat) : Statement (.preemptPriority l u) := holds _
theorem timeSliceExpire (l u : Nat) : Statement (.timeSliceExpire l u) := holds _
theorem teamSaveComplete (k : Nat) : Statement (.teamSaveComplete k) := holds _
theorem teamComplete (k : Nat) : Statement (.teamComplete k) := holds _
theorem moduleReset : Statement (.moduleReset) := holds _
theorem registerWrite (pa : BitVec 52) (v : Word) : Statement (.registerWrite pa v) := holds _
theorem roleCmdGo (t : TowerId) (v : Word) : Statement (.roleCmdGo t v) := holds _
theorem roleDrainDone (t : TowerId) : Statement (.roleDrainDone t) := holds _
theorem roleFlushDone (t : TowerId) : Statement (.roleFlushDone t) := holds _
theorem roleReenumerate (t : TowerId) : Statement (.roleReenumerate t) := holds _
theorem tahrEvaluate (t : TowerId) (td tj : Nat) : Statement (.tahrEvaluate t td tj) := holds _
theorem tahrApply (t : TowerId) : Statement (.tahrApply t) := holds _
theorem thcntTick (t : TowerId) : Statement (.thcntTick t) := holds _
theorem chashWrite (t : TowerId) (v : Word) : Statement (.chashWrite t v) := holds _
theorem memctlQuiesceSet (t : TowerId) : Statement (.memctlQuiesceSet t) := holds _
theorem quiesceComplete (t : TowerId) : Statement (.quiesceComplete t) := holds _
theorem memctlQuiesceClear (t : TowerId) : Statement (.memctlQuiesceClear t) := holds _
theorem dramZeroingDone (t : TowerId) : Statement (.dramZeroingDone t) := holds _
theorem rowRefresh (t : TowerId) (bank : BitVec 10) (row : Nat) : Statement (.rowRefresh t bank row) := holds _
theorem refreshRetryReissue (r : Nat) : Statement (.refreshRetryReissue r) := holds _
theorem patrolScrub (t : TowerId) (bank : BitVec 10) (row : Nat) (found : Scrub) : Statement (.patrolScrub t bank row found) := holds _
theorem remapMissFill (t : TowerId) (bank : BitVec 10) (row : Nat) (aOk bOk : Bool) : Statement (.remapMissFill t bank row aOk bOk) := holds _
theorem tsvDriftDetect (t : TowerId) (i : Fin 5) : Statement (.tsvDriftDetect t i) := holds _
theorem tsvRealignStart (t : TowerId) (i : Fin 5) : Statement (.tsvRealignStart t i) := holds _
theorem tsvRealignEnd (t : TowerId) (i : Fin 5) : Statement (.tsvRealignEnd t i) := holds _
theorem msecctlLock : Statement (.msecctlLock) := holds _
theorem msecctlUnlock : Statement (.msecctlUnlock) := holds _
theorem unlockWritebackDone : Statement (.unlockWritebackDone) := holds _
theorem keypolWrite (i : BitVec 6) (v : Word) : Statement (.keypolWrite i v) := holds _
theorem hostCxlMemRead (off : BitVec 40) (n : Nat) : Statement (.hostCxlMemRead off n) := holds _
theorem hostCxlMemWrite (off : BitVec 40) (d : List Byte) : Statement (.hostCxlMemWrite off d) := holds _
theorem hqctlWrite (v : Word) : Statement (.hqctlWrite v) := holds _
theorem hqcmdEnable (q : BitVec 14) : Statement (.hqcmdEnable q) := holds _
theorem hqcmdDisable (q : BitVec 14) : Statement (.hqcmdDisable q) := holds _
theorem hqcmdReset (q : BitVec 14) : Statement (.hqcmdReset q) := holds _
theorem queueDisableComplete (q : BitVec 14) : Statement (.queueDisableComplete q) := holds _
theorem wqDoorbell (q : BitVec 14) (v : Word) : Statement (.wqDoorbell q v) := holds _
theorem queueArbitrationSlot : Statement (.queueArbitrationSlot) := holds _
theorem queueEntryFetch (q : BitVec 14) (n : Nat) : Statement (.queueEntryFetch q n) := holds _
theorem nopEntry (q : BitVec 14) (e : Nat) : Statement (.nopEntry q e) := holds _
theorem launchEntry (q : BitVec 14) (e : Nat) : Statement (.launchEntry q e) := holds _
theorem flushEntry (q : BitVec 14) (e : Nat) : Statement (.flushEntry q e) := holds _
theorem flushComplete (q : BitVec 14) (e : Nat) : Statement (.flushComplete q e) := holds _
theorem biasEntry (q : BitVec 14) (e : Nat) : Statement (.biasEntry q e) := holds _
theorem biasPageFlip (q : BitVec 14) (e : Nat) : Statement (.biasPageFlip q e) := holds _
theorem waitEntry (q : BitVec 14) (e : Nat) : Statement (.waitEntry q e) := holds _
theorem waitPoll (q : BitVec 14) (e : Nat) : Statement (.waitPoll q e) := holds _
theorem signalEntry (q : BitVec 14) (e : Nat) : Statement (.signalEntry q e) := holds _
theorem signalStoreDone (q : BitVec 14) (e : Nat) : Statement (.signalStoreDone q e) := holds _
theorem eventRecordWrite (e : BitVec 10) : Statement (.eventRecordWrite e) := holds _
theorem eventDoorbell (e : BitVec 10) (v : Word) : Statement (.eventDoorbell e v) := holds _
theorem eventInterruptTimer (e : BitVec 10) : Statement (.eventInterruptTimer e) := holds _
theorem eventContextPoll (e : BitVec 10) : Statement (.eventContextPoll e) := holds _
theorem hpincfgWrite (v : Word) : Statement (.hpincfgWrite v) := holds _
theorem hostCompletionTimeout (r : Nat) : Statement (.hostCompletionTimeout r) := holds _
theorem doeDiscovery (i : Nat) : Statement (.doeDiscovery i) := holds _
theorem spdmNegotiateAlgorithms (mldsa sha3 : Bool) : Statement (.spdmNegotiateAlgorithms mldsa sha3) := holds _
theorem spdmKeyExchange (sess : Nat) (mlkem aes : Bool) : Statement (.spdmKeyExchange sess mlkem aes) := holds _
theorem spdmMeasurements (signed : Bool) (digest : Digests) (log : Bool) : Statement (.spdmMeasurements signed digest log) := holds _
theorem keyLoad (sess : Nat) (msg : BitVec 544) : Statement (.keyLoad sess msg) := holds _
theorem keyClear (sess : Nat) (msg : BitVec 32) : Statement (.keyClear sess msg) := holds _
theorem keyInstallDone (id : BitVec 10) : Statement (.keyInstallDone id) := holds _
theorem spdmSessionEnd (sess : Nat) : Statement (.spdmSessionEnd sess) := holds _
theorem syncSlot (j : Nat) : Statement (.syncSlot j) := holds _
theorem fabEmptyCell (c : Cell) : Statement (.fabEmptyCell c) := holds _
theorem fabLoadCell (c : Cell) : Statement (.fabLoadCell c) := holds _
theorem fabAcquireLoadCell (c : Cell) : Statement (.fabAcquireLoadCell c) := holds _
theorem fabStoreCell (c : Cell) : Statement (.fabStoreCell c) := holds _
theorem fabReleaseCell (c : Cell) : Statement (.fabReleaseCell c) := holds _
theorem fabReleaseApply (src : BitVec 12) : Statement (.fabReleaseApply src) := holds _
theorem fabOperationPacket (c : Cell) : Statement (.fabOperationPacket c) := holds _
theorem fabReplyCell (c : Cell) : Statement (.fabReplyCell c) := holds _
theorem fabShootdownCell (c : Cell) : Statement (.fabShootdownCell c) := holds _
theorem fabReservedCell (c : Cell) : Statement (.fabReservedCell c) := holds _
theorem bulkPacketArrive (b : Bulk) : Statement (.bulkPacketArrive b) := holds _
theorem fabRequestResume (src : BitVec 12) : Statement (.fabRequestResume src) := holds _
theorem fabEpochLock (flat : BitVec 16) : Statement (.fabEpochLock flat) := holds _
theorem fabLinkDown (p : BitVec 6) : Statement (.fabLinkDown p) := holds _
theorem fabcfgWrite (v : Word) : Statement (.fabcfgWrite v) := holds _
theorem fardecWrite (n : Fin 4) (v : Word) : Statement (.fardecWrite n v) := holds _
theorem farTierTimeout (r : Nat) : Statement (.farTierTimeout r) := holds _
theorem farTierLinkDown (p : Fin 4) : Statement (.farTierLinkDown p) := holds _
theorem hostSnoop (line : Nat) (drop : Bool) : Statement (.hostSnoop line drop) := holds _
theorem fabEpochLoss : Statement (.fabEpochLoss) := holds _

end Sys2Proof.Laws.EncodeLength
end

