-- ==== Sys2Proof/Laws/State.lean ====
section
/-!
SUPPORT. What the updates of the state leave unchanged, field by field, so that no later proof unfolds a record update.
-/
namespace Sys2Proof.Machine

/-! ### modTeam changes teams alone -/

@[simp] theorem State.modTeam_now (s : State) (k : Nat) (g : Team → Team) : (s.modTeam k g).now = s.now := rfl
@[simp] theorem State.modTeam_agenda (s : State) (k : Nat) (g : Team → Team) : (s.modTeam k g).agenda = s.agenda := rfl
@[simp] theorem State.modTeam_kept (s : State) (k : Nat) (g : Team → Team) : (s.modTeam k g).kept = s.kept := rfl
@[simp] theorem State.modTeam_free (s : State) (k : Nat) (g : Team → Team) : (s.modTeam k g).free = s.free := rfl
@[simp] theorem State.modTeam_nextKey (s : State) (k : Nat) (g : Team → Team) : (s.modTeam k g).nextKey = s.nextKey := rfl
@[simp] theorem State.modTeam_irq (s : State) (k : Nat) (g : Team → Team) : (s.modTeam k g).irq = s.irq := rfl
@[simp] theorem State.modTeam_hostOut (s : State) (k : Nat) (g : Team → Team) : (s.modTeam k g).hostOut = s.hostOut := rfl
@[simp] theorem State.modTeam_trace (s : State) (k : Nat) (g : Team → Team) : (s.modTeam k g).trace = s.trace := rfl
@[simp] theorem State.modTeam_mem (s : State) (k : Nat) (g : Team → Team) : (s.modTeam k g).mem = s.mem := rfl
@[simp] theorem State.modTeam_towers (s : State) (k : Nat) (g : Team → Team) : (s.modTeam k g).towers = s.towers := rfl
@[simp] theorem State.modTeam_hub (s : State) (k : Nat) (g : Team → Team) : (s.modTeam k g).hub = s.hub := rfl
@[simp] theorem State.modTeam_fab (s : State) (k : Nat) (g : Team → Team) : (s.modTeam k g).fab = s.fab := rfl
@[simp] theorem State.modTeam_wqs (s : State) (k : Nat) (g : Team → Team) : (s.modTeam k g).wqs = s.wqs := rfl
@[simp] theorem State.modTeam_rr (s : State) (k : Nat) (g : Team → Team) : (s.modTeam k g).rr = s.rr := rfl
@[simp] theorem State.modTeam_lastSlot (s : State) (k : Nat) (g : Team → Team) : (s.modTeam k g).lastSlot = s.lastSlot := rfl
@[simp] theorem State.modTeam_eqs (s : State) (k : Nat) (g : Team → Team) : (s.modTeam k g).eqs = s.eqs := rfl
@[simp] theorem State.modTeam_launches (s : State) (k : Nat) (g : Team → Team) : (s.modTeam k g).launches = s.launches := rfl
@[simp] theorem State.modTeam_nextGrid (s : State) (k : Nat) (g : Team → Team) : (s.modTeam k g).nextGrid = s.nextGrid := rfl
theorem State.modTeam_teams (s : State) (k : Nat) (g : Team → Team) : (s.modTeam k g).teams = (s.teams.map fun t => if t.key == k then g t else t) := rfl
@[simp] theorem State.modTeam_runs (s : State) (k : Nat) (g : Team → Team) : (s.modTeam k g).runs = s.runs := rfl
@[simp] theorem State.modTeam_cur (s : State) (k : Nat) (g : Team → Team) : (s.modTeam k g).cur = s.cur := rfl
@[simp] theorem State.modTeam_reqs (s : State) (k : Nat) (g : Team → Team) : (s.modTeam k g).reqs = s.reqs := rfl
@[simp] theorem State.modTeam_sideLog (s : State) (k : Nat) (g : Team → Team) : (s.modTeam k g).sideLog = s.sideLog := rfl
@[simp] theorem State.modTeam_faults (s : State) (k : Nat) (g : Team → Team) : (s.modTeam k g).faults = s.faults := rfl
@[simp] theorem State.modTeam_nextFid (s : State) (k : Nat) (g : Team → Team) : (s.modTeam k g).nextFid = s.nextFid := rfl
@[simp] theorem State.modTeam_copies (s : State) (k : Nat) (g : Team → Team) : (s.modTeam k g).copies = s.copies := rfl
@[simp] theorem State.modTeam_acc (s : State) (k : Nat) (g : Team → Team) : (s.modTeam k g).acc = s.acc := rfl
@[simp] theorem State.modTeam_scale (s : State) (k : Nat) (g : Team → Team) : (s.modTeam k g).scale = s.scale := rfl
@[simp] theorem State.modTeam_streams (s : State) (k : Nat) (g : Team → Team) : (s.modTeam k g).streams = s.streams := rfl
@[simp] theorem State.modTeam_mmas (s : State) (k : Nat) (g : Team → Team) : (s.modTeam k g).mmas = s.mmas := rfl
@[simp] theorem State.modTeam_passes (s : State) (k : Nat) (g : Team → Team) : (s.modTeam k g).passes = s.passes := rfl
@[simp] theorem State.modTeam_passWin (s : State) (k : Nat) (g : Team → Team) : (s.modTeam k g).passWin = s.passWin := rfl
@[simp] theorem State.modTeam_soft (s : State) (k : Nat) (g : Team → Team) : (s.modTeam k g).soft = s.soft := rfl
@[simp] theorem State.modTeam_saigaLast (s : State) (k : Nat) (g : Team → Team) : (s.modTeam k g).saigaLast = s.saigaLast := rfl

/-! ### modLaunch changes launches alone -/

@[simp] theorem State.modLaunch_now (s : State) (k : Nat) (g : Launch → Launch) : (s.modLaunch k g).now = s.now := rfl
@[simp] theorem State.modLaunch_agenda (s : State) (k : Nat) (g : Launch → Launch) : (s.modLaunch k g).agenda = s.agenda := rfl
@[simp] theorem State.modLaunch_kept (s : State) (k : Nat) (g : Launch → Launch) : (s.modLaunch k g).kept = s.kept := rfl
@[simp] theorem State.modLaunch_free (s : State) (k : Nat) (g : Launch → Launch) : (s.modLaunch k g).free = s.free := rfl
@[simp] theorem State.modLaunch_nextKey (s : State) (k : Nat) (g : Launch → Launch) : (s.modLaunch k g).nextKey = s.nextKey := rfl
@[simp] theorem State.modLaunch_irq (s : State) (k : Nat) (g : Launch → Launch) : (s.modLaunch k g).irq = s.irq := rfl
@[simp] theorem State.modLaunch_hostOut (s : State) (k : Nat) (g : Launch → Launch) : (s.modLaunch k g).hostOut = s.hostOut := rfl
@[simp] theorem State.modLaunch_trace (s : State) (k : Nat) (g : Launch → Launch) : (s.modLaunch k g).trace = s.trace := rfl
@[simp] theorem State.modLaunch_mem (s : State) (k : Nat) (g : Launch → Launch) : (s.modLaunch k g).mem = s.mem := rfl
@[simp] theorem State.modLaunch_towers (s : State) (k : Nat) (g : Launch → Launch) : (s.modLaunch k g).towers = s.towers := rfl
@[simp] theorem State.modLaunch_hub (s : State) (k : Nat) (g : Launch → Launch) : (s.modLaunch k g).hub = s.hub := rfl
@[simp] theorem State.modLaunch_fab (s : State) (k : Nat) (g : Launch → Launch) : (s.modLaunch k g).fab = s.fab := rfl
@[simp] theorem State.modLaunch_wqs (s : State) (k : Nat) (g : Launch → Launch) : (s.modLaunch k g).wqs = s.wqs := rfl
@[simp] theorem State.modLaunch_rr (s : State) (k : Nat) (g : Launch → Launch) : (s.modLaunch k g).rr = s.rr := rfl
@[simp] theorem State.modLaunch_lastSlot (s : State) (k : Nat) (g : Launch → Launch) : (s.modLaunch k g).lastSlot = s.lastSlot := rfl
@[simp] theorem State.modLaunch_eqs (s : State) (k : Nat) (g : Launch → Launch) : (s.modLaunch k g).eqs = s.eqs := rfl
theorem State.modLaunch_launches (s : State) (k : Nat) (g : Launch → Launch) : (s.modLaunch k g).launches = (s.launches.map fun l => if l.key == k then g l else l) := rfl
@[simp] theorem State.modLaunch_nextGrid (s : State) (k : Nat) (g : Launch → Launch) : (s.modLaunch k g).nextGrid = s.nextGrid := rfl
@[simp] theorem State.modLaunch_teams (s : State) (k : Nat) (g : Launch → Launch) : (s.modLaunch k g).teams = s.teams := rfl
@[simp] theorem State.modLaunch_runs (s : State) (k : Nat) (g : Launch → Launch) : (s.modLaunch k g).runs = s.runs := rfl
@[simp] theorem State.modLaunch_cur (s : State) (k : Nat) (g : Launch → Launch) : (s.modLaunch k g).cur = s.cur := rfl
@[simp] theorem State.modLaunch_reqs (s : State) (k : Nat) (g : Launch → Launch) : (s.modLaunch k g).reqs = s.reqs := rfl
@[simp] theorem State.modLaunch_sideLog (s : State) (k : Nat) (g : Launch → Launch) : (s.modLaunch k g).sideLog = s.sideLog := rfl
@[simp] theorem State.modLaunch_faults (s : State) (k : Nat) (g : Launch → Launch) : (s.modLaunch k g).faults = s.faults := rfl
@[simp] theorem State.modLaunch_nextFid (s : State) (k : Nat) (g : Launch → Launch) : (s.modLaunch k g).nextFid = s.nextFid := rfl
@[simp] theorem State.modLaunch_copies (s : State) (k : Nat) (g : Launch → Launch) : (s.modLaunch k g).copies = s.copies := rfl
@[simp] theorem State.modLaunch_acc (s : State) (k : Nat) (g : Launch → Launch) : (s.modLaunch k g).acc = s.acc := rfl
@[simp] theorem State.modLaunch_scale (s : State) (k : Nat) (g : Launch → Launch) : (s.modLaunch k g).scale = s.scale := rfl
@[simp] theorem State.modLaunch_streams (s : State) (k : Nat) (g : Launch → Launch) : (s.modLaunch k g).streams = s.streams := rfl
@[simp] theorem State.modLaunch_mmas (s : State) (k : Nat) (g : Launch → Launch) : (s.modLaunch k g).mmas = s.mmas := rfl
@[simp] theorem State.modLaunch_passes (s : State) (k : Nat) (g : Launch → Launch) : (s.modLaunch k g).passes = s.passes := rfl
@[simp] theorem State.modLaunch_passWin (s : State) (k : Nat) (g : Launch → Launch) : (s.modLaunch k g).passWin = s.passWin := rfl
@[simp] theorem State.modLaunch_soft (s : State) (k : Nat) (g : Launch → Launch) : (s.modLaunch k g).soft = s.soft := rfl
@[simp] theorem State.modLaunch_saigaLast (s : State) (k : Nat) (g : Launch → Launch) : (s.modLaunch k g).saigaLast = s.saigaLast := rfl

/-! ### modCopy changes copies alone -/

@[simp] theorem State.modCopy_now (s : State) (c : Nat) (g : Copy → Copy) : (s.modCopy c g).now = s.now := rfl
@[simp] theorem State.modCopy_agenda (s : State) (c : Nat) (g : Copy → Copy) : (s.modCopy c g).agenda = s.agenda := rfl
@[simp] theorem State.modCopy_kept (s : State) (c : Nat) (g : Copy → Copy) : (s.modCopy c g).kept = s.kept := rfl
@[simp] theorem State.modCopy_free (s : State) (c : Nat) (g : Copy → Copy) : (s.modCopy c g).free = s.free := rfl
@[simp] theorem State.modCopy_nextKey (s : State) (c : Nat) (g : Copy → Copy) : (s.modCopy c g).nextKey = s.nextKey := rfl
@[simp] theorem State.modCopy_irq (s : State) (c : Nat) (g : Copy → Copy) : (s.modCopy c g).irq = s.irq := rfl
@[simp] theorem State.modCopy_hostOut (s : State) (c : Nat) (g : Copy → Copy) : (s.modCopy c g).hostOut = s.hostOut := rfl
@[simp] theorem State.modCopy_trace (s : State) (c : Nat) (g : Copy → Copy) : (s.modCopy c g).trace = s.trace := rfl
@[simp] theorem State.modCopy_mem (s : State) (c : Nat) (g : Copy → Copy) : (s.modCopy c g).mem = s.mem := rfl
@[simp] theorem State.modCopy_towers (s : State) (c : Nat) (g : Copy → Copy) : (s.modCopy c g).towers = s.towers := rfl
@[simp] theorem State.modCopy_hub (s : State) (c : Nat) (g : Copy → Copy) : (s.modCopy c g).hub = s.hub := rfl
@[simp] theorem State.modCopy_fab (s : State) (c : Nat) (g : Copy → Copy) : (s.modCopy c g).fab = s.fab := rfl
@[simp] theorem State.modCopy_wqs (s : State) (c : Nat) (g : Copy → Copy) : (s.modCopy c g).wqs = s.wqs := rfl
@[simp] theorem State.modCopy_rr (s : State) (c : Nat) (g : Copy → Copy) : (s.modCopy c g).rr = s.rr := rfl
@[simp] theorem State.modCopy_lastSlot (s : State) (c : Nat) (g : Copy → Copy) : (s.modCopy c g).lastSlot = s.lastSlot := rfl
@[simp] theorem State.modCopy_eqs (s : State) (c : Nat) (g : Copy → Copy) : (s.modCopy c g).eqs = s.eqs := rfl
@[simp] theorem State.modCopy_launches (s : State) (c : Nat) (g : Copy → Copy) : (s.modCopy c g).launches = s.launches := rfl
@[simp] theorem State.modCopy_nextGrid (s : State) (c : Nat) (g : Copy → Copy) : (s.modCopy c g).nextGrid = s.nextGrid := rfl
@[simp] theorem State.modCopy_teams (s : State) (c : Nat) (g : Copy → Copy) : (s.modCopy c g).teams = s.teams := rfl
@[simp] theorem State.modCopy_runs (s : State) (c : Nat) (g : Copy → Copy) : (s.modCopy c g).runs = s.runs := rfl
@[simp] theorem State.modCopy_cur (s : State) (c : Nat) (g : Copy → Copy) : (s.modCopy c g).cur = s.cur := rfl
@[simp] theorem State.modCopy_reqs (s : State) (c : Nat) (g : Copy → Copy) : (s.modCopy c g).reqs = s.reqs := rfl
@[simp] theorem State.modCopy_sideLog (s : State) (c : Nat) (g : Copy → Copy) : (s.modCopy c g).sideLog = s.sideLog := rfl
@[simp] theorem State.modCopy_faults (s : State) (c : Nat) (g : Copy → Copy) : (s.modCopy c g).faults = s.faults := rfl
@[simp] theorem State.modCopy_nextFid (s : State) (c : Nat) (g : Copy → Copy) : (s.modCopy c g).nextFid = s.nextFid := rfl
theorem State.modCopy_copies (s : State) (c : Nat) (g : Copy → Copy) : (s.modCopy c g).copies = (s.copies.map fun q => if q.id == c then g q else q) := rfl
@[simp] theorem State.modCopy_acc (s : State) (c : Nat) (g : Copy → Copy) : (s.modCopy c g).acc = s.acc := rfl
@[simp] theorem State.modCopy_scale (s : State) (c : Nat) (g : Copy → Copy) : (s.modCopy c g).scale = s.scale := rfl
@[simp] theorem State.modCopy_streams (s : State) (c : Nat) (g : Copy → Copy) : (s.modCopy c g).streams = s.streams := rfl
@[simp] theorem State.modCopy_mmas (s : State) (c : Nat) (g : Copy → Copy) : (s.modCopy c g).mmas = s.mmas := rfl
@[simp] theorem State.modCopy_passes (s : State) (c : Nat) (g : Copy → Copy) : (s.modCopy c g).passes = s.passes := rfl
@[simp] theorem State.modCopy_passWin (s : State) (c : Nat) (g : Copy → Copy) : (s.modCopy c g).passWin = s.passWin := rfl
@[simp] theorem State.modCopy_soft (s : State) (c : Nat) (g : Copy → Copy) : (s.modCopy c g).soft = s.soft := rfl
@[simp] theorem State.modCopy_saigaLast (s : State) (c : Nat) (g : Copy → Copy) : (s.modCopy c g).saigaLast = s.saigaLast := rfl

/-! ### modMma changes mmas alone -/

@[simp] theorem State.modMma_now (s : State) (m : Nat) (g : Mma → Mma) : (s.modMma m g).now = s.now := rfl
@[simp] theorem State.modMma_agenda (s : State) (m : Nat) (g : Mma → Mma) : (s.modMma m g).agenda = s.agenda := rfl
@[simp] theorem State.modMma_kept (s : State) (m : Nat) (g : Mma → Mma) : (s.modMma m g).kept = s.kept := rfl
@[simp] theorem State.modMma_free (s : State) (m : Nat) (g : Mma → Mma) : (s.modMma m g).free = s.free := rfl
@[simp] theorem State.modMma_nextKey (s : State) (m : Nat) (g : Mma → Mma) : (s.modMma m g).nextKey = s.nextKey := rfl
@[simp] theorem State.modMma_irq (s : State) (m : Nat) (g : Mma → Mma) : (s.modMma m g).irq = s.irq := rfl
@[simp] theorem State.modMma_hostOut (s : State) (m : Nat) (g : Mma → Mma) : (s.modMma m g).hostOut = s.hostOut := rfl
@[simp] theorem State.modMma_trace (s : State) (m : Nat) (g : Mma → Mma) : (s.modMma m g).trace = s.trace := rfl
@[simp] theorem State.modMma_mem (s : State) (m : Nat) (g : Mma → Mma) : (s.modMma m g).mem = s.mem := rfl
@[simp] theorem State.modMma_towers (s : State) (m : Nat) (g : Mma → Mma) : (s.modMma m g).towers = s.towers := rfl
@[simp] theorem State.modMma_hub (s : State) (m : Nat) (g : Mma → Mma) : (s.modMma m g).hub = s.hub := rfl
@[simp] theorem State.modMma_fab (s : State) (m : Nat) (g : Mma → Mma) : (s.modMma m g).fab = s.fab := rfl
@[simp] theorem State.modMma_wqs (s : State) (m : Nat) (g : Mma → Mma) : (s.modMma m g).wqs = s.wqs := rfl
@[simp] theorem State.modMma_rr (s : State) (m : Nat) (g : Mma → Mma) : (s.modMma m g).rr = s.rr := rfl
@[simp] theorem State.modMma_lastSlot (s : State) (m : Nat) (g : Mma → Mma) : (s.modMma m g).lastSlot = s.lastSlot := rfl
@[simp] theorem State.modMma_eqs (s : State) (m : Nat) (g : Mma → Mma) : (s.modMma m g).eqs = s.eqs := rfl
@[simp] theorem State.modMma_launches (s : State) (m : Nat) (g : Mma → Mma) : (s.modMma m g).launches = s.launches := rfl
@[simp] theorem State.modMma_nextGrid (s : State) (m : Nat) (g : Mma → Mma) : (s.modMma m g).nextGrid = s.nextGrid := rfl
@[simp] theorem State.modMma_teams (s : State) (m : Nat) (g : Mma → Mma) : (s.modMma m g).teams = s.teams := rfl
@[simp] theorem State.modMma_runs (s : State) (m : Nat) (g : Mma → Mma) : (s.modMma m g).runs = s.runs := rfl
@[simp] theorem State.modMma_cur (s : State) (m : Nat) (g : Mma → Mma) : (s.modMma m g).cur = s.cur := rfl
@[simp] theorem State.modMma_reqs (s : State) (m : Nat) (g : Mma → Mma) : (s.modMma m g).reqs = s.reqs := rfl
@[simp] theorem State.modMma_sideLog (s : State) (m : Nat) (g : Mma → Mma) : (s.modMma m g).sideLog = s.sideLog := rfl
@[simp] theorem State.modMma_faults (s : State) (m : Nat) (g : Mma → Mma) : (s.modMma m g).faults = s.faults := rfl
@[simp] theorem State.modMma_nextFid (s : State) (m : Nat) (g : Mma → Mma) : (s.modMma m g).nextFid = s.nextFid := rfl
@[simp] theorem State.modMma_copies (s : State) (m : Nat) (g : Mma → Mma) : (s.modMma m g).copies = s.copies := rfl
@[simp] theorem State.modMma_acc (s : State) (m : Nat) (g : Mma → Mma) : (s.modMma m g).acc = s.acc := rfl
@[simp] theorem State.modMma_scale (s : State) (m : Nat) (g : Mma → Mma) : (s.modMma m g).scale = s.scale := rfl
@[simp] theorem State.modMma_streams (s : State) (m : Nat) (g : Mma → Mma) : (s.modMma m g).streams = s.streams := rfl
theorem State.modMma_mmas (s : State) (m : Nat) (g : Mma → Mma) : (s.modMma m g).mmas = (s.mmas.map fun q => if q.id == m then g q else q) := rfl
@[simp] theorem State.modMma_passes (s : State) (m : Nat) (g : Mma → Mma) : (s.modMma m g).passes = s.passes := rfl
@[simp] theorem State.modMma_passWin (s : State) (m : Nat) (g : Mma → Mma) : (s.modMma m g).passWin = s.passWin := rfl
@[simp] theorem State.modMma_soft (s : State) (m : Nat) (g : Mma → Mma) : (s.modMma m g).soft = s.soft := rfl
@[simp] theorem State.modMma_saigaLast (s : State) (m : Nat) (g : Mma → Mma) : (s.modMma m g).saigaLast = s.saigaLast := rfl

/-! ### modFault changes faults alone -/

@[simp] theorem State.modFault_now (s : State) (n : Nat) (g : FaultEntry → FaultEntry) : (s.modFault n g).now = s.now := rfl
@[simp] theorem State.modFault_agenda (s : State) (n : Nat) (g : FaultEntry → FaultEntry) : (s.modFault n g).agenda = s.agenda := rfl
@[simp] theorem State.modFault_kept (s : State) (n : Nat) (g : FaultEntry → FaultEntry) : (s.modFault n g).kept = s.kept := rfl
@[simp] theorem State.modFault_free (s : State) (n : Nat) (g : FaultEntry → FaultEntry) : (s.modFault n g).free = s.free := rfl
@[simp] theorem State.modFault_nextKey (s : State) (n : Nat) (g : FaultEntry → FaultEntry) : (s.modFault n g).nextKey = s.nextKey := rfl
@[simp] theorem State.modFault_irq (s : State) (n : Nat) (g : FaultEntry → FaultEntry) : (s.modFault n g).irq = s.irq := rfl
@[simp] theorem State.modFault_hostOut (s : State) (n : Nat) (g : FaultEntry → FaultEntry) : (s.modFault n g).hostOut = s.hostOut := rfl
@[simp] theorem State.modFault_trace (s : State) (n : Nat) (g : FaultEntry → FaultEntry) : (s.modFault n g).trace = s.trace := rfl
@[simp] theorem State.modFault_mem (s : State) (n : Nat) (g : FaultEntry → FaultEntry) : (s.modFault n g).mem = s.mem := rfl
@[simp] theorem State.modFault_towers (s : State) (n : Nat) (g : FaultEntry → FaultEntry) : (s.modFault n g).towers = s.towers := rfl
@[simp] theorem State.modFault_hub (s : State) (n : Nat) (g : FaultEntry → FaultEntry) : (s.modFault n g).hub = s.hub := rfl
@[simp] theorem State.modFault_fab (s : State) (n : Nat) (g : FaultEntry → FaultEntry) : (s.modFault n g).fab = s.fab := rfl
@[simp] theorem State.modFault_wqs (s : State) (n : Nat) (g : FaultEntry → FaultEntry) : (s.modFault n g).wqs = s.wqs := rfl
@[simp] theorem State.modFault_rr (s : State) (n : Nat) (g : FaultEntry → FaultEntry) : (s.modFault n g).rr = s.rr := rfl
@[simp] theorem State.modFault_lastSlot (s : State) (n : Nat) (g : FaultEntry → FaultEntry) : (s.modFault n g).lastSlot = s.lastSlot := rfl
@[simp] theorem State.modFault_eqs (s : State) (n : Nat) (g : FaultEntry → FaultEntry) : (s.modFault n g).eqs = s.eqs := rfl
@[simp] theorem State.modFault_launches (s : State) (n : Nat) (g : FaultEntry → FaultEntry) : (s.modFault n g).launches = s.launches := rfl
@[simp] theorem State.modFault_nextGrid (s : State) (n : Nat) (g : FaultEntry → FaultEntry) : (s.modFault n g).nextGrid = s.nextGrid := rfl
@[simp] theorem State.modFault_teams (s : State) (n : Nat) (g : FaultEntry → FaultEntry) : (s.modFault n g).teams = s.teams := rfl
@[simp] theorem State.modFault_runs (s : State) (n : Nat) (g : FaultEntry → FaultEntry) : (s.modFault n g).runs = s.runs := rfl
@[simp] theorem State.modFault_cur (s : State) (n : Nat) (g : FaultEntry → FaultEntry) : (s.modFault n g).cur = s.cur := rfl
@[simp] theorem State.modFault_reqs (s : State) (n : Nat) (g : FaultEntry → FaultEntry) : (s.modFault n g).reqs = s.reqs := rfl
@[simp] theorem State.modFault_sideLog (s : State) (n : Nat) (g : FaultEntry → FaultEntry) : (s.modFault n g).sideLog = s.sideLog := rfl
theorem State.modFault_faults (s : State) (n : Nat) (g : FaultEntry → FaultEntry) : (s.modFault n g).faults = (s.faults.map fun q => if q.fid == n then g q else q) := rfl
@[simp] theorem State.modFault_nextFid (s : State) (n : Nat) (g : FaultEntry → FaultEntry) : (s.modFault n g).nextFid = s.nextFid := rfl
@[simp] theorem State.modFault_copies (s : State) (n : Nat) (g : FaultEntry → FaultEntry) : (s.modFault n g).copies = s.copies := rfl
@[simp] theorem State.modFault_acc (s : State) (n : Nat) (g : FaultEntry → FaultEntry) : (s.modFault n g).acc = s.acc := rfl
@[simp] theorem State.modFault_scale (s : State) (n : Nat) (g : FaultEntry → FaultEntry) : (s.modFault n g).scale = s.scale := rfl
@[simp] theorem State.modFault_streams (s : State) (n : Nat) (g : FaultEntry → FaultEntry) : (s.modFault n g).streams = s.streams := rfl
@[simp] theorem State.modFault_mmas (s : State) (n : Nat) (g : FaultEntry → FaultEntry) : (s.modFault n g).mmas = s.mmas := rfl
@[simp] theorem State.modFault_passes (s : State) (n : Nat) (g : FaultEntry → FaultEntry) : (s.modFault n g).passes = s.passes := rfl
@[simp] theorem State.modFault_passWin (s : State) (n : Nat) (g : FaultEntry → FaultEntry) : (s.modFault n g).passWin = s.passWin := rfl
@[simp] theorem State.modFault_soft (s : State) (n : Nat) (g : FaultEntry → FaultEntry) : (s.modFault n g).soft = s.soft := rfl
@[simp] theorem State.modFault_saigaLast (s : State) (n : Nat) (g : FaultEntry → FaultEntry) : (s.modFault n g).saigaLast = s.saigaLast := rfl

/-! ### modQueue changes wqs alone -/

@[simp] theorem State.modQueue_now (s : State) (n : Nat) (g : Queue → Queue) : (s.modQueue n g).now = s.now := rfl
@[simp] theorem State.modQueue_agenda (s : State) (n : Nat) (g : Queue → Queue) : (s.modQueue n g).agenda = s.agenda := rfl
@[simp] theorem State.modQueue_kept (s : State) (n : Nat) (g : Queue → Queue) : (s.modQueue n g).kept = s.kept := rfl
@[simp] theorem State.modQueue_free (s : State) (n : Nat) (g : Queue → Queue) : (s.modQueue n g).free = s.free := rfl
@[simp] theorem State.modQueue_nextKey (s : State) (n : Nat) (g : Queue → Queue) : (s.modQueue n g).nextKey = s.nextKey := rfl
@[simp] theorem State.modQueue_irq (s : State) (n : Nat) (g : Queue → Queue) : (s.modQueue n g).irq = s.irq := rfl
@[simp] theorem State.modQueue_hostOut (s : State) (n : Nat) (g : Queue → Queue) : (s.modQueue n g).hostOut = s.hostOut := rfl
@[simp] theorem State.modQueue_trace (s : State) (n : Nat) (g : Queue → Queue) : (s.modQueue n g).trace = s.trace := rfl
@[simp] theorem State.modQueue_mem (s : State) (n : Nat) (g : Queue → Queue) : (s.modQueue n g).mem = s.mem := rfl
@[simp] theorem State.modQueue_towers (s : State) (n : Nat) (g : Queue → Queue) : (s.modQueue n g).towers = s.towers := rfl
@[simp] theorem State.modQueue_hub (s : State) (n : Nat) (g : Queue → Queue) : (s.modQueue n g).hub = s.hub := rfl
@[simp] theorem State.modQueue_fab (s : State) (n : Nat) (g : Queue → Queue) : (s.modQueue n g).fab = s.fab := rfl
theorem State.modQueue_wqs (s : State) (n : Nat) (g : Queue → Queue) : (s.modQueue n g).wqs = (s.wqs.map fun q => if q.num == n then g q else q) := rfl
@[simp] theorem State.modQueue_rr (s : State) (n : Nat) (g : Queue → Queue) : (s.modQueue n g).rr = s.rr := rfl
@[simp] theorem State.modQueue_lastSlot (s : State) (n : Nat) (g : Queue → Queue) : (s.modQueue n g).lastSlot = s.lastSlot := rfl
@[simp] theorem State.modQueue_eqs (s : State) (n : Nat) (g : Queue → Queue) : (s.modQueue n g).eqs = s.eqs := rfl
@[simp] theorem State.modQueue_launches (s : State) (n : Nat) (g : Queue → Queue) : (s.modQueue n g).launches = s.launches := rfl
@[simp] theorem State.modQueue_nextGrid (s : State) (n : Nat) (g : Queue → Queue) : (s.modQueue n g).nextGrid = s.nextGrid := rfl
@[simp] theorem State.modQueue_teams (s : State) (n : Nat) (g : Queue → Queue) : (s.modQueue n g).teams = s.teams := rfl
@[simp] theorem State.modQueue_runs (s : State) (n : Nat) (g : Queue → Queue) : (s.modQueue n g).runs = s.runs := rfl
@[simp] theorem State.modQueue_cur (s : State) (n : Nat) (g : Queue → Queue) : (s.modQueue n g).cur = s.cur := rfl
@[simp] theorem State.modQueue_reqs (s : State) (n : Nat) (g : Queue → Queue) : (s.modQueue n g).reqs = s.reqs := rfl
@[simp] theorem State.modQueue_sideLog (s : State) (n : Nat) (g : Queue → Queue) : (s.modQueue n g).sideLog = s.sideLog := rfl
@[simp] theorem State.modQueue_faults (s : State) (n : Nat) (g : Queue → Queue) : (s.modQueue n g).faults = s.faults := rfl
@[simp] theorem State.modQueue_nextFid (s : State) (n : Nat) (g : Queue → Queue) : (s.modQueue n g).nextFid = s.nextFid := rfl
@[simp] theorem State.modQueue_copies (s : State) (n : Nat) (g : Queue → Queue) : (s.modQueue n g).copies = s.copies := rfl
@[simp] theorem State.modQueue_acc (s : State) (n : Nat) (g : Queue → Queue) : (s.modQueue n g).acc = s.acc := rfl
@[simp] theorem State.modQueue_scale (s : State) (n : Nat) (g : Queue → Queue) : (s.modQueue n g).scale = s.scale := rfl
@[simp] theorem State.modQueue_streams (s : State) (n : Nat) (g : Queue → Queue) : (s.modQueue n g).streams = s.streams := rfl
@[simp] theorem State.modQueue_mmas (s : State) (n : Nat) (g : Queue → Queue) : (s.modQueue n g).mmas = s.mmas := rfl
@[simp] theorem State.modQueue_passes (s : State) (n : Nat) (g : Queue → Queue) : (s.modQueue n g).passes = s.passes := rfl
@[simp] theorem State.modQueue_passWin (s : State) (n : Nat) (g : Queue → Queue) : (s.modQueue n g).passWin = s.passWin := rfl
@[simp] theorem State.modQueue_soft (s : State) (n : Nat) (g : Queue → Queue) : (s.modQueue n g).soft = s.soft := rfl
@[simp] theorem State.modQueue_saigaLast (s : State) (n : Nat) (g : Queue → Queue) : (s.modQueue n g).saigaLast = s.saigaLast := rfl

/-! ### resolve changes teams alone -/

@[simp] theorem State.resolve_now (s : State) (k : Nat) (tok st : Word) : (s.resolve k tok st).now = s.now := rfl
@[simp] theorem State.resolve_agenda (s : State) (k : Nat) (tok st : Word) : (s.resolve k tok st).agenda = s.agenda := rfl
@[simp] theorem State.resolve_kept (s : State) (k : Nat) (tok st : Word) : (s.resolve k tok st).kept = s.kept := rfl
@[simp] theorem State.resolve_free (s : State) (k : Nat) (tok st : Word) : (s.resolve k tok st).free = s.free := rfl
@[simp] theorem State.resolve_nextKey (s : State) (k : Nat) (tok st : Word) : (s.resolve k tok st).nextKey = s.nextKey := rfl
@[simp] theorem State.resolve_irq (s : State) (k : Nat) (tok st : Word) : (s.resolve k tok st).irq = s.irq := rfl
@[simp] theorem State.resolve_hostOut (s : State) (k : Nat) (tok st : Word) : (s.resolve k tok st).hostOut = s.hostOut := rfl
@[simp] theorem State.resolve_trace (s : State) (k : Nat) (tok st : Word) : (s.resolve k tok st).trace = s.trace := rfl
@[simp] theorem State.resolve_mem (s : State) (k : Nat) (tok st : Word) : (s.resolve k tok st).mem = s.mem := rfl
@[simp] theorem State.resolve_towers (s : State) (k : Nat) (tok st : Word) : (s.resolve k tok st).towers = s.towers := rfl
@[simp] theorem State.resolve_hub (s : State) (k : Nat) (tok st : Word) : (s.resolve k tok st).hub = s.hub := rfl
@[simp] theorem State.resolve_fab (s : State) (k : Nat) (tok st : Word) : (s.resolve k tok st).fab = s.fab := rfl
@[simp] theorem State.resolve_wqs (s : State) (k : Nat) (tok st : Word) : (s.resolve k tok st).wqs = s.wqs := rfl
@[simp] theorem State.resolve_rr (s : State) (k : Nat) (tok st : Word) : (s.resolve k tok st).rr = s.rr := rfl
@[simp] theorem State.resolve_lastSlot (s : State) (k : Nat) (tok st : Word) : (s.resolve k tok st).lastSlot = s.lastSlot := rfl
@[simp] theorem State.resolve_eqs (s : State) (k : Nat) (tok st : Word) : (s.resolve k tok st).eqs = s.eqs := rfl
@[simp] theorem State.resolve_launches (s : State) (k : Nat) (tok st : Word) : (s.resolve k tok st).launches = s.launches := rfl
@[simp] theorem State.resolve_nextGrid (s : State) (k : Nat) (tok st : Word) : (s.resolve k tok st).nextGrid = s.nextGrid := rfl
@[simp] theorem State.resolve_runs (s : State) (k : Nat) (tok st : Word) : (s.resolve k tok st).runs = s.runs := rfl
@[simp] theorem State.resolve_cur (s : State) (k : Nat) (tok st : Word) : (s.resolve k tok st).cur = s.cur := rfl
@[simp] theorem State.resolve_reqs (s : State) (k : Nat) (tok st : Word) : (s.resolve k tok st).reqs = s.reqs := rfl
@[simp] theorem State.resolve_sideLog (s : State) (k : Nat) (tok st : Word) : (s.resolve k tok st).sideLog = s.sideLog := rfl
@[simp] theorem State.resolve_faults (s : State) (k : Nat) (tok st : Word) : (s.resolve k tok st).faults = s.faults := rfl
@[simp] theorem State.resolve_nextFid (s : State) (k : Nat) (tok st : Word) : (s.resolve k tok st).nextFid = s.nextFid := rfl
@[simp] theorem State.resolve_copies (s : State) (k : Nat) (tok st : Word) : (s.resolve k tok st).copies = s.copies := rfl
@[simp] theorem State.resolve_acc (s : State) (k : Nat) (tok st : Word) : (s.resolve k tok st).acc = s.acc := rfl
@[simp] theorem State.resolve_scale (s : State) (k : Nat) (tok st : Word) : (s.resolve k tok st).scale = s.scale := rfl
@[simp] theorem State.resolve_streams (s : State) (k : Nat) (tok st : Word) : (s.resolve k tok st).streams = s.streams := rfl
@[simp] theorem State.resolve_mmas (s : State) (k : Nat) (tok st : Word) : (s.resolve k tok st).mmas = s.mmas := rfl
@[simp] theorem State.resolve_passes (s : State) (k : Nat) (tok st : Word) : (s.resolve k tok st).passes = s.passes := rfl
@[simp] theorem State.resolve_passWin (s : State) (k : Nat) (tok st : Word) : (s.resolve k tok st).passWin = s.passWin := rfl
@[simp] theorem State.resolve_soft (s : State) (k : Nat) (tok st : Word) : (s.resolve k tok st).soft = s.soft := rfl
@[simp] theorem State.resolve_saigaLast (s : State) (k : Nat) (tok st : Word) : (s.resolve k tok st).saigaLast = s.saigaLast := rfl

/-! ### modTower changes the towers alone -/

@[simp] theorem State.modTower_now (s : State) (n : Nat) (g : Tower → Tower) : (s.modTower n g).now = s.now := by unfold State.modTower; split <;> rfl
@[simp] theorem State.modTower_agenda (s : State) (n : Nat) (g : Tower → Tower) : (s.modTower n g).agenda = s.agenda := by unfold State.modTower; split <;> rfl
@[simp] theorem State.modTower_kept (s : State) (n : Nat) (g : Tower → Tower) : (s.modTower n g).kept = s.kept := by unfold State.modTower; split <;> rfl
@[simp] theorem State.modTower_free (s : State) (n : Nat) (g : Tower → Tower) : (s.modTower n g).free = s.free := by unfold State.modTower; split <;> rfl
@[simp] theorem State.modTower_nextKey (s : State) (n : Nat) (g : Tower → Tower) : (s.modTower n g).nextKey = s.nextKey := by unfold State.modTower; split <;> rfl
@[simp] theorem State.modTower_irq (s : State) (n : Nat) (g : Tower → Tower) : (s.modTower n g).irq = s.irq := by unfold State.modTower; split <;> rfl
@[simp] theorem State.modTower_hostOut (s : State) (n : Nat) (g : Tower → Tower) : (s.modTower n g).hostOut = s.hostOut := by unfold State.modTower; split <;> rfl
@[simp] theorem State.modTower_trace (s : State) (n : Nat) (g : Tower → Tower) : (s.modTower n g).trace = s.trace := by unfold State.modTower; split <;> rfl
@[simp] theorem State.modTower_mem (s : State) (n : Nat) (g : Tower → Tower) : (s.modTower n g).mem = s.mem := by unfold State.modTower; split <;> rfl
@[simp] theorem State.modTower_hub (s : State) (n : Nat) (g : Tower → Tower) : (s.modTower n g).hub = s.hub := by unfold State.modTower; split <;> rfl
@[simp] theorem State.modTower_fab (s : State) (n : Nat) (g : Tower → Tower) : (s.modTower n g).fab = s.fab := by unfold State.modTower; split <;> rfl
@[simp] theorem State.modTower_wqs (s : State) (n : Nat) (g : Tower → Tower) : (s.modTower n g).wqs = s.wqs := by unfold State.modTower; split <;> rfl
@[simp] theorem State.modTower_rr (s : State) (n : Nat) (g : Tower → Tower) : (s.modTower n g).rr = s.rr := by unfold State.modTower; split <;> rfl
@[simp] theorem State.modTower_lastSlot (s : State) (n : Nat) (g : Tower → Tower) : (s.modTower n g).lastSlot = s.lastSlot := by unfold State.modTower; split <;> rfl
@[simp] theorem State.modTower_eqs (s : State) (n : Nat) (g : Tower → Tower) : (s.modTower n g).eqs = s.eqs := by unfold State.modTower; split <;> rfl
@[simp] theorem State.modTower_launches (s : State) (n : Nat) (g : Tower → Tower) : (s.modTower n g).launches = s.launches := by unfold State.modTower; split <;> rfl
@[simp] theorem State.modTower_nextGrid (s : State) (n : Nat) (g : Tower → Tower) : (s.modTower n g).nextGrid = s.nextGrid := by unfold State.modTower; split <;> rfl
@[simp] theorem State.modTower_teams (s : State) (n : Nat) (g : Tower → Tower) : (s.modTower n g).teams = s.teams := by unfold State.modTower; split <;> rfl
@[simp] theorem State.modTower_runs (s : State) (n : Nat) (g : Tower → Tower) : (s.modTower n g).runs = s.runs := by unfold State.modTower; split <;> rfl
@[simp] theorem State.modTower_cur (s : State) (n : Nat) (g : Tower → Tower) : (s.modTower n g).cur = s.cur := by unfold State.modTower; split <;> rfl
@[simp] theorem State.modTower_reqs (s : State) (n : Nat) (g : Tower → Tower) : (s.modTower n g).reqs = s.reqs := by unfold State.modTower; split <;> rfl
@[simp] theorem State.modTower_sideLog (s : State) (n : Nat) (g : Tower → Tower) : (s.modTower n g).sideLog = s.sideLog := by unfold State.modTower; split <;> rfl
@[simp] theorem State.modTower_faults (s : State) (n : Nat) (g : Tower → Tower) : (s.modTower n g).faults = s.faults := by unfold State.modTower; split <;> rfl
@[simp] theorem State.modTower_nextFid (s : State) (n : Nat) (g : Tower → Tower) : (s.modTower n g).nextFid = s.nextFid := by unfold State.modTower; split <;> rfl
@[simp] theorem State.modTower_copies (s : State) (n : Nat) (g : Tower → Tower) : (s.modTower n g).copies = s.copies := by unfold State.modTower; split <;> rfl
@[simp] theorem State.modTower_acc (s : State) (n : Nat) (g : Tower → Tower) : (s.modTower n g).acc = s.acc := by unfold State.modTower; split <;> rfl
@[simp] theorem State.modTower_scale (s : State) (n : Nat) (g : Tower → Tower) : (s.modTower n g).scale = s.scale := by unfold State.modTower; split <;> rfl
@[simp] theorem State.modTower_streams (s : State) (n : Nat) (g : Tower → Tower) : (s.modTower n g).streams = s.streams := by unfold State.modTower; split <;> rfl
@[simp] theorem State.modTower_mmas (s : State) (n : Nat) (g : Tower → Tower) : (s.modTower n g).mmas = s.mmas := by unfold State.modTower; split <;> rfl
@[simp] theorem State.modTower_passes (s : State) (n : Nat) (g : Tower → Tower) : (s.modTower n g).passes = s.passes := by unfold State.modTower; split <;> rfl
@[simp] theorem State.modTower_passWin (s : State) (n : Nat) (g : Tower → Tower) : (s.modTower n g).passWin = s.passWin := by unfold State.modTower; split <;> rfl
@[simp] theorem State.modTower_soft (s : State) (n : Nat) (g : Tower → Tower) : (s.modTower n g).soft = s.soft := by unfold State.modTower; split <;> rfl
@[simp] theorem State.modTower_saigaLast (s : State) (n : Nat) (g : Tower → Tower) : (s.modTower n g).saigaLast = s.saigaLast := by unfold State.modTower; split <;> rfl

/-! ### Operations that change teams alone, and teams and MMAs alone: whatever p does not read of them stays the same -/

/-- modThreads changes teams alone. -/
theorem State.modThreads_keeps {α : Type} (p : State → α) (h : ∀ (s : State) ts, p { s with teams := ts } = p s) (s : State) (k : Nat) (is : List Nat) (g : Thread → Thread) :
    p (s.modThreads k is g) = p s := by
  induction is generalizing s with
  | nil => rfl
  | cons i is ih => exact (ih _).trans (h ..)

/-- finish changes teams alone. -/
theorem State.finish_keeps {α : Type} (p : State → α) (h : ∀ (s : State) ts, p { s with teams := ts } = p s) (s : State) (k : Nat) (is : List Nat) (i : Instr) (g : Thread → Thread) :
    p (s.finish k is i g) = p s := State.modThreads_keeps p h ..

/-- The sweep of the MMAs changes teams, MMAs and streams alone. -/
theorem State.sweepMmas_keeps {α : Type} (p : State → α) (h : ∀ (s : State) ts ms ss, p { s with teams := ts, mmas := ms, streams := ss } = p s) (s : State) (ms : List Mma) : p (s.sweepMmas ms) = p s := by
  induction ms generalizing s with
  | nil => rfl
  | cons m ms ih =>
    unfold State.sweepMmas
    split
    · exact (ih _).trans (h s _ _ _)
    · exact ih s

/-- Bytes owed to a dropped MMA: streams alone change (R243). -/
theorem State.owe_keeps {α : Type} (p : State → α) (h : ∀ (s : State) ts ms ss, p { s with teams := ts, mmas := ms, streams := ss } = p s) (s : State) (m : Mma) (f : BitVec 3) :
    p (s.owe m f) = p s := h s s.teams s.mmas _

/-- Dropping the rest of MMAs changes MMAs and streams alone (R243). -/
theorem State.dropAll_keeps {α : Type} (p : State → α) (h : ∀ (s : State) ts ms ss, p { s with teams := ts, mmas := ms, streams := ss } = p s) (s : State) (ms : List Mma) :
    p (s.dropAll ms) = p s := by
  induction ms generalizing s with
  | nil => rfl
  | cons m ms ih =>
    refine (ih _).trans ?_
    have hm : p (s.modMma m.id fun x => { x with ending := some .cancelled }) = p s := h s s.teams _ s.streams
    split
    · unfold State.dropRest
      simp only []
      generalize (s.modMma m.id fun x => { x with ending := some .cancelled }) = u at hm ⊢
      split
      · exact (State.owe_keeps p h ..).trans ((State.owe_keeps p h ..).trans hm)
      · exact hm
    · rfl

/-- Halting a team changes teams, MMAs and streams alone (R117, R201). -/
theorem State.haltTeam_keeps {α : Type} (p : State → α) (h : ∀ (s : State) ts ms ss, p { s with teams := ts, mmas := ms, streams := ss } = p s) (s : State) (k : Nat) (c : Byte) : p (s.haltTeam k c) = p s :=
  (State.sweepMmas_keeps p h ..).trans ((State.dropAll_keeps p h ..).trans (h s _ _ _))

/-- Taking a trap changes teams, MMAs and streams alone (R204). -/
theorem State.takeTrap_keeps {α : Type} (p : State → α) (h : ∀ (s : State) ts ms ss, p { s with teams := ts, mmas := ms, streams := ss } = p s) (s : State) (k i : Nat) (tr : Trap) : p (s.takeTrap k i tr) = p s := by
  have hm (g : Thread → Thread) : p (s.modThread k i g) = p s := h s _ _ _
  unfold State.takeTrap
  simp only []
  split
  · split
    · exact (State.haltTeam_keeps p h ..).trans (hm _)
    · exact hm _
  · exact hm _

/-- A trap of several threads changes teams, MMAs and streams alone. -/
theorem State.trapAll_keeps {α : Type} (p : State → α) (h : ∀ (s : State) ts ms ss, p { s with teams := ts, mmas := ms, streams := ss } = p s) (s : State) (k : Nat) (is : List Nat) (tr : Trap) : p (s.trapAll k is tr) = p s := by
  induction is generalizing s with
  | nil => rfl
  | cons i is ih => exact (ih _).trans (State.takeTrap_keeps p h ..)

/-- A late trap changes teams, MMAs and streams alone (R201, R413). -/
theorem State.lateTrap_keeps {α : Type} (p : State → α) (h : ∀ (s : State) ts ms ss, p { s with teams := ts, mmas := ms, streams := ss } = p s) (s : State) (k i n : Nat) (tr : Trap) : p (s.lateTrap k i n tr) = p s := by
  unfold State.lateTrap
  split
  · rfl
  · split
    · exact State.haltTeam_keeps p h ..
    · split
      · rfl
      · exact h s _ _ _

/-- Members that block at a pending future: teams alone change (R148). -/
theorem State.blockPending_keeps {α : Type} (p : State → α) (h : ∀ (s : State) ts, p { s with teams := ts } = p s) (s : State) (k : Nat) (i : Instr) (ms : List Nat) : p (s.blockPending k i ms).1 = p s := by
  induction ms generalizing s with
  | nil => rfl
  | cons m ms ih =>
    unfold State.blockPending
    split
    · exact (ih _).trans (h s _)
    · exact ih s

/-- Members whose operands differ: teams, MMAs and streams alone change (R144). -/
theorem State.checkUniform_keeps {α : Type} (p : State → α) (h : ∀ (s : State) ts ms ss, p { s with teams := ts, mmas := ms, streams := ss } = p s) (s : State) (k : Nat) (i : Instr) (l : Thread) (ms : List Nat) :
    p (s.checkUniform k i l ms).1 = p s := by
  induction ms generalizing s with
  | nil => rfl
  | cons m ms ih =>
    unfold State.checkUniform
    split
    · exact ih s
    · split
      · exact (ih _).trans (State.takeTrap_keeps p h ..)
      · exact ih s

/-- The common checks of a word change teams, MMAs and streams alone (R142, R144, R148, R269). -/
theorem State.gate_keeps {α : Type} (p : State → α) (h : ∀ (s : State) ts ms ss, p { s with teams := ts, mmas := ms, streams := ss } = p s) (s : State) (i : Instr) : p (s.gate i).1 = p s := by
  cases hc : s.cur with
  | none => simp [State.gate, hc]
  | some c =>
    cases ht : s.team? c.team with
    | none => simp [State.gate, hc, ht]
    | some tm =>
      cases hd : c.tids with
      | nil => simp [State.gate, hc, ht, hd]
      | cons m ms =>
        simp only [State.gate, hc, ht, hd]
        generalize (if i.uni = true then ms else []) = ms
        split
        · exact State.trapAll_keeps p h ..
        · have hb := State.blockPending_keeps p (fun s ts => h s ts s.mmas s.streams) s c.team i (m :: ms)
          generalize s.blockPending c.team i (m :: ms) = b at hb ⊢
          obtain ⟨s', live⟩ := b
          cases live with
          | nil => exact hb
          | cons l rest =>
            simp only []
            cases s'.thread? c.team l with
            | none => exact hb
            | some t => exact (State.checkUniform_keeps p h ..).trans hb

/-- An INT, FLT or XFN word changes teams, MMAs and streams alone. -/
theorem State.alu_keeps {α : Type} (p : State → α) (h : ∀ (s : State) ts ms ss, p { s with teams := ts, mmas := ms, streams := ss } = p s) (s : State) (i : Instr) (d : Reg) (f : Thread → AluOut) : p (s.alu i d f) = p s := by
  have hg := State.gate_keeps p h s i
  unfold State.alu
  generalize s.gate i = g at hg ⊢
  obtain ⟨s', c⟩ := g
  cases c with
  | none => exact hg
  | some c =>
    simp only []
    split
    · exact (State.finish_keeps p (fun s ts => h s ts s.mmas s.streams) ..).trans hg
    · exact (State.trapAll_keeps p h ..).trans hg

/-! ### modThreads, field by field -/

@[simp] theorem State.modThreads_now (s : State) (k : Nat) (is : List Nat) (g : Thread → Thread) : (s.modThreads k is g).now = s.now := State.modThreads_keeps State.now (fun _ _ => rfl) ..
@[simp] theorem State.modThreads_agenda (s : State) (k : Nat) (is : List Nat) (g : Thread → Thread) : (s.modThreads k is g).agenda = s.agenda := State.modThreads_keeps State.agenda (fun _ _ => rfl) ..
@[simp] theorem State.modThreads_kept (s : State) (k : Nat) (is : List Nat) (g : Thread → Thread) : (s.modThreads k is g).kept = s.kept := State.modThreads_keeps State.kept (fun _ _ => rfl) ..
@[simp] theorem State.modThreads_free (s : State) (k : Nat) (is : List Nat) (g : Thread → Thread) : (s.modThreads k is g).free = s.free := State.modThreads_keeps State.free (fun _ _ => rfl) ..
@[simp] theorem State.modThreads_nextKey (s : State) (k : Nat) (is : List Nat) (g : Thread → Thread) : (s.modThreads k is g).nextKey = s.nextKey := State.modThreads_keeps State.nextKey (fun _ _ => rfl) ..
@[simp] theorem State.modThreads_irq (s : State) (k : Nat) (is : List Nat) (g : Thread → Thread) : (s.modThreads k is g).irq = s.irq := State.modThreads_keeps State.irq (fun _ _ => rfl) ..
@[simp] theorem State.modThreads_hostOut (s : State) (k : Nat) (is : List Nat) (g : Thread → Thread) : (s.modThreads k is g).hostOut = s.hostOut := State.modThreads_keeps State.hostOut (fun _ _ => rfl) ..
@[simp] theorem State.modThreads_trace (s : State) (k : Nat) (is : List Nat) (g : Thread → Thread) : (s.modThreads k is g).trace = s.trace := State.modThreads_keeps State.trace (fun _ _ => rfl) ..
@[simp] theorem State.modThreads_mem (s : State) (k : Nat) (is : List Nat) (g : Thread → Thread) : (s.modThreads k is g).mem = s.mem := State.modThreads_keeps State.mem (fun _ _ => rfl) ..
@[simp] theorem State.modThreads_towers (s : State) (k : Nat) (is : List Nat) (g : Thread → Thread) : (s.modThreads k is g).towers = s.towers := State.modThreads_keeps State.towers (fun _ _ => rfl) ..
@[simp] theorem State.modThreads_hub (s : State) (k : Nat) (is : List Nat) (g : Thread → Thread) : (s.modThreads k is g).hub = s.hub := State.modThreads_keeps State.hub (fun _ _ => rfl) ..
@[simp] theorem State.modThreads_fab (s : State) (k : Nat) (is : List Nat) (g : Thread → Thread) : (s.modThreads k is g).fab = s.fab := State.modThreads_keeps State.fab (fun _ _ => rfl) ..
@[simp] theorem State.modThreads_wqs (s : State) (k : Nat) (is : List Nat) (g : Thread → Thread) : (s.modThreads k is g).wqs = s.wqs := State.modThreads_keeps State.wqs (fun _ _ => rfl) ..
@[simp] theorem State.modThreads_rr (s : State) (k : Nat) (is : List Nat) (g : Thread → Thread) : (s.modThreads k is g).rr = s.rr := State.modThreads_keeps State.rr (fun _ _ => rfl) ..
@[simp] theorem State.modThreads_lastSlot (s : State) (k : Nat) (is : List Nat) (g : Thread → Thread) : (s.modThreads k is g).lastSlot = s.lastSlot := State.modThreads_keeps State.lastSlot (fun _ _ => rfl) ..
@[simp] theorem State.modThreads_eqs (s : State) (k : Nat) (is : List Nat) (g : Thread → Thread) : (s.modThreads k is g).eqs = s.eqs := State.modThreads_keeps State.eqs (fun _ _ => rfl) ..
@[simp] theorem State.modThreads_launches (s : State) (k : Nat) (is : List Nat) (g : Thread → Thread) : (s.modThreads k is g).launches = s.launches := State.modThreads_keeps State.launches (fun _ _ => rfl) ..
@[simp] theorem State.modThreads_nextGrid (s : State) (k : Nat) (is : List Nat) (g : Thread → Thread) : (s.modThreads k is g).nextGrid = s.nextGrid := State.modThreads_keeps State.nextGrid (fun _ _ => rfl) ..
@[simp] theorem State.modThreads_runs (s : State) (k : Nat) (is : List Nat) (g : Thread → Thread) : (s.modThreads k is g).runs = s.runs := State.modThreads_keeps State.runs (fun _ _ => rfl) ..
@[simp] theorem State.modThreads_cur (s : State) (k : Nat) (is : List Nat) (g : Thread → Thread) : (s.modThreads k is g).cur = s.cur := State.modThreads_keeps State.cur (fun _ _ => rfl) ..
@[simp] theorem State.modThreads_reqs (s : State) (k : Nat) (is : List Nat) (g : Thread → Thread) : (s.modThreads k is g).reqs = s.reqs := State.modThreads_keeps State.reqs (fun _ _ => rfl) ..
@[simp] theorem State.modThreads_sideLog (s : State) (k : Nat) (is : List Nat) (g : Thread → Thread) : (s.modThreads k is g).sideLog = s.sideLog := State.modThreads_keeps State.sideLog (fun _ _ => rfl) ..
@[simp] theorem State.modThreads_faults (s : State) (k : Nat) (is : List Nat) (g : Thread → Thread) : (s.modThreads k is g).faults = s.faults := State.modThreads_keeps State.faults (fun _ _ => rfl) ..
@[simp] theorem State.modThreads_nextFid (s : State) (k : Nat) (is : List Nat) (g : Thread → Thread) : (s.modThreads k is g).nextFid = s.nextFid := State.modThreads_keeps State.nextFid (fun _ _ => rfl) ..
@[simp] theorem State.modThreads_copies (s : State) (k : Nat) (is : List Nat) (g : Thread → Thread) : (s.modThreads k is g).copies = s.copies := State.modThreads_keeps State.copies (fun _ _ => rfl) ..
@[simp] theorem State.modThreads_acc (s : State) (k : Nat) (is : List Nat) (g : Thread → Thread) : (s.modThreads k is g).acc = s.acc := State.modThreads_keeps State.acc (fun _ _ => rfl) ..
@[simp] theorem State.modThreads_scale (s : State) (k : Nat) (is : List Nat) (g : Thread → Thread) : (s.modThreads k is g).scale = s.scale := State.modThreads_keeps State.scale (fun _ _ => rfl) ..
@[simp] theorem State.modThreads_streams (s : State) (k : Nat) (is : List Nat) (g : Thread → Thread) : (s.modThreads k is g).streams = s.streams := State.modThreads_keeps State.streams (fun _ _ => rfl) ..
@[simp] theorem State.modThreads_mmas (s : State) (k : Nat) (is : List Nat) (g : Thread → Thread) : (s.modThreads k is g).mmas = s.mmas := State.modThreads_keeps State.mmas (fun _ _ => rfl) ..
@[simp] theorem State.modThreads_passes (s : State) (k : Nat) (is : List Nat) (g : Thread → Thread) : (s.modThreads k is g).passes = s.passes := State.modThreads_keeps State.passes (fun _ _ => rfl) ..
@[simp] theorem State.modThreads_passWin (s : State) (k : Nat) (is : List Nat) (g : Thread → Thread) : (s.modThreads k is g).passWin = s.passWin := State.modThreads_keeps State.passWin (fun _ _ => rfl) ..
@[simp] theorem State.modThreads_soft (s : State) (k : Nat) (is : List Nat) (g : Thread → Thread) : (s.modThreads k is g).soft = s.soft := State.modThreads_keeps State.soft (fun _ _ => rfl) ..
@[simp] theorem State.modThreads_saigaLast (s : State) (k : Nat) (is : List Nat) (g : Thread → Thread) : (s.modThreads k is g).saigaLast = s.saigaLast := State.modThreads_keeps State.saigaLast (fun _ _ => rfl) ..

/-! ### finish, field by field -/

@[simp] theorem State.finish_now (s : State) (k : Nat) (is : List Nat) (i : Instr) (g : Thread → Thread) : (s.finish k is i g).now = s.now := State.finish_keeps State.now (fun _ _ => rfl) ..
@[simp] theorem State.finish_agenda (s : State) (k : Nat) (is : List Nat) (i : Instr) (g : Thread → Thread) : (s.finish k is i g).agenda = s.agenda := State.finish_keeps State.agenda (fun _ _ => rfl) ..
@[simp] theorem State.finish_kept (s : State) (k : Nat) (is : List Nat) (i : Instr) (g : Thread → Thread) : (s.finish k is i g).kept = s.kept := State.finish_keeps State.kept (fun _ _ => rfl) ..
@[simp] theorem State.finish_free (s : State) (k : Nat) (is : List Nat) (i : Instr) (g : Thread → Thread) : (s.finish k is i g).free = s.free := State.finish_keeps State.free (fun _ _ => rfl) ..
@[simp] theorem State.finish_nextKey (s : State) (k : Nat) (is : List Nat) (i : Instr) (g : Thread → Thread) : (s.finish k is i g).nextKey = s.nextKey := State.finish_keeps State.nextKey (fun _ _ => rfl) ..
@[simp] theorem State.finish_irq (s : State) (k : Nat) (is : List Nat) (i : Instr) (g : Thread → Thread) : (s.finish k is i g).irq = s.irq := State.finish_keeps State.irq (fun _ _ => rfl) ..
@[simp] theorem State.finish_hostOut (s : State) (k : Nat) (is : List Nat) (i : Instr) (g : Thread → Thread) : (s.finish k is i g).hostOut = s.hostOut := State.finish_keeps State.hostOut (fun _ _ => rfl) ..
@[simp] theorem State.finish_trace (s : State) (k : Nat) (is : List Nat) (i : Instr) (g : Thread → Thread) : (s.finish k is i g).trace = s.trace := State.finish_keeps State.trace (fun _ _ => rfl) ..
@[simp] theorem State.finish_mem (s : State) (k : Nat) (is : List Nat) (i : Instr) (g : Thread → Thread) : (s.finish k is i g).mem = s.mem := State.finish_keeps State.mem (fun _ _ => rfl) ..
@[simp] theorem State.finish_towers (s : State) (k : Nat) (is : List Nat) (i : Instr) (g : Thread → Thread) : (s.finish k is i g).towers = s.towers := State.finish_keeps State.towers (fun _ _ => rfl) ..
@[simp] theorem State.finish_hub (s : State) (k : Nat) (is : List Nat) (i : Instr) (g : Thread → Thread) : (s.finish k is i g).hub = s.hub := State.finish_keeps State.hub (fun _ _ => rfl) ..
@[simp] theorem State.finish_fab (s : State) (k : Nat) (is : List Nat) (i : Instr) (g : Thread → Thread) : (s.finish k is i g).fab = s.fab := State.finish_keeps State.fab (fun _ _ => rfl) ..
@[simp] theorem State.finish_wqs (s : State) (k : Nat) (is : List Nat) (i : Instr) (g : Thread → Thread) : (s.finish k is i g).wqs = s.wqs := State.finish_keeps State.wqs (fun _ _ => rfl) ..
@[simp] theorem State.finish_rr (s : State) (k : Nat) (is : List Nat) (i : Instr) (g : Thread → Thread) : (s.finish k is i g).rr = s.rr := State.finish_keeps State.rr (fun _ _ => rfl) ..
@[simp] theorem State.finish_lastSlot (s : State) (k : Nat) (is : List Nat) (i : Instr) (g : Thread → Thread) : (s.finish k is i g).lastSlot = s.lastSlot := State.finish_keeps State.lastSlot (fun _ _ => rfl) ..
@[simp] theorem State.finish_eqs (s : State) (k : Nat) (is : List Nat) (i : Instr) (g : Thread → Thread) : (s.finish k is i g).eqs = s.eqs := State.finish_keeps State.eqs (fun _ _ => rfl) ..
@[simp] theorem State.finish_launches (s : State) (k : Nat) (is : List Nat) (i : Instr) (g : Thread → Thread) : (s.finish k is i g).launches = s.launches := State.finish_keeps State.launches (fun _ _ => rfl) ..
@[simp] theorem State.finish_nextGrid (s : State) (k : Nat) (is : List Nat) (i : Instr) (g : Thread → Thread) : (s.finish k is i g).nextGrid = s.nextGrid := State.finish_keeps State.nextGrid (fun _ _ => rfl) ..
@[simp] theorem State.finish_runs (s : State) (k : Nat) (is : List Nat) (i : Instr) (g : Thread → Thread) : (s.finish k is i g).runs = s.runs := State.finish_keeps State.runs (fun _ _ => rfl) ..
@[simp] theorem State.finish_cur (s : State) (k : Nat) (is : List Nat) (i : Instr) (g : Thread → Thread) : (s.finish k is i g).cur = s.cur := State.finish_keeps State.cur (fun _ _ => rfl) ..
@[simp] theorem State.finish_reqs (s : State) (k : Nat) (is : List Nat) (i : Instr) (g : Thread → Thread) : (s.finish k is i g).reqs = s.reqs := State.finish_keeps State.reqs (fun _ _ => rfl) ..
@[simp] theorem State.finish_sideLog (s : State) (k : Nat) (is : List Nat) (i : Instr) (g : Thread → Thread) : (s.finish k is i g).sideLog = s.sideLog := State.finish_keeps State.sideLog (fun _ _ => rfl) ..
@[simp] theorem State.finish_faults (s : State) (k : Nat) (is : List Nat) (i : Instr) (g : Thread → Thread) : (s.finish k is i g).faults = s.faults := State.finish_keeps State.faults (fun _ _ => rfl) ..
@[simp] theorem State.finish_nextFid (s : State) (k : Nat) (is : List Nat) (i : Instr) (g : Thread → Thread) : (s.finish k is i g).nextFid = s.nextFid := State.finish_keeps State.nextFid (fun _ _ => rfl) ..
@[simp] theorem State.finish_copies (s : State) (k : Nat) (is : List Nat) (i : Instr) (g : Thread → Thread) : (s.finish k is i g).copies = s.copies := State.finish_keeps State.copies (fun _ _ => rfl) ..
@[simp] theorem State.finish_acc (s : State) (k : Nat) (is : List Nat) (i : Instr) (g : Thread → Thread) : (s.finish k is i g).acc = s.acc := State.finish_keeps State.acc (fun _ _ => rfl) ..
@[simp] theorem State.finish_scale (s : State) (k : Nat) (is : List Nat) (i : Instr) (g : Thread → Thread) : (s.finish k is i g).scale = s.scale := State.finish_keeps State.scale (fun _ _ => rfl) ..
@[simp] theorem State.finish_streams (s : State) (k : Nat) (is : List Nat) (i : Instr) (g : Thread → Thread) : (s.finish k is i g).streams = s.streams := State.finish_keeps State.streams (fun _ _ => rfl) ..
@[simp] theorem State.finish_mmas (s : State) (k : Nat) (is : List Nat) (i : Instr) (g : Thread → Thread) : (s.finish k is i g).mmas = s.mmas := State.finish_keeps State.mmas (fun _ _ => rfl) ..
@[simp] theorem State.finish_passes (s : State) (k : Nat) (is : List Nat) (i : Instr) (g : Thread → Thread) : (s.finish k is i g).passes = s.passes := State.finish_keeps State.passes (fun _ _ => rfl) ..
@[simp] theorem State.finish_passWin (s : State) (k : Nat) (is : List Nat) (i : Instr) (g : Thread → Thread) : (s.finish k is i g).passWin = s.passWin := State.finish_keeps State.passWin (fun _ _ => rfl) ..
@[simp] theorem State.finish_soft (s : State) (k : Nat) (is : List Nat) (i : Instr) (g : Thread → Thread) : (s.finish k is i g).soft = s.soft := State.finish_keeps State.soft (fun _ _ => rfl) ..
@[simp] theorem State.finish_saigaLast (s : State) (k : Nat) (is : List Nat) (i : Instr) (g : Thread → Thread) : (s.finish k is i g).saigaLast = s.saigaLast := State.finish_keeps State.saigaLast (fun _ _ => rfl) ..

/-! ### haltTeam, field by field -/

@[simp] theorem State.haltTeam_now (s : State) (k : Nat) (c : Byte) : (s.haltTeam k c).now = s.now := State.haltTeam_keeps State.now (fun _ _ _ _ => rfl) ..
@[simp] theorem State.haltTeam_agenda (s : State) (k : Nat) (c : Byte) : (s.haltTeam k c).agenda = s.agenda := State.haltTeam_keeps State.agenda (fun _ _ _ _ => rfl) ..
@[simp] theorem State.haltTeam_kept (s : State) (k : Nat) (c : Byte) : (s.haltTeam k c).kept = s.kept := State.haltTeam_keeps State.kept (fun _ _ _ _ => rfl) ..
@[simp] theorem State.haltTeam_free (s : State) (k : Nat) (c : Byte) : (s.haltTeam k c).free = s.free := State.haltTeam_keeps State.free (fun _ _ _ _ => rfl) ..
@[simp] theorem State.haltTeam_nextKey (s : State) (k : Nat) (c : Byte) : (s.haltTeam k c).nextKey = s.nextKey := State.haltTeam_keeps State.nextKey (fun _ _ _ _ => rfl) ..
@[simp] theorem State.haltTeam_irq (s : State) (k : Nat) (c : Byte) : (s.haltTeam k c).irq = s.irq := State.haltTeam_keeps State.irq (fun _ _ _ _ => rfl) ..
@[simp] theorem State.haltTeam_hostOut (s : State) (k : Nat) (c : Byte) : (s.haltTeam k c).hostOut = s.hostOut := State.haltTeam_keeps State.hostOut (fun _ _ _ _ => rfl) ..
@[simp] theorem State.haltTeam_trace (s : State) (k : Nat) (c : Byte) : (s.haltTeam k c).trace = s.trace := State.haltTeam_keeps State.trace (fun _ _ _ _ => rfl) ..
@[simp] theorem State.haltTeam_mem (s : State) (k : Nat) (c : Byte) : (s.haltTeam k c).mem = s.mem := State.haltTeam_keeps State.mem (fun _ _ _ _ => rfl) ..
@[simp] theorem State.haltTeam_towers (s : State) (k : Nat) (c : Byte) : (s.haltTeam k c).towers = s.towers := State.haltTeam_keeps State.towers (fun _ _ _ _ => rfl) ..
@[simp] theorem State.haltTeam_hub (s : State) (k : Nat) (c : Byte) : (s.haltTeam k c).hub = s.hub := State.haltTeam_keeps State.hub (fun _ _ _ _ => rfl) ..
@[simp] theorem State.haltTeam_fab (s : State) (k : Nat) (c : Byte) : (s.haltTeam k c).fab = s.fab := State.haltTeam_keeps State.fab (fun _ _ _ _ => rfl) ..
@[simp] theorem State.haltTeam_wqs (s : State) (k : Nat) (c : Byte) : (s.haltTeam k c).wqs = s.wqs := State.haltTeam_keeps State.wqs (fun _ _ _ _ => rfl) ..
@[simp] theorem State.haltTeam_rr (s : State) (k : Nat) (c : Byte) : (s.haltTeam k c).rr = s.rr := State.haltTeam_keeps State.rr (fun _ _ _ _ => rfl) ..
@[simp] theorem State.haltTeam_lastSlot (s : State) (k : Nat) (c : Byte) : (s.haltTeam k c).lastSlot = s.lastSlot := State.haltTeam_keeps State.lastSlot (fun _ _ _ _ => rfl) ..
@[simp] theorem State.haltTeam_eqs (s : State) (k : Nat) (c : Byte) : (s.haltTeam k c).eqs = s.eqs := State.haltTeam_keeps State.eqs (fun _ _ _ _ => rfl) ..
@[simp] theorem State.haltTeam_launches (s : State) (k : Nat) (c : Byte) : (s.haltTeam k c).launches = s.launches := State.haltTeam_keeps State.launches (fun _ _ _ _ => rfl) ..
@[simp] theorem State.haltTeam_nextGrid (s : State) (k : Nat) (c : Byte) : (s.haltTeam k c).nextGrid = s.nextGrid := State.haltTeam_keeps State.nextGrid (fun _ _ _ _ => rfl) ..
@[simp] theorem State.haltTeam_runs (s : State) (k : Nat) (c : Byte) : (s.haltTeam k c).runs = s.runs := State.haltTeam_keeps State.runs (fun _ _ _ _ => rfl) ..
@[simp] theorem State.haltTeam_cur (s : State) (k : Nat) (c : Byte) : (s.haltTeam k c).cur = s.cur := State.haltTeam_keeps State.cur (fun _ _ _ _ => rfl) ..
@[simp] theorem State.haltTeam_reqs (s : State) (k : Nat) (c : Byte) : (s.haltTeam k c).reqs = s.reqs := State.haltTeam_keeps State.reqs (fun _ _ _ _ => rfl) ..
@[simp] theorem State.haltTeam_sideLog (s : State) (k : Nat) (c : Byte) : (s.haltTeam k c).sideLog = s.sideLog := State.haltTeam_keeps State.sideLog (fun _ _ _ _ => rfl) ..
@[simp] theorem State.haltTeam_faults (s : State) (k : Nat) (c : Byte) : (s.haltTeam k c).faults = s.faults := State.haltTeam_keeps State.faults (fun _ _ _ _ => rfl) ..
@[simp] theorem State.haltTeam_nextFid (s : State) (k : Nat) (c : Byte) : (s.haltTeam k c).nextFid = s.nextFid := State.haltTeam_keeps State.nextFid (fun _ _ _ _ => rfl) ..
@[simp] theorem State.haltTeam_copies (s : State) (k : Nat) (c : Byte) : (s.haltTeam k c).copies = s.copies := State.haltTeam_keeps State.copies (fun _ _ _ _ => rfl) ..
@[simp] theorem State.haltTeam_acc (s : State) (k : Nat) (c : Byte) : (s.haltTeam k c).acc = s.acc := State.haltTeam_keeps State.acc (fun _ _ _ _ => rfl) ..
@[simp] theorem State.haltTeam_scale (s : State) (k : Nat) (c : Byte) : (s.haltTeam k c).scale = s.scale := State.haltTeam_keeps State.scale (fun _ _ _ _ => rfl) ..
@[simp] theorem State.haltTeam_passes (s : State) (k : Nat) (c : Byte) : (s.haltTeam k c).passes = s.passes := State.haltTeam_keeps State.passes (fun _ _ _ _ => rfl) ..
@[simp] theorem State.haltTeam_passWin (s : State) (k : Nat) (c : Byte) : (s.haltTeam k c).passWin = s.passWin := State.haltTeam_keeps State.passWin (fun _ _ _ _ => rfl) ..
@[simp] theorem State.haltTeam_soft (s : State) (k : Nat) (c : Byte) : (s.haltTeam k c).soft = s.soft := State.haltTeam_keeps State.soft (fun _ _ _ _ => rfl) ..
@[simp] theorem State.haltTeam_saigaLast (s : State) (k : Nat) (c : Byte) : (s.haltTeam k c).saigaLast = s.saigaLast := State.haltTeam_keeps State.saigaLast (fun _ _ _ _ => rfl) ..

/-! ### takeTrap, field by field -/

@[simp] theorem State.takeTrap_now (s : State) (k i : Nat) (tr : Trap) : (s.takeTrap k i tr).now = s.now := State.takeTrap_keeps State.now (fun _ _ _ _ => rfl) ..
@[simp] theorem State.takeTrap_agenda (s : State) (k i : Nat) (tr : Trap) : (s.takeTrap k i tr).agenda = s.agenda := State.takeTrap_keeps State.agenda (fun _ _ _ _ => rfl) ..
@[simp] theorem State.takeTrap_kept (s : State) (k i : Nat) (tr : Trap) : (s.takeTrap k i tr).kept = s.kept := State.takeTrap_keeps State.kept (fun _ _ _ _ => rfl) ..
@[simp] theorem State.takeTrap_free (s : State) (k i : Nat) (tr : Trap) : (s.takeTrap k i tr).free = s.free := State.takeTrap_keeps State.free (fun _ _ _ _ => rfl) ..
@[simp] theorem State.takeTrap_nextKey (s : State) (k i : Nat) (tr : Trap) : (s.takeTrap k i tr).nextKey = s.nextKey := State.takeTrap_keeps State.nextKey (fun _ _ _ _ => rfl) ..
@[simp] theorem State.takeTrap_irq (s : State) (k i : Nat) (tr : Trap) : (s.takeTrap k i tr).irq = s.irq := State.takeTrap_keeps State.irq (fun _ _ _ _ => rfl) ..
@[simp] theorem State.takeTrap_hostOut (s : State) (k i : Nat) (tr : Trap) : (s.takeTrap k i tr).hostOut = s.hostOut := State.takeTrap_keeps State.hostOut (fun _ _ _ _ => rfl) ..
@[simp] theorem State.takeTrap_trace (s : State) (k i : Nat) (tr : Trap) : (s.takeTrap k i tr).trace = s.trace := State.takeTrap_keeps State.trace (fun _ _ _ _ => rfl) ..
@[simp] theorem State.takeTrap_mem (s : State) (k i : Nat) (tr : Trap) : (s.takeTrap k i tr).mem = s.mem := State.takeTrap_keeps State.mem (fun _ _ _ _ => rfl) ..
@[simp] theorem State.takeTrap_towers (s : State) (k i : Nat) (tr : Trap) : (s.takeTrap k i tr).towers = s.towers := State.takeTrap_keeps State.towers (fun _ _ _ _ => rfl) ..
@[simp] theorem State.takeTrap_hub (s : State) (k i : Nat) (tr : Trap) : (s.takeTrap k i tr).hub = s.hub := State.takeTrap_keeps State.hub (fun _ _ _ _ => rfl) ..
@[simp] theorem State.takeTrap_fab (s : State) (k i : Nat) (tr : Trap) : (s.takeTrap k i tr).fab = s.fab := State.takeTrap_keeps State.fab (fun _ _ _ _ => rfl) ..
@[simp] theorem State.takeTrap_wqs (s : State) (k i : Nat) (tr : Trap) : (s.takeTrap k i tr).wqs = s.wqs := State.takeTrap_keeps State.wqs (fun _ _ _ _ => rfl) ..
@[simp] theorem State.takeTrap_rr (s : State) (k i : Nat) (tr : Trap) : (s.takeTrap k i tr).rr = s.rr := State.takeTrap_keeps State.rr (fun _ _ _ _ => rfl) ..
@[simp] theorem State.takeTrap_lastSlot (s : State) (k i : Nat) (tr : Trap) : (s.takeTrap k i tr).lastSlot = s.lastSlot := State.takeTrap_keeps State.lastSlot (fun _ _ _ _ => rfl) ..
@[simp] theorem State.takeTrap_eqs (s : State) (k i : Nat) (tr : Trap) : (s.takeTrap k i tr).eqs = s.eqs := State.takeTrap_keeps State.eqs (fun _ _ _ _ => rfl) ..
@[simp] theorem State.takeTrap_launches (s : State) (k i : Nat) (tr : Trap) : (s.takeTrap k i tr).launches = s.launches := State.takeTrap_keeps State.launches (fun _ _ _ _ => rfl) ..
@[simp] theorem State.takeTrap_nextGrid (s : State) (k i : Nat) (tr : Trap) : (s.takeTrap k i tr).nextGrid = s.nextGrid := State.takeTrap_keeps State.nextGrid (fun _ _ _ _ => rfl) ..
@[simp] theorem State.takeTrap_runs (s : State) (k i : Nat) (tr : Trap) : (s.takeTrap k i tr).runs = s.runs := State.takeTrap_keeps State.runs (fun _ _ _ _ => rfl) ..
@[simp] theorem State.takeTrap_cur (s : State) (k i : Nat) (tr : Trap) : (s.takeTrap k i tr).cur = s.cur := State.takeTrap_keeps State.cur (fun _ _ _ _ => rfl) ..
@[simp] theorem State.takeTrap_reqs (s : State) (k i : Nat) (tr : Trap) : (s.takeTrap k i tr).reqs = s.reqs := State.takeTrap_keeps State.reqs (fun _ _ _ _ => rfl) ..
@[simp] theorem State.takeTrap_sideLog (s : State) (k i : Nat) (tr : Trap) : (s.takeTrap k i tr).sideLog = s.sideLog := State.takeTrap_keeps State.sideLog (fun _ _ _ _ => rfl) ..
@[simp] theorem State.takeTrap_faults (s : State) (k i : Nat) (tr : Trap) : (s.takeTrap k i tr).faults = s.faults := State.takeTrap_keeps State.faults (fun _ _ _ _ => rfl) ..
@[simp] theorem State.takeTrap_nextFid (s : State) (k i : Nat) (tr : Trap) : (s.takeTrap k i tr).nextFid = s.nextFid := State.takeTrap_keeps State.nextFid (fun _ _ _ _ => rfl) ..
@[simp] theorem State.takeTrap_copies (s : State) (k i : Nat) (tr : Trap) : (s.takeTrap k i tr).copies = s.copies := State.takeTrap_keeps State.copies (fun _ _ _ _ => rfl) ..
@[simp] theorem State.takeTrap_acc (s : State) (k i : Nat) (tr : Trap) : (s.takeTrap k i tr).acc = s.acc := State.takeTrap_keeps State.acc (fun _ _ _ _ => rfl) ..
@[simp] theorem State.takeTrap_scale (s : State) (k i : Nat) (tr : Trap) : (s.takeTrap k i tr).scale = s.scale := State.takeTrap_keeps State.scale (fun _ _ _ _ => rfl) ..
@[simp] theorem State.takeTrap_passes (s : State) (k i : Nat) (tr : Trap) : (s.takeTrap k i tr).passes = s.passes := State.takeTrap_keeps State.passes (fun _ _ _ _ => rfl) ..
@[simp] theorem State.takeTrap_passWin (s : State) (k i : Nat) (tr : Trap) : (s.takeTrap k i tr).passWin = s.passWin := State.takeTrap_keeps State.passWin (fun _ _ _ _ => rfl) ..
@[simp] theorem State.takeTrap_soft (s : State) (k i : Nat) (tr : Trap) : (s.takeTrap k i tr).soft = s.soft := State.takeTrap_keeps State.soft (fun _ _ _ _ => rfl) ..
@[simp] theorem State.takeTrap_saigaLast (s : State) (k i : Nat) (tr : Trap) : (s.takeTrap k i tr).saigaLast = s.saigaLast := State.takeTrap_keeps State.saigaLast (fun _ _ _ _ => rfl) ..

/-! ### trapAll, field by field -/

@[simp] theorem State.trapAll_now (s : State) (k : Nat) (is : List Nat) (tr : Trap) : (s.trapAll k is tr).now = s.now := State.trapAll_keeps State.now (fun _ _ _ _ => rfl) ..
@[simp] theorem State.trapAll_agenda (s : State) (k : Nat) (is : List Nat) (tr : Trap) : (s.trapAll k is tr).agenda = s.agenda := State.trapAll_keeps State.agenda (fun _ _ _ _ => rfl) ..
@[simp] theorem State.trapAll_kept (s : State) (k : Nat) (is : List Nat) (tr : Trap) : (s.trapAll k is tr).kept = s.kept := State.trapAll_keeps State.kept (fun _ _ _ _ => rfl) ..
@[simp] theorem State.trapAll_free (s : State) (k : Nat) (is : List Nat) (tr : Trap) : (s.trapAll k is tr).free = s.free := State.trapAll_keeps State.free (fun _ _ _ _ => rfl) ..
@[simp] theorem State.trapAll_nextKey (s : State) (k : Nat) (is : List Nat) (tr : Trap) : (s.trapAll k is tr).nextKey = s.nextKey := State.trapAll_keeps State.nextKey (fun _ _ _ _ => rfl) ..
@[simp] theorem State.trapAll_irq (s : State) (k : Nat) (is : List Nat) (tr : Trap) : (s.trapAll k is tr).irq = s.irq := State.trapAll_keeps State.irq (fun _ _ _ _ => rfl) ..
@[simp] theorem State.trapAll_hostOut (s : State) (k : Nat) (is : List Nat) (tr : Trap) : (s.trapAll k is tr).hostOut = s.hostOut := State.trapAll_keeps State.hostOut (fun _ _ _ _ => rfl) ..
@[simp] theorem State.trapAll_trace (s : State) (k : Nat) (is : List Nat) (tr : Trap) : (s.trapAll k is tr).trace = s.trace := State.trapAll_keeps State.trace (fun _ _ _ _ => rfl) ..
@[simp] theorem State.trapAll_mem (s : State) (k : Nat) (is : List Nat) (tr : Trap) : (s.trapAll k is tr).mem = s.mem := State.trapAll_keeps State.mem (fun _ _ _ _ => rfl) ..
@[simp] theorem State.trapAll_towers (s : State) (k : Nat) (is : List Nat) (tr : Trap) : (s.trapAll k is tr).towers = s.towers := State.trapAll_keeps State.towers (fun _ _ _ _ => rfl) ..
@[simp] theorem State.trapAll_hub (s : State) (k : Nat) (is : List Nat) (tr : Trap) : (s.trapAll k is tr).hub = s.hub := State.trapAll_keeps State.hub (fun _ _ _ _ => rfl) ..
@[simp] theorem State.trapAll_fab (s : State) (k : Nat) (is : List Nat) (tr : Trap) : (s.trapAll k is tr).fab = s.fab := State.trapAll_keeps State.fab (fun _ _ _ _ => rfl) ..
@[simp] theorem State.trapAll_wqs (s : State) (k : Nat) (is : List Nat) (tr : Trap) : (s.trapAll k is tr).wqs = s.wqs := State.trapAll_keeps State.wqs (fun _ _ _ _ => rfl) ..
@[simp] theorem State.trapAll_rr (s : State) (k : Nat) (is : List Nat) (tr : Trap) : (s.trapAll k is tr).rr = s.rr := State.trapAll_keeps State.rr (fun _ _ _ _ => rfl) ..
@[simp] theorem State.trapAll_lastSlot (s : State) (k : Nat) (is : List Nat) (tr : Trap) : (s.trapAll k is tr).lastSlot = s.lastSlot := State.trapAll_keeps State.lastSlot (fun _ _ _ _ => rfl) ..
@[simp] theorem State.trapAll_eqs (s : State) (k : Nat) (is : List Nat) (tr : Trap) : (s.trapAll k is tr).eqs = s.eqs := State.trapAll_keeps State.eqs (fun _ _ _ _ => rfl) ..
@[simp] theorem State.trapAll_launches (s : State) (k : Nat) (is : List Nat) (tr : Trap) : (s.trapAll k is tr).launches = s.launches := State.trapAll_keeps State.launches (fun _ _ _ _ => rfl) ..
@[simp] theorem State.trapAll_nextGrid (s : State) (k : Nat) (is : List Nat) (tr : Trap) : (s.trapAll k is tr).nextGrid = s.nextGrid := State.trapAll_keeps State.nextGrid (fun _ _ _ _ => rfl) ..
@[simp] theorem State.trapAll_runs (s : State) (k : Nat) (is : List Nat) (tr : Trap) : (s.trapAll k is tr).runs = s.runs := State.trapAll_keeps State.runs (fun _ _ _ _ => rfl) ..
@[simp] theorem State.trapAll_cur (s : State) (k : Nat) (is : List Nat) (tr : Trap) : (s.trapAll k is tr).cur = s.cur := State.trapAll_keeps State.cur (fun _ _ _ _ => rfl) ..
@[simp] theorem State.trapAll_reqs (s : State) (k : Nat) (is : List Nat) (tr : Trap) : (s.trapAll k is tr).reqs = s.reqs := State.trapAll_keeps State.reqs (fun _ _ _ _ => rfl) ..
@[simp] theorem State.trapAll_sideLog (s : State) (k : Nat) (is : List Nat) (tr : Trap) : (s.trapAll k is tr).sideLog = s.sideLog := State.trapAll_keeps State.sideLog (fun _ _ _ _ => rfl) ..
@[simp] theorem State.trapAll_faults (s : State) (k : Nat) (is : List Nat) (tr : Trap) : (s.trapAll k is tr).faults = s.faults := State.trapAll_keeps State.faults (fun _ _ _ _ => rfl) ..
@[simp] theorem State.trapAll_nextFid (s : State) (k : Nat) (is : List Nat) (tr : Trap) : (s.trapAll k is tr).nextFid = s.nextFid := State.trapAll_keeps State.nextFid (fun _ _ _ _ => rfl) ..
@[simp] theorem State.trapAll_copies (s : State) (k : Nat) (is : List Nat) (tr : Trap) : (s.trapAll k is tr).copies = s.copies := State.trapAll_keeps State.copies (fun _ _ _ _ => rfl) ..
@[simp] theorem State.trapAll_acc (s : State) (k : Nat) (is : List Nat) (tr : Trap) : (s.trapAll k is tr).acc = s.acc := State.trapAll_keeps State.acc (fun _ _ _ _ => rfl) ..
@[simp] theorem State.trapAll_scale (s : State) (k : Nat) (is : List Nat) (tr : Trap) : (s.trapAll k is tr).scale = s.scale := State.trapAll_keeps State.scale (fun _ _ _ _ => rfl) ..
@[simp] theorem State.trapAll_passes (s : State) (k : Nat) (is : List Nat) (tr : Trap) : (s.trapAll k is tr).passes = s.passes := State.trapAll_keeps State.passes (fun _ _ _ _ => rfl) ..
@[simp] theorem State.trapAll_passWin (s : State) (k : Nat) (is : List Nat) (tr : Trap) : (s.trapAll k is tr).passWin = s.passWin := State.trapAll_keeps State.passWin (fun _ _ _ _ => rfl) ..
@[simp] theorem State.trapAll_soft (s : State) (k : Nat) (is : List Nat) (tr : Trap) : (s.trapAll k is tr).soft = s.soft := State.trapAll_keeps State.soft (fun _ _ _ _ => rfl) ..
@[simp] theorem State.trapAll_saigaLast (s : State) (k : Nat) (is : List Nat) (tr : Trap) : (s.trapAll k is tr).saigaLast = s.saigaLast := State.trapAll_keeps State.saigaLast (fun _ _ _ _ => rfl) ..

/-! ### lateTrap, field by field -/

@[simp] theorem State.lateTrap_now (s : State) (k i n : Nat) (tr : Trap) : (s.lateTrap k i n tr).now = s.now := State.lateTrap_keeps State.now (fun _ _ _ _ => rfl) ..
@[simp] theorem State.lateTrap_agenda (s : State) (k i n : Nat) (tr : Trap) : (s.lateTrap k i n tr).agenda = s.agenda := State.lateTrap_keeps State.agenda (fun _ _ _ _ => rfl) ..
@[simp] theorem State.lateTrap_kept (s : State) (k i n : Nat) (tr : Trap) : (s.lateTrap k i n tr).kept = s.kept := State.lateTrap_keeps State.kept (fun _ _ _ _ => rfl) ..
@[simp] theorem State.lateTrap_free (s : State) (k i n : Nat) (tr : Trap) : (s.lateTrap k i n tr).free = s.free := State.lateTrap_keeps State.free (fun _ _ _ _ => rfl) ..
@[simp] theorem State.lateTrap_nextKey (s : State) (k i n : Nat) (tr : Trap) : (s.lateTrap k i n tr).nextKey = s.nextKey := State.lateTrap_keeps State.nextKey (fun _ _ _ _ => rfl) ..
@[simp] theorem State.lateTrap_irq (s : State) (k i n : Nat) (tr : Trap) : (s.lateTrap k i n tr).irq = s.irq := State.lateTrap_keeps State.irq (fun _ _ _ _ => rfl) ..
@[simp] theorem State.lateTrap_hostOut (s : State) (k i n : Nat) (tr : Trap) : (s.lateTrap k i n tr).hostOut = s.hostOut := State.lateTrap_keeps State.hostOut (fun _ _ _ _ => rfl) ..
@[simp] theorem State.lateTrap_trace (s : State) (k i n : Nat) (tr : Trap) : (s.lateTrap k i n tr).trace = s.trace := State.lateTrap_keeps State.trace (fun _ _ _ _ => rfl) ..
@[simp] theorem State.lateTrap_mem (s : State) (k i n : Nat) (tr : Trap) : (s.lateTrap k i n tr).mem = s.mem := State.lateTrap_keeps State.mem (fun _ _ _ _ => rfl) ..
@[simp] theorem State.lateTrap_towers (s : State) (k i n : Nat) (tr : Trap) : (s.lateTrap k i n tr).towers = s.towers := State.lateTrap_keeps State.towers (fun _ _ _ _ => rfl) ..
@[simp] theorem State.lateTrap_hub (s : State) (k i n : Nat) (tr : Trap) : (s.lateTrap k i n tr).hub = s.hub := State.lateTrap_keeps State.hub (fun _ _ _ _ => rfl) ..
@[simp] theorem State.lateTrap_fab (s : State) (k i n : Nat) (tr : Trap) : (s.lateTrap k i n tr).fab = s.fab := State.lateTrap_keeps State.fab (fun _ _ _ _ => rfl) ..
@[simp] theorem State.lateTrap_wqs (s : State) (k i n : Nat) (tr : Trap) : (s.lateTrap k i n tr).wqs = s.wqs := State.lateTrap_keeps State.wqs (fun _ _ _ _ => rfl) ..
@[simp] theorem State.lateTrap_rr (s : State) (k i n : Nat) (tr : Trap) : (s.lateTrap k i n tr).rr = s.rr := State.lateTrap_keeps State.rr (fun _ _ _ _ => rfl) ..
@[simp] theorem State.lateTrap_lastSlot (s : State) (k i n : Nat) (tr : Trap) : (s.lateTrap k i n tr).lastSlot = s.lastSlot := State.lateTrap_keeps State.lastSlot (fun _ _ _ _ => rfl) ..
@[simp] theorem State.lateTrap_eqs (s : State) (k i n : Nat) (tr : Trap) : (s.lateTrap k i n tr).eqs = s.eqs := State.lateTrap_keeps State.eqs (fun _ _ _ _ => rfl) ..
@[simp] theorem State.lateTrap_launches (s : State) (k i n : Nat) (tr : Trap) : (s.lateTrap k i n tr).launches = s.launches := State.lateTrap_keeps State.launches (fun _ _ _ _ => rfl) ..
@[simp] theorem State.lateTrap_nextGrid (s : State) (k i n : Nat) (tr : Trap) : (s.lateTrap k i n tr).nextGrid = s.nextGrid := State.lateTrap_keeps State.nextGrid (fun _ _ _ _ => rfl) ..
@[simp] theorem State.lateTrap_runs (s : State) (k i n : Nat) (tr : Trap) : (s.lateTrap k i n tr).runs = s.runs := State.lateTrap_keeps State.runs (fun _ _ _ _ => rfl) ..
@[simp] theorem State.lateTrap_cur (s : State) (k i n : Nat) (tr : Trap) : (s.lateTrap k i n tr).cur = s.cur := State.lateTrap_keeps State.cur (fun _ _ _ _ => rfl) ..
@[simp] theorem State.lateTrap_reqs (s : State) (k i n : Nat) (tr : Trap) : (s.lateTrap k i n tr).reqs = s.reqs := State.lateTrap_keeps State.reqs (fun _ _ _ _ => rfl) ..
@[simp] theorem State.lateTrap_sideLog (s : State) (k i n : Nat) (tr : Trap) : (s.lateTrap k i n tr).sideLog = s.sideLog := State.lateTrap_keeps State.sideLog (fun _ _ _ _ => rfl) ..
@[simp] theorem State.lateTrap_faults (s : State) (k i n : Nat) (tr : Trap) : (s.lateTrap k i n tr).faults = s.faults := State.lateTrap_keeps State.faults (fun _ _ _ _ => rfl) ..
@[simp] theorem State.lateTrap_nextFid (s : State) (k i n : Nat) (tr : Trap) : (s.lateTrap k i n tr).nextFid = s.nextFid := State.lateTrap_keeps State.nextFid (fun _ _ _ _ => rfl) ..
@[simp] theorem State.lateTrap_copies (s : State) (k i n : Nat) (tr : Trap) : (s.lateTrap k i n tr).copies = s.copies := State.lateTrap_keeps State.copies (fun _ _ _ _ => rfl) ..
@[simp] theorem State.lateTrap_acc (s : State) (k i n : Nat) (tr : Trap) : (s.lateTrap k i n tr).acc = s.acc := State.lateTrap_keeps State.acc (fun _ _ _ _ => rfl) ..
@[simp] theorem State.lateTrap_scale (s : State) (k i n : Nat) (tr : Trap) : (s.lateTrap k i n tr).scale = s.scale := State.lateTrap_keeps State.scale (fun _ _ _ _ => rfl) ..
@[simp] theorem State.lateTrap_passes (s : State) (k i n : Nat) (tr : Trap) : (s.lateTrap k i n tr).passes = s.passes := State.lateTrap_keeps State.passes (fun _ _ _ _ => rfl) ..
@[simp] theorem State.lateTrap_passWin (s : State) (k i n : Nat) (tr : Trap) : (s.lateTrap k i n tr).passWin = s.passWin := State.lateTrap_keeps State.passWin (fun _ _ _ _ => rfl) ..
@[simp] theorem State.lateTrap_soft (s : State) (k i n : Nat) (tr : Trap) : (s.lateTrap k i n tr).soft = s.soft := State.lateTrap_keeps State.soft (fun _ _ _ _ => rfl) ..
@[simp] theorem State.lateTrap_saigaLast (s : State) (k i n : Nat) (tr : Trap) : (s.lateTrap k i n tr).saigaLast = s.saigaLast := State.lateTrap_keeps State.saigaLast (fun _ _ _ _ => rfl) ..

/-! ### A register write changes registers and pending bits alone -/

@[simp] theorem Thread.setReg_flags (t : Thread) (r : Reg) (v : Word) : (t.setReg r v).flags = t.flags := rfl
@[simp] theorem Thread.setReg_pc (t : Thread) (r : Reg) (v : Word) : (t.setReg r v).pc = t.pc := rfl
@[simp] theorem Thread.setReg_clause (t : Thread) (r : Reg) (v : Word) : (t.setReg r v).clause = t.clause := rfl
@[simp] theorem Thread.setReg_fpstat (t : Thread) (r : Reg) (v : Word) : (t.setReg r v).fpstat = t.fpstat := rfl
@[simp] theorem Thread.setReg_dphase (t : Thread) (r : Reg) (v : Word) : (t.setReg r v).dphase = t.dphase := rfl
@[simp] theorem Thread.setReg_uchk (t : Thread) (r : Reg) (v : Word) : (t.setReg r v).uchk = t.uchk := rfl
@[simp] theorem Thread.setReg_ftz (t : Thread) (r : Reg) (v : Word) : (t.setReg r v).ftz = t.ftz := rfl
@[simp] theorem Thread.setReg_tpc (t : Thread) (r : Reg) (v : Word) : (t.setReg r v).tpc = t.tpc := rfl
@[simp] theorem Thread.setReg_tclause (t : Thread) (r : Reg) (v : Word) : (t.setReg r v).tclause = t.tclause := rfl
@[simp] theorem Thread.setReg_taddr (t : Thread) (r : Reg) (v : Word) : (t.setReg r v).taddr = t.taddr := rfl
@[simp] theorem Thread.setReg_tcause (t : Thread) (r : Reg) (v : Word) : (t.setReg r v).tcause = t.tcause := rfl
@[simp] theorem Thread.setReg_tinfo (t : Thread) (r : Reg) (v : Word) : (t.setReg r v).tinfo = t.tinfo := rfl
@[simp] theorem Thread.setReg_inTrap (t : Thread) (r : Reg) (v : Word) : (t.setReg r v).inTrap = t.inTrap := rfl
@[simp] theorem Thread.setReg_fscope (t : Thread) (r : Reg) (v : Word) : (t.setReg r v).fscope = t.fscope := rfl
@[simp] theorem Thread.setReg_reads (t : Thread) (r : Reg) (v : Word) : (t.setReg r v).reads = t.reads := rfl
@[simp] theorem Thread.setReg_st (t : Thread) (r : Reg) (v : Word) : (t.setReg r v).st = t.st := rfl
@[simp] theorem Thread.setReg_since (t : Thread) (r : Reg) (v : Word) : (t.setReg r v).since = t.since := rfl
@[simp] theorem Thread.setReg_slot (t : Thread) (r : Reg) (v : Word) : (t.setReg r v).slot = t.slot := rfl
@[simp] theorem Thread.setReg_quad (t : Thread) (r : Reg) (v : Word) : (t.setReg r v).quad = t.quad := rfl
@[simp] theorem Thread.setReg_lane (t : Thread) (r : Reg) (v : Word) : (t.setReg r v).lane = t.lane := rfl
@[simp] theorem Thread.setReg_later (t : Thread) (r : Reg) (v : Word) : (t.setReg r v).later = t.later := rfl
@[simp] theorem Thread.setReg_failed (t : Thread) (r : Reg) (v : Word) : (t.setReg r v).failed = t.failed := rfl
@[simp] theorem Thread.setReg_word (t : Thread) (r : Reg) (v : Word) : (t.setReg r v).word = t.word := rfl
@[simp] theorem Thread.setReg_mates (t : Thread) (r : Reg) (v : Word) : (t.setReg r v).mates = t.mates := rfl
@[simp] theorem Thread.setReg_used (t : Thread) (r : Reg) (v : Word) : (t.setReg r v).used = t.used := rfl
@[simp] theorem Thread.setReg_hdr (t : Thread) (r : Reg) (v : Word) : (t.setReg r v).hdr = t.hdr := rfl

@[simp] theorem Thread.setRegs_flags (t : Thread) (r : Reg) (vs : List Word) : (t.setRegs r vs).flags = t.flags := by
  induction vs generalizing t r with
  | nil => rfl
  | cons v vs ih => exact (ih _ _).trans rfl
@[simp] theorem Thread.setRegs_pc (t : Thread) (r : Reg) (vs : List Word) : (t.setRegs r vs).pc = t.pc := by
  induction vs generalizing t r with
  | nil => rfl
  | cons v vs ih => exact (ih _ _).trans rfl
@[simp] theorem Thread.setRegs_clause (t : Thread) (r : Reg) (vs : List Word) : (t.setRegs r vs).clause = t.clause := by
  induction vs generalizing t r with
  | nil => rfl
  | cons v vs ih => exact (ih _ _).trans rfl
@[simp] theorem Thread.setRegs_fpstat (t : Thread) (r : Reg) (vs : List Word) : (t.setRegs r vs).fpstat = t.fpstat := by
  induction vs generalizing t r with
  | nil => rfl
  | cons v vs ih => exact (ih _ _).trans rfl
@[simp] theorem Thread.setRegs_dphase (t : Thread) (r : Reg) (vs : List Word) : (t.setRegs r vs).dphase = t.dphase := by
  induction vs generalizing t r with
  | nil => rfl
  | cons v vs ih => exact (ih _ _).trans rfl
@[simp] theorem Thread.setRegs_uchk (t : Thread) (r : Reg) (vs : List Word) : (t.setRegs r vs).uchk = t.uchk := by
  induction vs generalizing t r with
  | nil => rfl
  | cons v vs ih => exact (ih _ _).trans rfl
@[simp] theorem Thread.setRegs_ftz (t : Thread) (r : Reg) (vs : List Word) : (t.setRegs r vs).ftz = t.ftz := by
  induction vs generalizing t r with
  | nil => rfl
  | cons v vs ih => exact (ih _ _).trans rfl
@[simp] theorem Thread.setRegs_tpc (t : Thread) (r : Reg) (vs : List Word) : (t.setRegs r vs).tpc = t.tpc := by
  induction vs generalizing t r with
  | nil => rfl
  | cons v vs ih => exact (ih _ _).trans rfl
@[simp] theorem Thread.setRegs_tclause (t : Thread) (r : Reg) (vs : List Word) : (t.setRegs r vs).tclause = t.tclause := by
  induction vs generalizing t r with
  | nil => rfl
  | cons v vs ih => exact (ih _ _).trans rfl
@[simp] theorem Thread.setRegs_taddr (t : Thread) (r : Reg) (vs : List Word) : (t.setRegs r vs).taddr = t.taddr := by
  induction vs generalizing t r with
  | nil => rfl
  | cons v vs ih => exact (ih _ _).trans rfl
@[simp] theorem Thread.setRegs_tcause (t : Thread) (r : Reg) (vs : List Word) : (t.setRegs r vs).tcause = t.tcause := by
  induction vs generalizing t r with
  | nil => rfl
  | cons v vs ih => exact (ih _ _).trans rfl
@[simp] theorem Thread.setRegs_tinfo (t : Thread) (r : Reg) (vs : List Word) : (t.setRegs r vs).tinfo = t.tinfo := by
  induction vs generalizing t r with
  | nil => rfl
  | cons v vs ih => exact (ih _ _).trans rfl
@[simp] theorem Thread.setRegs_inTrap (t : Thread) (r : Reg) (vs : List Word) : (t.setRegs r vs).inTrap = t.inTrap := by
  induction vs generalizing t r with
  | nil => rfl
  | cons v vs ih => exact (ih _ _).trans rfl
@[simp] theorem Thread.setRegs_fscope (t : Thread) (r : Reg) (vs : List Word) : (t.setRegs r vs).fscope = t.fscope := by
  induction vs generalizing t r with
  | nil => rfl
  | cons v vs ih => exact (ih _ _).trans rfl
@[simp] theorem Thread.setRegs_reads (t : Thread) (r : Reg) (vs : List Word) : (t.setRegs r vs).reads = t.reads := by
  induction vs generalizing t r with
  | nil => rfl
  | cons v vs ih => exact (ih _ _).trans rfl
@[simp] theorem Thread.setRegs_st (t : Thread) (r : Reg) (vs : List Word) : (t.setRegs r vs).st = t.st := by
  induction vs generalizing t r with
  | nil => rfl
  | cons v vs ih => exact (ih _ _).trans rfl
@[simp] theorem Thread.setRegs_since (t : Thread) (r : Reg) (vs : List Word) : (t.setRegs r vs).since = t.since := by
  induction vs generalizing t r with
  | nil => rfl
  | cons v vs ih => exact (ih _ _).trans rfl
@[simp] theorem Thread.setRegs_slot (t : Thread) (r : Reg) (vs : List Word) : (t.setRegs r vs).slot = t.slot := by
  induction vs generalizing t r with
  | nil => rfl
  | cons v vs ih => exact (ih _ _).trans rfl
@[simp] theorem Thread.setRegs_quad (t : Thread) (r : Reg) (vs : List Word) : (t.setRegs r vs).quad = t.quad := by
  induction vs generalizing t r with
  | nil => rfl
  | cons v vs ih => exact (ih _ _).trans rfl
@[simp] theorem Thread.setRegs_lane (t : Thread) (r : Reg) (vs : List Word) : (t.setRegs r vs).lane = t.lane := by
  induction vs generalizing t r with
  | nil => rfl
  | cons v vs ih => exact (ih _ _).trans rfl
@[simp] theorem Thread.setRegs_later (t : Thread) (r : Reg) (vs : List Word) : (t.setRegs r vs).later = t.later := by
  induction vs generalizing t r with
  | nil => rfl
  | cons v vs ih => exact (ih _ _).trans rfl
@[simp] theorem Thread.setRegs_failed (t : Thread) (r : Reg) (vs : List Word) : (t.setRegs r vs).failed = t.failed := by
  induction vs generalizing t r with
  | nil => rfl
  | cons v vs ih => exact (ih _ _).trans rfl
@[simp] theorem Thread.setRegs_word (t : Thread) (r : Reg) (vs : List Word) : (t.setRegs r vs).word = t.word := by
  induction vs generalizing t r with
  | nil => rfl
  | cons v vs ih => exact (ih _ _).trans rfl
@[simp] theorem Thread.setRegs_mates (t : Thread) (r : Reg) (vs : List Word) : (t.setRegs r vs).mates = t.mates := by
  induction vs generalizing t r with
  | nil => rfl
  | cons v vs ih => exact (ih _ _).trans rfl
@[simp] theorem Thread.setRegs_used (t : Thread) (r : Reg) (vs : List Word) : (t.setRegs r vs).used = t.used := by
  induction vs generalizing t r with
  | nil => rfl
  | cons v vs ih => exact (ih _ _).trans rfl
@[simp] theorem Thread.setRegs_hdr (t : Thread) (r : Reg) (vs : List Word) : (t.setRegs r vs).hdr = t.hdr := by
  induction vs generalizing t r with
  | nil => rfl
  | cons v vs ih => exact (ih _ _).trans rfl

@[simp] theorem Thread.orFlags_regs (t : Thread) (w : Word) : (t.orFlags w).regs = t.regs := rfl
@[simp] theorem Thread.orFlags_pend (t : Thread) (w : Word) : (t.orFlags w).pend = t.pend := rfl
@[simp] theorem Thread.orFlags_flags (t : Thread) (w : Word) : (t.orFlags w).flags = t.flags := rfl
@[simp] theorem Thread.orFlags_pc (t : Thread) (w : Word) : (t.orFlags w).pc = t.pc := rfl
@[simp] theorem Thread.orFlags_clause (t : Thread) (w : Word) : (t.orFlags w).clause = t.clause := rfl
@[simp] theorem Thread.orFlags_dphase (t : Thread) (w : Word) : (t.orFlags w).dphase = t.dphase := rfl
@[simp] theorem Thread.orFlags_uchk (t : Thread) (w : Word) : (t.orFlags w).uchk = t.uchk := rfl
@[simp] theorem Thread.orFlags_ftz (t : Thread) (w : Word) : (t.orFlags w).ftz = t.ftz := rfl
@[simp] theorem Thread.orFlags_tpc (t : Thread) (w : Word) : (t.orFlags w).tpc = t.tpc := rfl
@[simp] theorem Thread.orFlags_tclause (t : Thread) (w : Word) : (t.orFlags w).tclause = t.tclause := rfl
@[simp] theorem Thread.orFlags_taddr (t : Thread) (w : Word) : (t.orFlags w).taddr = t.taddr := rfl
@[simp] theorem Thread.orFlags_tcause (t : Thread) (w : Word) : (t.orFlags w).tcause = t.tcause := rfl
@[simp] theorem Thread.orFlags_tinfo (t : Thread) (w : Word) : (t.orFlags w).tinfo = t.tinfo := rfl
@[simp] theorem Thread.orFlags_inTrap (t : Thread) (w : Word) : (t.orFlags w).inTrap = t.inTrap := rfl
@[simp] theorem Thread.orFlags_fscope (t : Thread) (w : Word) : (t.orFlags w).fscope = t.fscope := rfl
@[simp] theorem Thread.orFlags_reads (t : Thread) (w : Word) : (t.orFlags w).reads = t.reads := rfl
@[simp] theorem Thread.orFlags_st (t : Thread) (w : Word) : (t.orFlags w).st = t.st := rfl
@[simp] theorem Thread.orFlags_since (t : Thread) (w : Word) : (t.orFlags w).since = t.since := rfl
@[simp] theorem Thread.orFlags_slot (t : Thread) (w : Word) : (t.orFlags w).slot = t.slot := rfl
@[simp] theorem Thread.orFlags_quad (t : Thread) (w : Word) : (t.orFlags w).quad = t.quad := rfl
@[simp] theorem Thread.orFlags_lane (t : Thread) (w : Word) : (t.orFlags w).lane = t.lane := rfl
@[simp] theorem Thread.orFlags_later (t : Thread) (w : Word) : (t.orFlags w).later = t.later := rfl
@[simp] theorem Thread.orFlags_failed (t : Thread) (w : Word) : (t.orFlags w).failed = t.failed := rfl
@[simp] theorem Thread.orFlags_word (t : Thread) (w : Word) : (t.orFlags w).word = t.word := rfl
@[simp] theorem Thread.orFlags_mates (t : Thread) (w : Word) : (t.orFlags w).mates = t.mates := rfl
@[simp] theorem Thread.orFlags_used (t : Thread) (w : Word) : (t.orFlags w).used = t.used := rfl
@[simp] theorem Thread.orFlags_hdr (t : Thread) (w : Word) : (t.orFlags w).hdr = t.hdr := rfl

@[simp] theorem Thread.step_regs (t : Thread) (i : Instr) : (t.step i).regs = t.regs := rfl
@[simp] theorem Thread.step_pend (t : Thread) (i : Instr) : (t.step i).pend = t.pend := rfl
@[simp] theorem Thread.step_flags (t : Thread) (i : Instr) : (t.step i).flags = t.flags := rfl
@[simp] theorem Thread.step_fpstat (t : Thread) (i : Instr) : (t.step i).fpstat = t.fpstat := rfl
@[simp] theorem Thread.step_dphase (t : Thread) (i : Instr) : (t.step i).dphase = t.dphase := rfl
@[simp] theorem Thread.step_uchk (t : Thread) (i : Instr) : (t.step i).uchk = t.uchk := rfl
@[simp] theorem Thread.step_ftz (t : Thread) (i : Instr) : (t.step i).ftz = t.ftz := rfl
@[simp] theorem Thread.step_tpc (t : Thread) (i : Instr) : (t.step i).tpc = t.tpc := rfl
@[simp] theorem Thread.step_tclause (t : Thread) (i : Instr) : (t.step i).tclause = t.tclause := rfl
@[simp] theorem Thread.step_taddr (t : Thread) (i : Instr) : (t.step i).taddr = t.taddr := rfl
@[simp] theorem Thread.step_tcause (t : Thread) (i : Instr) : (t.step i).tcause = t.tcause := rfl
@[simp] theorem Thread.step_tinfo (t : Thread) (i : Instr) : (t.step i).tinfo = t.tinfo := rfl
@[simp] theorem Thread.step_inTrap (t : Thread) (i : Instr) : (t.step i).inTrap = t.inTrap := rfl
@[simp] theorem Thread.step_fscope (t : Thread) (i : Instr) : (t.step i).fscope = t.fscope := rfl
@[simp] theorem Thread.step_reads (t : Thread) (i : Instr) : (t.step i).reads = t.reads := rfl
@[simp] theorem Thread.step_st (t : Thread) (i : Instr) : (t.step i).st = t.st := rfl
@[simp] theorem Thread.step_since (t : Thread) (i : Instr) : (t.step i).since = t.since := rfl
@[simp] theorem Thread.step_slot (t : Thread) (i : Instr) : (t.step i).slot = t.slot := rfl
@[simp] theorem Thread.step_quad (t : Thread) (i : Instr) : (t.step i).quad = t.quad := rfl
@[simp] theorem Thread.step_lane (t : Thread) (i : Instr) : (t.step i).lane = t.lane := rfl
@[simp] theorem Thread.step_later (t : Thread) (i : Instr) : (t.step i).later = t.later := rfl
@[simp] theorem Thread.step_failed (t : Thread) (i : Instr) : (t.step i).failed = t.failed := rfl
@[simp] theorem Thread.step_word (t : Thread) (i : Instr) : (t.step i).word = t.word := rfl
@[simp] theorem Thread.step_mates (t : Thread) (i : Instr) : (t.step i).mates = t.mates := rfl
@[simp] theorem Thread.step_used (t : Thread) (i : Instr) : (t.step i).used = t.used := rfl
@[simp] theorem Thread.step_hdr (t : Thread) (i : Instr) : (t.step i).hdr = t.hdr := rfl

end Sys2Proof.Machine
end

