-- ==== Sys2Proof/Laws/Teams.lean ====
section
/-!
SUPPORT. Finding a team or a thread after one of them has changed.
-/
namespace Sys2Proof.Machine

/-- A find whose test the change leaves alone finds the changed element. -/
theorem find?_map_if {α : Type} (l : List α) (p q : α → Bool) (f : α → α) (h : ∀ x, q (f x) = q x) :
    (l.map fun x => if p x then f x else x).find? q = (l.find? q).map fun x => if p x then f x else x := by
  induction l with
  | nil => rfl
  | cons x l ih =>
    have hx : q (if p x then f x else x) = q x := by split <;> simp [h]
    simp only [List.map_cons, List.find?_cons, hx, ih]
    cases q x <;> rfl

/-- The team changed is found changed; every other team is found as before. -/
theorem State.team?_modTeam (s : State) (k j : Nat) (f : Team → Team) (h : ∀ t, (f t).key = t.key) :
    (s.modTeam k f).team? j = if j = k then (s.team? j).map f else s.team? j := by
  unfold State.team? State.modTeam
  simp only []
  rw [find?_map_if _ (fun t => t.key == k) (fun t => t.key == j) f (fun t => by rw [h])]
  by_cases hj : j = k
  · rw [if_pos hj]
    cases ht : s.teams.find? (fun t => t.key == j) with
    | none => rfl
    | some t =>
      have hk : t.key == j := by simpa using List.find?_some ht
      simp only [Option.map_some, ← hj, hk, if_true]
  · rw [if_neg hj]
    cases ht : s.teams.find? (fun t => t.key == j) with
    | none => rfl
    | some t =>
      have hk : t.key == j := by simpa using List.find?_some ht
      have hn : (t.key == k) = false := by rw [eq_of_beq hk]; simpa using hj
      simp only [Option.map_some, hn, Bool.false_eq_true, if_false]

/-- Changing a thread keeps its team's key. -/
@[simp] theorem Team.modThread_key (t : Team) (i : Nat) (f : Thread → Thread) : (t.modThread i f).key = t.key := rfl

/-- The thread changed is found changed; every other thread of every team is found as before. -/
theorem State.thread?_modThread (s : State) (k i j n : Nat) (f : Thread → Thread) :
    (s.modThread k i f).thread? j n = if j = k ∧ n = i then (s.thread? j n).map f else s.thread? j n := by
  unfold State.thread? State.modThread
  rw [State.team?_modTeam s k j (fun t => t.modThread i f) (fun _ => rfl)]
  by_cases hj : j = k
  · subst hj
    rw [if_pos rfl]
    cases s.team? j with
    | none => simp
    | some t =>
      simp only [Option.map_some, Option.bind_some, Team.modThread, List.getElem?_modify, true_and]
      by_cases hn : n = i
      · subst hn; simp
      · rw [if_neg hn]
        have hi : ¬i = n := fun e => hn e.symm
        simp [hi]
  · rw [if_neg hj, if_neg (fun e => hj e.1)]

/-- A thread that is not among those changed is found as before. -/
theorem State.thread?_modThreads_of_not_mem (s : State) (k : Nat) (is : List Nat) (f : Thread → Thread) (j n : Nat) (h : j = k → n ∉ is) :
    (s.modThreads k is f).thread? j n = s.thread? j n := by
  induction is generalizing s with
  | nil => rfl
  | cons i is ih =>
    rw [State.modThreads, ih _ (fun e m => h e (List.mem_cons_of_mem _ m)), State.thread?_modThread, if_neg]
    rintro ⟨e, rfl⟩
    exact h e List.mem_cons_self

/-- A thread that is once among those changed is found changed. -/
theorem State.thread?_modThreads_of_mem (s : State) (k : Nat) (is : List Nat) (f : Thread → Thread) (n : Nat) (hn : is.Nodup) (h : n ∈ is) :
    (s.modThreads k is f).thread? k n = (s.thread? k n).map f := by
  induction is generalizing s with
  | nil => cases h
  | cons i is ih =>
    rw [List.nodup_cons] at hn
    rw [State.modThreads]
    by_cases e : n = i
    · subst e
      rw [State.thread?_modThreads_of_not_mem _ _ _ _ _ _ (fun _ => hn.1), State.thread?_modThread, if_pos ⟨rfl, rfl⟩]
    · rw [ih _ hn.2 ((List.mem_cons.mp h).resolve_left e), State.thread?_modThread, if_neg (fun x => e x.2)]

end Sys2Proof.Machine
end

