-- ==== Sys2Proof/Tests/Slice0.lean ====
section
/-!
SUPPORT. Tests on fixed words and small states, with results taken from the specification's encodings and rules, and a witness for the hypotheses of every statement.
-/
namespace Sys2Proof.Tests
open Sys2Proof.Machine

set_option maxRecDepth 100000
set_option Elab.async false

/-! ### Decoding: words written out from R268, R270 to R273, R278 to R281 and R312 -/

/-- The words decode, in a clause of the class, to what stands beside them. -/
def decodesAll (k : Cls) (rows : List (Word × Option Word × Instr)) : Bool :=
  rows.all fun r => match decode k r.1 r.2.1 with | .ok i => decide (i = r.2.2) | .error _ => false

def rr (a : Reg) : Alu := { u := false, d := 8, a := a, b := .reg 6 }
def ru : Alu := { u := false, d := 8, a := 4, b := .reg 0 }
def ri : Alu := { u := false, d := 8, a := 4, b := .imm 0x7F }
def rl : Alu := { u := false, d := 8, a := 4, b := .lit 0x12345678 }
def re (x : Reg) (fn : BitVec 14) (sat : Bool) : Alu :=
  { u := false, d := 8, a := 4, b := .ext 6 { c := x, na := false, nb := false, nc := false, aa := false, ab := false, ac := false, sat := sat, ro := false, rm := 0, fn := fn } }
def m (z : Size) (sc : Scope) (ord : Order) (rt : RType) (g : Bool) (d a : Reg) (lit : Option Word) : MemOp :=
  { z := z, u := false, g := g, lit := lit, d := d, a := a, sc := sc, ord := ord, rt := rt }
def e (g : Bool) (d a b : Reg) (lit : Option Word) : EngOp := { u := false, g := g, lit := lit, d := d, a := a, b := b }
def c (d a : Reg) (off : Option Word) (u : Bool) : CtlOp := { u := u, off := off, d := d, a := a }


/-! ### WellFormed: one ill-formed term for each check, which the check refuses -/

/-- An ill-formed instruction: the check refuses it. -/
def refused (i : Instr) : Bool := !i.wf

/-- INT, FLT and XFN: U on MOVH (R310); a nonzero A of MOV; a nonzero B of NOT; M 00 for SETC; M 01 for SHF; M 10 for NEG; M 11 for AND. -/
theorem test_wf_modes : ([.movh { ru with u := true }, .mov ri, .not (rr 4), .setc false (rr 4), .shf ri, .neg rl, .and (re 0 0 false)].all refused) = true := by decide

/-- The extension word (R271, R294, R321): modifiers on an INT word, SAT where it does not apply, C where it is not read, RM without RO, RM 6, RO where it is not taken, RM 5 on no narrowing conversion, an FN that names nothing. -/
theorem test_wf_extension :
    let x (f : Ext → Ext) : Alu := { u := false, d := 8, a := 4, b := .ext 6 (f { c := 0, na := false, nb := false, nc := false, aa := false, ab := false, ac := false, sat := false, ro := false, rm := 0, fn := 0 }) }
    ([.add false (x fun e => { e with na := true }), .add false (x fun e => { e with ab := true }), .fadd (x fun e => { e with nc := true }), .fadd (x fun e => { e with sat := true }),
      .fadd (x fun e => { e with c := 1 }), .fadd (x fun e => { e with rm := 1 }), .fadd (x fun e => { e with ro := true, rm := 6 }), .fmin (x fun e => { e with ro := true }),
      .frnd { x (fun e => { e with ro := true, rm := 5 }) with b := .ext 0 { c := 0, na := false, nb := false, nc := false, aa := false, ab := false, ac := false, sat := false, ro := true, rm := 5, fn := 0 } },
      .setc false (x fun e => { e with fn := 6 }), .tlog (x fun e => { e with fn := 256 }), .lea (x fun e => { e with fn := 5 }), .fsetc (x fun e => { e with fn := 14 }),
      .vaddh (x fun e => { e with fn := 4 }), .pack .f16 (x fun e => { e with fn := 1 })].all refused) = true := by decide

/-- Formats (R279): PACK and UNPK of FP32, CVT of a format to itself. -/
theorem test_wf_formats : ([.pack .f32 ru, .unpk .f32 ru, .cvt .f16 .f16 ru].all refused) = true := by decide

/-- MEM (R338): U on FENCE; a size, D, A, literal, scope, order or request type that the word does not take. -/
theorem test_wf_mem :
    ([.fence { m .b8 .sys .ar .dflt false 0 0 none with u := true }, .atom (m .b8 .pkg .rlx .dflt false 8 4 (some 0)), .pref (m .b8 .team .rlx .dflt false 1 4 none),
      .fence (m .b8 .sys .ar .dflt false 0 4 none), .fence (m .b8 .sys .ar .dflt false 0 0 (some 0)), .red (m .b32 .pkg .rlx .dflt false 8 4 none),
      .red (m .b32 .pkg .rlx .dflt false 8 4 (some 0x08000000)), .atom (m .b64 .pkg .rlx .dflt false 8 4 (some 0x09000000)), .lds (m .b32 .team .rlx .dflt false 8 4 (some 0x01000000)),
      .redc (m .b32 .sys .rlx .dflt false 8 4 none), .maps (m .b8 .pkg .rlx .dflt false 8 4 (some 0)), .ld (m .b32 .pkg .acq .dflt false 8 4 none), .strel (m .b32 .pkg .rlx .dflt false 8 4 none),
      .fence (m .b8 .sys .rlx .dflt false 0 0 none), .atom (m .b32 .pkg .rlx .nc false 8 4 (some 0)), .pref (m .b8 .team .rlx .si false 0 4 none)].all refused) = true := by decide

/-- ENG and SYS (R357, R361, R365, R367, R370, R392, R393): U, the fields D, A and B, the literal and its value; U on SRD of a register that is not uniform; a special register that cannot be written. -/
theorem test_wf_eng :
    ([.copy { e false 8 4 0 none with u := true }, .srd { e false 8 0 0 none with u := true }, .scld (e false 1 4 6 none), .rdv (e false 0 1 0 none), .copy (e false 8 4 1 none),
      .tbarv (e false 0 4 6 (some 1)), .bararv (e false 0 4 1 (some 1)), .bararv (e false 0 4 16 none), .mma (e false 8 4 0 (some 0)), .cont (e false 0 4 6 none), .tbwait (e false 8 4 0 (some 16)),
      .stgwait (e false 8 4 6 (some 16)), .accrd (e false 8 4 8 none), .rdvs (e false 8 4 11 none), .accst (e false 8 4 6 (some 0x0A001000)), .accld (e false 8 4 6 (some 0x22001000)), .swr (e false 0 4 0x0D none),
      .srd (e false 8 0 0x7F none)].all refused) = true := by decide

/-- Control (R312): U on BRA, a missing and a superfluous offset, a nonzero D and A. -/
theorem test_wf_control :
    ([.bra (c 0 0 (some 4) true), .bz (c 0 4 none false), .ret (c 0 2 (some 4) false), .bz (c 1 4 (some 4) false), .call (c 2 1 (some 4) false)].all refused) = true := by decide

/-- Words whose fate the specification names (R269, R273, R278, R367, R370, R383, R393, R394): they decode to nothing. -/
theorem test_decode_refuses :
    ([(Cls.int, (0x22000000 : Word), none), (.mem, 0x05220240, some 16), (.mem, 0x02020245, none), (.flt, 0x0062858C, none), (.eng, 0x00828300, none), (.sys, 0x00808000, none), (.sys, 0x0100028D, none),
      (.eng, 0x06210307, some 0x0A001000), (.eng, 0x0F20C300, some 16)].all fun r => match decode r.1 r.2.1 r.2.2 with | .ok _ => false | .error _ => true) = true := by decide

theorem test_decode_int1 : decodesAll .int [
  (0x00020206, none, .add false (rr 4)),
  (0x0122027F, none, .add true ri),
  (0x02420200, some 0x12345678, .sub false rl),
  (0x03020206, none, .sub true (rr 4)),
  (0x0422027F, none, .mullo false ri),
  (0x05420200, some 0x12345678, .mullo true rl),
  (0x06020206, none, .mulhi false (rr 4)),
  (0x0722027F, none, .mulhi true ri),
  (0x08420200, some 0x12345678, .mad false rl),
  (0x09020206, none, .mad true (rr 4)),
  (0x0A22027F, none, .mulw false ri),
  (0x0B420200, some 0x12345678, .mulw true rl),
  (0x0C020206, none, .madw false (rr 4)),
  (0x0D22027F, none, .madw true ri),
  (0x0E420200, some 0x12345678, .add64 false rl),
  (0x0F020206, none, .add64 true (rr 4)),
  (0x1022027F, none, .sub64 false ri),
  (0x11420200, some 0x12345678, .sub64 true rl),
  (0x12020206, none, .min false (rr 4)),
  (0x1322027F, none, .min true ri)] = true := by decide

theorem test_decode_int2 : decodesAll .int [
  (0x14420200, some 0x12345678, .max false rl),
  (0x15020206, none, .max true (rr 4)),
  (0x1622027F, none, .sad false ri),
  (0x17420200, some 0x12345678, .sad true rl),
  (0x18020206, none, .dp4i8 false (rr 4)),
  (0x1922027F, none, .dp4i8 true ri),
  (0x1A420200, some 0x12345678, .dp2i16 false rl),
  (0x1B020206, none, .dp2i16 true (rr 4)),
  (0x1C620206, some 0x4, .setc false (re 0 4 false)),
  (0x1E020206, none, .bfx false (rr 4)),
  (0x1D620206, some 0x5, .setc true (re 0 5 false)),
  (0x1F020206, none, .bfx true (rr 4)),
  (0x20020200, none, .neg ru),
  (0x21020200, none, .abs ru),
  (0x40020206, none, .and (rr 4)),
  (0x4122027F, none, .or ri),
  (0x42420200, some 0x12345678, .xor rl),
  (0x43020206, none, .andn (rr 4)),
  (0x4422027F, none, .orn ri),
  (0x45020200, none, .not ru)] = true := by decide

theorem test_decode_int3 : decodesAll .int [
  (0x46620206, some 0x140000E8, .tlog (re 10 232 false)),
  (0x47020206, none, .shl (rr 4)),
  (0x4822027F, none, .shr ri),
  (0x49420200, some 0x12345678, .sar rl),
  (0x4A020206, none, .rol (rr 4)),
  (0x4B620206, some 0x14000000, .shf (re 10 0 false)),
  (0x4C020206, none, .bfi (rr 4)),
  (0x4D020200, none, .popc ru),
  (0x4E020200, none, .clz ru),
  (0x4F020200, none, .ctz ru),
  (0x50020200, none, .brev ru),
  (0x51620206, some 0x14000000, .perm (re 10 0 false)),
  (0x52620206, some 0x14000000, .sel (re 10 0 false)),
  (0x5322007F, none, .mov { ri with a := 0 }),
  (0x54020200, none, .movh ru),
  (0x55620206, some 0x3, .lea (re 0 3 false))] = true := by decide

theorem test_decode_flt1 : decodesAll .flt [
  (0x00020206, none, .fadd (rr 4)),
  (0x0122027F, none, .fsub ri),
  (0x02420200, some 0x12345678, .fmul rl),
  (0x03620206, some 0x14000000, .ffma (re 10 0 false)),
  (0x04020206, none, .fmin (rr 4)),
  (0x05020206, none, .fmax (rr 4)),
  (0x0622027F, none, .fminn ri),
  (0x07420200, some 0x12345678, .fmaxn rl),
  (0x08620206, some 0xD, .fsetc (re 0 13 false)),
  (0x09020200, none, .frnd ru),
  (0x0A020200, none, .fclass ru),
  (0x0B020206, none, .fscale (rr 4)),
  (0x0C020206, none, .fcpys (rr 4)),
  (0x10020206, none, .vaddh (rr 4)),
  (0x11620206, some 0x2, .vmulh (re 0 2 false)),
  (0x12620206, some 0x14000001, .vfmah (re 10 1 false)),
  (0x13020206, none, .vaddb (rr 4)),
  (0x14620206, some 0x3, .vmulb (re 0 3 false)),
  (0x15620206, some 0x14000000, .vfmab (re 10 0 false)),
  (0x16020206, none, .dot2b (rr 4))] = true := by decide

theorem test_decode_flt2 : decodesAll .flt [
  (0x18020206, none, .dot4e false false (rr 4)),
  (0x19020206, none, .dot4e false true (rr 4)),
  (0x1A020206, none, .dot4e true false (rr 4)),
  (0x1B020206, none, .dot4e true true (rr 4)),
  (0x21620206, some 0x0, .pack .f16 (re 0 0 false)),
  (0x29020200, none, .unpk .f16 ru),
  (0x24620206, some 0x40001, .pack .e4m3 (re 0 1 true)),
  (0x2C020200, none, .unpk .e4m3 ru),
  (0x44020200, none, .cvt .f32 .e4m3 ru),
  (0x58020200, none, .cvt .e5m2 .f32 ru),
  (0x69020200, none, .cvt .e2m1 .f16 ru),
  (0x51020200, none, .cvt .bf16 .f16 ru),
  (0x82020200, none, .f2i .f32 .i32 ru),
  (0xC2020200, none, .i2f .f32 .i32 ru),
  (0xAF020200, none, .f2i .e2m1 .n64 ru),
  (0xEF020200, none, .i2f .e2m1 .n64 ru)] = true := by decide

theorem test_decode_xfn : decodesAll .xfn [
  (0x00020200, none, .rcp ru),
  (0x01020200, none, .rsq ru),
  (0x02020200, none, .sqrt ru),
  (0x03020200, none, .ex2 ru),
  (0x04020200, none, .lg2 ru),
  (0x05020200, none, .sin ru),
  (0x06020200, none, .cos ru),
  (0x07020200, none, .tanh ru),
  (0x08020206, none, .div (rr 4)),
  (0x1022027F, none, .idiv false false ri),
  (0x14020206, none, .irem false false (rr 4)),
  (0x1122027F, none, .idiv false true ri),
  (0x15020206, none, .irem false true (rr 4)),
  (0x1222027F, none, .idiv true false ri),
  (0x16020206, none, .irem true false (rr 4)),
  (0x1322027F, none, .idiv true true ri),
  (0x17020206, none, .irem true true (rr 4))] = true := by decide

theorem test_decode_mem : decodesAll .mem [
  (0x03220243, some 0x10, .ld (m .b64 .pkg .rlx .si false 8 4 (some 0x10))),
  (0x08420222, none, .st (m .b8 .tower .rlx .wt true 8 4 none)),
  (0x11220208, some 0x80000040, .lds (m .b16 .team .acq .dflt false 8 4 (some 0x80000040))),
  (0x1C020210, none, .sts (m .b128 .team .rel .dflt false 8 4 none)),
  (0x22020268, none, .ldacq (m .b32 .sys .acq .dflt false 8 4 none)),
  (0x2A020250, none, .strel (m .b32 .pkg .rel .dflt false 8 4 none)),
  (0x32220258, some 0x9000010, .atom (m .b32 .pkg .ar .dflt false 8 4 (some 0x9000010))),
  (0x3B020220, none, .cas (m .b64 .tower .rlx .dflt false 8 4 none)),
  (0x44220248, some 0x20, .cas128 (m .b128 .pkg .acq .dflt false 8 4 (some 0x20))),
  (0x4B220270, some 0x3FFFFF8, .red (m .b64 .sys .rel .dflt false 8 4 (some 0x3FFFFF8))),
  (0x52020240, none, .redc (m .b32 .pkg .rlx .dflt false 8 4 none)),
  (0x58000201, none, .pref (m .b8 .team .rlx .own false 0 4 none)),
  (0x60000078, none, .fence (m .b8 .sys .ar .dflt false 0 0 none)),
  (0x6800C240, none, .cwb (m .b8 .pkg .rlx .dflt false 3 4 none)),
  (0x70420240, none, .cinv (m .b8 .pkg .rlx .dflt true 8 4 none)),
  (0x78220200, some 0x80, .maps (m .b8 .team .rlx .dflt false 8 4 (some 0x80))),
  (0x80000200, none, .unmaps (m .b8 .team .rlx .dflt false 0 4 none)),
  (0x88400200, none, .wbs (m .b8 .team .rlx .dflt true 0 4 none)),
  (0x92020200, none, .ldh (m .b32 .team .rlx .dflt false 8 4 none)),
  (0x9A020214, none, .sth (m .b32 .team .rel .nc false 8 4 none))] = true := by decide

theorem test_decode_eng1 : decodesAll .eng [
  (0x00020200, none, .copy (e false 8 4 0 none)),
  (0x01400206, none, .scld (e true 0 4 6 none)),
  (0x02020200, none, .mma (e false 8 4 0 none)),
  (0x03000206, none, .accwin (e false 0 4 6 none)),
  (0x04000206, none, .accz (e false 0 4 6 none)),
  (0x05220206, some 0x20001000, .accld (e false 8 4 6 (some 0x20001000))),
  (0x06220206, some 0x20001000, .accst (e false 8 4 6 (some 0x20001000))),
  (0x07020207, none, .accrd (e false 8 4 7 none)),
  (0x08020203, none, .accwr (e false 8 4 3 none)),
  (0x09020200, none, .ftest (e false 8 4 0 none)),
  (0x0A000200, none, .fcancel (e false 0 4 0 none)),
  (0x0B020200, none, .fwait (e false 8 4 0 none)),
  (0x0C000206, none, .tbinit (e false 0 4 6 none)),
  (0x0C204200, some 0x5, .tbinitRearm (e false 1 4 0 (some 0x5))),
  (0x0D000206, none, .tbarv (e false 0 4 6 none)),
  (0x0E200200, some 0x1000, .tbexp (e false 0 4 0 (some 0x1000))),
  (0x0F020206, none, .tbwait (e false 8 4 6 none)),
  (0x10220206, some 0x3, .stgwait (e false 8 4 6 (some 0x3))),
  (0x11200206, some 0x200, .cont (e false 0 4 6 (some 0x200))),
  (0x12200001, some 0x80, .bararv (e false 0 0 1 (some 0x80)))] = true := by decide

theorem test_decode_eng2 : decodesAll .eng [
  (0x1300020F, none, .barsync (e false 0 4 15 none)),
  (0x14000000, none, .rdv (e false 0 0 0 none)),
  (0x15020206, none, .rdvx (e false 8 4 6 none)),
  (0x16020200, none, .rdvv (e false 8 4 0 none)),
  (0x1702020A, none, .rdvs (e false 8 4 10 none)),
  (0x18220206, some 0x3E8, .waita (e false 8 4 6 (some 0x3E8))),
  (0x19020200, none, .launch (e false 8 4 0 none)),
  (0x1A200200, some 0xFF, .resort (e false 0 4 0 (some 0xFF))),
  (0x1B000000, none, .idemx (e false 0 0 0 none))] = true := by decide

theorem test_decode_sys : decodesAll .sys [
  (0x0002000B, none, .srd (e false 8 0 11 none)),
  (0x01000220, none, .swr (e false 0 4 32 none)),
  (0x02000005, none, .trap (e false 0 0 5 none)),
  (0x03000000, none, .tret (e false 0 0 0 none)),
  (0x04000007, none, .brk (e false 0 0 7 none)),
  (0x05000000, none, .nop (e false 0 0 0 none)),
  (0x06000200, none, .sleep (e false 0 4 0 none)),
  (0x07020200, none, .chsel (e false 8 4 0 none)),
  (0x08220200, some 0x8, .probe (e false 8 4 0 (some 0x8))),
  (0x09200000, some 0x4D, .dbgmark (e false 0 0 0 (some 0x4D)))] = true := by decide

theorem test_decode_ctl : decodesAll .sys [
  (0xF0200000, some 0x4, .bra (c 0 0 (some 0x4) false)),
  (0xF1200200, some 0xFFFFFFFD, .bz (c 0 4 (some 0xFFFFFFFD) false)),
  (0xF2A00200, some 0x4, .bnz (c 0 4 (some 0x4) true)),
  (0xF3200200, some 0x4, .bltz (c 0 4 (some 0x4) false)),
  (0xF4200200, some 0x4, .bgez (c 0 4 (some 0x4) false)),
  (0xF5000200, none, .brx (c 0 4 none false)),
  (0xF6208000, some 0x4, .call (c 2 0 (some 0x4) false)),
  (0xF7008200, none, .callx (c 2 4 none false)),
  (0xF8000100, none, .ret (c 0 2 none false)),
  (0xF9000000, none, .exit (c 0 0 none false))] = true := by decide

/-! ### A small state in which a word is about to issue -/

/-- The header of the bench's clause. -/
def hdr0 : Word := bootHeader .int false

/-- A thread at the first word of its clause: registers as listed, else zero. -/
def benchThread (rs : List (Reg × Word)) : Thread :=
  rs.foldl (fun x r => x.setReg r.1 r.2) (bootThread hdr0 0)

/-- A team of some threads, with team key 1. -/
def benchTeam (ts : List Thread) : Team := { bootTeam 1 0 hdr0 0 with threads := ts }

/-- A package that runs one team, whose first thread is about to issue a word. -/
def benchOf (t : Team) : State :=
  { State.reset.layProgram .int false [] with
    nextKey := 2
    nextGrid := 2
    launches := [bootLaunch 0 1]
    teams := [t]
    cur := some { team := 1, tids := [0], hdr := hdr0 } }

/-- A package that runs one team of one thread. -/
def bench (rs : List (Reg × Word)) : State := benchOf (benchTeam [benchThread rs])

/-- The issue of a word by thread 0 of a team of key 1. -/
def issueBy (i : Instr) (t : Team) (th : Thread) : Issue := { k := 1, lead := 0, mates := [], hdr := hdr0, team := t, thr := th, w := wordOf i }

/-- The issue of the bench's word. -/
def issue (i : Instr) (rs : List (Reg × Word)) : Issue := issueBy i (benchTeam [benchThread rs]) (benchThread rs)

/-- A word issues when it is current, its thread is there, its registers are within REGS and nothing is pending. -/
theorem issues_of {s : State} {i : Instr} {t : Team} {th : Thread} (hc : s.cur = some { team := 1, tids := [0], hdr := hdr0 }) (ht : s.team? 1 = some t)
    (hth : s.thread? 1 0 = some th) (hr : regsOk (s.lfield t (·.regs)) i = true) (hp : th.pend = 0) : s.issues i (issueBy i t th) = true := by
  have h : th.pendTok i = none := by
    simp only [Thread.pendTok, Option.map_eq_none_iff, List.find?_eq_none]
    intro r _
    simp [Thread.isPend, hp]
  simp [State.issues, hc, ht, hth, hr, h, issueBy]

/-- The same, for a team of one thread. -/
theorem issues_benchOf {i : Instr} (t : Team) (th : Thread) (hk : t.key = 1) (hl : t.launch = 0) (hth : t.threads = [th]) (hp : th.pend = 0)
    (hr : regsOk 128 i = true) : (benchOf t).issues i (issueBy i t th) = true := by
  have h1 : (benchOf t).team? 1 = some t := by simp [benchOf, State.team?, hk]
  refine issues_of rfl h1 (by simp [State.thread?, h1, hth]) ?_ hp
  simpa [State.lfield, State.lrec?, State.launch?, benchOf, hl, bootLaunch, bootRecord] using hr

/-- Writing a register leaves nothing pending where nothing was. -/
theorem benchThread_pend (rs : List (Reg × Word)) : (benchThread rs).pend = 0 := by
  have h : ∀ (rs : List (Reg × Word)) (t : Thread), t.pend = 0 → (rs.foldl (fun (x : Thread) r => x.setReg r.1 r.2) t).pend = 0 := by
    intro rs
    induction rs with
    | nil => exact fun _ h => h
    | cons r rs ih => exact fun t h => ih _ (by simp [Thread.setReg, h])
  exact h rs _ rfl

/-- Every word whose registers are within 128 issues on the bench. -/
theorem issues_bench (rs : List (Reg × Word)) {i : Instr} (hr : regsOk 128 i = true) : (bench rs).issues i (issue i rs) = true :=
  issues_benchOf _ _ rfl rfl rfl (benchThread_pend rs) hr

/-- The state after a step that goes on. -/
def nextOf (o : Host.Outcome State Fault Refusal) : State := match o with | .next s => s | _ => State.reset

/-- A step answers a next state. -/
def goesOn (o : Host.Outcome State Fault Refusal) : Bool := match o with | .next _ => true | _ => false

/-- Thread 0 of team 1. -/
def thread1 (s : State) : Thread := (s.thread? 1 0).getD Thread.blank

/-- Register r after a word on some registers. -/
def after (rs : List (Reg × Word)) (i : Instr) (r : Reg) : Word := (thread1 (nextOf (exec i (bench rs)))).reg r

/-- FPSTAT after a word on some registers. -/
def statAfter (rs : List (Reg × Word)) (i : Instr) : Word := (thread1 (nextOf (exec i (bench rs)))).fpstat

/-- Every word gives the registers beside it. -/
def gives (rs : List (Reg × Word)) (rows : List (Instr × List (Reg × Word))) : Bool := rows.all fun x => x.2.all fun y => after rs x.1 y.1 == y.2


/-- Inputs of the integer tests: g4, g6, g10 and the old g8 with their upper halves. -/
def intIn : List (Reg × Word) := [(4, 0x80808085), (5, 0xFFFFFFFF), (6, 0x7F7F7F7F), (7, 0x7FFFFFFF), (8, 0xFFFF0200), (9, 0x00000001), (10, 0x00000024)]


/-- R295 to R311, by hand from the rules. -/
theorem test_int_results1 : gives intIn [
  (.add false (rr 4), [(8, 0x00000004)]),
  (.sub false (rr 4), [(8, 0x01010106)]),
  (.mullo false (rr 4), [(8, 0x3C7CBCFB)]),
  (.mulhi false (rr 4), [(8, 0xC0804002)]),
  (.mad false (rr 4), [(8, 0x3C7BBEFB)]),
  (.mulw false (rr 4), [(8, 0x3C7CBCFB), (9, 0xC0804002)]),
  (.madw false (rr 4), [(8, 0x3C7BBEFB), (9, 0xC0804004)]),
  (.add64 false (rr 4), [(8, 0x00000004), (9, 0x7FFFFFFF)]),
  (.sub64 false (rr 4), [(8, 0x01010106), (9, 0x80000000)]),
  (.min false (rr 4), [(8, 0x80808085)]),
  (.max false (rr 4), [(8, 0x7F7F7F7F)]),
  (.sad false (rr 4), [(8, 0xFEFE00FA)]),
  (.dp4i8 false (rr 4), [(8, 0xFFFE067B)]),
  (.dp2i16 false (rr 4), [(8, 0x8101FE7B)]),
  (.setc false (re 0 2 false), [(8, 0x00000001)]),
  (.add false (re 0 0 true), [(8, 0x00000004)])] = true := by decide

/-- R295 to R311, by hand from the rules. -/
theorem test_int_results2 : gives intIn [
  (.sub false (re 0 0 true), [(8, 0x80000000)]),
  (.add true (rr 4), [(8, 0x00000004)]),
  (.sub true (rr 4), [(8, 0x01010106)]),
  (.mullo true (rr 4), [(8, 0x3C7CBCFB)]),
  (.mulhi true (rr 4), [(8, 0x3FFFBF81)]),
  (.mad true (rr 4), [(8, 0x3C7BBEFB)]),
  (.mulw true (rr 4), [(8, 0x3C7CBCFB), (9, 0x3FFFBF81)]),
  (.madw true (rr 4), [(8, 0x3C7BBEFB), (9, 0x3FFFBF83)]),
  (.add64 true (rr 4), [(8, 0x00000004), (9, 0x7FFFFFFF)]),
  (.sub64 true (rr 4), [(8, 0x01010106), (9, 0x80000000)]),
  (.min true (rr 4), [(8, 0x7F7F7F7F)]),
  (.max true (rr 4), [(8, 0x80808085)]),
  (.sad true (rr 4), [(8, 0x01000306)]),
  (.dp4i8 true (rr 4), [(8, 0x0000027B)]),
  (.dp2i16 true (rr 4), [(8, 0x7FFFFE7B)]),
  (.setc true (re 0 2 false), [(8, 0x00000000)])] = true := by decide

/-- R295 to R311, by hand from the rules. -/
theorem test_int_results3 : gives intIn [
  (.add true (re 0 0 true), [(8, 0xFFFFFFFF)]),
  (.sub true (re 0 0 true), [(8, 0x01010106)]),
  (.neg ru, [(8, 0x7F7F7F7B)]),
  (.abs ru, [(8, 0x7F7F7F7B)]),
  (.and (rr 4), [(8, 0x00000005)]),
  (.or (rr 4), [(8, 0xFFFFFFFF)]),
  (.xor (rr 4), [(8, 0xFFFFFFFA)]),
  (.andn (rr 4), [(8, 0x80808080)]),
  (.orn (rr 4), [(8, 0x80808085)]),
  (.not ru, [(8, 0x7F7F7F7A)]),
  (.tlog (re 10 0xE8 false), [(8, 0x00000025)]),
  (.popc ru, [(8, 0x00000006)]),
  (.clz ru, [(8, 0x00000000)]),
  (.ctz ru, [(8, 0x00000000)]),
  (.brev ru, [(8, 0xA1010101)]),
  (.sel (re 10 0 false), [(8, 0x80808085)])] = true := by decide

/-- R295 to R311, by hand from the rules. -/
theorem test_int_results4 : gives intIn [
  (.movh ru, [(8, 0x80808085)]),
  (.shf (re 10 0 false), [(8, 0x08080808)]),
  (.lea (re 0 3 false), [(8, 0x7C7C7C7D), (9, 0x00000003)])] = true := by decide

/-- BFX, BFI and PERM (R307, R309): pos 4, len 12; selectors 0x21, 0x0D, 0x10 and 0x00. -/
theorem test_int_fields : gives [(4, 0x80000F05), (6, 0x00000C04), (8, 0xFFFFFFFF), (10, 0x00100D21)] [
  (.bfx true (rr 4), [(8, 0x000000F0)]),
  (.bfx false (rr 4), [(8, 0x000000F0)]),
  (.bfi (rr 4), [(8, 0xFFFFF05F)]),
  (.perm (re 10 0 false), [(8, 0x05A000F0)])] = true := by decide

/-- Shifts by 4 (R304, R305), and MOV of the immediate −1 (R310). -/
theorem test_int_shifts : gives [(4, 0x80000F05), (6, 4)] [
  (.shl (rr 4), [(8, 0x0000F050)]),
  (.shr (rr 4), [(8, 0x080000F0)]),
  (.sar (rr 4), [(8, 0xF80000F0)]),
  (.rol (rr 4), [(8, 0x0000F058)]),
  (.mov { ri with a := 0 }, [(8, 0xFFFFFFFF)])] = true := by decide

/-- Shifts by 32 (R304, R305). -/
theorem test_int_shifts_wide : gives [(4, 0x80000F05), (6, 32)] [
  (.shl (rr 4), [(8, 0x00000000)]),
  (.shr (rr 4), [(8, 0x00000000)]),
  (.sar (rr 4), [(8, 0xFFFFFFFF)]),
  (.rol (rr 4), [(8, 0x80000F05)])] = true := by decide

theorem test_int_counts : gives [(4, 0x00000F00)] [(.clz ru, [(8, 20)]), (.ctz ru, [(8, 8)]), (.popc ru, [(8, 4)])] = true := by decide

/-! ### FLT and XFN (R322 to R337): the worked table of 14_isa_float_transcendental, and IEEE 754 by hand -/

/-- A word of a class, its registers before, a register and its value after, and FPSTAT after. -/
structure FpRow where
  k : Cls
  w : Word
  x : Option Word
  rs : List (Reg × Word)
  d : Reg
  v : Word
  st : Word

/-- A row holds of the machine. -/
def FpRow.holds (r : FpRow) : Bool :=
  match decode r.k r.w r.x with
  | .ok i => after r.rs i r.d == r.v && statAfter r.rs i == r.st
  | .error _ => false

/-- The rows of the specification's own table (14_isa_float_transcendental, Example: encodings and results). -/
theorem test_fp_table : ([
  ⟨.flt, 0x03610286, some 0x0E000000, [(5, 0x3FC00000), (6, 0x40000000), (7, 0xC0400000)], 4, 0, 0⟩,
  ⟨.flt, 0x08614307, some 2, [(6, 0x7FC00000), (7, 0x3F800000)], 5, 0, 0x01⟩,
  ⟨.flt, 0x08614307, some 0xA, [(6, 0x7FC00000), (7, 0x3F800000)], 5, 1, 0x01⟩,
  ⟨.flt, 0x4460C388, some 0x00034000, [(7, 0x3FA40000), (8, 1)], 3, 0x3A, 0x10⟩,
  ⟨.flt, 0x4460C388, some 0x00034000, [(7, 0x3FA40000), (8, 0)], 3, 0x3B, 0x10⟩,
  ⟨.flt, 0x2462450B, some 1, [(9, 0x11112222), (10, 0x43E60000), (11, 0xBF000000)], 9, 0xB07E2222, 0x10⟩,
  ⟨.flt, 0x2C638480, some 1, [(9, 0xB07E2222)], 14, 0x43E00000, 0⟩,
  ⟨.flt, 0x2C638480, some 1, [(9, 0xB07E2222)], 15, 0xBF000000, 0⟩,
  ⟨.xfn, 0x01008180, none, [(3, 0x40800000)], 2, 0x3F000000, 0⟩,
  ⟨.xfn, 0x11230687, none, [(13, 100)], 12, 14, 0⟩,
  ⟨.flt, 0x0062858C, some 0x00024000, [(11, 0x3F800000), (12, 0x33800001)], 10, 0x3F800000, 0x10⟩] : List FpRow).all FpRow.holds = true := by decide

/-- Sums, products and the like of 1.5 and 2.0, or as the comment says (R322 to R327). -/
theorem test_fp_words : gives [(4, 0x3FC00000), (6, 0x40000000), (10, 0xC0400000)] [
  (.fadd (rr 4), [(8, 0x40600000)]), (.fsub (rr 4), [(8, 0xBF000000)]), (.fmul (rr 4), [(8, 0x40400000)]), (.ffma (re 10 0 false), [(8, 0)]),
  (.fmin (rr 4), [(8, 0x3FC00000)]), (.fmax (rr 4), [(8, 0x40000000)]), (.fminn (rr 4), [(8, 0x3FC00000)]), (.fmaxn (rr 4), [(8, 0x40000000)]),
  (.fsetc (re 0 3 false), [(8, 1)]), (.frnd ru, [(8, 0x40000000)]), (.fclass ru, [(8, 0x40)]), (.fcpys (rr 10), [(8, 0x40400000)]),
  (.fscale { ru with b := .imm 3 }, [(8, 0x41400000)]), (.div (rr 4), [(8, 0x3F400000)]), (.f2i .f32 .i32 ru, [(8, 2)]), (.cvt .f32 .f16 ru, [(8, 0x3E00)])] = true := by decide

/-- A quiet NaN beside 2.0 (R323): FMIN gives the canonical NaN, FMINN the number. -/
theorem test_fp_nan : gives [(4, 0xFFC00001), (6, 0x40000000)] [(.fmin (rr 4), [(8, 0x7FC00000)]), (.fmax (rr 4), [(8, 0x7FC00000)]),
  (.fminn (rr 4), [(8, 0x40000000)]), (.fmaxn (rr 4), [(8, 0x40000000)]), (.fclass ru, [(8, 0x200)])] = true := by decide

/-- Packed lanes and dot products (R328, R329): FP16 lanes (1.0, 2.0) and (3.0, 4.0), the same in BF16, and E4M3 bytes. -/
theorem test_fp_packed :
    gives [(4, 0x40003C00), (6, 0x44004200), (10, 0x3C003C00)] [(.vaddh (rr 4), [(8, 0x46004400)]), (.vmulh (rr 4), [(8, 0x48004200)]),
      (.vmulh (re 0 1 false), [(8, 0x46004400)]), (.vfmah (re 10 0 false), [(8, 0x48804400)])] = true ∧
    gives [(4, 0x40003F80), (6, 0x40804040), (10, 0x3F803F80), (8, 0x3F800000)] [(.vaddb (rr 4), [(8, 0x40C04080)]), (.vmulb (rr 4), [(8, 0x41004040)]),
      (.vfmab (re 10 0 false), [(8, 0x41104080)]), (.dot2b (rr 4), [(8, 0x41400000)])] = true ∧
    gives [(4, 0x38383838), (6, 0x40404040), (8, 0x3F800000)] [(.dot4e false false (rr 4), [(8, 0x41100000)]), (.dot4e false true (rr 4), [(8, 0x41100000)])] = true := by decide

/-- Conversions (R330 to R333): 300.0 to FP16 in a lane pair, E2M1 nibbles, −1 as FP32, −3.0 as a 64-bit integer. -/
theorem test_fp_convert :
    gives [(4, 0x43960000), (6, 0xBF800000)] [(.pack .f16 (rr 4), [(8, 0xBC005CB0)])] = true ∧
    gives [(4, 0x000000A2)] [(.unpk .e2m1 ru, [(8, 0x3F800000), (9, 0xBF800000)])] = true ∧
    gives [(4, 0xFFFFFFFF)] [(.i2f .f32 .i32 ru, [(8, 0xBF800000)]), (.i2f .f32 .n8 ru, [(8, 0x437F0000)])] = true ∧
    gives [(4, 0xC0400000)] [(.f2i .f32 .i64 ru, [(8, 0xFFFFFFFD), (9, 0xFFFFFFFF)]), (.f2i .f32 .n32 ru, [(8, 0)])] = true := by decide

/-- XFN where the result is exact (R334 to R336). -/
theorem test_xfn_exact :
    gives [(4, 0x40000000)] [(.rcp ru, [(8, 0x3F000000)]), (.lg2 ru, [(8, 0x3F800000)]), (.ex2 ru, [(8, 0x40800000)])] = true ∧
    gives [(4, 0x40800000)] [(.sqrt ru, [(8, 0x40000000)]), (.rsq ru, [(8, 0x3F000000)])] = true ∧
    gives [(4, 0x80000000)] [(.sin ru, [(8, 0x80000000)]), (.cos ru, [(8, 0x3F800000)]), (.tanh ru, [(8, 0x80000000)]), (.rcp ru, [(8, 0xFF800000)])] = true ∧
    gives [(4, 0x3F800000), (6, 0x40400000)] [(.div (rr 4), [(8, 0x3EAAAAAB)])] = true := by decide

/-- Integer division truncates (R337). -/
theorem test_xfn_division :
    gives [(4, 0xFFFFFF9C), (5, 0xFFFFFFFF), (6, 7), (7, 0)] [(.idiv false false (rr 4), [(8, 0xFFFFFFF2)]), (.irem false false (rr 4), [(8, 0xFFFFFFFE)]),
      (.idiv true false (rr 4), [(8, 0xFFFFFFF2), (9, 0xFFFFFFFF)]), (.irem true false (rr 4), [(8, 0xFFFFFFFE), (9, 0xFFFFFFFF)]),
      (.idiv false true (rr 4), [(8, 0x24924916)]), (.irem false true (rr 4), [(8, 2)])] = true ∧
    gives [(4, 0x80000000), (6, 0xFFFFFFFF)] [(.idiv false false (rr 4), [(8, 0x80000000)]), (.irem false false (rr 4), [(8, 0)])] = true := by decide

/-! ### Witnesses: states and operands that meet the hypotheses of the statements on INT, FLT and XFN words -/

/-- Registers of the witnesses: 7, 2 and 1, with 3 as the old destination. -/
def wregs : List (Reg × Word) := [(4, 7), (5, 0), (6, 2), (7, 0), (8, 3), (9, 0), (10, 1)]
def wthread : Thread := benchThread wregs

/-- The registers of a word are within REGS, and a claim names its result; it then issues on the bench (issues_bench). -/
def agrees (i : Instr) (r : Option (Reg × List Word × Word)) : Bool := regsOk 128 i && r.isSome

theorem agrees_issues {i : Instr} {r : Option (Reg × List Word × Word)} (h : agrees i r = true) : (bench wregs).issues i (issue i wregs) = true := by
  simp only [agrees, Bool.and_eq_true] at h
  exact issues_bench wregs h.1

theorem witness_IntegerArithmeticResults : ([.add true (rr 4), .sub false (rr 4), .neg ru, .abs ru, .min false (rr 4), .max true (rr 4), .setc false (re 0 5 false), .sel (re 10 0 false),
    .mullo false (rr 4), .mulhi true (rr 4), .mad false (re 0 0 true), .mulw true (rr 4), .madw false (rr 4), .add64 false (rr 4), .sub64 true (rr 4), .sad false (rr 4), .dp4i8 true (rr 4),
    .dp2i16 false (rr 4)].all fun i => agrees i ((Claims.arith i wthread).map fun x => (x.1, x.2, 0))) = true := by decide

theorem witness_IntegerLogicResults : (bench wregs).issues (.and (rr 4)) (issue (.and (rr 4)) wregs) = true ∧ Claims.isLogic (.and (rr 4)) wthread 8 2 := by
  exact ⟨issues_bench wregs (by decide), rfl, by decide⟩

theorem witness_IntegerLogicResults_shift : (bench wregs).issues (.shl (rr 4)) (issue (.shl (rr 4)) wregs) = true ∧ Claims.isLogic (.shl (rr 4)) wthread 8 28 := by
  exact ⟨issues_bench wregs (by decide), rfl, by decide⟩

theorem witness_IntegerLogicResults_lea : (bench wregs).issues (.lea (re 0 12 false)) (issue (.lea (re 0 12 false)) wregs) = true := issues_bench wregs (by decide)

theorem witness_FloatResults : ([.fadd (rr 4), .fsub (rr 4), .fmul (rr 4), .ffma (re 10 0 false), .fmin (rr 4), .fmax (rr 4), .fminn (rr 4), .fmaxn (rr 4), .fsetc (re 0 13 false), .frnd ru,
    .fclass ru, .fscale (rr 4), .fcpys (rr 4), .vaddh (rr 4), .vmulh (rr 4), .vfmah (re 10 3 false), .vaddb (rr 4), .vmulb (rr 4), .vfmab (re 10 0 false)].all fun i =>
      agrees i (Claims.flt i wthread)) = true := by decide

theorem witness_FloatResults_convert : ([.dot2b (rr 4), .dot4e true false (rr 4), .pack .e4m3 (re 0 1 true), .unpk .f16 ru, .cvt .f32 .e5m2 ru, .f2i .f32 .n64 ru, .i2f .bf16 .i16 ru].all fun i =>
      agrees i (Claims.convert i wthread)) = true := by decide

theorem witness_XfnResults : ([.rcp ru, .sqrt ru, .div (rr 4), .idiv false true (rr 4), .irem true false (rr 4)].all fun i => agrees i (Claims.xfn i wthread)) = true := by decide

/-- The functions with free values between their exact cases, on zero. -/
theorem witness_XfnResults_free : ([.rsq { ru with a := 5 }, .ex2 { ru with a := 5 }, .lg2 { ru with a := 5 }, .sin { ru with a := 5 }, .cos { ru with a := 5 }, .tanh { ru with a := 5 }].all fun i =>
      agrees i (Claims.xfn i wthread)) = true := by decide

theorem witness_XfnResults_zero : (bench wregs).issues (.idiv false false { rr 4 with b := .reg 5 }) (issue (.idiv false false { rr 4 with b := .reg 5 }) wregs) = true ∧
    wthread.b32 (.reg 5) = 0 := ⟨issues_bench wregs (by decide), by decide⟩

/-- 1.5 + 2.25 = 3.75, as 15 × 2^−2, and 1.5 × 2.25 = 27 × 2^−3, and with 1.5 more 39 × 2^−3. -/
theorem witness_RoundingIsSingle : fdecode .f32 0x3FC00000 = .fin false 0xC00000 (-23) ∧ fdecode .f32 0x40100000 = .fin false 0x900000 (-22) ∧
    Claims.scaled false 15 (-2) (-60) = Claims.scaled false 0xC00000 (-23) (-60) + Claims.scaled false 0x900000 (-22) (-60) ∧
    Claims.scaled false 27 (-3) (-60) = Claims.scaled (false != false) (0xC00000 * 0x900000) (-23 + -22) (-60) ∧
    Claims.scaled false 39 (-3) (-60) = Claims.scaled (false != false) (0xC00000 * 0x900000) (-23 + -22) (-60) + Claims.scaled false 0xC00000 (-23) (-60) := by decide

theorem witness_RegisterWordsFrame : Claims.onlyRegisters (.add false (rr 4)) = true ∧ (bench wregs).issues (.add false (rr 4)) (issue (.add false (rr 4)) wregs) = true ∧
    goesOn (exec (.add false (rr 4)) (bench wregs)) = true := ⟨rfl, issues_bench wregs (by decide), by decide⟩

/-! ### Witnesses: MEM, ENG and SYS words -/

/-- Registers: an address in g4:g5, data from g8 on, a scratchpad offset in g12, counts in g14 and g16. -/
def mregs : List (Reg × Word) := [(4, 0x50000), (8, 0x11223344), (9, 5), (12, 256), (14, 1), (16, 3), (18, 1024), (20, 0x40000001), (22, 0x40000002), (26, 272), (28, 320), (30, 384), (32, 128), (34, 0x01000000)]
def mthread : Thread := benchThread mregs

/-- An MMA block of one FP8 pass on FIFOs 0 and 1 (R230), and a descriptor of a copy of 16 words from 0x60000 to offset 2048 (R207). -/
def mblock : List Byte := leBytes 4 128 ++ leBytes 4 128 ++ leBytes 4 128 ++ leBytes 1 0 ++ leBytes 1 1 ++ leBytes 8 0 ++ leBytes 1 1 ++ leBytes 41 0
def mdesc : List Byte := leBytes 8 0x60000 ++ leBytes 8 2048 ++ leBytes 16 0 ++ leBytes 2 15 ++ leBytes 15 0 ++ leBytes 1 2 ++ leBytes 14 0

/-- The bench's team with scratchpad bytes (a barrier of one arrival at 272, the block at 320, the descriptor at 384), with a bound map at 1024, a resolved future of token 1 and a pending one of token 2. -/
def mteam : Team :=
  { benchTeam [mthread] with
    spad := spadPut (spadPut (spadPut [] 285 [1]) 320 mblock) 384 mdesc
    maps := [{ off := 1024, len := 128, va := 0x60000, filled := [1024], filling := [], dirty := [1024] }]
    futures := [{ kind := 1, seq := 1, resolved := true, status := 0 }, { kind := 1, seq := 2, resolved := false, status := 0 }]
    lastSeq := 2
    lim := 128 }
def mstate : State := benchOf mteam
def missue (i : Instr) : Issue := issueBy i mteam mthread

/-- Every word whose registers are within 128 issues there. -/
theorem issues_mstate {i : Instr} (h : regsOk 128 i = true) : mstate.issues i (missue i) = true :=
  issues_benchOf mteam mthread rfl rfl rfl (benchThread_pend mregs) h

/-- A word whose registers are within REGS, that waits for no earlier access, and whose claim names a next state. -/
def goes (f : State → Issue → Instr → Option State) (rel : Bool) (i : Instr) : Bool :=
  i.wf && regsOk 128 i && (Claims.releasing i == rel) && (f mstate (missue i) i).isSome

theorem goes_issues {f : State → Issue → Instr → Option State} {rel : Bool} {i : Instr} (h : goes f rel i = true) : mstate.issues i (missue i) = true := by
  simp only [goes, Bool.and_eq_true] at h
  exact issues_mstate h.1.1.2

theorem witness_MemoryWordsPerform : ([.ld (m .b64 .pkg .rlx .dflt false 8 4 (some 16)), .st (m .b8 .tower .rlx .wt true 8 4 none), .lds (m .b16 .team .rlx .dflt false 8 12 (some 0x40)),
    .sts (m .b32 .team .rlx .dflt false 8 12 none), .ldacq (m .b32 .sys .acq .dflt false 8 4 none), .atom (m .b32 .pkg .rlx .dflt false 8 4 (some 0x03000010)),
    .cas (m .b32 .tower .acq .dflt false 8 4 none), .cas128 (m .b128 .pkg .rlx .dflt false 8 4 (some 32)), .red (m .b64 .pkg .rlx .dflt false 8 4 (some 0)), .pref (m .b8 .team .rlx .own false 0 4 none),
    .fence (m .b8 .pkg .acq .dflt false 0 0 none), .cwb (m .b8 .pkg .rlx .dflt false 3 4 none), .cinv (m .b8 .pkg .rlx .dflt false 0 4 none), .maps (m .b8 .team .rlx .dflt false 4 12 (some 128)),
    .ldh (m .b32 .pkg .rlx .dflt false 8 4 none), .sth (m .b32 .pkg .rlx .dflt false 8 4 none),
    .unmaps (m .b8 .team .rlx .dflt false 0 18 none), .wbs (m .b8 .team .rlx .dflt false 0 18 none)].all (goes Claims.memory false)) = true := by decide +kernel

theorem witness_EngineWordsPerform : ([.scld (e false 0 24 14 none), .mma (e false 8 28 0 none), .accwin (e false 0 32 12 none), .accz (e false 0 24 14 none), .accld (e false 4 24 12 (some 0x20001000)),
    .accst (e false 4 24 12 (some 0x20001000)), .accst (e false 24 24 12 (some 0xA0000000)), .accrd (e false 8 24 7 none), .accwr (e false 8 24 3 none), .ftest (e false 8 20 0 none),
    .ftest (e false 8 22 0 none), .ftest (e false 8 14 0 none), .fcancel (e false 0 20 0 none), .fcancel (e false 0 22 0 none), .fwait (e false 8 20 0 none), .tbinit (e false 0 12 16 none),
    .tbinitRearm (e false 1 12 0 (some 5)), .tbexp (e false 0 26 0 (some 4096)), .tbwait (e false 8 12 0 (some 15)), .stgwait (e false 8 12 16 (some 2)), .waita (e false 8 12 14 none),
    .waita (e false 8 12 24 (some 0)), .resort (e false 0 14 0 (some 0xFF)), .idemx (e false 0 0 0 none)].all (goes Claims.engine false)) = true := by decide +kernel

/-- The words with a release half: no access is outstanding, the team is resident and its thread RUNNING. -/
theorem witness_ReleaseWordsPerform :
    ([.strel (m .b32 .pkg .rel .dflt false 8 4 none), .sth (m .b32 .team .rel .dflt false 8 4 none), .sts (m .b32 .team .rel .dflt false 8 12 none),
        .red (m .b32 .pkg .rel .dflt false 8 4 (some 0)), .atom (m .b32 .sys .ar .dflt false 8 4 (some 0)), .cas (m .b32 .pkg .rel .dflt false 8 4 none), .cas128 (m .b128 .pkg .ar .dflt false 8 4 none),
        .fence (m .b8 .sys .rel .dflt false 0 0 none)].all fun i =>
          goes (fun s c i => Claims.memory (Claims.folded s c i) c i) true i && mstate.released 1 [0] (mstate.releaseScope mteam mthread i) (mstate.releaseDest mteam mthread i) &&
            mstate.settledEarly mteam.pcore (mstate.releaseScope mteam mthread i)) = true ∧
    ([.copy (e false 8 30 0 none), .launch (e false 8 12 0 none), .tbarv (e false 0 26 0 (some 1)), .cont (e false 0 26 34 (some 0x200)), .bararv (e false 0 0 1 (some 1)), .barsync (e false 0 14 1 none),
        .rdv (e false 0 0 0 none), .rdvx (e false 8 14 24 none), .rdvv (e false 8 14 0 none), .rdvs (e false 8 14 9 none)].all fun i =>
          goes (fun s c i => Claims.engine (Claims.folded s c i) c i) true i && mstate.released 1 [0] (mstate.releaseScope mteam mthread i) (mstate.releaseDest mteam mthread i) &&
            mstate.settledEarly mteam.pcore (mstate.releaseScope mteam mthread i)) = true := by decide +kernel

theorem witness_ReleaseWordsPerform_settled (i : Instr) : Claims.settled mstate (missue i) ∧ mteam.status = .resident := by
  refine ⟨⟨rfl, by simp [missue, issueBy, Issue.all], ?_⟩, rfl⟩
  intro x hx
  have : x = 0 := by simpa [missue, issueBy, Issue.all] using hx
  subst this
  exact ⟨mthread, rfl, by decide, by decide, by decide⟩

theorem witness_SystemWordsPerform : ([.srd (e false 8 0 0x0B none), .srd (e false 8 0 0 none), .swr (e false 0 14 0x20 none), .trap (e false 0 0 5 none), .brk (e false 0 0 127 none), .nop (e false 0 0 0 none),
    .sleep (e false 0 14 0 none), .sleep (e false 0 24 0 none), .dbgmark (e false 0 0 0 (some 77)), .chsel (e false 8 4 0 none), .probe (e false 8 4 0 (some 8))].all (goes Claims.system false)) = true := by decide +kernel

theorem witness_ControlWordsPerform : ([.bra (c 0 0 (some 4) false), .bz (c 0 4 (some 4) false), .bnz (c 0 4 (some 4) false), .bltz (c 0 4 (some 4) false), .bgez (c 0 4 (some 4) false), .brx (c 0 4 none false),
    .call (c 2 0 (some 4) false), .callx (c 2 4 none false), .ret (c 0 4 none false)].all fun i => regsOk 128 i && (Claims.control i mthread).isSome) = true := by decide

theorem witness_ControlWordsPerform_indirect : mstate.issues (.brx (c 0 14 none false)) (missue (.brx (c 0 14 none false))) = true ∧ (mthread.reg64 14).toNat % 4 ≠ 0 := ⟨issues_mstate (by decide), by decide⟩

theorem witness_ControlWordsPerform_exit : mstate.issues (.exit (c 0 0 none false)) (missue (.exit (c 0 0 none false))) = true := issues_mstate (by decide)

/-- A thread inside its trap routine, whose TPC is the first word of the bench's clause. -/
def rthread : Thread := { mthread with inTrap := true, tpc := 0x40004, tclause := 0x40000 }
def rstate : State := benchOf { mteam with threads := [rthread] }

theorem witness_ControlWordsPerform_tret : rstate.issues (.tret (e false 0 0 0 none)) (issueBy (.tret (e false 0 0 0 none)) { mteam with threads := [rthread] } rthread) = true ∧ rthread.inTrap = true ∧
    (match (rstate.fetch { mteam with threads := [rthread] } rthread.tclause).1 with
      | .word h => hdrOk h && (tretTarget rthread.tpc rthread.tclause h).isSome
      | _ => false) = true :=
  ⟨issues_benchOf _ rthread rfl rfl rfl (benchThread_pend mregs) (by decide), rfl, by decide +kernel⟩

theorem witness_ControlWordsPerform_stray : mstate.issues (.tret (e false 0 0 0 none)) (missue (.tret (e false 0 0 0 none))) = true ∧ mthread.inTrap = false := ⟨issues_mstate (by decide), by decide⟩

/-- A pair at an odd register; a pending operand; an address that is no multiple of 4. -/
theorem witness_WordsAreChecked_register : (Instr.ld (m .b32 .pkg .rlx .dflt false 8 5 none)).isWord = true ∧ mstate.cur = some { team := 1, tids := [0], hdr := hdr0 } ∧
    mstate.team? 1 = some mteam ∧ regsOk (mstate.lfield mteam (·.regs)) (.ld (m .b32 .pkg .rlx .dflt false 8 5 none)) = false := ⟨rfl, rfl, rfl, by decide⟩

def pthread : Thread := { mthread with pend := 0x10 }

theorem witness_WordsAreChecked_pending : (benchOf { mteam with threads := [pthread] }).thread? 1 0 = some pthread ∧ regsOk 128 (.add false (rr 4)) = true ∧
    pthread.pendTok (.add false (rr 4)) = some 0x50000 := ⟨rfl, by decide, by decide⟩

theorem witness_WordsAreChecked_misaligned : mstate.issues (.ld (m .b32 .pkg .rlx .dflt false 8 4 (some 2))) (missue (.ld (m .b32 .pkg .rlx .dflt false 8 4 (some 2)))) = true ∧
    (mthread.reg64 4 + ((some (2 : Word)).getD 0).signExtend 64).toNat % sizeBytes .b32 ≠ 0 ∧ mstate.issues (.red (m .b64 .pkg .rlx .dflt false 8 4 (some 4))) (missue (.red (m .b64 .pkg .rlx .dflt false 8 4 (some 4)))) = true ∧
    (mthread.reg64 4 + ((4 : Word).extractLsb' 0 24).signExtend 64).toNat % sizeBytes .b64 ≠ 0 := ⟨issues_mstate (by decide), by decide, issues_mstate (by decide), by decide⟩

/-- Scratchpad and ENG words that their own checks refuse, and barrier updates that R221 refuses. -/
theorem witness_WordsAreChecked_refused : ([.lds (m .b32 .team .rlx .dflt false 8 12 (some 2)), .sts (m .b32 .team .rlx .dflt false 8 34 none), .tbinit (e false 0 14 16 none), .tbinitRearm (e false 1 34 0 (some 5)),
    .tbexp (e false 0 14 0 (some 4096)), .tbarv (e false 0 14 0 (some 1)), .tbwait (e false 8 34 0 (some 15)), .stgwait (e false 8 14 16 (some 2)), .waita (e false 8 14 14 none), .cont (e false 0 14 34 (some 0x200)),
    .bararv (e false 0 24 1 none), .barsync (e false 0 34 1 none), .launch (e false 8 14 0 none), .mma (e false 8 14 0 none), .accwin (e false 0 14 12 none), .scld (e false 0 24 24 none), .accz (e false 0 14 14 none),
    .accrd (e false 8 34 7 none), .accwr (e false 8 34 3 none), .accld (e false 4 14 12 (some 0x20001000)), .accst (e false 4 34 12 (some 0x20001000))].all fun i =>
      regsOk 128 i && (Claims.refusal mstate (missue i) i).isSome) = true ∧
    ([.tbinit (e false 0 12 24 none), .tbinitRearm (e false 1 12 0 (some 0)), .tbexp (e false 0 12 0 (some 4096))].all fun i =>
      match Claims.barrierUpdate i with
      | some (o, f) => regsOk 128 i && (Claims.object (mthread.reg o.a).toNat 16 16 (mstate.spadSize mteam)).isNone && Claims.barrierFree mstate (missue i) i (mthread.reg o.a).toNat 16 &&
          (f (litOr o mthread).toNat (mteam.tbar (mthread.reg o.a).toNat)).isNone
      | none => false) = true := by decide +kernel

/-- A convoy of two whose second member has a pending source, or another value and UCHK = 1. -/
def uadd : Instr := .add false { rr 4 with u := true }
def utwo (th : Thread) : State := { benchOf { mteam with threads := [mthread, th] } with cur := some { team := 1, tids := [0, 1], hdr := hdr0 } }
theorem witness_WordsAreChecked_uniform : uadd.uni = true ∧ regsOk 128 uadd = true ∧ mthread.pendTok uadd = none ∧ (Claims.arith uadd mthread).isSome = true ∧
    ((utwo { mthread with pend := 0x10 }).thread? 1 1).bind (·.pendTok uadd) = some 0x50000 ∧
    (let th := { mthread.setReg 4 9 with uchk := true }
     th.pendTok uadd = none ∧ th.uchk = true ∧ ∃ r ∈ srcRegs uadd, th.reg r ≠ mthread.reg r) := ⟨rfl, by decide, by decide, by decide, by decide, by decide, rfl, 4, by decide, by decide⟩

/-- COPY at an offset that is no multiple of 64, at a descriptor whose count is 0, and with a MCAST bit of a rank that is absent. -/
theorem witness_WordsAreChecked_copy : (mstate.copyTrap mteam 1 []).isSome = true ∧ mstate.releaseHeld mteam mthread (.copy (e false 8 14 0 none)) = false ∧
    mstate.released 1 [0] (mstate.releaseScope mteam mthread (.copy (e false 8 14 0 none))) (mstate.releaseDest mteam mthread (.copy (e false 8 14 0 none))) = true ∧
    (let d := descOf (List.replicate 64 0xFF); ∃ n, (n, false) ∈ d.fields (List.replicate 64 0xFF) (mstate.spadSize mteam) (mstate.lfield mteam (·.accrows)) ∧
      ∀ x ∈ d.fields (List.replicate 64 0xFF) (mstate.spadSize mteam) (mstate.lfield mteam (·.accrows)), x.1 < n → x.2 = true) :=
  ⟨by decide, by decide, by decide, 24, by decide +kernel⟩

/-- A store to a page that has no entry: it faults, and the side log has room. -/
def fregs : List (Reg × Word) := [(4, 0x40000000), (8, 7)]
def fteam : Team := benchTeam [benchThread fregs]

/-- Stores and reductions that enter the log, and loads and atomics that hold their thread. -/
def fsays (f : State → Issue → Instr → Option State) (rel : Bool) (i : Instr) : Bool :=
  i.wf && regsOk 128 i && (Claims.releasing i == rel) && (f (benchOf fteam) (issueBy i fteam (benchThread fregs)) i).isSome

theorem fsays_issues {f : State → Issue → Instr → Option State} {rel : Bool} {i : Instr} (h : fsays f rel i = true) :
    (benchOf fteam).issues i (issueBy i fteam (benchThread fregs)) = true := by
  simp only [fsays, Bool.and_eq_true] at h
  exact issues_bench fregs h.1.1.2

theorem witness_FaultingStoreEntersLog : ([.st (m .b32 .pkg .rlx .dflt false 8 4 none), .sth (m .b32 .pkg .rlx .dflt false 8 4 none), .red (m .b32 .pkg .rlx .dflt false 8 4 (some 0)),
    .redc (m .b32 .pkg .rlx .dflt false 8 4 none)].all (fsays Claims.entersLog false)) = true ∧
    ([.ld (m .b32 .pkg .rlx .dflt false 8 4 none), .ldacq (m .b32 .pkg .acq .dflt false 8 4 none), .ldh (m .b32 .pkg .rlx .dflt false 8 4 none), .atom (m .b32 .pkg .rlx .dflt false 8 4 (some 0)),
      .cas (m .b32 .pkg .rlx .dflt false 8 4 none), .cas128 (m .b128 .pkg .rlx .dflt false 8 4 none)].all (fsays Claims.heldThere false)) = true := by decide +kernel

/-- The same with a release half, once its prerequisites hold. -/
theorem witness_FaultingStoreEntersLog_release :
    ([(.strel (m .b32 .pkg .rel .dflt false 8 4 none), true), (.sth (m .b32 .team .rel .dflt false 8 4 none), true), (.red (m .b32 .pkg .rel .dflt false 8 4 (some 0)), true),
        (.atom (m .b32 .pkg .ar .dflt false 8 4 (some 0)), false), (.cas (m .b32 .pkg .rel .dflt false 8 4 none), false), (.cas128 (m .b128 .pkg .ar .dflt false 8 4 none), false)].all fun x =>
      let s := benchOf fteam
      fsays (fun s c i => if x.2 then Claims.entersLog (Claims.folded s c i) c i else Claims.heldThere (Claims.folded s c i) c i) true x.1 &&
        !s.releaseHeld fteam (benchThread fregs) x.1 && s.released 1 [0] (s.releaseScope fteam (benchThread fregs) x.1) (s.releaseDest fteam (benchThread fregs) x.1) &&
        s.settledEarly fteam.pcore (s.releaseScope fteam (benchThread fregs) x.1)) = true := by decide +kernel

/-! ### Witnesses: accesses that complete -/

/-- A place in the DRAM of tower 0, one on node 2, and a place of a combining page of FP32. -/
def place0 : Place := { node := none, pa := 0x50000, size := 1073741824, key := 0, home := 0, cmp := false, share := 0, cfmt := 0, rmt := false }
def placeFar : Place := { place0 with node := some 2, rmt := true, share := 1 }
def placeKept : Place := { place0 with node := some 2, share := 2 }
def placeSum : Place := { place0 with share := 3 }

/-- An access of 4 bytes of thread 0. -/
def access (act : Act) (loc : Loc) : Req :=
  { id := 5, team := 1, tid := 0, mates := [], flag := none, act := act, loc := loc, size := 4, sc := .pkg, ord := .rlx, ty := .dflt, phase := .pending, at_ := 0x40004, fs := none, after := []
    dead := [], iw := 0, early := false, seen := [], peeked := [], vals := none, landed := [], got := none }

/-- The bench with one outstanding access. -/
def serving (r : Req) : State := { mstate with cur := none, reqs := [r] }
theorem serving_req (r : Req) (h : r.id = 5) : (serving r).req? 5 = some r := by simp [serving, State.req?, h]
theorem serving_team (r : Req) : (serving r).team? 1 = some mteam := rfl

/-- A load of scratchpad, of local memory, and of a peer that has replied. -/
theorem witness_LoadsComplete : (serving (access (.load 8 false) (.spad 1 256))).canPerform (access (.load 8 false) (.spad 1 256)) = true ∧
    (serving (access (.load 8 false) (.glob 0x50000 place0))).canPerform (access (.load 8 false) (.glob 0x50000 place0)) = true ∧
    (serving (access (.load 8 false) (.glob 0x50000 place0))).badByte 0 0x50000 4 = none ∧
    (let r : Req := { access (.load 8 false) (.glob 0x50000 placeFar) with phase := .replied 0 (leBytes 32 9) }
     (serving r).canPerform r = true ∧ placeFar.keeps r.ty = false) := by decide

/-- No store is early there, the key of the place is good, and nothing of the access has been seen or read. -/
theorem witness_LoadsComplete_fresh : (∀ q ∈ (serving (access (.load 8 false) (.glob 0x50000 place0))).reqs, q.early = false) ∧
    (serving (access (.load 8 false) (.glob 0x50000 place0))).hub.keyOk 0 0x50000 = true ∧ Claims.untouched (access (.load 8 false) (.glob 0x50000 place0)) :=
  ⟨by decide, by decide, by exact ⟨rfl, rfl, rfl, rfl⟩⟩

/-- A place under key ID 5, which holds no key. -/
def placeLost : Place := { place0 with key := 5 }
theorem witness_Complete_lost : ([Act.load 8 false, .store (leBytes 4 7), .atomic 8 (.atop 3) (leBytes 4 7) false, .atomic 8 (.atop 3) (leBytes 4 7) true].all fun a =>
    let r := access a (.glob 0x50000 placeLost)
    (serving r).canPerform r && r.dead.isEmpty && !(serving r).hub.keyOk placeLost.key.toNat placeLost.pa) = true := by decide

/-- Accesses of a peer that has refused, or whose line this package has kept; and a load some of whose registers show its value already. -/
theorem witness_Complete_refused : ([Act.load 8 false, .store (leBytes 4 7), .atomic 8 (.atop 3) (leBytes 4 7) false, .atomic 8 (.atop 3) (leBytes 4 7) true].all fun a => [0, 5, 0x10].all fun c =>
    let r : Req := { access a (.glob 0x50000 placeFar) with phase := .replied c (leBytes 4 9) }
    (serving r).canPerform r) = true := by decide

theorem witness_LoadsComplete_kept :
    let r := access (.load 8 false) (.glob 0x50000 placeKept)
    let s : State := { serving r with mem := { (serving r).mem with remote := [(2 * 2 ^ 52 + 0x50000, 1), (2 * 2 ^ 52 + 0x50001, 2), (2 * 2 ^ 52 + 0x50002, 3), (2 * 2 ^ 52 + 0x50003, 4)] } }
    s.canPerform r = true ∧ s.remoteBytes placeKept 4 = some [1, 2, 3, 4] := by decide

theorem witness_LoadsComplete_seen : let r : Req := { access (.load 8 false) (.glob 0x50000 place0) with vals := some [9], landed := [8] }
    (serving r).canPerform r = true := by decide

/-- A load of a byte whose sector is poisoned. -/
theorem witness_LoadsComplete_poison : let r := access (.load 8 false) (.glob 0x50000 place0)
    let s : State := { serving r with mem := { (serving r).mem with poison := [0x50000 / 32] } }
    s.canPerform r = true ∧ s.badByte 0 0x50000 4 = some 0x50000 := by decide

/-- An LDH of no token, of tokens 1 (resolved) and 2 (pending), and of a token that names no future. -/
def handle (v : Nat) : State := (serving (access (.load 8 true) (.glob 0x50000 place0))).lay 0x50000 (leBytes 4 v)
theorem witness_LoadsComplete_handle : ([(7, none), (0x40000001, some true), (0x40000002, some false), (0x40000009, none)].all fun x =>
    let r := access (.load 8 true) (.glob 0x50000 place0)
    let y := (handle x.1).loadBytes mteam.pcore place0 .dflt true 4
    let w : Word := BitVec.ofNat 32 (leNat (y.2.overLog 1 0 0x50000 5 y.1))
    (handle x.1).canPerform r && w.toNat == x.1 && (mteam.future? w).map (·.resolved) == x.2 && (y.2.team? 1).isSome) = true := by decide

theorem witness_StoresComplete :
    (serving (access (.store (leBytes 4 7)) (.spad 1 256))).canPerform (access (.store (leBytes 4 7)) (.spad 1 256)) = true ∧
    (let r := access (.store (leBytes 4 7)) (.glob 0x50000 place0); (serving r).canPerform r = true ∧ (serving r).writeFails place0 = false) ∧
    (let r := access (.atomic 8 (.atop 3) (leBytes 4 7) false) (.glob 0x50000 place0)
     (serving r).canPerform r = true ∧ (serving r).writeFails place0 = false ∧ (serving r).badByte 0 0x50000 4 = none) ∧
    (let r : Req := { access (.store (leBytes 4 7)) (.glob 0x50000 placeFar) with phase := .replied 0 [] }; (serving r).canPerform r = true) ∧
    (let r : Req := { access (.store (leBytes 4 7)) (.glob 0x50000 placeFar) with phase := .replied 5 [] }; (serving r).canPerform r = true) := by decide

theorem witness_AtomicsComplete : ([AOp.atop 0, .atop 9, .cas (leBytes 4 0)].all fun op =>
    let r := access (.atomic 8 op (leBytes 4 7) true) (.glob 0x50000 place0)
    (serving r).canPerform r && ((serving r).badByte 0 0x50000 4).isNone) = true := by decide

/-- A reduction that has read its bytes, and one whose bytes cannot be read. -/
theorem witness_RmwsComplete : ([false, true].all fun back =>
    let a := Act.atomic 8 (.atop 3) (leBytes 4 7) back
    let r := access a (.glob 0x50000 place0)
    let got : Req := { r with got := some (leBytes 4 1) }
    let s : State := { serving r with mem := { (serving r).mem with poison := [0x50000 / 32] } }
    (serving got).canPerform got && s.canPerform r && (s.badByte 0 0x50000 4 == some 0x50000)) = true := by decide

/-- A store to a tower that has failed (R50). -/
theorem witness_StoresComplete_fails : let r := access (.store (leBytes 4 7)) (.glob 0x50000 place0)
    let s := (serving r).modTower 0 fun t => { t with failed := true }
    s.canPerform r = true ∧ s.writeFails place0 = true ∧ s.hub.keyOk 0 place0.pa = true := by decide

theorem witness_OtherAccessesComplete :
    (let r := access (.redc (leBytes 4 7)) (.glob 0x50000 placeSum)
     (serving r).canPerform r = true ∧ (serving r).hub.keyOk 0 placeSum.pa = true ∧ (serving r).writeFails placeSum = false) ∧
    (let s := serving (access (.cache [(0x50000, 0)] true) (.spad 1 0)); s.owned none 0x50000 128 = false ∧ s.towerHolds 0x50000 = false) ∧
    (let r := access (.maps 256 128 0x50000) (.spad 1 256); (serving r).mapTurn r = true) ∧
    (let r := access (.unmap 1024 false) (.spad 1 1024)
     (serving r).mapTurn r = true ∧ (mteam.maps.find? fun m => m.off == 1024).isSome = true ∧
      (mteam.maps.all fun m => m.filling.isEmpty && (serving r).inOrder r && ((serving r).writeBack mteam 0 m 6 m.dirtyLines).1) = true) ∧
    (let r := access (.unmap 2048 true) (.spad 1 2048); (serving r).mapTurn r = true ∧ (mteam.maps.find? fun m => m.off == 2048) = none) := by decide +kernel

/-- A mapped line that is being filled. -/
def ftm : Team := { mteam with maps := [{ off := 1024, len := 128, va := 0x50000, filled := [], filling := [(1024, place0)], dirty := [], pages := [] }] }
theorem witness_OtherAccessesComplete_fill : (benchOf ftm).team? 1 = some ftm ∧ (match ftm.mapAt 1024 with | some m => m.filling.get? 1024 == some place0 | none => false) = true ∧
    (benchOf ftm).holds ftm.pcore none place0 128 = false ∧ (benchOf ftm).hub.keyOk 0 0x50000 = true ∧ (benchOf ftm).badByte 0 0x50000 128 = none ∧
    ({ benchOf ftm with mem := { (benchOf ftm).mem with poison := [0x50000 / 32] } } : State).badByte 0 0x50000 128 = some 0x50000 := ⟨rfl, by decide, by decide, by decide, by decide, by decide⟩

theorem witness_LoadsKeepMemory : goesOn (exec (.loadComplete 5) (serving (access (.load 8 false) (.glob 0x50000 place0)))) = true ∧ place0.share ≠ 3 ∧
    (serving (access (.load 8 false) (.glob 0x50000 place0))).mem.hubHost.get? (0x50000 / 128) = none := by decide

theorem witness_StoreWritesItsBytes : let r := access (.store (leBytes 4 7)) (.glob 0x50000 place0)
    (serving r).canPerform r = true ∧ (serving r).hub.keyOk 0 place0.pa = true ∧ (serving r).writeFails place0 = false ∧ (serving r).mem.hubHost.get? (0x50000 / 128) = none ∧
    place0.pa % 32 + 4 ≤ 32 ∧ goesOn (exec (.storeComplete 5) (serving r)) = true ∧
    (nextOf (exec (.storeComplete 5) (serving r))).byteUnder 0 0x50000 = 7 ∧ (nextOf (exec (.storeComplete 5) (serving r))).byteUnder 0 0x50004 = 0 := by decide

/-- A combining page of which tower 1 holds a partial: a load, a reduction and a store that meet it. -/
def folding (r : Req) : State := { serving r with mem := { (serving r).mem with partials := [{ tower := 1, pa := 0x50000, size := 1073741824, cfmt := 0, key := 0, val := 0x3F800000 }] } }
theorem witness_Folds : ([Act.load 8 false, .atomic 8 (.atop 3) (leBytes 4 7) true, .store (leBytes 4 7)].all fun a =>
    let r := access a (.glob 0x50000 placeSum)
    let s := folding r
    s.canPerform r && s.hub.keyOk 0 placeSum.pa && (s.badByte 0 placeSum.pa 4).isNone && !s.writeFails placeSum && s.mem.hubHost.isEmpty && decide (paRegion placeSum.pa < 12) &&
      s.mem.partials.all (fun q => decide (q.pa / placeSum.size = placeSum.pa / placeSum.size) && decide (paRegion q.pa < 12) && q.key.toNat == 0 && q.cfmt.toNat == 0 && q.pa % cfmtBytes 0 == 0)) = true := by decide +kernel

theorem witness_Folds_next : ([(Act.load 8 false, Instr.loadComplete 5), (.atomic 8 (.atop 3) (leBytes 4 7) true, .atomicComplete 5), (.store (leBytes 4 7), .storeComplete 5)].all fun x =>
    goesOn (exec x.2 (folding (access x.1 (.glob 0x50000 placeSum))))) = true := by decide +kernel

/-- A load that meets the notify word of a completed copy. -/
theorem witness_LoadsComplete_notify : (serving (access (.load 8 false) (.spad 1 256))).canPerform (access (.load 8 false) (.spad 1 256)) = true ∧
    ∃ x ∈ ({ mteam with notes := [256] } : Team).notes, x < 256 + 4 ∧ 256 < x + 4 := by decide

theorem witness_WordsChangeNoMemory : (Instr.st (m .b32 .pkg .rlx .dflt false 8 4 none)).isWord = true ∧ goesOn (exec (.st (m .b32 .pkg .rlx .dflt false 8 4 none)) mstate) = true := by decide

/-- REDC on a combining page of FP32 (R348): the leaf has SHARE 3. -/
def sumState : State := mstate.lay bootLevel1 (leBytes 8 0xFF)
theorem witness_MemoryWordsPerform_redc : sumState.issues (.redc (m .b32 .pkg .rlx .dflt false 8 4 none)) (missue (.redc (m .b32 .pkg .rlx .dflt false 8 4 none))) = true ∧
    (Claims.memory sumState (missue (.redc (m .b32 .pkg .rlx .dflt false 8 4 none))) (.redc (m .b32 .pkg .rlx .dflt false 8 4 none))).isSome = true :=
  ⟨issues_of rfl rfl rfl (by decide) (benchThread_pend mregs), by decide +kernel⟩

/-! ### Witnesses: runs, copies, continuations, passes and waiters -/

/-- Two threads at the header of the clause, READY since cycles 3 and 5, on lanes 0 and 1 of quadrant 0. -/
def ready (since slot : Nat) (lane : BitVec 5) : Thread := { bootThread hdr0 since with pc := 0x40000, st := .ready, slot := slot, lane := lane }
def readyTeam : Team := benchTeam [ready 3 0 0, ready 5 1 1]
def readyState : State := { benchOf readyTeam with cur := none, now := 8 }

theorem witness_RunStartTakesConvoy : readyState.runs = [] ∧ readyState.runCycle (pcTower 48) = true ∧ (readyState.wakeResources.convoy 48 0).map (·.tid) = [0, 1] ∧
    (∀ i ∈ [0, 1], readyState.wakeResources.startHeld 1 i = false) := by decide +kernel

theorem witness_ConvoyIsFused : (readyState.convoy 48 0).map (·.tid) = [0, 1] := by decide

/-- The bench's clause, one whose WAIT names a flag, and one whose header SETA 12 makes ill-formed (R266). -/
def atStart (h : Nat) (f : Nat) : State :=
  ({ benchOf (benchTeam [{ ready 3 0 0 with flags := Vector.replicate 12 (BitVec.ofNat 6 f) }]) with cur := none } : State).lay 0x40000 (leBytes 4 h)
theorem witness_ClauseBegins : ([(0x10001FE0, 0, true, true), (0x10003FE0, 1, true, false), (0x100019E0, 0, false, true)].all fun x =>
    match (atStart x.1 x.2.1).team? 1, (atStart x.1 x.2.1).thread? 1 0 with
    | some u, some th => th.failed.isNone && th.later.isEmpty && th.pc == th.clause && (match ((atStart x.1 x.2.1).fetch u th.pc).1 with
        | .word h => hdrOk h == x.2.2.1 && (List.finRange 12).all (fun n => !h.getLsbD (13 + n.val) || th.flags[n] == 0) == x.2.2.2
        | _ => false)
    | _, _ => false) = true := by decide +kernel

theorem witness_ClauseBegins_later : ∃ th, (benchOf (benchTeam [{ ready 3 0 0 with later := [(4, { cause := 0x11, addr := 0, info := 256 })] }])).thread? 1 0 = some th ∧
    th.failed = none ∧ th.later = (4, { cause := 0x11, addr := 0, info := 256 }) :: [] := ⟨_, rfl, rfl, rfl⟩

theorem witness_ClauseBegins_failed : ∃ th, (benchOf (benchTeam [{ ready 3 0 0 with failed := some { cause := 0x06, addr := 0, info := 1 } }])).thread? 1 0 = some th ∧
    th.failed = some { cause := 0x06, addr := 0, info := 1 } := ⟨_, rfl, rfl⟩

/-- A header on a page that has no entry. -/
def farThread : Thread := { ready 3 0 0 with pc := 0x40000000, clause := 0x40000000 }
theorem witness_ClauseBegins_fault : (match (benchOf (benchTeam [farThread])).fetch (benchTeam [farThread]) farThread.pc with
    | (.fault r l, t) => (t.team? 1 == some (benchTeam [farThread])) && (t.teamFault (benchTeam [farThread]) farThread.pc .fetch r l 4).1.isSome
    | _ => false) = true := by decide +kernel

/-- A header that a quiesced tower keeps back. -/
theorem witness_ClauseBegins_wait : ((match (((atStart 0x10001FE0 0).modTower 0 fun w => { w with quiesce := true, quiesced := true }).fetch (benchTeam [ready 3 0 0]) 0x40000).1 with
    | .wait => true
    | _ => false) = true) := by decide +kernel

/-- Two members of a run, at one PC under one clause, or under two. -/
def runner (cl : DWord) : Thread := { ready 3 0 0 with st := .running, pc := 0x40008, clause := cl }
def paired (cl : DWord) : State := { benchOf (benchTeam [runner 0x40000, runner cl]) with cur := none }
theorem witness_ConvoyIsFused_regroup : ([(0x40000, [0, 1], []), (0x40004, [0], [1])].all fun x =>
    (paired x.1).running 1 [0, 1] == [0, 1] &&
      (let r := (paired x.1).regroup { pcore := 48, quad := 0, team := 1, todo := [0, 1], done := [], apart := [], stalled := false }
       r.todo == x.2.1 && r.apart == x.2.2)) = true := by decide +kernel

/-- A copy of the descriptor at work, and the bench with it. -/
def copyOf (desc : List Byte) : Copy :=
  { id := 7, team := 1, tid := 0, pcore := 48, tok := 0x40000002, desc := desc, dests := [{ team := some 1, moved := 0, counted := 0, dropped := false }], ending := none, cancel := false, fid := none,
    probed := [], refused := [], owns := [], unowned := false, slot := 0, taken := [], ahead := [] }
def copying (q : Copy) : State := { mstate with cur := none, copies := [q] }
theorem copying_copy (q : Copy) (h : q.id = 7) : (copying q).copy? 7 = some q := by simp [copying, State.copy?, h]

/-- The descriptor with its source on a page that has no entry, or with a scout of 1 and two words, on two pages. -/
def fdesc : List Byte := leBytes 8 0x40000000 ++ mdesc.drop 8
def sdesc (src : Nat) : List Byte := leBytes 8 src ++ leBytes 8 2048 ++ leBytes 4 4096 ++ leBytes 4 0 ++ leBytes 8 4 ++ leBytes 2 0 ++ leBytes 2 1 ++ leBytes 13 0 ++ leBytes 1 2 ++ leBytes 1 1 ++ leBytes 13 0

/-- The one destination of the copy, with nothing moved. -/
def dest0 : Dest := { team := some 1, moved := 0, counted := 0, dropped := false }

theorem witness_PiecesMove : (copying (copyOf mdesc)).copyRuns (copyOf mdesc) = true ∧ (copyOf mdesc).dests[0]? = some dest0 ∧ dest0.moved < (descOf mdesc).count ∧
    (copyOf mdesc).cancel = false ∧ (copyOf mdesc).fid = none ∧ (copyOf mdesc).unowned = false ∧ (copying (copyOf mdesc)).runCycle (pcTower 48) = true := by decide

/-- What moving its first piece answers. -/
def movedBy (q : Copy) : Moved := ((copying q).moveRange q (descOf q.desc) 0 dest0 0 ((copying q).pieceNow q (descOf q.desc) 0)).1

/-- Pieces that move, that fault on the source's page, that wait for the scout's answer on it, and that a refused probe ends (R198). -/
theorem witness_PiecesMove_moves : (copying (copyOf mdesc)).pieceNow (copyOf mdesc) (descOf mdesc) 0 ≠ 0 ∧ movedBy (copyOf mdesc) = .done ∧
    (match movedBy (copyOf fdesc) with | .fault .. => true | _ => false) = true ∧
    movedBy { copyOf mdesc with refused := [(pageKey false 0x60000, 0x10)] } = .fatal 0x10 := by decide +kernel

/-- The scout's entry on the source's page is unanswered. -/
def awaiting : Copy := { copyOf mdesc with probed := [(pageKey false 0x60000, some 9)] }
def awaitState : State := { copying awaiting with
  faults := [{ fid := 9, asid := 1, va := 0x60000, kind := .scout, reason := 0, level := 0, need := 1, grid := 1, teamid := 0, pcore := 48, opened := 0, recorded := true, answer := none }] }
theorem witness_PiecesMove_await : awaitState.pieceNow awaiting (descOf mdesc) 0 ≠ 0 ∧
    (awaitState.moveRange awaiting (descOf mdesc) 0 dest0 0 (awaitState.pieceNow awaiting (descOf mdesc) 0)).1 = .await 9 := by decide +kernel

/-- Probes ahead of a copy of two words: of a page that is there, and of one that has no entry. -/
theorem witness_PiecesMove_scout : ([(0x60000, true), (0x3FFFF000, false)].all fun x =>
    let q := copyOf (sdesc x.1)
    match q.toProbe with
    | some (dst, va) => (copying q).copyRuns q && decide ((descOf q.desc).scout ≠ 0) && decide (q.reached < (descOf q.desc).count) &&
      (match (copying q).translate none (pcTower 48) ((copying q).root mteam) va (if dst then .store else .load) .dflt with
        | (.ok _, _) => x.2
        | (.fault r l, t) => !x.2 && (t.openFault (t.root mteam) va .scout r l 1 (t.grid mteam) 0 48).1.isSome
        | _ => false)
    | none => false) = true := by decide +kernel

/-- A copy in E2M1 codes (R213). -/
theorem witness_PiecesMove_codes : (descOf (mdesc.take 49 ++ leBytes 1 8 ++ leBytes 14 0)).conv = 1 := by decide

theorem witness_CopiesEnd : (copying { copyOf mdesc with dests := [{ team := some 1, moved := 16, counted := 2, dropped := false }] }).copy? 7 ≠ none ∧ (descOf mdesc).count ≤ 16 ∧
    (let q : Copy := { copyOf mdesc with cancel := true, fid := some 9 }
     q.ending = none ∧ dest0.moved < (descOf q.desc).count ∧ (copying q).copyStalled q = true) := by decide

/-- A cancelled copy of two words that is at work: its sector in progress ends within its first word, whatever the free value. -/
def stopping : Copy := { copyOf (sdesc 0x60000) with cancel := true }
theorem stopping_stopAt (w : Word) : stopping.stopAt (descOf stopping.desc) 0 dest0 1 w = 0 := by
  have h : ((0 + 1) * (descOf stopping.desc).de - ceilDiv (0 * (descOf stopping.desc).de) 32 * 32) / 32 = 0 := by decide
  have g : Nat.min (descOf stopping.desc).count ((ceilDiv (0 * (descOf stopping.desc).de) 32 * 32 + 32 * 0) / (descOf stopping.desc).de) = 0 := by decide
  have e : w.toNat % (((0 + 1) * (descOf stopping.desc).de - ceilDiv (0 * (descOf stopping.desc).de) 32 * 32) / 32 + 1) = 0 := by rw [h]; exact Nat.mod_one _
  show Nat.min _ ((_ + 32 * (w.toNat % (((0 + 1) * (descOf stopping.desc).de - ceilDiv (0 * (descOf stopping.desc).de) 32 * 32) / 32 + 1))) / _) = 0
  rw [e]
  exact g

theorem stopping_targets : (copying stopping).stopTargets stopping (descOf stopping.desc) [0] = ([(0, 0)], (copying stopping).freeWord.2) := by
  have h : (copying stopping).stopTargets stopping (descOf stopping.desc) [0] =
      ([(0, stopping.stopAt (descOf stopping.desc) 0 dest0 ((copying stopping).freeWord.2.pieceNow stopping (descOf stopping.desc) 0) (copying stopping).freeWord.1)], (copying stopping).freeWord.2) := rfl
  have p : (copying stopping).freeWord.2.pieceNow stopping (descOf stopping.desc) 0 = 1 := by decide +kernel
  rw [h, p, stopping_stopAt]

theorem witness_CopiesEnd_sector : (copying stopping).copyStalled stopping = false ∧ (copying stopping).runCycle (pcTower stopping.pcore) = true ∧
    (∀ e ∈ [((0 : Nat), (0 : Nat))], (copying stopping).freeWord.2.sectorWaits stopping (descOf stopping.desc) e = none) := by
  refine ⟨by decide +kernel, by decide +kernel, ?_⟩
  intro e he
  simp only [List.mem_singleton] at he
  subst he
  rfl

theorem witness_CopiesEnd_finish : ((((copying stopping).freeWord.2.finishSectors 7 (descOf stopping.desc) [(0, 0)]).copy? 7).any fun q => q.dests.any fun x => decide (x.moved < (descOf stopping.desc).count)) = true := by
  decide +kernel

/-- A cycle in which Tahr lets nothing run. -/
theorem witness_CopiesEnd_cycle : (let s := ({ copying stopping with now := 7 } : State).modTower 0 fun w => { w with therm := { w.therm with hst := 1 } }
    s.runCycle (pcTower stopping.pcore) = false ∧ s.copyStalled stopping = false) := by decide +kernel

/-- A team of one crew whose thread has exited, with a spawn that waits. -/
def spawning : Team := { benchTeam [{ ready 3 0 0 with st := .exited }] with spawns := [{ off := 0x200, count := 1, arg := 7, bar := 256 }] }
theorem witness_ContinuationsSpawn : (benchOf spawning).team? 1 = some spawning ∧ ((benchOf spawning).lrec? spawning).isSome = true ∧ spawning.status = .resident ∧ spawning.cause = none ∧
    spawning.freeCrew ((benchOf spawning).crewSize spawning) = some 0 := ⟨rfl, rfl, rfl, rfl, by decide⟩

/-- An MMA of one pass of depth 1, whose operands stand in the FIFOs. -/
def pblock : List Byte := leBytes 4 128 ++ leBytes 4 128 ++ leBytes 4 1 ++ leBytes 1 0 ++ leBytes 1 1 ++ leBytes 8 0 ++ leBytes 1 1 ++ leBytes 41 0
def mma1 : Mma := { id := 7, team := 1, quadIx := 12, tok := 0x40000002, block := pblock, started := 0, retired := 0, ending := none }
def passing : State := { mstate with
  cur := none
  mmas := [mma1]
  streams := [{ team := 1, fifo := 0, bytes := List.replicate 128 0x38, owed := [] }, { team := 1, fifo := 1, bytes := List.replicate 128 0x38, owed := [] }] }
theorem witness_PassesRun : passing.passes = [] ∧ passing.passRoom 12 = true ∧ passing.nextMma 12 = some mma1 ∧ passing.team? mma1.team = some mteam ∧
    passing.passMet mma1 mteam = false :=
  ⟨rfl, by decide, by decide, rfl, by decide⟩
/-- An error in the scale entry of row 3, which the pass reads. -/
def erring : State := { passing with soft := [{ quadIx := 12, scale := true, ix := 3 }] }
theorem witness_PassesRun_error : erring.passes = [] ∧ erring.passRoom 12 = true ∧ erring.nextMma 12 = some mma1 ∧ erring.team? mma1.team = some mteam ∧
    erring.passMet mma1 mteam = true := ⟨rfl, by decide, by decide, rfl, by decide⟩

def pass1 : Pass := { mma := 7, quadIx := 12, team := 1, row := 0, start := 0, vals := [] }
def retiring : State := { passing with now := 56, mmas := [{ mma1 with started := 1 }], passes := [pass1] }
theorem witness_PassesRun_retire : (retiring.passes.find? fun p => p.quadIx == 12) = some pass1 ∧ pass1.start + 56 ≤ retiring.now ∧ (retiring.mma? 7).isSome = true ∧
    (blockOf pblock).passes = 0 + 1 := by decide

theorem witness_AccumulatorAccessesComplete : mteam.placed = true ∧ ([Act.scld 0 [0x3F800000], .accz 0 1, .accrd 8 0 8, .accwr 0 [1, 2]].all fun a =>
    let r : Req := { access a (.spad 1 0) with size := 0 }
    (serving r).passesDone r && (serving { r with vals := some [3] }).passesDone { r with vals := some [3] }) = true := by decide

/-- Tile moves between memory and the accumulator: with their page there, with an error in a row, and with a page whose key is gone. -/
def tileLoad (p : Place) : Req := access (.accld 0 256 0x20001000 0x50000 [(0x50, p)]) (.glob 0x50000 p)
def tileStore (p : Place) : Req := access (.accst 0 256 0x20001000 0x50000 [(0x50, p)]) (.glob 0x50000 p)
theorem witness_AccumulatorAccessesComplete_tiles :
    ([(tileLoad place0, false), (tileStore place0, true)].all fun x =>
      let s := serving x.1
      s.passesDone x.1 && s.inOrder x.1 && (s.pagesFail 0x20001000 0x50000 256 [(0x50, place0)] x.2).isNone && (s.elemsDue x.1 0x20001000 256 0x50000 [(0x50, place0)] x.2).isEmpty && s.elemsBack x.1 &&
        (s.elemBad x.1).isNone && s.rowsFree x.1 mteam 0x20001000 0x50000 256 [(0x50, place0)] x.2) = true ∧
    ([(tileLoad placeLost, false), (tileStore placeLost, true)].all fun x =>
      (serving x.1).passesDone x.1 && (serving x.1).inOrder x.1 && ((serving x.1).pagesFail 0x20001000 0x50000 256 [(0x50, placeLost)] x.2).isSome) = true := by decide +kernel

/-- Of the 128 rows of the tile, the second begins with a word that cannot be read. -/
theorem witness_AccumulatorAccessesComplete_error :
    let s : State := { serving (tileLoad place0) with mem := { (serving (tileLoad place0)).mem with poison := [0x50100 / 32] } }
    (s.loadRows (tileLoad place0) mteam 256 0x20001000 0x50000 [(0x50, place0)] (128 * accTiles 0x20001000) 0).2.2.1 = some (0x11, 0x50100) ∧
    ((serving (tileLoad place0)).loadRows (tileLoad place0) mteam 256 0x20001000 0x50000 [(0x50, place0)] (128 * accTiles 0x20001000) 0).2.2.1 = none := by decide +kernel

/-- An element of an ACCST at a peer: sent and not answered, and refused. -/
def elemOf (ph : Phase) : Req := { tileStore placeFar with id := 6, act := .elem 5 (some (leBytes 4 7)), loc := .glob 0x50000 placeFar, phase := ph }
theorem witness_AccumulatorAccessesComplete_elements :
    (({ serving (tileStore placeFar) with reqs := [tileStore placeFar, elemOf .sent] } : State).elemsBack (tileStore placeFar) = false) ∧
    (let s : State := { serving (tileStore placeFar) with reqs := [tileStore placeFar, elemOf (.replied 0x05 [])] }
     s.elemsBack (tileStore placeFar) = true ∧ s.elemBad (tileStore placeFar) = some (0x05, 0x50000)) ∧
    ((farElems 0x20001000 256 0x50000 [(0x50, placeFar)]).head?.map fun e => e.1) = some 0 ∧ ((serving (tileStore placeFar)).elemReq (tileStore placeFar) 0).isNone = true ∧
    (serving (tileStore placeFar)).behindLog (tileStore placeFar) 0x50000 4 = false := by decide +kernel

/-- An acquire that waits for its check: of an untagged line, and of one tagged by another team at team scope. -/
def waiting : Thread := { mthread with st := .waiting .check, word := some (.ldacq (m .b32 .pkg .acq .dflt false 8 4 none)) }
def acquire : Req := { access (.load 8 false) (.glob 0x50000 place0) with ord := .acq }
def acquiring : State := { benchOf { mteam with threads := [waiting] } with cur := none, reqs := [acquire] }
theorem witness_WaitersGoOn : acquiring.thread? 1 0 = some waiting ∧ (acquiring.reqs.find? fun r => r.team == 1 && r.threads.contains 0 && isAcq r.ord) = some acquire ∧
    acquiring.canPerform acquire = true ∧ acquiring.checkTrap acquire { mteam with threads := [waiting] } = none ∧
    (({ acquiring with mem := { acquiring.mem with tags := [(0x50000 / 128, (.team, .thread 0 3 9 9))] } } : State).checkTrap acquire { mteam with threads := [waiting] }).isSome = true :=
  ⟨rfl, by decide, by decide, by decide, by decide⟩

/-- The same wait of an acquire ATOM; and a FENCE whose thread has read a line that another team tagged. -/
theorem witness_WaitersGoOn_atomic : ({ acquiring with reqs := [{ acquire with act := .atomic 8 (.atop 3) (leBytes 4 7) true }] } : State).checkTrap
      { acquire with act := .atomic 8 (.atop 3) (leBytes 4 7) true } { mteam with threads := [waiting] } = none ∧
    ({ acquiring with reqs := [{ acquire with act := .atomic 8 (.atop 3) (leBytes 4 7) true }] } : State).canPerform
      { acquire with act := .atomic 8 (.atop 3) (leBytes 4 7) true } = true := by decide

theorem witness_WaitersGoOn_mismatch : ((benchOf mteam).fenceTrap mteam .pkg [(0x50000, (.team, .thread 0 3 9 9))]).isSome = true ∧
    tagPasses (some (.pkg, .thread 0 3 9 9)) .pkg ((benchOf mteam).agentOf mteam) = true := by decide

theorem witness_WaitersGoOn_tag : ({ acquiring with mem := { acquiring.mem with tags := [(0x50000 / 128, (.team, .thread 0 3 9 9))] } } : State).tagOf 0x50000 = some (.team, .thread 0 3 9 9) := by decide

/-- A FENCE whose reads are complete, a sleeper whose cycle has come, and a WAITA whose timeout has. -/
def fencing : Thread := { mthread with st := .waiting .check, word := some (.fence (m .b8 .pkg .acq .dflt false 0 0 none)) }
theorem witness_WaitersGoOn_fence : (benchOf { mteam with threads := [fencing] }).thread? 1 0 = some fencing ∧ fencing.st = .waiting .check ∧ fencing.reads = [] ∧
    (benchOf { mteam with threads := [fencing] }).reqs = [] := ⟨rfl, rfl, by decide, rfl⟩

theorem witness_WaitersGoOn_sleep : (readyState.now = 8) ∧
    ((benchOf { mteam with threads := [{ mthread with st := .blocked (.sleep 8) }] }).thread? 1 0).map (·.st) = some (.blocked (.sleep 8)) ∧
    ((benchOf { mteam with threads := [{ mthread with st := .blocked (.waita 256 0 8 0x40008 (some 0)) }] }).thread? 1 0).map (·.st) = some (.blocked (.waita 256 0 8 0x40008 (some 0))) := ⟨rfl, rfl, rfl⟩

/-! ### Witnesses: the scheduler -/

/-- A package whose tower 0 alone has partition 0, with a launch of two teams of which none has begun. -/
def towers0 : Vector Tower 12 := (Vector.replicate 12 { Tower.reset with tpart := 15 }).set 0 Tower.reset
def srec (pred map predgen : Nat) : LaunchRec :=
  { bootRecord with gridx := 2, saveslots := 2, pred := BitVec.ofNat 64 pred, map := map, predgen := BitVec.ofNat 32 predgen, spad := 1024, accrows := 0 }
def slaunch (r : LaunchRec) (placing : List Sys2Proof.Machine.PUnit) : Launch := { bootLaunch 0 1 with lrec := r, begun := [], placing := placing }
def unit0 (fallback : Bool) : Sys2Proof.Machine.PUnit := { num := 0, since := 0, sums := Vector.replicate 12 0, fallback := fallback }
def sched (l : Launch) (ts : List Team) : State := { benchOf mteam with cur := none, towers := towers0, launches := [l], teams := ts }

/-- The predecessor's record at 0x70000: GEN 1, STATE 2, two teams, both words final. -/
def polled (gen map : Nat) : State :=
  ((sched (slaunch (srec 0x70000 map gen) []) []).lay 0x70000 (leBytes 4 1 ++ leBytes 4 2 ++ leBytes 16 0 ++ leBytes 8 2)).lay 0x70040 (leBytes 4 256 ++ leBytes 4 256)
theorem witness_UnitsEnterPlacement : ([(1, 0), (2, 3), (1, 1)].all fun x =>
    let l := slaunch (srec 0x70000 x.2 x.1) []
    match ((polled x.1 x.2).readPred l l.lrec.pred 64).1 with
    | some h => l.lrec.pred != 0 && l.lrec.map != 2 && (fieldAt h 0 4 == l.lrec.predgen.toNat) == (x.1 == 1) && fieldAt h 24 8 == 2
    | none => false) = true := by decide +kernel

theorem witness_UnitsEnterPlacement_enter : (sched (slaunch (srec 0 0 0) []) []).mayEnter (slaunch (srec 0 0 0) []) 0 = true ∧
    (sched (slaunch (srec 0 0 0) [unit0 false]) []).mayEnter (slaunch (srec 0 0 0) [unit0 false]) 0 = false ∧
    (sched (slaunch (srec 0 0 0) [unit0 false]) []).mayEnter (slaunch (srec 0 0 0) [unit0 false]) 1 = true ∧
    (sched (slaunch (srec 0 0 0) []) []).hubBusy 0 false (slaunch (srec 0 0 0) []).root 2 0x70000 8 = false := by decide +kernel

/-- Unit 0 waits, is next and has a place. -/
def placing0 : Launch := slaunch (srec 0 0 0) [unit0 false]
theorem witness_TeamsArePlaced : (sched placing0 []).unitSaved placing0 0 = false ∧ (placing0.placing.find? fun p => p.num == 0) = some (unit0 false) ∧ (sched placing0 []).isNext placing0 0 = true ∧
    (sched placing0 []).place placing0 (unit0 false) = some [(48, 0)] ∧ ((sched placing0 []).starts placing0 0 [(48, 0)]).map (·.key) = [2] := by decide +kernel

/-- A saved team whose unit waits. -/
def savedTeam : Team := { benchTeam [ready 3 0 0] with status := .saved }
def resuming : Launch := { placing0 with begun := [0] }
theorem witness_TeamsAreSavedAndRestored : (sched resuming [savedTeam]).team? 1 = some savedTeam ∧ (sched resuming [savedTeam]).unitSaved resuming 0 = true ∧
    (sched resuming [savedTeam]).isNext resuming 0 = true ∧ ((sched resuming [savedTeam]).place resuming (unit0 false)).isSome = true ∧
    (sched resuming [savedTeam]).unitMembers resuming 0 = [savedTeam] ∧ (sched resuming [savedTeam]).slotBusy resuming savedTeam = false ∧ (sched resuming [savedTeam]).slotHeld resuming savedTeam = false := ⟨rfl, by decide +kernel⟩

/-- A team that is being saved and may leave: of an idempotent launch, and of one that has committed. -/
def savingTeam (x : Bool) : Team := { benchTeam [ready 3 0 0] with status := .saving, idemx := x }
theorem witness_TeamsAreSavedAndRestored_leave : ([true, false].all fun x =>
    let l : Launch := { slaunch { srec 0 0 0 with idemp := x } [] with begun := [0] }
    let s := sched l [savingTeam !x]
    let ms := s.unitMembers l 0
    ms == [savingTeam !x] && s.unitTeams l 0 == ms && ms.all (s.mayLeave ·) && ms.all (fun m => !s.slotHeld l m) && (s.backAll ms).1 && ms.all (fun m => (s.backAll ms).2.reqs.all fun r => !(s.backAll ms).2.holdsSave m r)) = true := by decide +kernel

/-- A unit of 12 teams in 4 rows and 3 columns, while teams of another launch stand in columns 2 and 3 of S2 and S3 of tower 0. -/
def wide (ep : Nat) : Launch :=
  { slaunch { srec 0 0 0 with gridx := 12, clrows := 4, clcols := 3, saveslots := 12, spad := 262144 } [unit0 true] with ep := ep }
def hog (k p : Nat) : Team := { benchTeam [ready 3 0 0] with key := k, launch := 1, teamid := k - 10, pcore := p }
def hogLaunch : Launch := { bootLaunch 1 1 with lrec := { bootRecord with gridx := 4, accrows := 0 }, quantum := 1, begun := [0, 1, 2, 3] }
def crowded (ep : Nat) : State := { sched (wide ep) [hog 10 52, hog 11 53, hog 12 76, hog 13 77] with now := 2048, launches := [wide ep, hogLaunch] }
theorem witness_TeamsArePreempted : (wide 1).placing = [unit0 true] ∧ (crowded 1).unitRoom (wide 1) (unit0 true) = none ∧ ((crowded 1).towerOrder (wide 1) (unit0 true)).head? = some 0 ∧
    ((crowded 1).residents 0).map (·.key) = [10, 11, 12, 13] ∧
    (crowded 1).enough (fun s => (s.fitTower (wide 1).lrec (s.unitNeeds (wide 1) 0) 0).isSome) [] [13, 12, 11, 10] = some [13] := by decide +kernel

/-- The same unit at EP 0: the time slices of those teams have passed. -/
theorem witness_TeamsArePreempted_slice : (crowded 0).unitRoom (wide 0) (unit0 true) = none ∧ (((crowded 0).residents 0).filter fun t => (crowded 0).epOf t == 0 && (crowded 0).sliceOver t).length = 4 ∧
    ((crowded 0).enough (fun s => (s.unitRoom (wide 0) (unit0 true)).isSome) [] [13, 12, 11, 10]).isSome = true := by decide +kernel

/-- A team whose thread has exited, and whose launch has one team more to end, or none. -/
def doneTeam : Team := { benchTeam [{ ready 3 0 0 with st := .exited }] with futures := [] }
def ending (n : Nat) : State := sched { slaunch (srec 0 0 0) [] with begun := [0], doneCnt := n } [doneTeam]
/-- The state with the counts taken, and the writes of the record (R117). -/
def counted (n : Nat) : State × Launch × List (Nat × List Byte × Scope) :=
  let l : Launch := { slaunch (srec 0 0 0) [] with begun := [0], doneCnt := n }
  let ws : List (Nat × List Byte × Scope) := [(64, leBytes 4 256, .pkg), (8, leBytes 8 (n + 1), .pkg), (16, leBytes 8 0, .pkg)] ++ if n + 1 = l.lrec.teams then [(4, leBytes 4 2, .sys)] else []
  let s1 := (ending n).modTeam 1 fun t => { t with status := .complete, maps := [], spad := [], threads := t.threads.map fun th => { th with later := [] } }
  (({ s1 with streams := s1.streams.filter fun x => x.team != 1 } : State).modLaunch 0 fun _ => { l with doneCnt := n + 1, haltCnt := 0, recTodo := ws }, l, ws)

/-- The state once the first k of them have been made. -/
def written (n k : Nat) : State :=
  let s := (counted n).1
  let zeros (a m : Nat) : Past := { at_ := 2, pa := a, old := List.replicate m 0 }
  { s with
    mem := { s.mem with
      bytes := [(65536, 1), (65538, 2), (131072, 0x3f), (262144, 0xf0), (262145, 0x1f), (262147, 0x10)] ++ (if k = 4 then [(327684, 2)] else []) ++
        (if 2 ≤ k then [(327688, BitVec.ofNat 8 (n + 1))] else []) ++ if 1 ≤ k then [(327745, 1)] else []
      past := if k = 0 then [] else [(80, ((if k = 4 then [zeros 327684 4] else []) ++ (if 3 ≤ k then [zeros 327696 8] else []) ++ (if 2 ≤ k then [zeros 327688 8] else []) ++ [zeros 327744 4]))]
      tags := if k = 0 then [] else [(2560, if k = 4 then .sys else .pkg, .hub 0)]
      tlb := if k = 0 then [] else [{ core := none, tower := 12, asid := 0, va := 0, size := 1073741824, entry := 0x3f }]
      walk := if k = 0 then [] else [{ tower := 12, asid := 0, level := 0, tag := 0, entry := 0x20001 }] }
    launches := [{ (counted n).2.1 with doneCnt := n + 1, haltCnt := 0, recTodo := (counted n).2.2.drop k }] }

/-- Write k is not kept back, and is made at once. -/
def writeGoes (n k : Nat) : Bool :=
  match (counted n).2.2[k]? with
  | some (off, bs, sc) =>
    let l := (counted n).2.1
    !(written n k).recHeld l off bs.length sc &&
      decide (((written n k).modLaunch l.key fun x => { x with recTodo := (counted n).2.2.drop (k + 1) }).hubWrite l.key l.root (l.lrec.compl + BitVec.ofNat 64 off) bs (some sc) = (.done, written n (k + 1)))
  | none => false

theorem written_none : (counted 0).1 = written 0 0 ∧ (counted 1).1 = written 1 0 := by decide +kernel
theorem writeGoes_first : writeGoes 0 0 = true ∧ writeGoes 1 0 = true := by decide +kernel
theorem writeGoes_second : writeGoes 0 1 = true ∧ writeGoes 1 1 = true := by decide +kernel
theorem writeGoes_third : writeGoes 0 2 = true ∧ writeGoes 1 2 = true := by decide +kernel
theorem writeGoes_fourth : writeGoes 1 3 = true := by decide +kernel

theorem recorded_step {n k : Nat} {x : Nat × List Byte × Scope} {ws : List (Nat × List Byte × Scope)} (h : writeGoes n k = true) (hk : (counted n).2.2[k]? = some x)
    (hw : (counted n).2.2.drop (k + 1) = ws) : Claims.recorded (written n k) (counted n).2.1 (x :: ws) = Claims.recorded (written n (k + 1)) (counted n).2.1 ws := by
  obtain ⟨off, bs, sc⟩ := x
  subst hw
  simp only [writeGoes, hk, Bool.and_eq_true, Bool.not_eq_true', decide_eq_true_eq] at h
  simp [Claims.recorded, h.1, h.2]

theorem witness_TeamsComplete_recorded : Claims.recorded (counted 0).1 (counted 0).2.1 (counted 0).2.2 = some (written 0 3) ∧
    Claims.recorded (counted 1).1 (counted 1).2.1 (counted 1).2.2 = some (written 1 4) ∧ ((written 1 4).launch? 0).isSome = true := by
  refine ⟨?_, ?_, by decide +kernel⟩
  · rw [written_none.1]
    exact (recorded_step writeGoes_first.1 rfl rfl).trans ((recorded_step writeGoes_second.1 rfl rfl).trans (recorded_step writeGoes_third.1 rfl rfl))
  · rw [written_none.2]
    exact (recorded_step writeGoes_first.2 rfl rfl).trans ((recorded_step writeGoes_second.2 rfl rfl).trans ((recorded_step writeGoes_third.2 rfl rfl).trans (recorded_step writeGoes_fourth rfl rfl)))

theorem witness_TeamsComplete : ([0, 1].all fun n =>
    (ending n).mayComplete doneTeam && doneTeam.maps.isEmpty && ((ending n).launch? 0).any fun l => l.recTodo.isEmpty && l.recWaits.isEmpty && !(ending n).wordBusy l doneTeam) = true := by
  decide +kernel

theorem witness_TeamsComplete_waits : ∃ l, (sched { slaunch (srec 0 0 0) [] with recWaits := [9] } []).launch? 0 = some l ∧ l.recWaits ≠ [] := ⟨_, rfl, by decide⟩

/-! ### Witnesses: traps and faults -/

/-- A thread outside its routine whose launch has a TRAPENTRY, one inside it, and one of a launch without. -/
def entryState (te : Nat) (inside : Bool) : State :=
  { benchOf { mteam with threads := [{ mthread with inTrap := inside }] } with launches := [{ bootLaunch 0 1 with lrec := { bootRecord with trapEntry := BitVec.ofNat 64 te } }] }
theorem witness_TrapEntry : ((entryState 0x40000 false).trapEntry 1 ≠ 0) ∧ ((entryState 0 false).trapEntry 1 = 0) ∧ ((entryState 0x40000 true).thread? 1 0).map (·.inTrap) = some true := by decide

def fault1 (rec : Bool) : FaultEntry :=
  { fid := 3, asid := 0, va := 0x40000000, kind := .store, reason := 1, level := 1, need := 2, grid := 1, teamid := 0, pcore := 48, opened := 0, recorded := rec, answer := none }
def faulted (rec : Bool) : State := { mstate with
  now := 14000 * 2
  faults := [fault1 rec]
  hub := { mstate.hub with fqBase := 0x100000, fqEn := true, fqLog := 6, fqTmo := 2 } }

/-- A table with the page's fault, and an empty one. -/
theorem witness_FaultsOpenOrJoin : ((faulted false).faults.find? fun f => f.asid == (0x10000 : DWord).extractLsb' 0 12 && f.va.toNat / 4096 == 0x40000000 / 4096 && f.answer.isNone) = some (fault1 false) ∧
    mstate.faults = [] := by decide

theorem witness_FaultQueueServes : ((faulted false).faults.find? fun f => !f.recorded) = some (fault1 false) ∧ (faulted false).hub.fqEn = true ∧ (faulted false).hub.fqUnret < 2 ^ (faulted false).hub.fqLog.toNat ∧
    (faulted false).paCheck ((faulted false).hub.fqBase + 32 * (faulted false).hub.fqSlot) = none ∧ (faulted false).hub.masked 0 = true ∧
    (faulted false).writeFails (hubPlace ((faulted false).hub.fqBase + 32 * (faulted false).hub.fqSlot)) = false ∧
    (faulted false).hubHolds 0 ((faulted false).hub.fqBase + 32 * (faulted false).hub.fqSlot) 32 = false := by decide

theorem witness_FaultQueueServes_vector : ({ (faulted false).hub with msix := [(3, 0)] } : Hub).masked 0 = false := by decide

/-- The fault is outstanding while its timeout has not passed; once it has, the watchdog answers it, and its number names none. -/
theorem witness_FaultsAreAnswered : (({ faulted true with now := 5 } : State).watchdog.faults.find? fun f => f.fid == (3 : BitVec 24).toNat && f.answer.isNone) = some (fault1 true) ∧
    ((faulted true).faults.find? fun f => f.fid == (3 : BitVec 24).toNat && f.answer.isNone) = some (fault1 true) ∧ (faulted true).hub.fqTmo ≠ 0 ∧
    (fault1 true).opened + (faulted true).hub.fqTmo.toNat * 14000 ≤ (faulted true).now ∧
    ((faulted true).watchdog.faults.find? fun f => f.fid == (4 : BitVec 24).toNat && f.answer.isNone) = none := by decide

/-- A side-log entry to a page that is there, one to a page without an entry, and one to a page whose HOME is not that of its region. -/
def entry1 (va : Nat) : LogEntry :=
  { id := 5, team := 1, tid := 0, va := BitVec.ofNat 64 va, reduction := false, size := 4, op := 0, ty := .dflt, sc := .pkg, ord := .rlx, data := leBytes 4 7, fid := none, fs := none, gone := false, iw := 0 }
def logged (va leaf : Nat) : State := { mstate.lay bootLevel1 (leBytes 8 leaf) with cur := none, sideLog := [entry1 va] }
theorem witness_SideLogReplays : ([(0x50000, 0x3F, 0), (0x40000000, 0x3F, 1), (0x50000, 0x63F, 2)].all fun x =>
    let s := logged x.1 x.2.1
    let en := entry1 x.1
    s.replayTurn en && mteam.status == .resident && match s.xteam mteam en.va en.kind en.ty with
      | (.ok p, s1) => x.2.2 == 0 && p.node.isNone && !s1.writeFails p && !s1.holds mteam.pcore none p 4 && s1.replayOrder en p && !s1.rmwHeld (s1.teamAgent en.team) (p.wide en.sc) p.pa 4
      | (.fault r l, s1) => x.2.2 == 1 && (s1.teamFault mteam en.va .store r l (needOf en.kind)).1.isSome
      | (.trap _ _, _) => x.2.2 == 2 && (Claims.replayFails s en mteam).isSome
      | (.held, _) => false) = true := by decide +kernel

/-- A reduction on a local page, one of a combining page, and accesses to a peer and to the host on the non-coherent route. -/
def entry2 (op : Byte) (red : Bool) : LogEntry := { entry1 0x50000 with reduction := red, op := op }
def reaching (leaf : Nat) (en : LogEntry) : State :=
  { logged 0x50000 leaf with
    sideLog := [en]
    hub := { mstate.hub with hatomcap := BitVec.allOnes _ }
    fab := { mstate.fab with en := true, domain := 5 } }
theorem witness_SideLogReplays_more : ([(0x3F, entry2 3 true, 0), (0xFF, entry2 0xFF true, 1), (2 * 2 ^ 52 + 0x87F, entry2 0 false, 2), (2 * 2 ^ 52 + 0x87F, entry2 3 true, 2),
    (14 * 2 ^ 48 + 2 ^ 46 + 0x3F, entry2 0 true, 3)].all fun x =>
    let s := reaching x.1 x.2.1
    let en := x.2.1
    s.replayTurn en && match s.xteam mteam en.va en.kind en.ty with
      | (.ok p, s1) => !s1.writeFails p && s1.replayOrder en p && !s1.atomRefused p (some (.atop en.op)) 4 && (s1.badByte p.key.toNat p.pa 4).isNone &&
          (if x.2.2 == 2 then p.node.isSome else p.node.isNone && !s1.holds mteam.pcore none p 4 && !s1.rmwHeld (s1.teamAgent en.team) (p.wide en.sc) p.pa 4) && (p.pcie == (x.2.2 == 3)) &&
          (x.2.2 != 1 || redcOk p 4)
      | _ => false) = true := by decide +kernel

theorem witness_TranslationsAreInvalidated : ((0x80000000 : Word).msb = true ∧ (0x80000000 : Word).extractLsb' 0 2 = 0) ∧ (0x80000001 : Word).extractLsb' 0 2 = 1 ∧ (0x80000003 : Word).extractLsb' 0 2 = 3 := by decide

/-- A command of KIND 2, and one that drops a peer's lines. -/
def inval (rdrop dropped : Bool) : InvCmd := { kind := 2, rdrop := rdrop, node := 2, va := 0, pa := 0, asid := 0, count := 0, dropped := dropped }
def invState (c : InvCmd) : State := { mstate with hub := { mstate.hub with invBusy := true, invCmd := some c }, teams := [{ mteam with maps := [] }] }
theorem witness_TranslationsAreInvalidated_done : (invState (inval true false)).remoteQuiet (inval true false) = true ∧
    ([inval false false, inval true true].all fun c => (invState c).logQuiet c && (invState c).invQuiet c && (invState c).remoteQuiet c && (invState c).teams.all fun t => t.placed && t.maps.isEmpty) = true := by decide

theorem witness_TranslationsAreInvalidated_place : place0.node = none ∧ place0.share ≠ 3 ∧
    (let s : State := { mstate with fab := { mstate.fab with en := true, domain := 5 } }
     (2 : BitVec 12).toNat < s.fab.domain.toNat ∧ placeFar.pa < 14 * 2 ^ 48 ∧ ({ placeFar with share := 3 } : Place).cfmt.toNat < 5) := by decide

/-! ### Witnesses: towers, the hub and the fabric -/

/-- The package after reset with tower 0 changed. -/
def withTower (f : Tower → Tower) : State := Claims.tower State.reset 0 f

theorem witness_RoleCommandsRun :
    (State.reset.towers[0].roleBusy = false ∧ Claims.rejected State.reset.towers[0] 0b1000 0 = none ∧ Claims.rejected State.reset.towers[0] 0b1100 0 = some 3 ∧
      Claims.rejected State.reset.towers[0] 0b1000 0b1000 = some 2 ∧ Claims.rejected State.reset.towers[0] 0b1111 0 = some 1 ∧
      Claims.rejected { Tower.reset with quiesce := true } 0b1000 0 = some 4) ∧
    Claims.leaving (withTower fun w => { w with rolePhase := .drain, roleBusy := true, reqCompute := 0b1000 }) 0 0b1100 0b1000 = [] ∧
    (let w := (withTower fun w => { w with rolePhase := .flush, reqCompute := 0b1110 }).towers[0]
     w.rolePhase = .flush ∧ (∀ i : Fin 5, w.tsv[i].pauseTill = none) ∧ w.pinned = w.reqPinned) ∧
    (let w := (withTower fun w => { w with rolePhase := .enumerate, reqCompute := 0b1110 }).towers[0]; w.rolePhase = .enumerate ∧ w.powerEnd ≤ 0 ∧ w.pinned = w.reqPinned) := by decide

theorem witness_ThrottleFollowsTemperature :
    (let s : State := { State.reset with now := 140000 }; s.now % 140000 = 0 ∧ s.towers[0].lastEval < s.now) ∧
    (let s : State := { withTower fun w => { w with lastEval := 140000, tahrNext := some w.therm } with now := 140032 }
     s.towers[0].tahrNext = some Tower.reset.therm ∧ s.now % 256 = 0 ∧ s.towers[0].lastEval < s.now) ∧
    ((withTower fun w => { w with therm := { w.therm with hst := 1 } }).towers[0].therm.hst ≠ 0 ∧ State.reset.towers[0].lastTick ≤ State.reset.now / 256) ∧ State.reset.towers[0].therm.hst = 0 := by decide

theorem witness_TowersAreConfigured :
    (let w := (withTower fun w => { w with quiesce := true }).towers[0]; w.quiesce = true ∧ w.quiesced = false ∧ ∀ i : Fin 5, w.tsv[i].pauseTill = none) ∧
    (let w := (withTower fun w => { w with zeroing := true }).towers[0]; w.zeroing = true ∧ ∀ i : Fin 5, w.tsv[i].pauseTill = none) := by decide

/-- A row that nothing has refreshed is due within 128 ms of reset, whatever its bin. -/
theorem rowDue_fresh (s : State) (t b r : Nat) (h : (s.tower t).rows = []) : s.rowDue t b r ≤ 128 * msCycles := by
  have g : s.binTime t b r ≤ 128 := by
    unfold State.binTime
    split
    · decide
    · split <;> decide
  unfold State.rowDue
  rw [h]
  show 0 + s.binTime t b r * msCycles / 1 ≤ 128 * msCycles
  rw [Nat.zero_add, Nat.div_one]
  exact Nat.mul_le_mul_right _ g

theorem witness_TowerMemoryIsKept_due : (∀ x ∈ State.reset.towers[0].refresh, x.1 ≠ (3 : BitVec 10).toNat) ∧
    ({ State.reset with now := 128 * msCycles } : State).rowDue 0 3 7 ≤ 128 * msCycles := ⟨by decide, rowDue_fresh _ 0 3 7 rfl⟩

/-- A row refreshed at cycle 9, and a request that was retried, with nothing else waiting for its bank. -/
theorem witness_TowerMemoryIsKept :
    ((withTower fun w => { w with rows := [{ bank := 3, row := 7, at_ := 9, rmult := 1 }] }).towers[0].rows.find? fun r => r.bank == 3 && r.row == 7) = some { bank := 3, row := 7, at_ := 9, rmult := 1 } ∧
    (let r := access (.load 8 false) (.glob 0x50000 place0)
     let s : State := { State.reset with reqs := [r] }
     place0.pa / 2 ^ 48 = 0 ∧ s.inDram place0.pa = true ∧ s.req? 5 = some r ∧ s.bankWaits 0 (s.towers[0].bankOf (place0.pa % 2 ^ 48)) 5 = false) ∧
    (5 * 32 / 2 ^ 48 = 0 ∧ State.reset.inDram (32 * 5) = true ∧ State.reset.towers[0].bankOf (32 * 5 % 2 ^ 48) < 2 ^ 10 ∧ 5 ∉ State.reset.mem.poison) ∧
    (let w := (withTower fun w => { w with repairs := [{ bank := 3, row := 7, spare := 0, aOk := true, bOk := true, cached := false }] }).towers[0]
     (w.repairs.find? fun r => r.bank == 3 && r.row == 7) = some { bank := 3, row := 7, spare := 0, aOk := true, bOk := true, cached := false } ∧ w.repairs.countP (·.cached) < 4096 ∧ w.failed = false) ∧
    State.reset.hub.lock = false ∧
    (let w := (withTower fun w => { w with tsv := w.tsv.set 4 { drift := true, pauseTill := none, due := 350000 } }).towers[0]
     w.tsv[4].drift = true ∧ w.tsv[4].pauseTill = none) := by decide +kernel

/-- A bank under refresh whose request was sent a retry; and dirty bytes of a tower whose remap entry has no good copy. -/
theorem witness_TowerMemoryIsKept_retry : (let w := (withTower fun w => { w with retry := [3], refresh := [(3, 490)] }).towers[0]
      (3 : BitVec 10).toNat ∈ w.retry ∧ ((3 : BitVec 10).toNat, 490) ∈ w.refresh ∧ (withTower fun w => { w with retry := [3], refresh := [(3, 490)] }).now < 490 + 30) ∧
    (let h : Table Hidden := [(0x400, { byte := 7, tower := 2 })]
     h.rising = true ∧ h.get? 0x400 = some { byte := 7, tower := 2 } ∧ 0x400 / 2 ^ 48 = 0 ∧ 0x400 % 2 ^ 48 < 0x080000000000) := by decide

theorem witness_ConfigurationIsLocked : State.reset.hub.mState = .opened ∧ (∀ n : TowerId, State.reset.towers[n.val].quiesce = false ∧ State.reset.towers[n.val].roleBusy = false) ∧
    (withTower fun w => { w with quiesce := true }).towers[(0 : TowerId).val].quiesce = true ∧ ({ Hub.reset with mState := .measured, mBusy := true, lock := true } : Hub).mState ≠ .opened ∧ State.reset.hub.lock = false := by decide

theorem witness_ConfigurationIsLocked_units : (let s : State := { State.reset with towers := Vector.replicate 12 { Tower.reset with quiesce := true, quiesced := true } }
    ∀ n : TowerId, s.towers[n.val].quiesced = true) ∧ ((32 : Word).extractLsb' 0 6).toNat ≤ 32 ∧ 32 < ((33 : Word).extractLsb' 0 6).toNat := by decide

theorem witness_HostReachesMemory :
    ((2 ^ 36 + 64 : Nat) / 2 ^ 36 = (1 : TowerId).val ∧ State.reset.inDram (2 ^ 48 + 64) = true ∧ State.reset.inDram (2 ^ 48 + 64 + 32 - 1) = true ∧ State.reset.hub.keyOk 0 (2 ^ 48 + 64) = true ∧
      State.reset.hostHolds (2 ^ 48 + 64) 0 32 = false ∧ State.reset.hostWriteHolds (2 ^ 48 + 64) 0 32 = false ∧ State.reset.hostKept (2 ^ 36 + 64) 32 = false ∧ (2 ^ 48 + 64 : Nat) % 32 + 32 ≤ 32 ∧ State.reset.badByte 0 (2 ^ 48 + 64) 32 = none ∧
      State.reset.mem.hidden = [] ∧ State.reset.mem.hiddenKey = []) ∧
    ((withTower fun w => { w with failed := true }).towers[0].failed = true) ∧
    (let h : Hub := { Hub.reset with units := 2, hwin := (Vector.replicate 4 0).set 3 0x80000001 }
     h.hwin[(3 : Fin 4)].msb = true ∧ (h.hwin[(3 : Fin 4)].extractLsb' 0 6).toNat < h.units.toNat ∧ ({ State.reset with hub := h } : State).hostHolds (12 * 2 ^ 48 + 2 ^ 26) 0 32 = false ∧
       ({ State.reset with hub := h } : State).badByte 0 (12 * 2 ^ 48 + 2 ^ 26) 32 = none) ∧
    (State.reset.mem.hubHost.get? 5 = none ∧
      (let s : State := { State.reset with mem := { State.reset.mem with hubHost := [(14 * 2 ^ 41, { dirty := true, key := 0 })] } }
       s.mem.hubHost.get? (14 * 2 ^ 41) = some { dirty := true, key := 0 } ∧ hostCoherent (14 * 2 ^ 41 * 128) = true)) ∧
    (let p : Place := { place0 with pa := 14 * 2 ^ 48 }; p.node = none ∧ p.pa / 2 ^ 48 = 0xE ∧ (access (.load 8 false) (.glob 0x50000 p)).dead = []) := by decide

/-- A context of 16 entries (R87), with its queue ACTIVE and some entries promised. -/
def ctx0 : List Byte := leBytes 8 0x80000 ++ leBytes 1 4 ++ leBytes 7 0 ++ leBytes 8 0x90000 ++ leBytes 8 0x10000 ++ leBytes 32 0
def queue0 (st : QState) : Queue := { num := 5, state := st, err := 0, ctx := ctx0, head := 2, tail := 3, entries := [], due := 1 }
def queued (q : Queue) : State := { mstate with cur := none, hub := { mstate.hub with hqEn := true, hqBase := 0xA0000 }, wqs := [q] }

theorem witness_QueuesAreControlled :
    (let s := ({ queued (queue0 .active) with wqs := [] } : State).lay (0xA0000 + 64 * 5) ctx0
     (s.wq 5).state = .disabled ∧ s.paCheck (0xA0000 + 64 * 5) = none ∧ s.badByte 0 (0xA0000 + 64 * 5) 64 = none ∧ ctxOk (s.readUnder 0 (0xA0000 + 64 * 5) 64) = true ∧ s.paCheck 0x90000 = none ∧
     s.writeFails (hubPlace 0x90000) = false ∧ s.hubHolds 0 (0xA0000 + 64 * 5) 64 = false ∧ s.hubHolds 0 0x90000 4 = false ∧ s.queueKept 5 = false ∧ fieldAt (s.readUnder 0 (0xA0000 + 64 * 5) 64) 16 8 = 0x90000) ∧
    (let s : State := { queued (queue0 .active) with wqs := [] }; (s.wq 5).state = .disabled ∧ ctxOk (s.readUnder 0 (0xA0000 + 64 * 5) 64) = false) := by decide

theorem witness_QueuesAreControlled_moves : ((queued (queue0 .error)).wq 5).state = .error ∧
    ((queued (queue0 .disabling)).wq 5 = queue0 .disabling ∧ ∀ l ∈ (queued (queue0 .disabling)).launches, l.queue ≠ 5) ∧
    ((queue0 .active).size = 16 ∧ (15 : Word).toNat < 16 ∧ 16 ≤ (16 : Word).toNat ∧ (3 + 16 - 2) % 16 ≤ (15 + 16 - 2) % 16 ∧ (2 + 16 - 2) % 16 < (3 + 16 - 2) % 16) ∧
    (((queued (queue0 .active)).fetchEntries (queue0 .active) 1 0).1.isSome = true ∧ ((queued (queue0 .active)).hubStore (queue0 .active).headAddr (leBytes 4 3)).1 = true ∧
      (queue0 .active).headAddr = 0x90000 ∧ (queued (queue0 .active)).hubHolds 0 ((queue0 .active).slotAt 0) 64 = false) ∧
    ((({ queued (queue0 .active) with mem := { (queued (queue0 .active)).mem with poison := [(0x80000 + 128) / 32] } } : State).fetchEntries (queue0 .active) 1 0).1 = none) := by decide

/-- Entries of each command, granted, and begun or not. -/
def entry0 (opc : Nat) (begun : Bool) : QEntry :=
  { num := 9, bytes := leBytes 1 opc ++ leBytes 7 0 ++ leBytes 8 (if opc = 0 then 0 else 0x200000) ++ leBytes 8 (if opc = 3 then 1 else 0) ++ leBytes 8 0 ++ leBytes 32 0, granted := true, started := begun, progress := 0, order := 0 }
theorem witness_QueueEntriesRun :
    ([(0, false), (1, false), (2, false), (3, false), (4, false), (5, false), (2, true), (3, true), (4, true), (5, true)].all fun x =>
      ((queued { queue0 .active with entries := [entry0 x.1 x.2] }).entry? 5 9 x.1 x.2).isSome) = true ∧
    (let s := queued (queue0 .active)
     s.owned none 0x200000 (2 ^ 21) = false ∧ s.towerHolds 0x200000 = false ∧ s.paCheck 0x200000 = none ∧ s.badByte 0 0x200000 8 = none ∧ tagPasses (s.tagOf 0x200000) .sys (.hub s.fab.node) = true ∧
      s.hubHolds 0 0x200000 8 = false ∧ (s.hubStore 0x200000 (leBytes 8 0)).1 = true ∧ (s.hubStore (2 ^ 47) (leBytes 8 0)).1 = false ∧ s.hub.hbiasen.getLsbD 0 = false ∧ s.flipWaits (entry0 3 true) = false ∧ s.launchBusy 9 (s.wq 5).root 0x200000 0 = false) := by decide +kernel

/-- Two BIAS entries over one page, granted one after the other. -/
theorem witness_QueueEntriesRun_order : (let s := queued { queue0 .active with entries := [{ entry0 3 true with num := 8, order := 1 }, { entry0 3 true with order := 2 }] }
    s.entry? 5 9 3 true = some { entry0 3 true with order := 2 } ∧ ∃ w ∈ s.wqs, ∃ y ∈ w.entries, y.opc = 3 ∧ y.granted = true ∧ y.order < 2 ∧
      y.f 8 8 / 2 ^ 21 + y.progress ≤ (entry0 3 true).f 8 8 / 2 ^ 21 + 0 ∧ (entry0 3 true).f 8 8 / 2 ^ 21 + 0 < y.f 8 8 / 2 ^ 21 + y.f 16 4) :=
  ⟨by decide, _, List.mem_singleton_self _, { entry0 3 true with num := 8, order := 1 }, by decide, by decide⟩

/-- A tower in bias mode: an entry whose page is at its target, and one whose page is not. -/
theorem witness_QueueEntriesRun_flip : (let s : State := { queued (queue0 .active) with hub := { (queued (queue0 .active)).hub with hbiasen := 1 } }
    s.hub.hbiasen.getLsbD (0x200000 / 2 ^ 21 * 2 ^ 21 / 2 ^ 48) = true ∧ s.mem.hostBias = [] ∧ (entry0 3 true).f 20 1 = 0) ∧
    (let s : State := { queued (queue0 .active) with mem := { (queued (queue0 .active)).mem with hostBias := [1] } }; 1 ∈ s.mem.hostBias) := by decide

/-- The arbitration slot: no entry, and one of a queue of level 0 in a slot that level 7 owns. -/
def arbitrated : State := queued { queue0 .active with entries := [{ entry0 0 false with granted := false }] }
theorem witness_QueueEntriesRun_slot : State.reset.now % 16 = 0 ∧ State.reset.lastSlot ≠ some (State.reset.now / 16) ∧ (∀ l < 8, State.reset.eligible l = []) ∧
    arbitrated.eligible 0 = [5] ∧ (∀ m < 8, 0 < m → arbitrated.eligible m = []) ∧ ((arbitrated.wq 5).startable).map (·.num) = some 9 ∧
    ((arbitrated.wq 5).startable).map arbitrated.entryStatus = some 0 := by decide

/-- A record of one team of one thread with 8 registers (R113), its entry at 0x40000 and its completion record at an address. -/
def record (compl : Nat) : List Byte :=
  leBytes 8 0x40000 ++ leBytes 24 0 ++ leBytes 8 compl ++ leBytes 16 0 ++ leBytes 4 1 ++ leBytes 2 1 ++ leBytes 2 1 ++ leBytes 2 1 ++ leBytes 1 0 ++ leBytes 1 8 ++ leBytes 4 0 ++ leBytes 1 1 ++ leBytes 1 1 ++
    leBytes 22 0 ++ leBytes 4 1 ++ leBytes 156 0

/-- A record that cannot be read; one with a nonzero zero field; one of no thread; one that starts; one whose completion record cannot be written; a partition that no tower has. -/
theorem witness_LaunchesStart : ((benchOf mteam).hubRead 9 false 0x10000 256 0x40000000 256).1 = none ∧ ((benchOf mteam).hubRead 9 false 0x10000 256 0x70000 256).1.isSome = true ∧
    recZeros (List.replicate 256 0xFF) = false ∧ recZeros (List.replicate 256 0) = true ∧ (recOf (List.replicate 256 0)).inLimits = false ∧ (record 0x50000).length = 256 ∧ recZeros (record 0x50000) = true ∧ (recOf (record 0x50000)).inLimits = true ∧ (∀ n : TowerId, mstate.towers[n.val].tpart.toNat ≠ 3) ∧ mstate.towers[0].tpart.toNat = 0 ∧
    ((benchOf mteam).writeHead' 9 0x10000 0x50000 (leBytes 64 1)).1 = true ∧ ((benchOf mteam).writeHead' 9 0x10000 0x40000000 (leBytes 64 1)).1 = false ∧
    (match ((benchOf mteam).translate none hubTlb 0x10000 0x50000 .store .dflt).1 with | .ok p => p.node.isNone | _ => false) = true := by decide +kernel

/-- A completion record on a peer's page. -/
theorem witness_LaunchesStart_peer : (match ((reaching (2 * 2 ^ 52 + 0x87F) (entry1 0x50000)).translate none hubTlb 0x10000 0x50000 .store .dflt).1 with | .ok p => p.node.isSome | _ => false) = true := by
  decide +kernel

def eventQ0 (n u : Nat) : EventQ :=
  { num := 2, held := true, base := 0xB0000, log2n := 6, vec := 4, count := 2, time := 1, slot := 63, phase := true, unreturned := n, waiting := [List.replicate 15 1, List.replicate 15 2], unsignalled := u, firstAt := 0 }
def evented (q : EventQ) : State := { mstate with now := 1400, hub := { mstate.hub with hqEn := true, heqBase := 0xC0000 }, eqs := [q] }
theorem witness_EventsAreWritten :
    (let q := { eventQ0 0 0 with held := false }; (evented q).eventQ 2 = q ∧ q.held = false ∧ q.waiting ≠ [] ∧ (evented q).hubHolds 0 (0xC0000 + 64 * 2) 64 = false) ∧
    ((evented (eventQ0 63 1)).eventQ 2 = eventQ0 63 1 ∧ 63 < 2 ^ (eventQ0 63 1).log2n ∧ (evented (eventQ0 63 1)).paCheck (0xB0000 + 16 * 63) = none ∧ (evented (eventQ0 63 1)).hub.masked 4 = true ∧
      (evented (eventQ0 63 1)).writeFails (hubPlace (0xB0000 + 16 * 63)) = false ∧ (evented (eventQ0 63 1)).hubHolds 0 (0xB0000 + 16 * 63) 16 = false ∧
      ({ (evented (eventQ0 63 1)).hub with msix := [(19, 0)] } : Hub).masked 4 = false) ∧
    2 ^ (eventQ0 64 0).log2n ≤ (eventQ0 64 0).unreturned ∧
    ((63 + 64) % 64 = (eventQ0 64 0).slot % 64 ∧ (63 + 0) % 64 = (63 : Word).toNat % 64) ∧ ((60 + 3) % 64 = (eventQ0 3 0).slot % 64 ∧ (60 + 5) % 64 = (1 : Word).toNat % 64) ∧
    ((eventQ0 0 1).held = true ∧ (eventQ0 0 1).time ≠ 0 ∧ (eventQ0 0 1).unsignalled ≠ 0 ∧ (eventQ0 0 1).firstAt + (eventQ0 0 1).time * 1400 ≤ (evented (eventQ0 0 1)).now) := by decide

theorem witness_KeysAreInstalled :
    (let h : Hub := { Hub.reset with doeAlg := some (true, true) }; h.doeAlg = some (true, true) ∧ (∀ x ∈ h.sessions, x.num ≠ 1) ∧ h.doeAlg ≠ none) ∧ (Hub.reset.doeAlg ≠ some (true, true)) ∧
    (let h : Hub := { Hub.reset with sessions := [{ num := 1 }], mState := .keyed }; ({ num := 1 } : Session) ∈ h.sessions ∧ h.mState = .keyed) ∧
    (((BitVec.ofNat 544 0x00050001).extractLsb' 16 16).toNat ≤ 1023 ∧ (BitVec.ofNat 544 0x00050001).extractLsb' 0 16 = 0x0001 ∧ 1023 < ((BitVec.ofNat 544 0x04000001).extractLsb' 16 16).toNat ∧
      (BitVec.ofNat 544 0x00050007).extractLsb' 0 16 ≠ 0x0001 ∧ (0x03FF0002 : BitVec 32).extractLsb' 0 16 = 0x0002) ∧
    (let h : Hub := { Hub.reset with keyWork := [{ id := 5, value := none, session := 1 }] }; (h.keyWork.find? fun w => w.id == 5) = some { id := 5, value := none, session := 1 }) := by decide

/-- Node 2 of a domain of 5, and cells from node 1 to it. -/
def fabState : State := { State.reset with now := 8, fab := { Fabric.reset with en := true, locked := true, node := 2, domain := 5 } }
def cell (typ : BitVec 4) (payload : Nat) : Cell := { src := 1, dst := 2, typ := typ, bseq := 0, ack := 0, tag := 4, status := 0, payload := BitVec.ofNat 512 payload }

/-- Cells of every TYPE that may be performed, on a place that exists and on one that does not. -/
theorem witness_CellsArePerformed : ([0, 1, 2, 3, 4, 5, 6, 7].all fun n =>
    let x := cell (BitVec.ofNat 4 n) (0x400 + 0x20 * 2 ^ 64)
    decide (x.dst = fabState.fab.node) && decide (x.src ≠ fabState.fab.node) && fabState.fab.en && decide (x.typ = BitVec.ofNat 4 n) && (fabState.pairOf x.src).waiting.isEmpty && (Claims.heard fabState x).mayPerform x) = true ∧
    fabState.peerRefuses 0x400 32 = none ∧ fabState.badByte 0 0x400 32 = none ∧ tagPasses (fabState.tagOf 0x400) .pkg (.thread 1 0 0 0) = true ∧ fabState.writeFails (fabState.peerPlace 0x400) = false ∧
    fabState.peerRefuses (2 ^ 47) 32 = some 5 ∧
    ((({ fabState with fab := { fabState.fab with peers := [{ Peer.blank 1 with tags := [(4, 9)] }] } } : State).pairOf 1).tags.find? fun x => x.1 == (4 : BitVec 8).toNat) = some (4, 9) := by decide

/-- Reads that find a poisoned sector, a tag that no peer passes, and a failed tower. -/
theorem witness_CellsArePerformed_refused :
    (({ fabState with mem := { fabState.mem with poison := [0x400 / 32] } } : State).badByte 0 0x400 32).isSome = true ∧
    tagPasses (({ fabState with mem := { fabState.mem with tags := [(0x400 / 128, (.pkg, .thread 2 0 1 1))] } } : State).tagOf 0x400) .sys (.thread 1 0 0 0) = false ∧
    (let s := Claims.tower fabState 0 fun w => { w with failed := true }; s.writeFails (s.peerPlace 0x400) = true) := by decide

/-- Operation packets: ADD and CAS of 4 bytes, of acquire order, on a place that exists and on one that does not. -/
theorem witness_CellsArePerformed_operation : ([(3, 0x400), (0x10, 0x400), (3, 2 ^ 47)].all fun x =>
    let c := cell 3 (x.2 + x.1 * 2 ^ 64 + 4 * 2 ^ 72 + 6 * 2 ^ 80)
    (fabState.pairOf c.src).waiting.isEmpty && (Claims.heard fabState c).mayPerform c && ((Claims.field c 0 8 % 2 ^ 52) == x.2) && (Claims.field c 8 1 == x.1) && (cellOp c).isSome &&
      isAcq (orderAt (Claims.field c 10 1 / 4 % 4)) && (((Claims.heard fabState c).peerRefuses x.2 4).isSome == (x.2 == 2 ^ 47)) && ((Claims.heard fabState c).badByte 0 x.2 4).isNone) = true := by decide +kernel

/-- Cells that wait: behind one that waits, a release before its bulk bytes, an operation of release order, and one without room for its reply; replies to the hub's own accesses. -/
theorem witness_CellsArePerformed_waiting :
    (({ fabState with fab := { fabState.fab with peers := [{ Peer.blank 1 with waiting := [cell 5 0] }] } } : State).pairOf 1).waiting ≠ [] ∧
    2 ^ 31 ≤ ((fabState.pairOf 1).landed - ({ cell 5 0x400 with bseq := 7 } : Cell).bseq).toNat ∧ 2 ≤ Claims.field (cell 3 (8 * 2 ^ 80)) 10 1 / 4 % 4 ∧
    16 ≤ (({ fabState with fab := { fabState.fab with peers := [{ Peer.blank 1 with replies := List.replicate 16 (cell 4 0) }] } } : State).pairOf 1).replies.length ∧
    (let f : Fabric := { fabState.fab with peers := [{ Peer.blank 1 with tags := [(4, 9)] }], asks := [{ id := 9, who := 3, node := 1, pa := 0x400, n := 8, typ := 1, reply := none }] }
     (f.asks.find? fun a => a.id == 9).map (·.who) = some 3 ∧ ∀ l ∈ fabState.launches, 9 ∉ l.recWaits) ∧
    (∃ l ∈ ([{ bootLaunch 0 1 with recWaits := [9] }] : List Launch), 9 ∈ l.recWaits) := by decide

theorem witness_CellsTravel : fabState.fab.upPort 0 = some 0 ∧ fabState.fab.upPort 63 = some 63 ∧ (fabState.now - fabState.fab.epoch) % 8 = 0 ∧ fabState.fab.slotUsed.get? 0 ≠ some 1 ∧ fabState.fab.upCount ≠ 0 ∧
    BitVec.ofNat 12 ((2 + 64 * (1 % 1) + 0) % 5) = fabState.fab.node ∧ BitVec.ofNat 12 ((2 + 64 * (1 % 1) + 1) % 5) ≠ fabState.fab.node ∧
    ((fabState.pairOf 1).requests = [] ∧ (fabState.pairOf 1).replies = []) ∧ (Peer.blank 1).freeTag = some 0 ∧
    (fabState.peerHolds 0x400 128 = false ∧ fabState.peerRefuses 0x400 128 = none ∧ fabState.writeFails (fabState.peerPlace 0x400) = false ∧ (fabState.pairOf 1).ahead = [] ∧ (1 : Word) = (fabState.pairOf 1).landed + 1 ∧
      ((fabState.pairOf 1).landed - (0 : Word)).toNat < 2 ^ 31) := by decide

/-- A packet that nothing keeps back, and one behind a packet of its line that is kept. -/
def bulk1 (seq : Word) : Bulk := { src := 1, line := 0x400, mask := BitVec.allOnes 128, seq := seq, data := List.replicate 128 7 }
theorem witness_CellsTravel_bulk : fabState.lineKept (bulk1 1) = false ∧ fabState.rmwHeld (.thread 1 0 0 0) .pkg 0x400 128 = false ∧ (bulk1 1).data.length = 128 ∧
    Instr.bulkPacketArrive (bulk1 1) ∈ ({ fabState with kept := [.bulkPacketArrive (bulk1 1)] } : State).kept ∧ (bulk1 1).src = (bulk1 2).src ∧
    (bulk1 1).line.toNat / 128 = (bulk1 2).line.toNat / 128 := by decide

/-- Pairs with a request and a reply to send, the reply queue served last or not. -/
theorem witness_CellsTravel_send : ([true, false].all fun last =>
    let p : Peer := { Peer.blank 1 with requests := [(9, cell 1 0x400)], replies := [cell 4 7], lastReply := last }
    let s : State := { fabState with fab := { fabState.fab with peers := [p] } }
    decide (s.pairOf 1 = p) && p.freeTag == some 0) = true := by decide

theorem witness_CellsTravel_waiting : ([(5, true), (1, false)].all fun x =>
    let w := cell (BitVec.ofNat 4 x.1) 0x400
    let s : State := { fabState with fab := { fabState.fab with peers := [{ Peer.blank 1 with waiting := [w] }] } }
    decide ((s.pairOf 1).waiting = [w]) && s.mayPerform w && isRelease w == x.2) = true := by decide

theorem witness_FabricIsConfigured :
    (State.reset.fab.en = false ∧ (0x80050002 : Word).msb = true ∧ ((0x80050002 : Word).extractLsb' 16 12).toNat = 5 ∧ ((0x80050002 : Word).extractLsb' 0 12).toNat = 2 ∧ State.reset.fab.upmask ≠ 0) ∧
    ¬ ((0x80050005 : Word).extractLsb' 0 12).toNat < ((0x80050005 : Word).extractLsb' 16 12).toNat ∧ (0x00050002 : Word).msb = false ∧
    (State.reset.fab.upmask.getLsbD (63 : BitVec 6).toNat = true ∧ State.reset.fab.portDown.getLsbD (63 : BitVec 6).toNat = false) ∧
    ((0xE0000001 : Word).extractLsb' 29 2 = 3 ∧ (0x80002000 : Word).extractLsb' 0 14 = 8192) ∧
    (let s : State := { State.reset with fab := { Fabric.reset with fardec := (Vector.replicate 4 0).set 0 0x80000001 } }; s.fab.farPort 0x1000 = some (0, 0x1000) ∧
      (access (.load 8 false) (.glob 0x50000 { place0 with pa := 13 * 2 ^ 48 + 0x1000 })).dead = [] ∧ (13 * 2 ^ 48 + 0x1000 : Nat) / 2 ^ 48 = 0xD) ∧ 3 ∉ State.reset.fab.farDown := by decide

/-! ### A step runs the decoded instruction; canonical memory -/

/-- The next turn is a run's, and the word at its PC is MOV g1, 5. -/
def stepState : State := State.reset.withFetchWord 32 0x53204005

theorem witness_StepRunsInstruction : stepState.agenda = [.issue 0 0] ∧ stepState.runs.length = 1 ∧
    (match stepState.runs[0]? with
      | some r => (stepState.regroup r).todo == [0] && (match stepState.team? r.team, stepState.thread? r.team 0 with
        | some t, some th => (match (stepState.fetch t th.pc).1 with | .word w => th.pc != th.clause && w == 0x53204005 && !usesNext .int (fieldsOf w) && hdrCls th.hdr == some .int | _ => false)
        | _, _ => false)
      | none => false) = true := by decide +kernel

/-- The word is at the clause's last place, its meaning leaves it current, and its run has it alone to issue. -/
theorem witness_StepRunsInstruction_settle : (match (stepState.pop 0 []).runs, stepState.runs[0]? with
      | [r], some r' => decide (r = r') && r.todo == [0] && (match stepState.team? r.team, stepState.thread? r.team 0 with
        | some t, some th => t.cause.isNone && decide (th.st = .running) && th.pc != th.clause
        | _, _ => false)
      | _, _ => false) = true := by decide

theorem witness_StepRunsInstruction_act : ({ State.reset with agenda := [.act 3 .moduleReset] } : State).agenda = .act 3 .moduleReset :: [] ∧ Instr.moduleReset.isWord = false := ⟨rfl, rfl⟩

/-- The step writes the register and leaves the thread at the end of its clause. -/
theorem test_step_mov : (thread1 (nextOf (step stepState))).reg 1 = 5 := by decide +kernel

theorem witness_EncodedWordsDecode : (Instr.mov { u := false, d := 1, a := 0, b := .imm 5 }).isWord = true ∧ (Instr.mov { u := false, d := 1, a := 0, b := .imm 5 }).wf = true ∧
    (Instr.mov { u := false, d := 1, a := 0, b := .imm 5 }).inClass .int = true ∧ encode (.mov { u := false, d := 1, a := 0, b := .imm 5 }) = [0x53204005] := by decide

theorem witness_MemoryStaysCanonical : State.reset.memOk = true ∧ goesOn (step stepState) = true ∧ stepState.memOk = true := by decide +kernel

/-! ### SHA3-256, AES-256 and recoding, with results from FIPS 202, FIPS 197 and R52 -/

/-- SHA3-256 of the empty message (FIPS 202). -/
theorem test_sha3_empty : leBytes 32 (sha3 []).toNat = leBytes 32 0x4A43F8804B0AD882FA493BE44DFF80F562D661A05647C15166D71EBFF8C6FFA7 := by decide +kernel

/-- The S-box of FIPS 197 at 0x53 and 0x00, and its inverse. -/
theorem test_subByte : subByte 0x53 = 0xED ∧ subByte 0x00 = 0x63 ∧ subByteInv 0xED = 0x53 := by decide +kernel

/-- The first column of the MixColumns example of FIPS 197 (DB 13 53 45 to 8E 4D A1 BC). -/
theorem test_mixColumn : (mixWith [2, 3, 1, 1] ([0xDB, 0x13, 0x53, 0x45] ++ List.replicate 12 0)).take 4 = [0x8E, 0x4D, 0xA1, 0xBC] := by decide +kernel

/-- R52: a line of 1.0 has E0 = 127 and an image whose first bytes are 0x7F, 0x01; it comes back whole. A line of 0.0 and 1.0 has none. -/
theorem test_recode : (recode (List.replicate 64 [0x80, 0x3F]).flatten).take 4 = [0x7F, 0x01, 0x00, 0x00] ∧ recodable (List.replicate 64 [0x80, 0x3F]).flatten = true ∧
    unrecode (recode (List.replicate 64 [0x80, 0x3F]).flatten) = (List.replicate 64 [0x80, 0x3F]).flatten ∧
    recodable (([0, 0] : List Byte) ++ (List.replicate 63 [0x80, 0x3F]).flatten) = false := by decide +kernel

/-! ### Device steps on the package after reset -/

/-- R33: a DRAM temperature of 105 degrees forces the halt: HST 7 and the 4x refresh multiplier. -/
theorem test_tahr_forced : (let w := (nextOf (exec (.tahrEvaluate 3 105 40) { State.reset with now := 140000 })).towers[3]
    w.tahrNext.map fun x => (x.forced, x.hst, x.rmult)) = some (true, 7, 2) := by decide

/-- R40: CHASH ignores a write outside a quiesce and sets CHERR. -/
theorem test_chash_refused : (let w := (nextOf (exec (.chashWrite 2 0x0001) State.reset)).towers[2]; (w.cherr, w.chashW)) = (true, 0x3F00) := by decide

/-- The fixed-point series against values of mathematics: sin 1, 2^0.5, log2 3 and tanh 1 to the nearest FP32 value. -/
theorem test_series : ([(sinFix false 1 0, 0x3F576AA4), (ex2Fix false 1 (-1), 0x3FB504F3), (lg2Fix 3 0, 0x3FCAE00D), (tanhFix false 1 0, 0x3F42F7D6)] : List ((Int × Int) × Nat)).all
    (fun x => boundedBy 0 0 x.1 0 == x.2) = true := by decide +kernel

end Sys2Proof.Tests
end

section
/-!
PROOFS. The role machine of a tower (R20 to R26), Tahr (R31 to R36) and the state after module reset.
-/
namespace Sys2Proof.Claims
open Sys2Proof.Machine

/-! ### A tower changed -/

/-- Only what a change makes of the tower itself matters. -/
theorem tower_congr (s : State) (t : TowerId) {f g : Tower → Tower} (h : f (at' s t) = g (at' s t)) :
    tower s t f = tower s t g := by
  unfold tower
  exact congrArg (fun w => { s with towers := s.towers.set t.val w }) h

/-- A change that leaves the tower as it is leaves the state as it is. -/
theorem tower_of_fixed (s : State) (t : TowerId) {f : Tower → Tower} (h : f (at' s t) = at' s t) :
    tower s t f = s := by
  have hset : s.towers.set t.val s.towers[t.val] = s.towers := by simp
  calc tower s t f = { s with towers := s.towers.set t.val s.towers[t.val] } :=
        congrArg (fun w => { s with towers := s.towers.set t.val w }) h
    _ = s := by rw [hset]

/-- A tower changed is read as changed. -/
@[simp] theorem at'_tower (s : State) (t : TowerId) (f : Tower → Tower) : at' (tower s t f) t = f (at' s t) := by
  simp [at', tower]

/-- Emptied L1s change nothing of what a tower shows. -/
@[simp] theorem at'_l1Emptied (s : State) (t n : TowerId) (set : BitVec 4) : at' (l1Emptied s t set) n = at' s n := rfl

/-- The sets that re-enumeration puts into effect, where no slice changes its mode: PINNED is what it was (R26). -/
theorem tower_enumerated_of_same (s : State) (t : TowerId) (hs : (at' s t).pinned = (at' s t).reqPinned) :
    tower s t (fun w =>
        { w with compute := w.reqCompute, pinned := w.reqPinned, rolePhase := .idle, roleBusy := false, roleResult := 0, roleDone := true }) =
      tower s t fun w => { w with compute := w.reqCompute, rolePhase := .idle, roleBusy := false, roleResult := 0, roleDone := true } :=
  tower_congr s t (by simp [hs])

end Sys2Proof.Claims

namespace Sys2Proof.Machine

/-! ### The model's reading and changing of a tower are the claims' -/

/-- A tower that exists is read as the claims read it. -/
theorem State.tower_val (s : State) (t : TowerId) : s.tower t.val = Claims.at' s t := by
  unfold State.tower
  rw [dif_pos t.isLt]
  rfl

/-- A change of a tower that exists is the claims' change. -/
theorem State.modTower_val (s : State) (t : TowerId) (f : Tower → Tower) : s.modTower t.val f = Claims.tower s t f := by
  unfold State.modTower
  rw [dif_pos t.isLt]
  rfl

/-! ### Sets of strata -/

/-- A stratum is in one set of strata and not in another: a bit of their difference. -/
theorem getLsbD_and_not (x y : BitVec 4) (st : Nat) : (x &&& ~~~y).getLsbD st = (x.getLsbD st && !y.getLsbD st) := by
  by_cases h : st < 4
  · simp [h]
  · simp [BitVec.getLsbD_of_ge x st (by omega)]

/-- The strata that leave compute are those of COMPUTE that are not requested. -/
theorem Tower.leaves_eq (w : Tower) : w.leaves = (w.compute &&& ~~~w.reqCompute).getLsbD :=
  funext fun st => (getLsbD_and_not w.compute w.reqCompute st).symm

/-- The strata that enter compute are those requested that are not in COMPUTE. -/
theorem Tower.enters_eq (w : Tower) : w.enters = (w.reqCompute &&& ~~~w.compute).getLsbD :=
  funext fun st => by rw [getLsbD_and_not, Bool.and_comm]; rfl

/-- A set of strata has a member among the four exactly if it is not empty. -/
theorem any_stratum_iff : ∀ x : BitVec 4, [0, 1, 2, 3].any x.getLsbD = true ↔ x ≠ 0 := by decide

/-- The L1s of some strata are emptied as the claims empty them. -/
theorem State.emptyL1_val (s : State) (t : TowerId) (set : BitVec 4) : s.emptyL1 t.val set.getLsbD = Claims.l1Emptied s t set := rfl

/-! ### ROLECMD (R21 to R24) -/

/-- The tests of a request are those of R23, in its order. -/
theorem Tower.rejects_eq (w : Tower) (c p : BitVec 4) : w.rejects c p = Claims.rejected w c p := by
  simp only [Tower.rejects, Claims.rejected, roleWeight, Bool.or_eq_true, or_assoc, bne_iff_ne, ne_eq, Bool.and_eq_true, beq_iff_eq]
  rfl

/-- The teams that a drain pre-empts are the residents of the strata that leave (R24). -/
theorem State.drain_val (s : State) (t : TowerId) : s.drain t.val =
    s.beginSave (((s.residents t.val).filter fun x => (Claims.at' s t).leaves (pcStratum x.pcore)).map (·.key)) := by
  unfold State.drain
  rw [State.tower_val, ← List.filterMap_eq_map, List.filterMap_filter]
  rfl

/-- GO is the sign of the word (R21). -/
theorem getLsbD_go (v : Word) : v.getLsbD 31 = v.msb := (BitVec.msb_eq_getLsbD_last v).symm

/-- A word without GO does nothing (R21). -/
theorem State.roleCmd_of_noGo (s : State) (t : TowerId) (v : Word) (hgo : v.msb = false) : s.roleCmd t.val v = s := by
  simp only [State.roleCmd, getLsbD_go, hgo]
  rfl

/-- GO while BUSY is noted as an overrun (R22, R23). -/
theorem State.roleCmd_of_busy (s : State) (t : TowerId) (v : Word) (hgo : v.msb = true) (hb : (Claims.at' s t).roleBusy = true) :
    s.roleCmd t.val v = Claims.tower s t fun w => { w with roleOverrun := true } := by
  simp only [State.roleCmd, getLsbD_go, hgo, State.tower_val, State.modTower_val, hb]
  rfl

/-- A rejected request is over at once (R23). -/
theorem State.roleCmd_of_rejected (s : State) (t : TowerId) (v : Word) (r : Byte) (hgo : v.msb = true) (hb : (Claims.at' s t).roleBusy = false)
    (hr : Claims.rejected (Claims.at' s t) (v.extractLsb' 0 4) (v.extractLsb' 4 4) = some r) :
    s.roleCmd t.val v = Claims.tower s t fun w => { w with roleResult := r, roleDone := true } := by
  simp only [State.roleCmd, getLsbD_go, hgo, State.tower_val, State.modTower_val, hb, Tower.rejects_eq, hr]
  rfl

/-- An accepted request begins its drain (R23, R24). -/
theorem State.roleCmd_of_accepted (s : State) (t : TowerId) (v : Word) (hgo : v.msb = true) (hb : (Claims.at' s t).roleBusy = false)
    (hr : Claims.rejected (Claims.at' s t) (v.extractLsb' 0 4) (v.extractLsb' 4 4) = none) :
    s.roleCmd t.val v = (Claims.tower s t fun w =>
      { w with roleBusy := true, rolePhase := .drain, reqCompute := v.extractLsb' 0 4, reqPinned := v.extractLsb' 4 4 }).beginSave
        (((s.residents t.val).filter fun x => ((Claims.at' s t).compute &&& ~~~(v.extractLsb' 0 4)).getLsbD (pcStratum x.pcore)).map (·.key)) := by
  simp only [State.roleCmd, getLsbD_go, hgo, State.tower_val, State.modTower_val, hb, Tower.rejects_eq, hr, State.drain_val, Claims.at'_tower,
    Tower.leaves_eq]
  rfl

/-! ### The phases of a role change (R24 to R26) -/

/-- No team is left on a stratum that leaves: the drain ends (R24). -/
theorem execRoleDrainDone_of_left (s : State) (t : TowerId) (hp : (Claims.at' s t).rolePhase = .drain)
    (hl : Claims.leaving s t (Claims.at' s t).compute (Claims.at' s t).reqCompute = []) :
    execRoleDrainDone t s = .next (Claims.tower s t fun w => { w with rolePhase := .flush }) := by
  have hn : (s.teams.any fun x => x.placed && pcTower x.pcore == t.val && (Claims.at' s t).leaves (pcStratum x.pcore)) = false := by
    rw [Tower.leaves_eq, List.any_eq_false]
    exact List.filter_eq_nil_iff.mp hl
  simp [execRoleDrainDone, State.tower_val, State.modTower_val, hp, hn]

/-- No TSV interface that is paused: the tower is not. -/
theorem Tower.paused_eq_false (w : Tower) (h : ∀ i : Fin 5, w.tsv[i].pauseTill = none) : w.paused = false := by
  rw [Tower.paused, List.any_eq_false]
  intro x hx
  obtain ⟨i, hi, rfl⟩ := Vector.mem_iff_getElem.mp (Vector.mem_toList_iff.mp hx)
  rw [show w.tsv[i].pauseTill = none from h ⟨i, hi⟩]
  decide

/-- Where no slice changes its mode, the L2 is not flushed (R25). -/
theorem State.flushL2_of_same (s : State) (t : TowerId) (h : (Claims.at' s t).pinned = (Claims.at' s t).reqPinned) : s.flushL2 t.val = s := by
  simp [State.flushL2, State.tower_val, h]

/-- Where no slice changes its mode, none is wiped (R25). -/
theorem State.flipSlices_of_same (s : State) (t : TowerId) (sts : List Nat) (h : (Claims.at' s t).pinned = (Claims.at' s t).reqPinned) :
    s.flipSlices t.val sts = s := by
  induction sts with
  | nil => rfl
  | cons st sts ih => simpa [State.flipSlices, State.tower_val, h] using ih

/-- The flush where no slice changes its mode: the L1s of the strata that leave are emptied, and power-up begins (R25, R26). -/
theorem execRoleFlushDone_of_same (s : State) (t : TowerId) (hp : (Claims.at' s t).rolePhase = .flush)
    (hq : (Claims.at' s t).paused = false) (hs : (Claims.at' s t).pinned = (Claims.at' s t).reqPinned) :
    execRoleFlushDone t s = .next (Claims.tower (Claims.l1Emptied s t ((Claims.at' s t).compute &&& ~~~(Claims.at' s t).reqCompute)) t fun w =>
      { w with rolePhase := .enumerate, powerEnd := s.now + (if w.reqCompute &&& ~~~w.compute ≠ 0 then 28000 else 0) }) := by
  simp only [execRoleFlushDone, State.tower_val, State.modTower_val, hp, hq, State.flushL2_of_same s t hs, Tower.leaves_eq, State.emptyL1_val,
    State.flipSlices_of_same (Claims.l1Emptied s t _) t _ hs, Tower.enters_eq, any_stratum_iff]
  rfl

/-- Re-enumeration where no slice changes its mode: the sets take effect, and an event is posted (R26). -/
theorem execRoleReenumerate_of_same (s : State) (t : TowerId) (hp : (Claims.at' s t).rolePhase = .enumerate)
    (hq : (Claims.at' s t).powerEnd ≤ s.now) (hs : (Claims.at' s t).pinned = (Claims.at' s t).reqPinned) :
    execRoleReenumerate t s = .next ((Claims.tower (Claims.l1Emptied s t ((Claims.at' s t).reqCompute &&& ~~~(Claims.at' s t).compute)) t fun w =>
        { w with compute := w.reqCompute, rolePhase := .idle, roleBusy := false, roleResult := 0, roleDone := true }).post (Claims.at' s t).tevq.toNat
          (eventBytes (0x4000 + t.val) 0x10 0 0 ((Claims.at' s t).reqPinned.toNat * 16 + (Claims.at' s t).reqCompute.toNat))) := by
  simp only [execRoleReenumerate, State.tower_val, State.modTower_val, hp, Nat.not_lt.mpr hq, Tower.enters_eq, State.emptyL1_val,
    Claims.tower_enumerated_of_same (Claims.l1Emptied s t _) t hs]
  simp [State.postTower, State.tower_val, Tower.roleset, hs]

/-- Settles O41: each command and each phase by its own lemma. -/
theorem roleCommandsRun : Obligations.RoleCommandsRun := by
  unfold Obligations.RoleCommandsRun
  intro s t
  refine ⟨fun v => ⟨fun hgo => ?_, fun hgo hb => ?_, fun r hgo hb hr => ?_, fun hgo hb hr => ?_⟩, execRoleDrainDone_of_left s t,
    fun hp hq hs => execRoleFlushDone_of_same s t hp (Tower.paused_eq_false _ hq) hs, execRoleReenumerate_of_same s t⟩
  · exact congrArg Host.Outcome.next (State.roleCmd_of_noGo s t v hgo)
  · exact congrArg Host.Outcome.next (State.roleCmd_of_busy s t v hgo hb)
  · exact congrArg Host.Outcome.next (State.roleCmd_of_rejected s t v r hgo hb hr)
  · exact congrArg Host.Outcome.next (State.roleCmd_of_accepted s t v hgo hb hr)

/-! ### Tahr (R31 to R36) -/

/-- The refresh multiplier follows the pseudo-code of R33: in each band of temperatures, for each code it may have. -/
theorem rmultOf_eq (td : Nat) (r : BitVec 2) : rmultOf td r = BitVec.ofNat 2 (Claims.refreshCode td r.toNat) := by
  by_cases h95 : 95 ≤ td
  · simp [rmultOf, Claims.refreshCode, h95]
  · have band : (¬ td < 93 ∧ 85 ≤ td ∧ ¬ td < 83) ∨ (td < 93 ∧ 85 ≤ td ∧ ¬ td < 83) ∨ (td < 93 ∧ ¬ 85 ≤ td ∧ ¬ td < 83) ∨
        (td < 93 ∧ ¬ 85 ≤ td ∧ td < 83) := by omega
    rcases band with ⟨h93, h85, h83⟩ | ⟨h93, h85, h83⟩ | ⟨h93, h85, h83⟩ | ⟨h93, h85, h83⟩ <;>
      (simp only [rmultOf, Claims.refreshCode, h95, h93, h85, h83]; revert r; decide)

/-- The forced halt sets at its upper limits, clears below both lower ones and keeps between (R33). -/
theorem forcedOf_eq (td tj : Nat) (f : Bool) : forcedOf td tj f = decide (105 ≤ td ∨ 110 ≤ tj ∨ f = true ∧ (103 ≤ td ∨ 105 ≤ tj)) := by
  simp only [forcedOf, Bool.or_eq_true, Bool.and_eq_true, decide_eq_true_eq]
  by_cases hi : 105 ≤ td ∨ 110 ≤ tj
  · rw [if_pos hi, eq_comm, decide_eq_true_eq]
    omega
  · rw [if_neg hi]
    by_cases lo : td < 103 ∧ tj < 105
    · rw [if_pos lo, eq_comm, decide_eq_false_iff_not]
      omega
    · obtain ⟨htd, htj⟩ := not_or.mp hi
      have hkeep : 103 ≤ td ∨ 105 ≤ tj := by omega
      simp only [if_neg lo, htd, htj, hkeep, false_or, and_true, Bool.decide_eq_true]

/-- The throttle state: H7 under a forced halt, otherwise by the pseudo-code (R33). -/
theorem hstOf_eq (td tj : Nat) (pref f : Bool) (hmin h : Nat) :
    hstOf td tj pref f hmin h = if f then 7 else Claims.throttle td tj pref hmin h := by
  cases f with
  | true => rfl
  | false => simp [hstOf, Claims.throttle, Nat.max_comm hmin]

/-- One evaluation, in the terms of R33. -/
theorem Tower.evaluate_eq (w : Tower) (td tj : Nat) (pref : Bool) : w.evaluate td tj pref =
    (let j := if w.compute = 0 then 0 else tj
     let f := 105 ≤ td ∨ 110 ≤ j ∨ w.therm.forced = true ∧ (103 ≤ td ∨ 105 ≤ j)
     { hst := if f then 7 else BitVec.ofNat 3 (Claims.throttle td j pref w.hmin.toNat w.therm.hst.toNat)
       rmult := BitVec.ofNat 2 (Claims.refreshCode td w.therm.rmult.toNat)
       forced := decide f, pref := pref, dtemp := BitVec.ofNat 8 (min td 255), ltemp := BitVec.ofNat 8 (min j 255) }) := by
  simp only [Tower.evaluate, hstOf_eq, forcedOf_eq, rmultOf_eq, beq_iff_eq, decide_eq_true_eq, apply_ite (BitVec.ofNat 3)]
  rfl

/-- An evaluation at a cycle it is due at (R31). -/
theorem execTahrEvaluate_of_due (s : State) (t : TowerId) (td tj : Nat) (hc : s.now % 140000 = 0) (hl : (Claims.at' s t).lastEval < s.now) :
    execTahrEvaluate t td tj s =
      .next (Claims.tower s t fun w => { w with tahrNext := some (w.evaluate td tj (s.pref t.val)), lastEval := s.now }) := by
  simp only [execTahrEvaluate, State.tower_val, State.modTower_val, hc, Nat.not_le.mpr hl]
  rfl

/-- An evaluation takes effect at a cycle it is due at (R31). -/
theorem execTahrApply_of_due (s : State) (t : TowerId) (x : Thermal) (hx : (Claims.at' s t).tahrNext = some x) (hc : s.now % 256 = 0)
    (hl : (Claims.at' s t).lastEval < s.now) :
    execTahrApply t s = .next (Claims.tower s t fun w => { w with therm := x, tahrNext := none }) := by
  simp only [execTahrApply, State.tower_val, State.modTower_val, hx, hc, Nat.not_le.mpr hl]
  rfl

/-- A throttled window that is not counted yet is counted (R36). -/
theorem execThcntTick_of_throttled (s : State) (t : TowerId) (hh : (Claims.at' s t).therm.hst ≠ 0) (hl : (Claims.at' s t).lastTick ≤ s.now / 256) :
    execThcntTick t s = .next (Claims.tower s t fun w => { w with thcnt := w.thcnt + 1, lastTick := s.now / 256 + 1 }) := by
  have hw : ¬ s.now / 256 + 1 ≤ (Claims.at' s t).lastTick := by omega
  have hc : ¬ ((Claims.at' s t).therm.hst == 0 || s.now / 256 + 1 ≤ (Claims.at' s t).lastTick) = true := by simpa [hw] using hh
  rw [execThcntTick, State.modTower_val]
  exact congrArg Host.Outcome.next (Claims.tower_congr s t (if_neg hc))

/-- A window in which the tower is not throttled is not counted (R36). -/
theorem execThcntTick_of_h0 (s : State) (t : TowerId) (hh : (Claims.at' s t).therm.hst = 0) : execThcntTick t s = .next s := by
  rw [execThcntTick, State.modTower_val]
  exact congrArg Host.Outcome.next (Claims.tower_of_fixed s t (by simp [hh]))

/-- Settles O42: an evaluation by the pseudo-code of R33, its application and the count of windows by the cycles they are due at (R31, R36). -/
theorem throttleFollowsTemperature : Obligations.ThrottleFollowsTemperature := by
  unfold Obligations.ThrottleFollowsTemperature
  intro s t
  refine ⟨fun td tj hc hl => ?_, execTahrApply_of_due s t, execThcntTick_of_throttled s t, execThcntTick_of_h0 s t⟩
  refine (execTahrEvaluate_of_due s t td tj hc hl).trans ?_
  simp only [Tower.evaluate_eq]
  rfl

/-! ### The state after module reset -/

/-- A tower after module reset (R20, R31, R39, R42). -/
theorem tower_reset (n : TowerId) : State.reset.towers[n.val] = Tower.reset := by
  simp [State.reset]

/-- KEYPOL after module reset: key ID 0 is allowed everywhere, every other nowhere (R56). -/
theorem policy_reset (k : Nat) (hk : k < 1024) : State.reset.hub.policy k = if k = 0 then 1 else 0 := by
  have hreg : k / 16 < 64 := by omega
  have hpol : State.reset.hub.policy k = bitsOf (if 0 = k / 16 then (1 : Word) else 0).toNat (2 * (k % 16) + 1) (2 * (k % 16)) := by
    unfold Hub.policy
    rw [dif_pos hreg]
    simp [State.reset, Hub.reset, Vector.getElem_set]
  rw [hpol]
  by_cases h0 : 0 = k / 16
  · have hlt : k < 16 := by omega
    rw [if_pos h0]
    clear hpol h0 hreg hk
    revert k
    decide
  · have hne : k ≠ 0 := by omega
    rw [if_neg h0, if_neg hne]
    simp [bitsOf]

/-- After module reset no sector stands under another key or PA than key ID 0 reads it with (R53, R54). -/
theorem foreign_reset (sector pa : Nat) : State.reset.foreign 0 sector pa = false := by
  have hkey : State.reset.mem.keyOf sector = (0, State.reset.hub.gen 0) := rfl
  have hpa : State.reset.mem.writtenAs sector pa = pa := rfl
  simp [State.foreign, hkey, hpa]

/-- After module reset every byte reads zero (log entry 3). -/
theorem byteUnder_reset (a : Nat) : State.reset.byteUnder 0 a = 0 := by
  simp only [State.byteUnder, foreign_reset]
  rfl

/-- Settles O59: the values of Tower.reset, Hub.reset, Fabric.reset and MemSys.reset, with KEYPOL and the bytes read by their lemmas. -/
theorem resetState : Obligations.ResetState := by
  unfold Obligations.ResetState
  refine ⟨fun n => ?_, rfl, rfl, policy_reset 0 (by decide), fun k h0 hk => ?_, rfl, rfl, rfl, rfl, rfl, rfl, rfl, rfl, rfl, rfl, rfl, rfl,
    byteUnder_reset, reset_memOk, rfl⟩
  · rw [tower_reset]
    decide
  · rw [policy_reset k hk, if_neg (by omega)]

end Sys2Proof.Machine
end

section
/-!
PROOFS. The registers of the fabric and of the far decoder, and the events of their links (R66, R74, R75, R81, R82).
-/
namespace Sys2Proof.Machine

/-! ### FABCFG (R74, R75) -/

/-- A write while EN is 1 can only clear it, and LOCKED with it (R75). -/
theorem State.writeFabcfg_of_enabled (s : State) (v : Word) (he : s.fab.en = true) :
    s.writeFabcfg v = Claims.fab s fun f => { f with en := v.msb, locked := f.locked && v.msb } := by
  simp only [State.writeFabcfg, getLsbD_go, he, if_true]
  rfl

/-- A write of EN = 0 while EN is 0 sets the numbers (R75). -/
theorem State.writeFabcfg_of_clear (s : State) (v : Word) (he : s.fab.en = false) (hv : v.msb = false) :
    s.writeFabcfg v = Claims.fab s fun f => { f with domain := v.extractLsb' 16 12, node := v.extractLsb' 0 12 } := by
  unfold State.writeFabcfg
  simp only [getLsbD_go]
  rw [if_neg (by simp [he]), if_pos (by simp [hv])]
  rfl

/-- No port is up exactly if UPMASK is zero (R74). -/
theorem Fabric.upCount_eq_zero (f : Fabric) : f.upCount = 0 ↔ f.upmask = 0 := by
  rw [Fabric.upCount, List.countP_eq_zero]
  constructor
  · intro h
    exact BitVec.eq_of_getLsbD_eq fun p hp => by simpa using h p (List.mem_range.mpr hp)
  · intro h p _
    simp [h]

/-- A value that sets EN passes the tests of R75 exactly if it names a domain of 1 to 3,072 nodes above its node, with a port up. -/
theorem fabcfg_fails_iff (f : Fabric) (dom node : BitVec 12) :
    (dom == 0 || 3072 < dom.toNat || dom.toNat ≤ node.toNat || f.upCount == 0) = true ↔
      ¬(1 ≤ dom.toNat ∧ dom.toNat ≤ 3072 ∧ node.toNat < dom.toNat ∧ f.upmask ≠ 0) := by
  have hdom : dom = 0 ↔ dom.toNat = 0 := BitVec.toNat_eq
  simp only [Bool.or_eq_true, beq_iff_eq, decide_eq_true_eq, Fabric.upCount_eq_zero, hdom]
  by_cases hu : f.upmask = 0
  · simp [hu]
  · simp only [hu, or_false, ne_eq, not_false_eq_true, and_true]
    omega

/-- A write that sets EN is taken whole, or noted as an error alone (R75). -/
theorem State.writeFabcfg_of_set (s : State) (v : Word) (he : s.fab.en = false) (hv : v.msb = true) :
    let dom : BitVec 12 := v.extractLsb' 16 12; let node : BitVec 12 := v.extractLsb' 0 12
    s.writeFabcfg v = if 1 ≤ dom.toNat ∧ dom.toNat ≤ 3072 ∧ node.toNat < dom.toNat ∧ s.fab.upmask ≠ 0 then
        Claims.fab s fun f => { f with en := true, domain := dom, node := node }
      else Claims.fab s fun f => { f with cfgerr := true } := by
  intro dom node
  have hb := fabcfg_fails_iff s.fab dom node
  have hw : s.writeFabcfg v = if (dom == 0 || 3072 < dom.toNat || dom.toNat ≤ node.toNat || s.fab.upCount == 0) = true then
      Claims.fab s fun f => { f with cfgerr := true } else Claims.fab s fun f => { f with en := true, domain := dom, node := node } := by
    unfold State.writeFabcfg
    simp only [getLsbD_go]
    rw [if_neg (by simp [he]), if_neg (by simp [hv])]
    rfl
  rw [hw]
  simp only [hb, ite_not]

/-! ### The slot epoch and the links (R66, R75) -/

/-- The epoch begins while EN is 1 and the node does not follow one yet (R66, R74). -/
theorem execFabEpochLock_eq (flat : BitVec 16) (s : State) :
    execFabEpochLock flat s = .next (if s.fab.en = true ∧ s.fab.locked = false then
      Claims.fab s fun f => { f with locked := true, flat := flat, epoch := s.now, slotUsed := [] } else s) := by
  simp [execFabEpochLock, Claims.fab]

/-- A link that was up goes down, with its event (R75). -/
theorem execFabLinkDown_of_up (p : BitVec 6) (s : State) (hu : s.fab.upmask.getLsbD p.toNat = true) (hd : s.fab.portDown.getLsbD p.toNat = false) :
    execFabLinkDown p s = .next ((Claims.fab s fun f => { f with linkdown := true, portDown := f.portDown ||| (1#64 <<< p.toNat) }).post
      s.hub.hsyseq.toNat (eventBytes 0x4011 0x12 0 0 p.toNat)) := by
  simp only [execFabLinkDown, hu, hd]
  rfl

/-! ### FARDEC (R81) -/

/-- A field of a word, as the model and as the statements read it. -/
theorem bitsOf_eq_extract (v : Word) (lo w : Nat) (hw : 0 < w) : bitsOf v.toNat (lo + w - 1) lo = (v.extractLsb' lo w).toNat := by
  rw [BitVec.extractLsb'_toNat, Nat.shiftRight_eq_div_pow, bitsOf, show lo + w - 1 + 1 - lo = w by omega]

/-- The values of FARDEC that R81 refuses. -/
theorem fardecBad_iff (v base : Word) : fardecBad v base = true ↔
    v.extractLsb' 29 2 = 3 ∨ v.extractLsb' 27 2 = 3 ∨ v.extractLsb' 0 14 = 0 ∨ 8192 < (base.extractLsb' 0 13).toNat + (v.extractLsb' 0 14).toNat := by
  have h29 := bitsOf_eq_extract v 29 2 (by decide)
  have h27 := bitsOf_eq_extract v 27 2 (by decide)
  have h0 := bitsOf_eq_extract v 0 14 (by decide)
  have hb : base.toNat % 2 ^ 13 = (base.extractLsb' 0 13).toNat := by simp
  simp only [fardecBad, Bool.or_eq_true, beq_iff_eq, decide_eq_true_eq, hb, or_assoc]
  rw [h29, h27, h0, BitVec.toNat_eq, BitVec.toNat_eq, BitVec.toNat_eq]
  rfl

/-- A value of FARDEC that is refused has EN clear, any other is taken with the bits that software writes (R81). -/
theorem State.writeFardec_eq (s : State) (n : Fin 4) (v : Word) :
    s.writeFardec n v = Claims.fab s fun f => { f with fardec := f.fardec.set n (if fardecBad v s.fab.farbase[n] then v &&& 0x78C03FFF else v &&& 0xF8C03FFF) } := by
  have hm : v &&& fardecMask &&& 0x7FFFFFFF = v &&& 0x78C03FFF := by rw [BitVec.and_assoc]; rfl
  simp only [State.writeFardec, hm]
  rfl

/-! ### The far tier (R82) -/

/-- A load whose threads are all there ends with a late trap of each (R413). -/
theorem State.failReq_load (s : State) (r : Req) (d : Reg) (h : Bool) (va : DWord) (ha : r.act = .load d h) (hd : r.dead = []) :
    s.failReq r cUncorrectable va = (s.endReq r).lateAll r.team r.id r.threads { cause := 0x11, addr := va, info := 256 } := by
  simp [State.failReq, State.failWith, hd, Req.defers, ha, lateOf, failInfo, cUncorrectable, cAccess]

/-- The port of the far tier behind a local place of region 0xD (R81). -/
theorem State.portOf_far (s : State) (p : Place) (port x : Nat) (hn : p.node = none) (hr : p.pa / 2 ^ 48 = 0xD)
    (hp : s.fab.farPort (p.pa % 2 ^ 48) = some (port, x)) : s.portOf p = some port := by
  have hreg : paRegion p.pa = 0xD := hr
  have hport : s.fab.farPort (paLocal p.pa) = some (port, x) := hp
  simp [State.portOf, hn, hreg, hport]

/-- A load from the far tier that gets no answer ends, with its event (R82). -/
theorem execFarTierTimeout_load (s : State) (n port x : Nat) (r : Req) (va : DWord) (p : Place) (d : Reg) (h : Bool) (hq : s.req? n = some r)
    (hl : r.loc = .glob va p) (hn : p.node = none) (hr : p.pa / 2 ^ 48 = 0xD) (hp : s.fab.farPort (p.pa % 2 ^ 48) = some (port, x))
    (ha : r.act = .load d h) (hd : r.dead = []) :
    execFarTierTimeout n s = .next (((s.endReq r).lateAll r.team r.id r.threads { cause := 0x11, addr := va, info := 256 }).postFar port 2) := by
  have hport := State.portOf_far s p port x hn hr hp
  have hlose : s.loseTile r (fun p => (s.portOf p).isSome) = none := by simp [State.loseTile, ha]
  have htime : s.timeOut r (fun p => (s.portOf p).isSome) = some (s.failReq r cUncorrectable va, p) := by
    simp [State.timeOut, Req.places, hl, ha, hport]
  simp only [execFarTierTimeout, hq, hlose, htime, hport, State.failReq_load s r d h va ha hd, Option.getD_none, Option.getD_some]

/-- A port of the far tier loses its link once, with its event (R82). -/
theorem execFarTierLinkDown_of_up (p : Fin 4) (s : State) (hp : p.val ∉ s.fab.farDown) :
    execFarTierLinkDown p s = .next ((Claims.fab s fun f => { f with farDown := f.farDown ++ [p.val] }).post
      s.hub.hsyseq.toNat (eventBytes 0x4012 0x13 0 0 (p.val + 768))) := by
  have hc : s.fab.farDown.contains p.val = false := by simpa using hp
  simp only [execFarTierLinkDown, hc]
  rfl

/-- Settles O55: each register and each event of the links by its own lemma. -/
theorem fabricIsConfigured : Obligations.FabricIsConfigured := by
  unfold Obligations.FabricIsConfigured
  refine ⟨fun s v => ⟨fun he => ?_, fun he hv => ?_, fun he hv ht => ?_, fun he hv ht => ?_⟩, fun s flat => execFabEpochLock_eq flat s,
    fun s => rfl, fun s p => execFabLinkDown_of_up p s, fun s n v => ⟨fun hb => ?_, fun hb => ?_⟩,
    fun s n port x r va p d h hq hl hn hr hp ha hd => execFarTierTimeout_load s n port x r va p d h hq hl hn hr hp ha hd,
    fun s p => execFarTierLinkDown_of_up p s⟩
  · exact congrArg Host.Outcome.next (State.writeFabcfg_of_enabled s v he)
  · exact congrArg Host.Outcome.next (State.writeFabcfg_of_clear s v he hv)
  · exact congrArg Host.Outcome.next ((State.writeFabcfg_of_set s v he hv).trans (if_pos ht))
  · exact congrArg Host.Outcome.next ((State.writeFabcfg_of_set s v he hv).trans (if_neg ht))
  · refine congrArg Host.Outcome.next ((State.writeFardec_eq s n v).trans ?_)
    rw [(fardecBad_iff v s.fab.farbase[n]).mpr hb]
    rfl
  · refine congrArg Host.Outcome.next ((State.writeFardec_eq s n v).trans ?_)
    have hok : fardecBad v s.fab.farbase[n] = false := Bool.eq_false_iff.mpr fun h => hb ((fardecBad_iff v s.fab.farbase[n]).mp h)
    rw [hok]
    rfl

end Sys2Proof.Machine
end

section
/-!
PROOFS. Why ReleaseWordsPerform (R342) does not hold of every state: its hypotheses speak of the first team of a key alone, and the machine's changes of threads reach
every team of that key. No step makes two teams of one key (State.nextKey numbers them, log entry 2), but the statement does not say so.
-/
namespace Sys2Proof.Tests
open Sys2Proof.Machine

/-! ### Two teams of one key -/

/-- The bench's team twice under its key: the second one's thread still names a mate. -/
def twins : State := { mstate with teams := [mteam, { mteam with threads := [{ mthread with mates := [1] }] }] }

/-- A fence of release order, which nothing keeps back. -/
def relFence : Instr := .fence (m .b8 .sys .rel .dflt false 0 0 none)

/-- The mates that the threads of each team name. -/
def matesOf (s : State) : List (List (List Nat)) := s.teams.map fun t => t.threads.map (·.mates)

/-- What R350 gives the fence. -/
def fenced : State := (Claims.memory (Claims.folded twins (missue relFence) relFence) (missue relFence) relFence).getD twins

/-- The fence issues among the twins, and its prerequisites hold. -/
theorem twins_issues : relFence.wf = true ∧ twins.issues relFence (missue relFence) = true ∧ Claims.releasing relFence = true ∧
    Claims.prerequisites twins (missue relFence) relFence := by
  refine ⟨by decide, by decide +kernel, rfl, ?_⟩
  unfold Claims.prerequisites
  decide +kernel

/-- The first twin, whom the hypotheses speak of, is RUNNING and names no mate. -/
theorem twins_settled : Claims.settled twins (missue relFence) := by
  refine ⟨rfl, by simp [missue, issueBy, Issue.all], fun x hx => ?_⟩
  have h0 : x = 0 := by simpa [missue, issueBy, Issue.all] using hx
  subst h0
  exact ⟨mthread, rfl, by decide, by decide, by decide⟩

/-- The fence has an effect by R350. -/
theorem twins_fenced : Claims.memory (Claims.folded (Claims.counted twins (missue relFence) relFence) (missue relFence) relFence) (missue relFence) relFence = some fenced := by
  have hs : (Claims.memory (Claims.folded twins (missue relFence) relFence) (missue relFence) relFence).isSome = true := by decide +kernel
  obtain ⟨t, ht⟩ := Option.isSome_iff_exists.mp hs
  have hf : fenced = t := by rw [fenced, ht, Option.getD_some]
  rw [hf]
  exact ht

/-- The claimed outcome leaves the second twin's mate as it is. -/
theorem matesOf_fenced : matesOf (fenced.wakeMembers 1 [0]) = [[[]], [[1]]] := by decide +kernel

/-- RELEASE_PREREQ_MET takes it away. -/
theorem matesOf_released : matesOf (nextOf (exec (.releasePrereqMet 1 0) (twins.awaitRelease (missue relFence) relFence))) = [[[]], [[]]] := by decide +kernel

/-- Refutes O9: of two teams of one key the hypotheses bind the first alone, while the wait for the release and its end clear the mates of both, which the claimed
outcome does not. A state whose teams bear one key each is what the statement leaves out. -/
theorem not_releaseWordsPerform : ¬ Obligations.ReleaseWordsPerform := by
  unfold Obligations.ReleaseWordsPerform
  intro h
  obtain ⟨hwf, hi, hr, hp⟩ := twins_issues
  obtain ⟨_, hrel⟩ := h twins fenced relFence (missue relFence) hwf hi hr twins_settled rfl hp (.inl twins_fenced)
  have hm : matesOf (nextOf (exec (.releasePrereqMet 1 0) (twins.awaitRelease (missue relFence) relFence))) = matesOf (fenced.wakeMembers 1 [0]) :=
    congrArg (fun o => matesOf (nextOf o)) hrel
  rw [matesOf_released, matesOf_fenced] at hm
  exact absurd hm (by decide)

end Sys2Proof.Tests
end

section
/-!
PROOFS. Why CellsArePerformed and CellsTravel (R65, R70, R71) do not hold of every state. Both say that a byte stored is the byte read back under FABKEY.KEYID. A sector
kept under another pair is first deciphered into the writing context and then written. The place that was mixed into its cipher (R53) is dropped on that occasion for the
sectors of the far tier alone (State.rekey, State.writtenAs), since no step puts any other sector into mem.farPa. A state that lists a sector of the device's own memory
there meets every hypothesis, and there the sector still reads as if enciphered for the other place.
-/
namespace Sys2Proof.Machine

/-! ### What reading memory does not depend on -/

/-- A reply queued changes no byte. -/
@[simp] theorem byteUnder_replyTo (s : State) (c : Cell) (st : Byte) (data : List Byte) (k a : Nat) :
    (s.replyTo c st data).byteUnder k a = s.byteUnder k a := rfl

/-- The queues of a pair change no byte. -/
@[simp] theorem byteUnder_putPair (s : State) (p : Peer) (k a : Nat) : (s.putPair p).byteUnder k a = s.byteUnder k a := rfl

/-- A tag changes no byte. -/
@[simp] theorem byteUnder_setTag (s : State) (pa : Nat) (t : Tag) (k a : Nat) :
    (s.setTag pa t).byteUnder k a = s.byteUnder k a := by
  unfold State.setTag
  split <;> rfl

/-! ### Arrival (R64, R67) -/

/-- A cell that may be performed as it arrives is performed once it has been heard. -/
theorem State.arrive_of_acts {s : State} {c : Cell} {typ : BitVec 4} (h : Claims.acts s c typ) :
    s.arrive c = (Claims.heard s c).perform c := by
  obtain ⟨hen, hdst, hsrc, -, hw, hp⟩ := h
  have hgo : ¬(!s.fab.en || c.dst != s.fab.node || c.src == s.fab.node) = true := by simp [hen, hdst, hsrc]
  have hfirst : ((s.pairOf c.src).waiting.isEmpty && (Claims.heard s c).mayPerform c) = true := by simp [hw, hp]
  exact (if_neg hgo).trans (if_pos hfirst)

/-- A store that nothing refuses is performed, tagged and answered (R65, R173). -/
theorem State.peerStore_of_ok {s : State} {c : Cell} (rel : Bool) (hr : s.peerRefuses (cellSpan c).1 (cellSpan c).2 = none)
    (hw : s.writeFails (s.peerPlace (cellSpan c).1) = false) :
    s.peerStore c rel = ((s.putBytes (maskedBytes (cellSpan c).1 (cellField c 8 4) (cellBytes c 16 32))).peerTag (cellSpan c).1 rel
      (scopeAt (cellField c 12 1)) c.src).replyTo c 0 [] := by
  simp [State.peerStore, hr, hw]

/-- FAB_RELEASE_CELL, where the cell may be performed as it arrives (R71). -/
theorem exec_fabReleaseCell {s : State} {c : Cell} (h : Claims.acts s c 5) :
    exec (.fabReleaseCell c) s = .next ((Claims.heard s c).peerStore c true) := by
  have htyp : c.typ = 5 := h.2.2.2.1
  have harr : s.arriveAs [5] c = s.arrive c := by simp [State.arriveAs, htyp]
  have hperf : (Claims.heard s c).perform c = (Claims.heard s c).peerStore c true := by simp [State.perform, htyp]
  calc exec (.fabReleaseCell c) s = .next (s.arriveAs [5] c) := rfl
    _ = _ := by rw [harr, State.arrive_of_acts h, hperf]

/-- BULK_PACKET_ARRIVE, where nothing keeps the packet back or refuses it: its bytes are written, and the pair takes its number in (R70, R71). -/
theorem exec_bulkPacketArrive {s : State} {b : Bulk} (hen : s.fab.en = true) (hsrc : b.src ≠ s.fab.node) (hkept : s.lineKept b = false)
    (hheld : s.peerHolds (b.line.toNat / 128 * 128) 128 = false)
    (hrmw : s.rmwHeld (.thread b.src 0 0 0) .pkg (b.line.toNat / 128 * 128) 128 = false)
    (href : s.peerRefuses (b.line.toNat / 128 * 128) 128 = none)
    (hfail : s.writeFails (s.peerPlace (b.line.toNat / 128 * 128)) = false) :
    ∃ p, exec (.bulkPacketArrive b) s =
      .next ((s.putBytes (maskedBytes (b.line.toNat / 128 * 128) b.mask.toNat ((padTo 128 b.data).take 128))).putPair p) := by
  have hon : ¬(!s.fab.en || b.src == s.fab.node) = true := by simp [hen, hsrc]
  have hrmw' : s.rmwHeld (peerAgent b.src) .pkg (b.line.toNat / 128 * 128) 128 = false := hrmw
  have hfree : ¬(s.lineKept b || s.peerHolds (b.line.toNat / 128 * 128) 128 ||
      s.rmwHeld (peerAgent b.src) .pkg (b.line.toNat / 128 * 128) 128) = true := by
    simp [hkept, hheld, hrmw']
  have hok : ¬((s.peerRefuses (b.line.toNat / 128 * 128) 128).isSome ||
      s.writeFails (s.peerPlace (b.line.toNat / 128 * 128))) = true := by simp [href, hfail]
  change ∃ p, execBulkPacketArrive b s = _
  unfold execBulkPacketArrive
  simp only [if_neg hon, if_neg hfree, if_neg hok]
  exact ⟨_, rfl⟩

end Sys2Proof.Machine

namespace Sys2Proof.Tests
open Sys2Proof.Machine

/-! ### AES with its S-box by a table

The model computes the S-box (FIPS 197) by inverses in GF(2^8), 254 products each; with a table of the inverses a block is evaluated in seconds. -/

/-- The inverses in GF(2^8) of the 256 bytes: in row b / 16 that of byte b stands at bits 8(b % 16) to 8(b % 16) + 7. -/
def inverses : List Nat :=
  [0xC7E5E1B0C0294FE8D17B52CBF68D0100, 0xB2EE40FFCCFD3F585F602B994BAAB474, 0xC2A2443015980AC1C9A84D55F15A6E3A, 0x1959BB776F2035F2426639F36C92452C,
   0x09E9255413AB64A769F5312D6737FE1D, 0x1761EC51F0223E18BF87244CCA055CED, 0x3B219333DF9147F44336A649D3AF5E16, 0x8281FAA106D070B63CBAB5108597B779,
   0xA4B902F7D9959E9B56BE7396807F7E83, 0x9A89DCF9889F142A72848AD86D326ADE, 0x62D2E7CE4A12C8264865B88FC32E7CFB, 0x5786BCBD3D768EA571787511EF1FE00C,
   0xE6ACFC1B045327A90FE4D4DAA32F280B, 0x6B90F89DD5C48B94EAE2DBC563AE077A, 0xB31E505DE3D74E08ADCF0EC6EBD60DB1, 0x1C411ACDA07D9CDD8C0346683438235B]

/-- The inverse that the table gives. -/
def inverseOf (b : Byte) : Byte := BitVec.ofNat 8 (inverses.getD (b.toNat / 16) 0 >>> (8 * (b.toNat % 16)))

/-- The table is right for every byte. -/
theorem ginv_eq_inverseOf : ∀ b : Byte, ginv b = inverseOf b := by decide +kernel

/-- SubBytes of one byte, by the table. -/
def subOf (b : Byte) : Byte :=
  let v := inverseOf b
  v ^^^ v.rotateLeft 1 ^^^ v.rotateLeft 2 ^^^ v.rotateLeft 3 ^^^ v.rotateLeft 4 ^^^ 0x63

/-- The inverse of SubBytes, by the table. -/
def subInvOf (b : Byte) : Byte := inverseOf (b.rotateLeft 1 ^^^ b.rotateLeft 3 ^^^ b.rotateLeft 6 ^^^ 0x05)

theorem subByte_eq_subOf : subByte = subOf := funext fun b => by
  rw [subByte, ginv_eq_inverseOf]
  rfl

theorem subByteInv_eq_subInvOf : subByteInv = subInvOf := funext fun _ => ginv_eq_inverseOf _

/-- A block enciphered, its rounds using the given SubBytes. -/
def encryptBy (sub : Byte → Byte) (key b : List Byte) : List Byte :=
  let ks := roundKeys key
  let s := ((ks.drop 1).take 13).foldl (fun s k => xorBytes (mixWith [2, 3, 1, 1] (shiftRows (s.map sub))) k) (xorBytes b (ks.headD []))
  xorBytes (shiftRows (s.map sub)) (ks.getD 14 [])

/-- A block deciphered, its rounds using the given inverse of SubBytes. -/
def decryptBy (sub : Byte → Byte) (key b : List Byte) : List Byte :=
  let ks := roundKeys key
  let s := ((ks.drop 1).take 13).reverse.foldl (fun s k => mixWith [14, 11, 13, 9] (xorBytes ((shiftRowsInv s).map sub) k)) (xorBytes b (ks.getD 14 []))
  xorBytes ((shiftRowsInv s).map sub) (ks.headD [])

/-- aesEncrypt evaluated by the table. -/
theorem aesEncrypt_eq (key b : List Byte) : aesEncrypt key b = encryptBy subOf key b := by rw [← subByte_eq_subOf]; rfl

/-- aesDecrypt evaluated by the table. -/
theorem aesDecrypt_eq (key b : List Byte) : aesDecrypt key b = decryptBy subInvOf key b := by rw [← subByteInv_eq_subInvOf]; rfl

/-! ### Five blocks under the zero key -/

/-- A block from its hexadecimal digits, the first two its byte 0. -/
def block (v : Nat) : List Byte := (leBytes 16 v).reverse

/-- The key of a context that holds no key material. -/
def zeroKey : List Byte := List.replicate 32 0

/-- The first tweak of sector 0. -/
def tweak0 : List Byte := block 0xDC95C078A2408989AD48A21492842087

/-- The first tweak of sector 1. -/
def tweak1 : List Byte := block 0x5275F3D86B4FB8684593133EBFA53CD3

theorem aesEncrypt_zero : aesEncrypt zeroKey (leBytes 16 0) = tweak0 := by
  rw [aesEncrypt_eq]
  decide +kernel

theorem aesEncrypt_one : aesEncrypt zeroKey (leBytes 16 1) = tweak1 := by
  rw [aesEncrypt_eq]
  decide +kernel

theorem aesDecrypt_tweak1 : aesDecrypt zeroKey tweak1 = leBytes 16 1 := by
  rw [aesDecrypt_eq]
  decide +kernel

theorem aesEncrypt_sum : aesEncrypt zeroKey (xorBytes tweak0 tweak1) = block 0x6D9AE39AB97225D56C55DBAEF4C0CF22 := by
  rw [aesEncrypt_eq]
  decide +kernel

theorem aesDecrypt_sum : aesDecrypt zeroKey (block 0xE37AD03A707D1434848E6A84D9E1D376) = block 0x5126745B0808E9DAA5C5521502067278 := by
  rw [aesDecrypt_eq]
  decide +kernel

/-- The first block of what is enciphered as sector 1 and deciphered as sector 0 (R53), under the zero key pair. -/
theorem xts_crossed {bs e d : List Byte} (he : aesEncrypt zeroKey (xorBytes (bs.take 16) tweak1) = e) (hl : e.length = 16)
    (hd : aesDecrypt zeroKey (xorBytes (xorBytes e tweak1) tweak0) = d) :
    ∃ r, xtsDecrypt 0 0 (xtsEncrypt 0 1 bs) = xorBytes d tweak0 ++ r := by
  have hkeys : dataKey 0 = zeroKey ∧ tweakKey 0 = zeroKey := by decide +kernel
  have htake : ∀ r, (xorBytes e tweak1 ++ r).take 16 = xorBytes e tweak1 := fun r => by
    have hlen : (xorBytes e tweak1).length = 16 := by simp [xorBytes, hl, tweak1, block, leBytes]
    rw [← hlen, List.take_left]
  simp only [xtsDecrypt, xtsEncrypt, xtsWith, hkeys.1, hkeys.2, aesEncrypt_zero, aesEncrypt_one, he, htake, hd]
  exact ⟨_, rfl⟩

/-! ### A store into a sector that is listed under another place -/

/-- Sector 0 of the device's own memory, written under context 1 for the place of sector 1. FABKEY.KEYID is 1, and node 1 is a peer. -/
def misfiled : State := { fabState with
  hub := { fabState.hub with keys := [(1, 0)], keypol := fabState.hub.keypol.set 0 5 }
  fab := { fabState.fab with key := 1, peers := [Peer.blank 1] }
  mem := { fabState.mem with
    bytes := Memory.writeN [] 0 tweak1
    sectorKey := [(0, (1, 0)), (1, (1, 0)), (2, (1, 0)), (3, (1, 0))]
    farPa := [(0, 1)] } }

/-- Lines whose sectors all stand under the pair of an access meet no other key (R53). -/
theorem meetKey_of_keys (s : State) (k : Nat) (ls : List Nat) (h : ∀ l ∈ ls, ∀ x ∈ lineSectors l, s.mem.keyOf x = (k, s.hub.gen k)) :
    s.meetKey k ls = s := by
  induction ls with
  | nil => rfl
  | cons l ls ih =>
    have hl : ((lineSectors l).any fun x => s.mem.keyOf x != (k, s.hub.gen k)) = false := by
      rw [List.any_eq_false]
      exact fun x hx => by simp [h l (by simp) x hx]
    rw [State.meetKey, hl, Bool.and_false]
    exact ih fun l' hl' => h l' (by simp [hl'])

theorem meetKey_misfiled : misfiled.meetKey 1 (linesAt 0 1) = misfiled := meetKey_of_keys misfiled 1 _ (by decide)

/-- The write of the byte 0xDC at 0 is that of the byte itself, and of marks that no reading sees. -/
theorem devWrite_misfiled : misfiled.devWrite none (misfiled.peerPlace 0) [0xDC] =
    { misfiled.writeByte none 1 0 0xDC with mem := { (misfiled.writeByte none 1 0 0xDC).mem with
      poison := (misfiled.writeByte none 1 0 0xDC).mem.poison.filter fun x => !(decide (0 ≤ 32 * x) && decide (32 * x + 32 ≤ 0 + 1))
      stale := (misfiled.writeByte none 1 0 0xDC).mem.stale.dropRange 0 1 } } := by
  have hhost : misfiled.fromHost (linesAt 0 1) = misfiled := rfl
  have hsettle : ({misfiled with mem := misfiled.mem.settleLines (linesAt 0 1)} : State) = misfiled := rfl
  have hseat : misfiled.farSeat 0 = 0 := rfl
  have hpast : misfiled.notePast 0 1 = misfiled := rfl
  calc misfiled.devWrite none (misfiled.peerPlace 0) [0xDC] =
      (let s := (misfiled.fromHost (linesAt 0 1)).meetKey 1 (linesAt 0 1)
       let s := ({s with mem := s.mem.settleLines (linesAt 0 1)} : State).writePhys none 1 0 [0xDC]
       { s with mem := { s.mem with stale := s.mem.stale.dropRange 0 1 } }) := rfl
    _ = _ := by
      simp only [hhost, meetKey_misfiled, hsettle, State.writePhys, List.length_singleton, hpast, State.writeBytes, State.clearPoison,
        hseat]

/-- Poison and what caches may hold of replaced bytes change no byte. -/
theorem byteUnder_marks (u : State) (ps : List Nat) (st : Table (List Stale)) (k a : Nat) :
    ({ u with mem := { u.mem with poison := ps, stale := st } } : State).byteUnder k a = u.byteUnder k a := rfl

theorem byteUnder_devWrite_misfiled (k a : Nat) :
    (misfiled.devWrite none (misfiled.peerPlace 0) [0xDC]).byteUnder k a = (misfiled.writeByte none 1 0 0xDC).byteUnder k a := by
  rw [devWrite_misfiled]
  exact byteUnder_marks _ _ _ k a

/-- misfiled with its first sector holding other bytes. -/
def misfiledWith (bytes : List Host.Cell) : State := { misfiled with mem := { misfiled.mem with bytes := bytes } }

/-- The byte is written into what context 1 reads in the sector; the sector stays listed under the other place. -/
theorem writeByte_misfiled : misfiled.writeByte none 1 0 0xDC =
    misfiledWith (Memory.write (Memory.writeN misfiled.mem.bytes 0 (misfiled.sectorUnder 1 0 0)) 0 0xDC) := by
  have hcoh : hostCoherent 0 = false := rfl
  have hseat : misfiled.seat 0 = 0 := rfl
  have hrec : misfiled.isRecoded 0 = false := rfl
  have hfor : misfiled.foreign 1 0 0 = true := by decide
  have hkey : misfiled.mem.sectorKey.putD (misfiled.mem.baseOf 0) 0 (1, misfiled.hub.gen 1) = misfiled.mem.sectorKey := by decide
  have hfar : (paRegion 0 == 0xD) = false := rfl
  have hrekey : misfiled.rekey none 1 0 0 = misfiledWith (Memory.writeN misfiled.mem.bytes 0 (misfiled.sectorUnder 1 0 0)) := by
    simp only [State.rekey, Nat.zero_div, hrec, hfor, hkey, Nat.mul_zero, hfar]
    rfl
  simp only [State.writeByte, hcoh, Bool.false_eq_true, if_false, hseat, Nat.zero_div, hrekey]
  generalize Memory.writeN misfiled.mem.bytes 0 (misfiled.sectorUnder 1 0 0) = bytes
  rfl

/-- Context 1 reads byte 0 of the sector as enciphered for the other place. -/
theorem byteUnder_misfiledWith (bytes : List Host.Cell) :
    (misfiledWith bytes).byteUnder 1 0 = (xtsDecrypt 0 0 (xtsEncrypt 0 1 (Memory.readN bytes 0 32))).getD 0 0 := by
  have hseat : (misfiledWith bytes).seat 0 = 0 := rfl
  have hfor : (misfiledWith bytes).foreign 1 0 0 = true := by
    have h : misfiled.foreign 1 0 0 = true := by decide
    exact h
  have hrec : (misfiledWith bytes).isRecoded 0 = false := rfl
  have hpair : (misfiledWith bytes).hub.pair (1, 0) = 0 := rfl
  have hkey : (misfiledWith bytes).mem.keyOf 0 = (1, 0) := rfl
  have hgen : (misfiledWith bytes).hub.gen 1 = 0 := rfl
  have hpa : (misfiledWith bytes).mem.writtenAs 0 0 = 1 := rfl
  simp only [State.byteUnder, hseat, Nat.zero_div, hfor, if_true, State.sectorUnder, hrec, Bool.false_eq_true, if_false, State.garble,
    hpair, hkey, hgen, hpa]
  rfl

/-- What context 1 reads in the sector's first block before the store. -/
theorem sectorUnder_misfiled : ∃ r, misfiled.sectorUnder 1 0 0 = block 0xDD95C078A2408989AD48A21492842087 ++ r := by
  have hg : misfiled.sectorUnder 1 0 0 = xtsDecrypt 0 0 (xtsEncrypt 0 1 (misfiled.mem.sector 0)) := rfl
  have hb : xorBytes ((misfiled.mem.sector 0).take 16) tweak1 = leBytes 16 0 := by decide
  have hx : xorBytes (xorBytes tweak0 tweak1) tweak0 = tweak1 := by decide
  have hy : xorBytes (leBytes 16 1) tweak0 = block 0xDD95C078A2408989AD48A21492842087 := by decide
  obtain ⟨r, hr⟩ := xts_crossed (bs := misfiled.mem.sector 0) (e := tweak0) (d := leBytes 16 1) (by rw [hb, aesEncrypt_zero])
    (by decide) (by rw [hx, aesDecrypt_tweak1])
  exact ⟨r, by rw [hg, hr, hy]⟩

/-- With the byte 0xDC stored over byte 0 the first block of the sector is the first tweak of sector 0. -/
theorem readN_stored (m : List Host.Cell) (r : List Byte) :
    (Memory.readN (Memory.write (Memory.writeN m 0 (block 0xDD95C078A2408989AD48A21492842087 ++ r)) 0 0xDC) 0 32).take 16 = tweak0 := by
  have hlen : (block 0xDD95C078A2408989AD48A21492842087).length = 16 := by decide
  have hsame : ∀ i, (h : i < 16) → i ≠ 0 → (block 0xDD95C078A2408989AD48A21492842087)[i] = tweak0[i]'h := by decide
  apply List.ext_getElem
  · simp [Memory.readN, tweak0, block, leBytes]
  · intro i hi _
    have hi' : i < 16 := by simp at hi; omega
    simp only [List.getElem_take, Memory.readN, List.getElem_map, List.getElem_range, Nat.zero_add, Memory.read_write, Memory.read_writeN]
    by_cases h0 : 0 = i
    · subst h0
      rfl
    · rw [if_neg h0, dif_pos (by simp only [List.length_append, hlen]; omega)]
      simp only [Nat.sub_zero]
      rw [List.getElem_append_left (by omega)]
      exact hsame i hi' (Ne.symm h0)

/-- The byte stored is 0xDC; the byte read back is another. -/
theorem byteUnder_stored : (misfiled.devWrite none (misfiled.peerPlace 0) [0xDC]).byteUnder 1 0 = 0x8D := by
  obtain ⟨r, hr⟩ := sectorUnder_misfiled
  have hx : xorBytes (xorBytes (block 0x6D9AE39AB97225D56C55DBAEF4C0CF22) tweak1) tweak0 = block 0xE37AD03A707D1434848E6A84D9E1D376 := by
    decide
  obtain ⟨q, hq⟩ := xts_crossed
    (bs := Memory.readN (Memory.write (Memory.writeN misfiled.mem.bytes 0 (block 0xDD95C078A2408989AD48A21492842087 ++ r)) 0 0xDC) 0 32)
    (e := block 0x6D9AE39AB97225D56C55DBAEF4C0CF22) (d := block 0x5126745B0808E9DAA5C5521502067278)
    (by rw [readN_stored, aesEncrypt_sum]) (by decide) (by rw [hx, aesDecrypt_sum])
  rw [byteUnder_devWrite_misfiled, writeByte_misfiled, hr, byteUnder_misfiledWith, hq]
  rfl

/-! ### A cell and a bulk packet that store there -/

/-- A release of the byte 0xDC to address 0, from node 1. -/
def oneByte : Cell := cell 5 (2 ^ 64 + 0xDC * 2 ^ 128)

/-- It may be performed as it arrives. -/
theorem acts_oneByte : Claims.acts misfiled oneByte 5 := by
  unfold Claims.acts
  decide +kernel

/-- A peer's store of one byte is the write of the byte at its place. -/
theorem putBytes_misfiled : misfiled.putBytes [(0, 0xDC)] = misfiled.devWrite none (misfiled.peerPlace 0) [0xDC] := rfl

/-- The cell writes the byte, tags its line and is answered (R65, R173). -/
theorem exec_oneByte : exec (.fabReleaseCell oneByte) misfiled =
    .next (((misfiled.devWrite none (misfiled.peerPlace 0) [0xDC]).setTag 0 (.team, .thread 1 0 0 0)).replyTo oneByte 0 []) := by
  have hheard : Claims.heard misfiled oneByte = misfiled := by decide +kernel
  have hspan : cellSpan oneByte = (0, 32) := by decide +kernel
  have hbytes : maskedBytes 0 (cellField oneByte 8 4) (cellBytes oneByte 16 32) = [(0, 0xDC)] := by decide +kernel
  have hscope : scopeAt (cellField oneByte 12 1) = .team := by decide +kernel
  have hstore : misfiled.peerStore oneByte true = ((misfiled.putBytes [(0, 0xDC)]).setTag 0 (.team, .thread 1 0 0 0)).replyTo oneByte 0 [] := by
    have hok := State.peerStore_of_ok (s := misfiled) (c := oneByte) true (by decide +kernel) (by decide +kernel)
    rw [hspan, hbytes, hscope] at hok
    exact hok
  rw [exec_fabReleaseCell acts_oneByte, hheard, hstore, putBytes_misfiled]

/-- Refutes O53: where mem.farPa lists a sector of the device's own memory, the byte that a release stores there reads back as another (0xDC stored, 0x8D read).
What the statement leaves out is that mem.farPa lists sectors of region 0xD alone, as every step keeps it. -/
theorem not_cellsArePerformed : ¬ Obligations.CellsArePerformed := by
  unfold Obligations.CellsArePerformed
  intro h
  obtain ⟨hcell, -⟩ := h
  obtain ⟨-, -, hstore, -⟩ := hcell misfiled oneByte
  obtain ⟨-, -, hdone⟩ := hstore true acts_oneByte
  obtain ⟨v, hv, hread, -⟩ := hdone (by decide +kernel) (by decide +kernel)
  have hstate := Host.Outcome.next.inj (exec_oneByte.symm.trans hv)
  have hfield : Claims.field oneByte 0 8 % 2 ^ 52 = 0 := by decide +kernel
  have hdata : BitVec.ofNat 8 (Claims.field oneByte 16 1) = 0xDC := by decide +kernel
  have hbyte := hread 0 (by decide +kernel) (by decide +kernel)
  rw [← hstate, byteUnder_replyTo, byteUnder_setTag, hfield, hdata] at hbyte
  exact absurd (byteUnder_stored.symm.trans hbyte) (by decide)

/-- A packet that writes the byte 0xDC at address 0. -/
def oneBytePacket : Bulk := { src := 1, line := 0, mask := 1, seq := 1, data := 0xDC :: List.replicate 127 0 }

/-- The packet writes the byte, and its pair takes the number in (R70). -/
theorem exec_oneBytePacket : ∃ p, exec (.bulkPacketArrive oneBytePacket) misfiled =
    .next ((misfiled.devWrite none (misfiled.peerPlace 0) [0xDC]).putPair p) := by
  have hbytes : maskedBytes 0 oneBytePacket.mask.toNat ((padTo 128 oneBytePacket.data).take 128) = [(0, 0xDC)] := by decide +kernel
  obtain ⟨p, hp⟩ := exec_bulkPacketArrive (s := misfiled) (b := oneBytePacket) rfl (by decide +kernel) rfl rfl rfl (by decide +kernel)
    (by decide +kernel)
  have hline : oneBytePacket.line.toNat / 128 * 128 = 0 := rfl
  rw [hline, hbytes, putBytes_misfiled] at hp
  exact ⟨p, hp⟩

/-- Refutes O54, as O53 is refuted: the byte that BULK_PACKET_ARRIVE writes (R70) reads back as another where mem.farPa lists a sector of the device's own memory.
The same condition is missing: that mem.farPa lists sectors of region 0xD alone. -/
theorem not_cellsTravel : ¬ Obligations.CellsTravel := by
  unfold Obligations.CellsTravel
  intro h
  obtain ⟨-, -, hbulk, -⟩ := h
  obtain ⟨v, hv, hread, -⟩ := hbulk misfiled oneBytePacket rfl (by decide +kernel) rfl (by decide +kernel) (by decide +kernel)
    (by decide +kernel) (by decide +kernel) rfl
  obtain ⟨p, hp⟩ := exec_oneBytePacket
  have hstate := Host.Outcome.next.inj (hp.symm.trans hv)
  have hbyte := hread 0 (by decide +kernel) (by decide +kernel)
  rw [← hstate, byteUnder_putPair] at hbyte
  exact absurd (byteUnder_stored.symm.trans hbyte) (by decide +kernel)

end Sys2Proof.Tests
end

section
/-!
PROOFS. Every step keeps memory in its canonical form (log entry 3).
An operation that writes no byte leaves memOk as it is, which its lemma says as an equation; one that may write keeps it, which its lemma
says as an implication. Both are simp lemmas, in the order of the model's files, so that the lemma of an operation needs only those of the
operations that it is made of. Of a device step the same is said of the state that it answers (OutOk).
-/
namespace Sys2Proof.Machine

/-! ### Canonical lists of bytes -/

/-- A list of bytes that loses entries stays canonical. -/
theorem Memory.wf_filter (m : List Host.Cell) (p : Host.Cell → Bool) (h : Memory.wf m = true) : Memory.wf (m.filter p) = true := by
  simp only [Memory.wf, Bool.and_eq_true, List.all_eq_true] at h ⊢
  exact ⟨Table.rising_filter m p h.1, fun e he => h.2 e (List.mem_filter.mp he).1⟩

/-- Bytes written one after the other, at any addresses, keep the canonical form. -/
theorem Memory.wf_foldl_write {α : Type} (a : α → Nat) (b : α → Byte) (m : List Host.Cell) (xs : List α) (h : Memory.wf m = true) :
    Memory.wf (xs.foldl (fun m x => Memory.write m (a x) (b x)) m) = true := by
  induction xs generalizing m with
  | nil => exact h
  | cons x xs ih => exact ih _ (Memory.wf_write m _ _ h)

/-! ### Canonical memory of a state -/

/-- A state written out has the memory that is written there. -/
@[simp] theorem memOk_mk (now agenda kept free nextKey irq hostOut trace mem towers hub fab wqs rr lastSlot eqs launches nextGrid teams runs
    cur reqs sideLog faults nextFid copies saigaLast acc scale streams mmas passes passWin soft) :
    (State.mk now agenda kept free nextKey irq hostOut trace mem towers hub fab wqs rr lastSlot eqs launches nextGrid teams runs
      cur reqs sideLog faults nextFid copies saigaLast acc scale streams mmas passes passWin soft).memOk = Memory.wf mem.bytes := rfl

@[simp] theorem wf_bytes (s : State) : Memory.wf s.mem.bytes = s.memOk := rfl

@[simp] theorem memOk_ite (c : Prop) [Decidable c] (s t : State) : (if c then s else t).memOk = if c then s.memOk else t.memOk := by
  split <;> rfl

/-- The state of a result that is taken apart. -/
theorem snd_memOk {α : Type} {p : α × State} {a : α} {t : State} (e : p = (a, t)) (h : p.2.memOk = true) : t.memOk = true := by
  subst e
  exact h

/-- A fold keeps memory canonical if each of its steps does. -/
theorem foldl_memOk {α : Type} {f : State → α → State} (hf : ∀ s x, s.memOk = true → (f s x).memOk = true) (s : State) (xs : List α)
    (h : s.memOk = true) : (xs.foldl f s).memOk = true := by
  induction xs generalizing s with
  | nil => exact h
  | cons x xs ih => exact ih _ (hf s x h)

/-- The next state, where there is one, has canonical memory. -/
def OutOk (o : Out) : Prop := ∀ t, o = .next t → t.memOk = true

@[simp] theorem outOk_next (s : State) : OutOk (.next s) ↔ s.memOk = true :=
  ⟨fun h => h s rfl, fun h _ e => Host.Outcome.next.inj e ▸ h⟩

@[simp] theorem outOk_ite (c : Prop) [Decidable c] (s t : Out) : OutOk (if c then s else t) ↔ if c then OutOk s else OutOk t := by
  split <;> rfl

/-! ### Operations of Machine/Blocks.lean -/

@[simp] theorem putStream_memOk (s : State) (x : Stream) : (s.putStream x).memOk = s.memOk := rfl
@[simp] theorem owe_memOk (s : State) (m : Mma) (f : BitVec 3) : (s.owe m f).memOk = s.memOk := rfl

/-! ### Operations of Machine/Ops.lean -/

@[simp] theorem modTeam_memOk (s : State) (k : Nat) (f : Team → Team) : (s.modTeam k f).memOk = s.memOk := rfl
@[simp] theorem modLaunch_memOk (s : State) (k : Nat) (f : Launch → Launch) : (s.modLaunch k f).memOk = s.memOk := rfl
@[simp] theorem modCopy_memOk (s : State) (c : Nat) (f : Copy → Copy) : (s.modCopy c f).memOk = s.memOk := rfl
@[simp] theorem modMma_memOk (s : State) (m : Nat) (f : Mma → Mma) : (s.modMma m f).memOk = s.memOk := rfl
@[simp] theorem modFault_memOk (s : State) (n : Nat) (f : FaultEntry → FaultEntry) : (s.modFault n f).memOk = s.memOk := rfl
@[simp] theorem modQueue_memOk (s : State) (n : Nat) (f : Queue → Queue) : (s.modQueue n f).memOk = s.memOk := rfl
@[simp] theorem modThread_memOk (s : State) (k i : Nat) (f : Thread → Thread) : (s.modThread k i f).memOk = s.memOk := rfl

@[simp] theorem modThreads_memOk (s : State) (k : Nat) (xs : List Nat) (f : Thread → Thread) : (s.modThreads k xs f).memOk = s.memOk := by
  fun_induction State.modThreads <;> simp_all

@[simp] theorem again_memOk (s : State) (i : Instr) : (s.again i).memOk = s.memOk := rfl
@[simp] theorem freeWord_memOk (s : State) : s.freeWord.2.memOk = s.memOk := rfl
@[simp] theorem freeBytes_memOk (s : State) (n : Nat) : (s.freeBytes n).2.memOk = s.memOk := rfl
@[simp] theorem freeChoice_memOk (s : State) : s.freeChoice.2.memOk = s.memOk := rfl
@[simp] theorem resolve_memOk (s : State) (k : Nat) (tok st : Word) : (s.resolve k tok st).memOk = s.memOk := rfl
@[simp] theorem sweepMmas_memOk (s : State) (xs : List Mma) : (s.sweepMmas xs).memOk = s.memOk := by fun_induction State.sweepMmas <;> simp_all
@[simp] theorem dropRest_memOk (s : State) (m : Mma) (e : Ending) : (s.dropRest m e).memOk = s.memOk := by simp [State.dropRest]
@[simp] theorem dropAll_memOk (s : State) (xs : List Mma) : (s.dropAll xs).memOk = s.memOk := by fun_induction State.dropAll <;> simp_all
@[simp] theorem dropPasses_memOk (s : State) (k : Nat) : (s.dropPasses k).memOk = s.memOk := by simp [State.dropPasses]
@[simp] theorem haltTeam_memOk (s : State) (k : Nat) (cause : Byte) : (s.haltTeam k cause).memOk = s.memOk := by simp [State.haltTeam]

@[simp] theorem takeTrap_memOk (s : State) (k i : Nat) (tr : Trap) (h : s.memOk = true) : (s.takeTrap k i tr).memOk = true := by
  grind [State.takeTrap, modThread_memOk, haltTeam_memOk]

@[simp] theorem trapAll_memOk (s : State) (k : Nat) (xs : List Nat) (x : Trap) (h : s.memOk = true) : (s.trapAll k xs x).memOk = true := by
  fun_induction State.trapAll <;> simp_all

@[simp] theorem lateTrap_memOk (s : State) (k i n : Nat) (tr : Trap) : (s.lateTrap k i n tr).memOk = s.memOk := by
  unfold State.lateTrap
  split <;> simp

@[simp] theorem finish_memOk (s : State) (k : Nat) (is : List Nat) (i : Instr) (f : Thread → Thread) : (s.finish k is i f).memOk = s.memOk := by
  simp [State.finish]

/-! ### Operations of Machine/Operands.lean -/

@[simp] theorem blockPending_memOk (s : State) (k : Nat) (i : Instr) (xs : List Nat) : (s.blockPending k i xs).1.memOk = s.memOk := by
  fun_induction State.blockPending <;> simp_all

@[simp] theorem checkUniform_memOk (s : State) (k : Nat) (i : Instr) (l : Thread) (xs : List Nat) (h : s.memOk = true) :
    (s.checkUniform k i l xs).1.memOk = true := by
  fun_induction State.checkUniform <;> simp_all

@[simp] theorem gate_memOk (s : State) (i : Instr) (h : s.memOk = true) : (s.gate i).1.memOk = true := by
  unfold State.gate
  (repeat' split) <;> grind [trapAll_memOk, blockPending_memOk, checkUniform_memOk]

/-- A word that passes the checks common to all words, and one that does not (R142, R144, R148, R269). -/
theorem gated_memOk {s : State} (i : Instr) {f : State → Issue → State} (h : s.memOk = true)
    (hf : ∀ s c, s.memOk = true → (f s c).memOk = true) : (match s.gate i with | (s, none) => s | (s, some c) => f s c).memOk = true := by
  have hg := gate_memOk s i h
  split
  · next e =>
    rw [e] at hg
    exact hg
  · next e =>
    rw [e] at hg
    exact hf _ _ hg

@[simp] theorem alu_memOk (s : State) (i : Instr) (d : Reg) (f : Thread → AluOut) (h : s.memOk = true) : (s.alu i d f).memOk = true := by
  grind [State.alu, gate_memOk, finish_memOk, trapAll_memOk]

/-! ### Operations of Machine/Crew.lean -/

@[simp] theorem arriveBar_memOk (s : State) (k i : Nat) (w : Instr) (n : Fin 16) (cnt : Nat) (sync : Bool) (h : s.memOk = true) :
    (s.arriveBar k i w n cnt sync).memOk = true := by
  grind [State.arriveBar, takeTrap_memOk, modTeam_memOk, modThread_memOk]

@[simp] theorem rdvGive_memOk (s : State) (k base size : Nat) (joins : List RdvJoin) (j : RdvJoin) (h : s.memOk = true) :
    (s.rdvGive k base size joins j).memOk = true := by
  unfold State.rdvGive
  (repeat' split) <;> simp [h]

@[simp] theorem rdvGiveAll_memOk (s : State) (k base size : Nat) (joins xs : List RdvJoin) (h : s.memOk = true) :
    (s.rdvGiveAll k base size joins xs).memOk = true := by
  fun_induction State.rdvGiveAll <;> simp_all

@[simp] theorem tryRdv_memOk (s : State) (k c : Nat) (h : s.memOk = true) : (s.tryRdv k c).memOk = true := by
  unfold State.tryRdv
  split <;> simp [h]

@[simp] theorem joinRdv_memOk (s : State) (k i : Nat) (w : Instr) (val src : Word) (h : s.memOk = true) : (s.joinRdv k i w val src).memOk = true := by
  unfold State.joinRdv
  split <;> simp [h]

@[simp] theorem resortGive_memOk (s : State) (k : Nat) (j : ResortJoin) (w : Instr) (p : BitVec 2 × BitVec 5) :
    (s.resortGive k j w p).memOk = s.memOk :=
  rfl

@[simp] theorem resortAll_memOk (s : State) (k : Nat) (xs : List ResortJoin) (xs' : List Position) : (s.resortAll k xs xs').memOk = s.memOk := by
  fun_induction State.resortAll <;> simp_all

@[simp] theorem resortDone_memOk (s : State) (k : Nat) (js : List ResortJoin) : (s.resortDone k js).memOk = s.memOk := by simp [State.resortDone]

@[simp] theorem resortAlone_memOk (s : State) (k : Nat) (xs : List Nat) : (s.resortAlone k xs).memOk = s.memOk := by
  fun_induction State.resortAlone <;> simp_all

@[simp] theorem tryResort_memOk (s : State) (k : Nat) : (s.tryResort k).memOk = s.memOk := by
  unfold State.tryResort
  split <;> simp

@[simp] theorem flagsDown_memOk (s : State) (k : Nat) (is : List Nat) (f : Option (Fin 12)) : (s.flagsDown k is f).memOk = s.memOk := by
  simp [State.flagsDown]

@[simp] theorem orphan_memOk (s : State) (k i : Nat) : (s.orphan k i).memOk = s.memOk := rfl

@[simp] theorem exitThread_memOk (s : State) (k i : Nat) (h : s.memOk = true) : (s.exitThread k i).memOk = true := by
  grind [State.exitThread, modThread_memOk, orphan_memOk, haltTeam_memOk, tryResort_memOk, tryRdv_memOk]

/-! ### Operations of Machine/Phys.lean -/

@[simp] theorem modTower_memOk (s : State) (t : Nat) (f : Tower → Tower) : (s.modTower t f).memOk = s.memOk := by
  unfold State.modTower
  split <;> simp

@[simp] theorem MemSys_settle_bytes (m : MemSys) (lo hi : Nat) : (MemSys.settle m lo hi).bytes = m.bytes := rfl
@[simp] theorem MemSys_settleTower_bytes (m : MemSys) (t : Nat) : (MemSys.settleTower m t).bytes = m.bytes := rfl
@[simp] theorem MemSys_dropTower_bytes (m : MemSys) (t : Nat) : (MemSys.dropTower m t).bytes = m.bytes := rfl
@[simp] theorem MemSys_recall_bytes (m : MemSys) (lo hi : Nat) : (MemSys.recall m lo hi).bytes = m.bytes := rfl

@[simp] theorem MemSys_discard_bytes (m : MemSys) (lo hi : Nat) (h : Memory.wf m.bytes = true) : Memory.wf (m.discard lo hi).bytes = true :=
  Memory.wf_foldl_write _ _ _ _ h

@[simp] theorem cleanHosts_memOk (s : State) (xs : List Nat) (h : s.memOk = true) : (s.cleanHosts xs).memOk = true := by
  fun_induction State.cleanHosts <;> simp_all [cleanHost_memOk]

@[simp] theorem clearPoison_memOk (s : State) (a n : Nat) : (s.clearPoison a n).memOk = s.memOk := rfl
@[simp] theorem clearWritten_memOk (s : State) (as : List Nat) : (s.clearWritten as).memOk = s.memOk := by simp [State.clearWritten]
@[simp] theorem setTag_memOk (s : State) (a : Nat) (t : Tag) : (s.setTag a t).memOk = s.memOk := by simp [State.setTag]

/-! ### Operations of Machine/Reads.lean -/

@[simp] theorem retryAt_memOk (s : State) (pa : Nat) : (s.retryAt pa).memOk = s.memOk := by simp [State.retryAt]
@[simp] theorem retriesAt_memOk (s : State) (xs : List Nat) : (s.retriesAt xs).memOk = s.memOk := by fun_induction State.retriesAt <;> simp_all

/-! ### Operations of Machine/Xlate.lean -/

@[simp] theorem chooseOf_memOk {α : Type} [DecidableEq α] (s : State) (x y : α) : (s.chooseOf x y).2.memOk = s.memOk := by
  unfold State.chooseOf
  split <;> simp

@[simp] theorem walkFrom_memOk (s : State) (tower : Nat) (asid : BitVec 12) (va : Nat) (xs : List Level) (n : Nat) (xs' : List WalkEntry)
    (h : s.memOk = true) : (s.walkFrom tower asid va xs n xs').2.memOk = true := by
  fun_induction State.walkFrom <;> grind [retryAt_memOk, spoil_memOk, plainRead_memOk, chooseOf_memOk]

@[simp] theorem pickAlt_memOk (s : State) (va : Nat) (o : WalkOut) (h : s.memOk = true) : (s.pickAlt va o).2.memOk = true := by
  grind [State.pickAlt, freeWord_memOk]

@[simp] theorem forgetWindows_memOk (s : State) : s.forgetWindows.memOk = s.memOk := by simp [State.forgetWindows]
@[simp] theorem setWindow_memOk (s : State) (n : Fin 4) (v : Word) : (s.setWindow n v).memOk = s.memOk := by simp [State.setWindow]

@[simp] theorem useTlb_memOk (s : State) (hit : Option Walk) (w : Walk) (before : Bool) (h : s.memOk = true) :
    (s.useTlb hit w before).2.memOk = true := by
  unfold State.useTlb
  grind [freeChoice_memOk]

@[simp] theorem walkRoots_memOk (s : State) (tower va : Nat) (w : Walk) (ps : List WalkEntry) (xs : List DWord) (h : s.memOk = true) :
    (s.walkRoots tower va w ps xs).2.2.memOk = true := by
  fun_induction State.walkRoots <;> grind [walkFrom_memOk, pickAlt_memOk, chooseOf_memOk]

@[simp] theorem lookup_memOk (s : State) (core : Option Nat) (tower : Nat) (root : DWord) (va : Nat) (h : s.memOk = true) :
    (s.lookup core tower root va).2.memOk = true := by
  unfold State.lookup
  dsimp only
  have h1 := walkFrom_memOk s tower (rootAsid root) va levels (rootBase root) [] h
  generalize s.walkFrom tower (rootAsid root) va levels (rootBase root) [] = r1 at h1 ⊢
  have h2 := pickAlt_memOk r1.2 va r1.1 h1
  generalize r1.2.pickAlt va r1.1 = r2 at h2 ⊢
  have h3 := walkRoots_memOk r2.2 tower va r2.1 r1.1.ptrs (s.rootsInUse.filter fun r => rootAsid r == rootAsid root && rootBase r != rootBase root) h2
  generalize State.walkRoots _ _ _ _ _ _ = r3 at h3 ⊢
  have h4 := useTlb_memOk r3.2.2 (s.tlbHit none tower (rootAsid root) va) r3.1 false h3
  generalize State.useTlb _ _ _ _ = r4 at h4 ⊢
  cases core <;> simp [h, h4]

@[simp] theorem translate_memOk (s : State) (core : Option Nat) (tower : Nat) (root va : DWord) (k : Kind) (ty : RType) (h : s.memOk = true) :
    (s.translate core tower root va k ty).2.memOk = true := by
  grind [State.translate, lookup_memOk]

@[simp] theorem probe_memOk (s : State) (core : Option Nat) (tower : Nat) (root va : DWord) (h : s.memOk = true) :
    (s.probe core tower root va).2.memOk = true := by
  grind [State.probe, lookup_memOk]

@[simp] theorem openFault_memOk (s : State) (root va : DWord) (k : FKind) (reason level : Nat) (need : BitVec 3) (grid : Word) (teamid pcore : Nat)
    (h : s.memOk = true) : (s.openFault root va k reason level need grid teamid pcore).2.memOk = true := by
  unfold State.openFault
  dsimp only
  (repeat' split) <;> simp_all

@[simp] theorem teamFault_memOk (s : State) (t : Team) (va : DWord) (k : FKind) (reason level : Nat) (need : BitVec 3) (h : s.memOk = true) :
    (s.teamFault t va k reason level need).2.memOk = true := by
  simp [State.teamFault, h]

@[simp] theorem xteam_memOk (s : State) (t : Team) (va : DWord) (k : Kind) (ty : RType) (h : s.memOk = true) :
    (s.xteam t va k ty).2.memOk = true := by
  simp [State.xteam, h]

/-! ### Operations of Machine/Access.lean -/

@[simp] theorem l1Put_memOk (s : State) (pcore line : Nat) (key : BitVec 10) (bs : List Byte) : (s.l1Put pcore line key bs).memOk = s.memOk := rfl
@[simp] theorem l1Drop_memOk (s : State) (pcore : Nat) : (s.l1Drop pcore).memOk = s.memOk := rfl
@[simp] theorem l1Acquire_memOk (s : State) (pcore : Nat) (sc : Scope) : (s.l1Acquire pcore sc).memOk = s.memOk := by simp [State.l1Acquire]
@[simp] theorem l1Note_memOk (s : State) (pcore pa : Nat) (key : BitVec 10) (bs : List Byte) : (s.l1Note pcore pa key bs).memOk = s.memOk := rfl

@[simp] theorem stirAll_memOk (s : State) (k a n : Nat) : (s.stirAll k a n).memOk = s.memOk := by
  unfold State.stirAll
  split <;> simp

@[simp] theorem spadWrite_memOk (s : State) (k a : Nat) (bs : List Byte) : (s.spadWrite k a bs).memOk = s.memOk := by simp [State.spadWrite]
@[simp] theorem spadFill_memOk (s : State) (k a : Nat) (bs : List Byte) : (s.spadFill k a bs).memOk = s.memOk := by simp [State.spadFill]

@[simp] theorem foldPages_memOk (s : State) (xs : List Partial) (h : s.memOk = true) : (s.foldPages xs).memOk = true := by
  fun_induction State.foldPages <;> simp_all [foldPage_memOk]

@[simp] theorem foldTower_memOk (s : State) (tower : Nat) (h : s.memOk = true) : (s.foldTower tower).memOk = true := by simp [State.foldTower, h]

@[simp] theorem combine_memOk (s : State) (tower : Nat) (p : Place) (v : Nat) : (s.combine tower p v).memOk = s.memOk := by
  unfold State.combine
  split <;> simp

@[simp] theorem keepLine_memOk (s : State) (node : BitVec 12) (pa : Nat) (bs : List Byte) : (s.keepLine node pa bs).memOk = s.memOk := rfl

@[simp] theorem keepLines_memOk (s : State) (node : BitVec 12) (pa : Nat) (bs : List Byte) (xs : List Nat) :
    (s.keepLines node pa bs xs).memOk = s.memOk := by
  fun_induction State.keepLines <;> simp_all

@[simp] theorem remoteRead_memOk (s : State) (p : Place) (n : Nat) (h : s.memOk = true) : (s.remoteRead p n).2.memOk = true := by
  grind [State.remoteRead, freeBytes_memOk, keepLines_memOk]

@[simp] theorem loadBytes_memOk (s : State) (pcore : Nat) (p : Place) (ty : RType) (relaxed : Bool) (n : Nat) (h : s.memOk = true) :
    (s.loadBytes pcore p ty relaxed n).2.memOk = true := by
  grind [State.loadBytes, devRead_memOk, l1Put_memOk, freeChoice_memOk, l1Note_memOk]

@[simp] theorem storeBytes_memOk (s : State) (pcore : Nat) (via : Option Nat) (p : Place) (bs : List Byte) (h : s.memOk = true) :
    (s.storeBytes pcore via p bs).memOk = true := by
  simp [State.storeBytes, h, devWrite_memOk]

@[simp] theorem tagWrite_memOk (s : State) (pa : Nat) (ord : Order) (sc : Scope) (fs : Option Scope) (a : Agent) :
    (s.tagWrite pa ord sc fs a).memOk = s.memOk := by
  unfold State.tagWrite
  (repeat' split) <;> simp

/-! ### Operations of Machine/Cells.lean -/

@[simp] theorem putPair_memOk (s : State) (p : Peer) : (s.putPair p).memOk = s.memOk := rfl

@[simp] theorem queueCell_memOk (s : State) (n : BitVec 12) (id : Nat) (typ : BitVec 4) (rel : Bool) (pay : List Byte) :
    (s.queueCell n id typ rel pay).memOk = s.memOk :=
  rfl

@[simp] theorem bulkSend_memOk (s : State) (n : BitVec 12) (line : Nat) (bs : List (Nat × Byte)) (x : Flight) :
    (s.bulkSend n line bs x).memOk = s.memOk :=
  rfl

@[simp] theorem bulkRange_memOk (s : State) (n : BitVec 12) (pa : Nat) (bs : List Byte) (x : Flight) (xs : List Nat) :
    (s.bulkRange n pa bs x xs).memOk = s.memOk := by
  fun_induction State.bulkRange <;> simp_all

@[simp] theorem sendAsks_memOk (s : State) (n : BitVec 12) (who : Nat) (xs : List (Nat × Nat × Cell)) : (s.sendAsks n who xs).2.memOk = s.memOk := rfl

@[simp] theorem hubSend_memOk (s : State) (n : BitVec 12) (who : Nat) (sc : Scope) (rel : Bool) (pa : Nat) (bs : List Byte) :
    (s.hubSend n who sc rel pa bs).2.memOk = s.memOk := by
  unfold State.hubSend
  split <;> simp

@[simp] theorem forgetAsks_memOk (s : State) (who : Nat) : (s.forgetAsks who).memOk = s.memOk := by simp [State.forgetAsks]

@[simp] theorem askBytes_memOk (s : State) (who : Nat) (acq : Bool) (p : Place) (m : Nat) (h : s.memOk = true) :
    (s.askBytes who acq p m).memOk = true := by
  grind [State.askBytes, sendAsks_memOk]

@[simp] theorem takeAsked_memOk (s : State) (who : Nat) (acq : Bool) (p : Place) (m : Nat) (h : s.memOk = true) :
    (s.takeAsked who acq p m).2.memOk = true := by
  unfold State.takeAsked
  dsimp only
  (repeat' split) <;> simp_all

@[simp] theorem hubTry_memOk (s : State) (a n : Nat) (f : State → State) (h : s.memOk = true) (hf : (f s).memOk = true) :
    (s.hubTry a n f).memOk = true := by
  simp [State.hubTry, h, hf]

@[simp] theorem hubWant_memOk (s : State) (who : Nat) (acq : Bool) (root : DWord) (fuel : Nat) (x : DWord) (n : Nat) (h : s.memOk = true) :
    (s.hubWant who acq root fuel x n).memOk = true := by
  fun_induction State.hubWant <;> grind [translate_memOk, retryAt_memOk, askBytes_memOk]

@[simp] theorem hubRead_memOk (s : State) (who : Nat) (acq : Bool) (root : DWord) (fuel : Nat) (x : DWord) (n : Nat) (h : s.memOk = true) :
    (s.hubRead who acq root fuel x n).2.memOk = true := by
  fun_induction State.hubRead <;> grind [translate_memOk, takeAsked_memOk, spoil_memOk, devRead_memOk]

@[simp] theorem hubStoreWant_memOk (s : State) (root : DWord) (fuel : Nat) (x : DWord) (n : Nat) (h : s.memOk = true) :
    (s.hubStoreWant root fuel x n).memOk = true := by
  fun_induction State.hubStoreWant <;> grind [translate_memOk, retryAt_memOk]

@[simp] theorem hubWrite_memOk (s : State) (who : Nat) (root va : DWord) (bs : List Byte) (sc : Option Scope) (h : s.memOk = true) :
    (s.hubWrite who root va bs sc).2.memOk = true := by
  grind [State.hubWrite, translate_memOk, hubSend_memOk, devWrite_memOk, setTag_memOk]

@[simp] theorem hubWriteN_memOk (s : State) (who : Nat) (root : DWord) (fuel : Nat) (x : DWord) (xs : List Byte) (h : s.memOk = true) :
    (s.hubWriteN who root fuel x xs).2.memOk = true := by
  fun_induction State.hubWriteN <;> grind [hubWrite_memOk]

/-! ### Operations of Machine/Mem.lean -/

@[simp] theorem stall_memOk (s : State) : s.stall.memOk = s.memOk := rfl
@[simp] theorem awaitResource_memOk (s : State) (c : Issue) (i : Instr) : (s.awaitResource c i).memOk = s.memOk := by simp [State.awaitResource]
@[simp] theorem awaitRelease_memOk (s : State) (c : Issue) (i : Instr) : (s.awaitRelease c i).memOk = s.memOk := by simp [State.awaitRelease]
@[simp] theorem awaitCheck_memOk (s : State) (c : Issue) (i : Instr) : (s.awaitCheck c i).memOk = s.memOk := by simp [State.awaitCheck]
@[simp] theorem goOn_memOk (s : State) (c : Issue) (i : Instr) : (s.goOn c i).memOk = s.memOk := by simp [State.goOn]
@[simp] theorem goReady_memOk (s : State) (c : Issue) (i : Instr) : (s.goReady c i).memOk = s.memOk := by simp [State.goReady]

@[simp] theorem addReq_memOk (s : State) (c : Issue) (f : Option (Fin 12)) (act : Act) (loc : Loc) (n : Nat) (sc : Scope) (ord : Order) (ty : RType) :
    (s.addReq c f act loc n sc ord ty).memOk = s.memOk := by
  simp [State.addReq]

@[simp] theorem holdFault_memOk (s : State) (c : Issue) (va : DWord) (k : FKind) (reason level : Nat) (need : BitVec 3) (h : s.memOk = true) :
    (s.holdFault c va k reason level need).memOk = true := by
  grind [State.holdFault, teamFault_memOk, modThreads_memOk]

@[simp] theorem reach_memOk (s : State) (c : Issue) (va : DWord) (k : Kind) (ty : RType) (h : s.memOk = true) :
    (s.reach c va k ty).2.memOk = true := by
  grind [State.reach, xteam_memOk, trapAll_memOk, holdFault_memOk, stall_memOk]

@[simp] theorem checked_memOk (s : State) (c : Issue) (tr : Option Trap) (act : State) (h : s.memOk = true) (hact : act.memOk = true) :
    (s.checked c tr act).memOk = true := by
  unfold State.checked
  split <;> simp [h, hact]

@[simp] theorem globalWord_memOk (s : State) (i : Instr) (o : MemOp) (off : DWord) (act : State → Issue → State) (h : s.memOk = true)
    (hact : ∀ s c, s.memOk = true → (act s c).memOk = true) : (s.globalWord i o off act).memOk = true := by
  refine gated_memOk i h fun s c h => ?_
  split <;> simp [h, hact]

@[simp] theorem handle_memOk (s : State) (k i : Nat) (d : Reg) (x : Word) (h : s.memOk = true) : (s.handle k i d x).memOk = true := by
  unfold State.handle
  (repeat' split) <;> simp [h]

@[simp] theorem sendLoad_memOk (s : State) (i : Instr) (c : Issue) (f : Option (Fin 12)) (d : Reg) (n : Nat) (va : DWord) (o : MemOp) (hnd : Bool)
    (h : s.memOk = true) : (s.sendLoad i c f d n va o hnd).memOk = true := by
  grind [State.sendLoad, goReady_memOk, handle_memOk, l1Acquire_memOk, modThreads_memOk, goOn_memOk, reach_memOk, addReq_memOk, awaitCheck_memOk]

@[simp] theorem toLog_memOk (s : State) (i : Instr) (c : Issue) (va : DWord) (red : Bool) (op : Byte) (data : List Byte) (o : MemOp)
    (fid : Option Nat) : (s.toLog i c va red op data o fid).memOk = s.memOk := by
  simp [State.toLog]

@[simp] theorem sendStore_memOk (s : State) (i : Instr) (c : Issue) (f : Option (Fin 12)) (va : DWord) (k : Kind) (act : Act) (op : Byte)
    (data : List Byte) (o : MemOp) (h : s.memOk = true) : (s.sendStore i c f va k act op data o).memOk = true := by
  grind [State.sendStore, toLog_memOk, xteam_memOk, trapAll_memOk, stall_memOk, awaitResource_memOk, teamFault_memOk, modThreads_memOk, goOn_memOk,
    addReq_memOk]

@[simp] theorem actStore_memOk (i : Instr) (o : MemOp) (s : State) (c : Issue) (h : s.memOk = true) : (actStore i o s c).memOk = true := by
  simp [actStore, h]

@[simp] theorem actRed_memOk (o : MemOp) (s : State) (c : Issue) (h : s.memOk = true) : (actRed o s c).memOk = true := by simp [actRed, h]
@[simp] theorem actRedc_memOk (o : MemOp) (s : State) (c : Issue) (h : s.memOk = true) : (actRedc o s c).memOk = true := by simp [actRedc, h]

@[simp] theorem sendAtomic_memOk (s : State) (i : Instr) (c : Issue) (o : MemOp) (va : DWord) (op : AOp) (data : List Byte) (h : s.memOk = true) :
    (s.sendAtomic i c o va op data).memOk = true := by
  grind [State.sendAtomic, modThreads_memOk, reach_memOk, trapAll_memOk, addReq_memOk, awaitCheck_memOk, goOn_memOk]

@[simp] theorem actAtom_memOk (o : MemOp) (s : State) (c : Issue) (h : s.memOk = true) : (actAtom o s c).memOk = true := by simp [actAtom, h]

@[simp] theorem actCas_memOk (i : Instr) (o : MemOp) (s : State) (c : Issue) (h : s.memOk = true) : (actCas i o s c).memOk = true := by
  simp [actCas, h]

@[simp] theorem startFill_memOk (s : State) (k line : Nat) (p : Place) : (s.startFill k line p).memOk = s.memOk := rfl

@[simp] theorem fillFor_memOk (s : State) (c : Issue) (u : Team) (off : Nat) (h : s.memOk = true) : (s.fillFor c u off).2.memOk = true := by
  grind [State.fillFor, xteam_memOk, startFill_memOk, trapAll_memOk, holdFault_memOk, stall_memOk]

@[simp] theorem fillNow_memOk (s : State) (c : Issue) (i : Instr) (ls : List Nat) (w : Bool) (h : s.memOk = true) :
    (s.fillNow c i ls w).2.memOk = true := by
  induction ls generalizing s w with
  | nil => unfold State.fillNow; split <;> simp [h]
  | cons l r ih =>
    unfold State.fillNow
    split
    · exact ih _ _ h
    · next t m _ =>
      have ht := xteam_memOk s t (m.va + BitVec.ofNat 64 (l - m.off)) .load .dflt h
      grind [trapAll_memOk, holdFault_memOk, stall_memOk, spoil_memOk, startFill_memOk]

@[simp] theorem sendSpad_memOk (s : State) (i : Instr) (c : Issue) (o : MemOp) (act : Act) (h : s.memOk = true) :
    (s.sendSpad i c o act).memOk = true := by
  grind [State.sendSpad, addReq_memOk, awaitCheck_memOk, goOn_memOk, fillFor_memOk]

@[simp] theorem actLds_memOk (o : MemOp) (s : State) (c : Issue) (h : s.memOk = true) : (actLds o s c).memOk = true := by simp [actLds, h]
@[simp] theorem actSts_memOk (o : MemOp) (s : State) (c : Issue) (h : s.memOk = true) : (actSts o s c).memOk = true := by simp [actSts, h]

@[simp] theorem spadAccess_memOk (s : State) (i : Instr) (o : MemOp) (act : State → Issue → State) (h : s.memOk = true)
    (hact : ∀ s c, s.memOk = true → (act s c).memOk = true) : (s.spadAccess i o act).memOk = true := by
  refine gated_memOk i h fun s c h => ?_
  split <;> simp [h, hact]

@[simp] theorem actFence_memOk (o : MemOp) (s : State) (c : Issue) : (actFence o s c).memOk = s.memOk := by simp [actFence]

@[simp] theorem cacheLines_memOk (s : State) (t : Team) (va : DWord) (n : Nat) (h : s.memOk = true) : (s.cacheLines t va n).2.memOk = true := by
  fun_induction State.cacheLines <;> grind [probe_memOk]

@[simp] theorem cacheWord_memOk (s : State) (i : Instr) (o : MemOp) (drop : Bool) (h : s.memOk = true) : (s.cacheWord i o drop).memOk = true := by
  grind [State.cacheWord, gate_memOk, stall_memOk, cacheLines_memOk, goOn_memOk, addReq_memOk]

@[simp] theorem linesTrap_memOk (s : State) (t : Team) (m : SpadMap) (xs : List Nat) (h : s.memOk = true) : (s.linesTrap t m xs).2.memOk = true := by
  fun_induction State.linesTrap <;> grind [xteam_memOk]

@[simp] theorem unmapWord_memOk (s : State) (i : Instr) (o : MemOp) (keep : Bool) (h : s.memOk = true) : (s.unmapWord i o keep).memOk = true := by
  refine gated_memOk i h fun s c h => ?_
  extract_lets off
  split
  · simp [h]
  · have hl : (match c.team.maps.find? (fun m : SpadMap => m.off == off) with
        | some m => s.linesTrap c.team m m.dirtyLines
        | none => (some none, s)).2.memOk = true := by split <;> simp [h]
    split <;> next e => simp [snd_memOk e hl]

end Sys2Proof.Machine
end

section
/-!
PROOFS. Memory stays canonical: completions, launches, engines, events and faults.
-/
namespace Sys2Proof.Machine

/-! ### Operations of Machine/Complete.lean -/

@[simp] theorem dropReq_memOk (s : State) (r : Req) : (s.dropReq r).memOk = s.memOk := rfl
@[simp] theorem endReq_memOk (s : State) (r : Req) : (s.endReq r).memOk = s.memOk := by simp [State.endReq]

@[simp] theorem leaveRelease_memOk (s : State) (k i : Nat) : (s.leaveRelease k i).memOk = s.memOk := by
  unfold State.leaveRelease
  (repeat' split) <;> simp

@[simp] theorem deferTrap_memOk (s : State) (k i n : Nat) (tr : Trap) (h : s.memOk = true) : (s.deferTrap k i n tr).memOk = true := by
  unfold State.deferTrap
  split <;> simp [h]

@[simp] theorem deferAll_memOk (s : State) (k n : Nat) (xs : List Nat) (x : Trap) (h : s.memOk = true) : (s.deferAll k n xs x).memOk = true := by
  fun_induction State.deferAll <;> simp_all

@[simp] theorem lateAll_memOk (s : State) (k n : Nat) (xs : List Nat) (x : Trap) : (s.lateAll k n xs x).memOk = s.memOk := by
  fun_induction State.lateAll <;> simp_all

@[simp] theorem failWith_memOk (s : State) (r : Req) (tr : Trap) (h : s.memOk = true) : (s.failWith r tr).memOk = true := by simp [State.failWith, h]

@[simp] theorem failReq_memOk (s : State) (r : Req) (cause : Byte) (addr : DWord) (h : s.memOk = true) : (s.failReq r cause addr).memOk = true := by
  simp [State.failReq, h]

@[simp] theorem replyTrap_memOk (s : State) (r : Req) (cause : Byte) (va : DWord) : (s.replyTrap r cause va).2.memOk = s.memOk := by
  unfold State.replyTrap
  split <;> simp

@[simp] theorem failReply_memOk (s : State) (r : Req) (cause : Byte) (va : DWord) (h : s.memOk = true) : (s.failReply r cause va).memOk = true := by
  simp [State.failReply, h]

@[simp] theorem readTag_memOk (s : State) (p : Place) (h : s.memOk = true) : (s.readTag p).2.memOk = true := by
  grind [State.readTag, freeChoice_memOk, freeWord_memOk]

@[simp] theorem noteRead_memOk (s : State) (r : Req) (va : DWord) (p : Place) (h : s.memOk = true) : (s.noteRead r va p).memOk = true := by
  grind [State.noteRead, readTag_memOk, modThreads_memOk]

@[simp] theorem readGlobal_memOk (s : State) (r : Req) (pcore : Nat) (va : DWord) (p : Place) (h : s.memOk = true) :
    (s.readGlobal r pcore va p).2.memOk = true := by
  unfold State.readGlobal
  dsimp only
  (repeat' split) <;> simp [h, spoil_memOk]

@[simp] theorem give_memOk (s : State) (r : Req) (d : Reg) (ws : List Word) : (s.give r d ws).memOk = s.memOk := by simp [State.give]

@[simp] theorem writeSpad_memOk (s : State) (k off : Nat) (bs : List Byte) : (s.writeSpad k off bs).memOk = s.memOk := by
  unfold State.writeSpad
  split <;> simp

@[simp] theorem seeNote_memOk (s : State) (k off n pcore : Nat) : (s.seeNote k off n pcore).memOk = s.memOk := by
  unfold State.seeNote
  split <;> simp

@[simp] theorem readOf_memOk (s : State) (r : Req) (t : Team) (h : s.memOk = true) : (s.readOf r t).2.memOk = true := by
  grind [State.readOf, seeNote_memOk, readGlobal_memOk, noteRead_memOk]

@[simp] theorem handleDone_memOk (s : State) (r : Req) (t : Team) (d : Reg) (bs : List Byte) (h : s.memOk = true) :
    (s.handleDone r t d bs).memOk = true := by
  simp [State.handleDone, h]

@[simp] theorem loadDone_memOk (s : State) (r : Req) (d : Reg) (hnd : Bool) (h : s.memOk = true) : (s.loadDone r d hnd).memOk = true := by
  grind [State.loadDone, endReq_memOk, give_memOk, readOf_memOk, failWith_memOk, handleDone_memOk]

@[simp] theorem execLoadComplete_ok (n : Nat) (s : State) (h : s.memOk = true) : OutOk (execLoadComplete n s) := by
  unfold execLoadComplete
  (repeat' split) <;> simp [h]

@[simp] theorem rmwOld_memOk (s : State) (r : Req) (t : Team) (p : Place) (h : s.memOk = true) : (s.rmwOld r t p).2.memOk = true := by
  unfold State.rmwOld
  split <;> simp [h, devRead_memOk]

@[simp] theorem putAt_memOk (s : State) (r : Req) (t : Team) (p : Place) (bs : List Byte) (h : s.memOk = true) : (s.putAt r t p bs).memOk = true := by
  simp [State.putAt, h]

@[simp] theorem storeDone_memOk (s : State) (r : Req) (data : List Byte) (op : Option AOp) (h : s.memOk = true) :
    (s.storeDone r data op).memOk = true := by
  unfold State.storeDone
  have hold (t : Team) (va : DWord) (p : Place) : ((s.noteRead r va p).rmwOld r t p).2.memOk = true :=
    rmwOld_memOk _ r t p (noteRead_memOk s r va p h)
  dsimp only
  (repeat' split) <;> simp [h, hold, spoil_memOk]

@[simp] theorem execStoreComplete_ok (n : Nat) (s : State) (h : s.memOk = true) : OutOk (execStoreComplete n s) := by
  unfold execStoreComplete
  (repeat' split) <;> simp [h]

@[simp] theorem atomicDone_memOk (s : State) (r : Req) (d : Reg) (op : AOp) (data : List Byte) (h : s.memOk = true) :
    (s.atomicDone r d op data).memOk = true := by
  unfold State.atomicDone
  have hold (t : Team) (va : DWord) (p : Place) : ((s.noteRead r va p).rmwOld r t p).2.memOk = true :=
    rmwOld_memOk _ r t p (noteRead_memOk s r va p h)
  dsimp only
  (repeat' split) <;> simp [h, hold, spoil_memOk]

@[simp] theorem execAtomicComplete_ok (n : Nat) (s : State) (h : s.memOk = true) : OutOk (execAtomicComplete n s) := by
  unfold execAtomicComplete
  (repeat' split) <;> simp [h]

@[simp] theorem redcDone_memOk (s : State) (r : Req) (t : Team) (va : DWord) (p : Place) (data : List Byte) (h : s.memOk = true) :
    (s.redcDone r t va p data).memOk = true := by
  simp [State.redcDone, h]

@[simp] theorem execRedcCombined_ok (n : Nat) (s : State) (h : s.memOk = true) : OutOk (execRedcCombined n s) := by
  unfold execRedcCombined
  (repeat' split) <;> simp [h]

@[simp] theorem treatLine_memOk (s : State) (pcore : Nat) (sc : Scope) (drop : Bool) (line : Nat) (h : s.memOk = true) :
    (s.treatLine pcore sc drop line).memOk = true := by
  simp [State.treatLine, h, cleanHost_memOk]

@[simp] theorem treatLines_memOk (s : State) (pcore : Nat) (sc : Scope) (drop : Bool) (xs : List (Nat × Nat)) (h : s.memOk = true) :
    (s.treatLines pcore sc drop xs).memOk = true := by
  fun_induction State.treatLines <;> simp_all

@[simp] theorem execCacheOpComplete_ok (n : Nat) (s : State) (h : s.memOk = true) : OutOk (execCacheOpComplete n s) := by
  unfold execCacheOpComplete
  (repeat' split) <;> simp [h]

@[simp] theorem execMapBound_ok (n : Nat) (s : State) (h : s.memOk = true) : OutOk (execMapBound n s) := by
  unfold execMapBound
  (repeat' split) <;> simp [h]

@[simp] theorem readLine_memOk (s : State) (pcore : Nat) (p : Place) (va : DWord) (h : s.memOk = true) : (s.readLine pcore p va).2.memOk = true := by
  grind [State.readLine, remoteRead_memOk, spoil_memOk, loadBytes_memOk]

@[simp] theorem failWaiters_memOk (s : State) (tr : Trap) (xs : List Req) (h : s.memOk = true) : (s.failWaiters tr xs).memOk = true := by
  fun_induction State.failWaiters <;> simp_all

@[simp] theorem failFill_memOk (s : State) (k line : Nat) (tr : Trap) (h : s.memOk = true) : (s.failFill k line tr).memOk = true := by
  simp [State.failFill, h]

@[simp] theorem execMapLineFill_ok (k line : Nat) (s : State) (h : s.memOk = true) : OutOk (execMapLineFill k line s) := by
  unfold execMapLineFill
  rw [outOk_next]
  split
  · exact h
  · next t _ =>
    split
    · exact h
    · split
      · exact h
      · next p _ =>
        extract_lets va
        split
        · exact h
        · split <;> next e => simp [snd_memOk e (readLine_memOk s t.pcore p va h)]

@[simp] theorem fillSync_memOk (s : State) (k off : Nat) (h : s.memOk = true) : (s.fillSync k off).memOk = true := by
  unfold State.fillSync
  (repeat' split) <;> grind [xteam_memOk, startFill_memOk, readLine_memOk, spadFill_memOk]

@[simp] theorem logRuns_memOk (s : State) (t : Team) (tid : Nat) (m : SpadMap) (base : Nat) (fid : Option Nat) (xs : List (Nat × List Byte)) :
    (s.logRuns t tid m base fid xs).memOk = s.memOk := by
  fun_induction State.logRuns <;> simp_all

@[simp] theorem storeRuns_memOk (s : State) (t : Team) (p : Place) (line : Nat) (xs : List (Nat × List Byte)) (h : s.memOk = true) :
    (s.storeRuns t p line xs).memOk = true := by
  fun_induction State.storeRuns <;> simp_all

@[simp] theorem sendRuns_memOk (s : State) (t : Team) (tid : Nat) (m : SpadMap) (base : Nat) (p : Place) (line : Nat) (xs : List (Nat × List Byte)) :
    (s.sendRuns t tid m base p line xs).memOk = s.memOk := by
  fun_induction State.sendRuns <;> simp_all

@[simp] theorem cleanBytes_memOk (s : State) (k : Nat) (xs : List Nat) : (s.cleanBytes k xs).memOk = s.memOk := rfl

@[simp] theorem backAt_memOk (s : State) (t : Team) (tid : Nat) (m : SpadMap) (base : Nat) (xs : List Nat) (l : Nat) (p : Place)
    (h : s.memOk = true) : (s.backAt t tid m base xs l p).2.memOk = true := by
  unfold State.backAt
  (repeat' split) <;> simp [h]

theorem backLine_memOk (s : State) (t : Team) (tid : Nat) (m : SpadMap) (base : Nat) (dirty : List Nat) (l : Nat) (behind : Bool)
    (x : State → XRes × State) (h : s.memOk = true) (hx : (x s).2.memOk = true) : (s.backLine t tid m base dirty l behind x).2.memOk = true := by
  unfold State.backLine
  dsimp only
  split
  · split <;> simp [h]
  · split <;> next s1 e =>
      have h1 : s1.memOk = true := snd_memOk e hx
      grind [backAt_memOk, lateTrap_memOk, teamFault_memOk, cleanBytes_memOk, logRuns_memOk]

@[simp] theorem takeKeys_memOk (s : State) (n : Nat) : (s.takeKeys n).2.memOk = s.memOk := rfl

@[simp] theorem writeBack_memOk (s : State) (t : Team) (tid : Nat) (m : SpadMap) (base : Nat) (xs : List Nat) (h : s.memOk = true) :
    (s.writeBack t tid m base xs).2.memOk = true := by
  fun_induction State.writeBack <;> grind [backLine_memOk, xteam_memOk]

@[simp] theorem fillWritten_memOk (s : State) (k off : Nat) (ls : List Nat) : (s.fillWritten k off ls).memOk = s.memOk := rfl

@[simp] theorem execMapWritebackDone_ok (n : Nat) (s : State) (h : s.memOk = true) : OutOk (execMapWritebackDone n s) := by
  unfold execMapWritebackDone
  dsimp only
  (repeat' split) <;> simp_all

@[simp] theorem dropEntry_memOk (s : State) (e : LogEntry) : (s.dropEntry e).memOk = s.memOk := rfl

@[simp] theorem wakeHeld_memOk (s : State) (k : Nat) : (s.wakeHeld k).memOk = s.memOk := by
  unfold State.wakeHeld
  split <;> simp

@[simp] theorem failEntry_memOk (s : State) (e : LogEntry) (cause : Byte) (info : Word) (h : s.memOk = true) :
    (s.failEntry e cause info).memOk = true := by
  simp [State.failEntry, h]

@[simp] theorem noteReplay_memOk (s : State) (e : LogEntry) (p : Place) (h : s.memOk = true) : (s.noteReplay e p).memOk = true := by
  grind [State.noteReplay, readTag_memOk, modThread_memOk]

@[simp] theorem replayAt_memOk (s : State) (e : LogEntry) (t : Team) (p : Place) (h : s.memOk = true) : (s.replayAt e t p).memOk = true := by
  simp [State.replayAt, h, devRead_memOk]

@[simp] theorem replaySend_memOk (s : State) (e : LogEntry) (p : Place) : (s.replaySend e p).memOk = s.memOk := rfl

@[simp] theorem execSideLogReplay_ok (n : Nat) (s : State) (h : s.memOk = true) : OutOk (execSideLogReplay n s) := by
  unfold execSideLogReplay
  rw [outOk_next]
  split
  · exact h
  · next e _ =>
    split
    · simp [h]
    · next t _ =>
      have hx := xteam_memOk s t e.va e.kind e.ty h
      split
      · exact h
      · split
        · next e => simp [snd_memOk e hx]
        · next e => exact snd_memOk e hx
        · next r l s1 e1 =>
          have hf := fun k => teamFault_memOk s1 t e.va k r l (needOf e.kind) (snd_memOk e1 hx)
          split <;> next e2 => simpa using snd_memOk e2 (hf _)
        · next e => simp [snd_memOk e hx, spoil_memOk]

/-! ### Operations of Machine/Control.lean -/

@[simp] theorem jump_memOk (s : State) (i : Instr) (f : Thread → Thread → Thread) (h : s.memOk = true) : (s.jump i f).memOk = true := by
  grind [State.jump, gate_memOk, modThreads_memOk]

@[simp] theorem branch_memOk (s : State) (i : Instr) (o : CtlOp) (p : Word → Bool) (h : s.memOk = true) : (s.branch i o p).memOk = true := by
  simp [State.branch, h]

@[simp] theorem indirect_memOk (s : State) (i : Instr) (o : CtlOp) (f : Thread → Thread) (h : s.memOk = true) : (s.indirect i o f).memOk = true := by
  grind [State.indirect, gate_memOk, trapAll_memOk, modThreads_memOk]

/-! ### Operations of Machine/Launch.lean -/

@[simp] theorem launchAsk_memOk (s : State) (who : Nat) (root va : DWord) (part : Nat) (h : s.memOk = true) :
    (s.launchAsk who root va part).memOk = true := by
  grind [State.launchAsk, hubWant_memOk, hubRead_memOk, translate_memOk, retryAt_memOk, hubSend_memOk]

@[simp] theorem writeHead'_memOk (s : State) (who : Nat) (root va : DWord) (bs : List Byte) (h : s.memOk = true) :
    (s.writeHead' who root va bs).2.memOk = true := by
  unfold State.writeHead'
  have hw := hubWrite_memOk s who root va bs (some .pkg) h
  split
  · split
    · exact h
    · split <;> next e => exact snd_memOk e hw
  · exact h

@[simp] theorem startLaunch_memOk (s : State) (who : Nat) (root va : DWord) (queue part cap quantum : Nat) (owner : Owner) (h : s.memOk = true) :
    (s.startLaunch who root va queue part cap quantum owner).2.memOk = true := by
  unfold State.startLaunch
  have hr := hubRead_memOk s who false root 256 va 256 h
  split
  · next e => exact snd_memOk e hr
  · next e =>
    have hs := snd_memOk e hr
    extract_lets r
    split
    · exact hs
    · have hw := writeHead'_memOk _ who root r.compl r.header hs
      split <;> next e => simpa using snd_memOk e hw

@[simp] theorem startChild_memOk (s : State) (n : Nat) (t : Team) (va : DWord) (tok : Word) (h : s.memOk = true) :
    (s.startChild n t va tok).memOk = true := by
  grind [State.startChild, startLaunch_memOk, resolve_memOk]

@[simp] theorem goLaunch_memOk (s : State) (n k i : Nat) (o : EngOp) (tok : Word) (h : s.memOk = true) : (s.goLaunch n k i o tok).memOk = true := by
  unfold State.goLaunch
  split <;> simp [h]

@[simp] theorem blockedAsk_memOk (s : State) (b : Blocked) (h : s.memOk = true) : (s.blockedAsk b).memOk = true := by
  unfold State.blockedAsk
  split <;> simp [h]

@[simp] theorem nextChildren_memOk (s : State) (part n : Nat) (h : s.memOk = true) : (s.nextChildren part n).memOk = true := by
  fun_induction State.nextChildren <;> simp_all

@[simp] theorem nextChild_memOk (s : State) (part : Nat) (h : s.memOk = true) : (s.nextChild part).memOk = true := by simp [State.nextChild, h]

@[simp] theorem wakeLaunches_memOk (s : State) (xs : List Nat) (h : s.memOk = true) : (s.wakeLaunches xs).memOk = true := by
  fun_induction State.wakeLaunches <;> simp_all

/-! ### Operations of Machine/Phase.lean -/

@[simp] theorem putTbar_memOk (s : State) (k off : Nat) (b : TBar) (done : Bool) : (s.putTbar k off b done).memOk = s.memOk := by simp [State.putTbar]

@[simp] theorem countSectors_memOk (s : State) (k off n : Nat) (dropped error cancelled : Bool) (h : s.memOk = true) :
    (s.countSectors k off n dropped error cancelled).memOk = true := by
  grind [State.countSectors, fillSync_memOk, putTbar_memOk]

@[simp] theorem onBarrier_memOk (s : State) (i : Instr) (c : Issue) (off size : Nat) (act : State → Issue → Nat → State) (h : s.memOk = true)
    (hact : ∀ s c n, s.memOk = true → (act s c n).memOk = true) : (s.onBarrier i c off size act).memOk = true := by
  unfold State.onBarrier
  have hf := fillNow_memOk s c i (wordLines c.team c.thr i) false h
  split
  · simp [h]
  · split <;> next e => simp [snd_memOk e hf, hact]

@[simp] theorem barWord_memOk (s : State) (i : Instr) (o : EngOp) (size : Nat) (act : State → Issue → Nat → State) (h : s.memOk = true)
    (hact : ∀ s c n, s.memOk = true → (act s c n).memOk = true) : (s.barWord i o size act).memOk = true := by
  refine gated_memOk i h fun s c h => ?_
  dsimp only
  split
  · simp [h]
  · exact onBarrier_memOk _ _ _ _ _ _ h hact

theorem tbUpdate_memOk {s t : State} {c : Issue} {off : Nat} {f : TBar → Option (TBar × Bool)} (h : s.memOk = true)
    (ht : s.tbUpdate c off f = some t) : t.memOk = true := by
  unfold State.tbUpdate at ht
  split at ht
  · cases ht
  · obtain ⟨r, -, rfl⟩ := Option.map_eq_some_iff.1 ht
    simp [h]

@[simp] theorem updateWord_memOk (s : State) (i : Instr) (o : EngOp) (f : Nat → TBar → Option (TBar × Bool)) (h : s.memOk = true) :
    (s.updateWord i o f).memOk = true := by
  refine barWord_memOk s i o 16 _ h fun s c off h => ?_
  dsimp only
  split
  · simp [h]
  · next e => simp [tbUpdate_memOk h e]

@[simp] theorem actTbarv_memOk (o : EngOp) (s : State) (c : Issue) (h : s.memOk = true) : (actTbarv o s c).memOk = true := by
  refine checked_memOk s c _ _ h (onBarrier_memOk s _ c _ 16 _ h fun s c off h => ?_)
  split
  · simp [h]
  · next e => simp [tbUpdate_memOk h e]

@[simp] theorem waitPhase_memOk (s : State) (i : Instr) (c : Issue) (d : Reg) (bar p : Nat) : (s.waitPhase i c d bar p).memOk = s.memOk := by
  unfold State.waitPhase
  split <;> simp

@[simp] theorem actCont_memOk (o : EngOp) (s : State) (c : Issue) (h : s.memOk = true) : (actCont o s c).memOk = true := by
  refine checked_memOk s c _ _ h (onBarrier_memOk s _ c _ 16 _ h fun s c off h => ?_)
  split <;> simp [h]

@[simp] theorem execContinuationSpawn_ok (k : Nat) (s : State) (h : s.memOk = true) : OutOk (execContinuationSpawn k s) := by
  unfold execContinuationSpawn
  dsimp only
  (repeat' split) <;> simp_all

@[simp] theorem execWaitaTimeout_ok (k tid : Nat) (s : State) (h : s.memOk = true) : OutOk (execWaitaTimeout k tid s) := by
  unfold execWaitaTimeout
  (repeat' split) <;> simp [h]

/-! ### Operations of Machine/Stream.lean -/

@[simp] theorem feed_memOk (s : State) (k : Nat) (f : BitVec 3) (bs : List Byte) : (s.feed k f bs).memOk = s.memOk := by
  unfold State.feed
  split <;> simp

@[simp] theorem takeStream_memOk (s : State) (k : Nat) (f : BitVec 3) (n : Nat) : (s.takeStream k f n).memOk = s.memOk := rfl

/-! ### Operations of Machine/Saiga.lean -/

@[simp] theorem touchPage_memOk (s : State) (c : Copy) (dst : Bool) (va : DWord) (h : s.memOk = true) : (s.touchPage c dst va).2.memOk = true := by
  grind [State.touchPage, translate_memOk]

@[simp] theorem touchAll_memOk (s : State) (c : Copy) (xs : List (Bool × DWord)) (ps : Table Place) (h : s.memOk = true) :
    (s.touchAll c xs ps).2.memOk = true := by
  fun_induction State.touchAll <;> grind [touchPage_memOk]

@[simp] theorem fillLines_memOk (s : State) (c : Copy) (ls : List (Nat × Nat)) (w : Bool) (h : s.memOk = true) :
    (s.fillLines c ls w).2.memOk = true := by
  induction ls generalizing s w with
  | nil => exact h
  | cons l r ih =>
    unfold State.fillLines
    split
    · exact ih _ _ h
    · next t m _ =>
      have ht := xteam_memOk s t (m.va + BitVec.ofNat 64 (l.2 - m.off)) .load .dflt h
      grind [spoil_memOk, startFill_memOk]

@[simp] theorem padBytes_memOk (s : State) (d : Desc) : (s.padBytes d).2.memOk = s.memOk := rfl

@[simp] theorem elemData_memOk (s : State) (c : Copy) (d : Desc) (ps : Table Place) (m : Nat) (h : s.memOk = true) :
    (s.elemData c d ps m).2.memOk = true := by
  grind [State.elemData, padBytes_memOk, remoteRead_memOk, spoil_memOk, devRead_memOk]

@[simp] theorem readElems_memOk (s : State) (c : Copy) (d : Desc) (ps : Table Place) (n m : Nat) (h : s.memOk = true) :
    (s.readElems c d ps n m).2.memOk = true := by
  fun_induction State.readElems <;> grind [elemData_memOk]

@[simp] theorem elemPut_memOk (s : State) (c : Copy) (d : Desc) (x : Dest) (ps : Table Place) (m j : Nat) (bs : List Byte) (h : s.memOk = true) :
    (s.elemPut c d x ps m j bs).2.memOk = true := by
  grind [State.elemPut, spadWrite_memOk, bulkSend_memOk, devWrite_memOk]

@[simp] theorem putParts_memOk (s : State) (c : Copy) (d : Desc) (x : Dest) (ps : Table Place) (m : Nat) (xs : List (Nat × List Byte))
    (h : s.memOk = true) : (s.putParts c d x ps m xs).2.memOk = true := by
  fun_induction State.putParts <;> grind [elemPut_memOk]

@[simp] theorem someOf_memOk (s : State) (early : Bool) (xs : List (Nat × List Byte)) (h : s.memOk = true) : (s.someOf early xs).2.memOk = true := by
  fun_induction State.someOf <;> grind [freeChoice_memOk]

@[simp] theorem writeElems_memOk (s : State) (c : Copy) (d : Desc) (i : Nat) (x : Dest) (ps : Table Place) (fails : Bool) (x7 : List (Nat ×
    (Byte ⊕ List Byte))) (x' : Option Byte) (h : s.memOk = true) : (s.writeElems c d i x ps fails x7 x').2.memOk = true := by
  fun_induction State.writeElems <;> grind [someOf_memOk, putParts_memOk]

@[simp] theorem reachElems_memOk (s : State) (c : Copy) (d : Desc) (x : Dest) (ms : List Nat) (h : s.memOk = true) :
    (s.reachElems c d x ms).2.memOk = true := by
  grind [State.reachElems, touchAll_memOk, fillLines_memOk]

@[simp] theorem moveRange_memOk (s : State) (c : Copy) (d : Desc) (i : Nat) (x : Dest) (m n : Nat) (h : s.memOk = true) :
    (s.moveRange c d i x m n).2.memOk = true := by
  unfold State.moveRange
  (repeat' split) <;> grind [reachElems_memOk, readElems_memOk, modCopy_memOk, feed_memOk, writeElems_memOk, clearWritten_memOk]

@[simp] theorem countDest_memOk (s : State) (c : Copy) (d : Desc) (x : Dest) (n : Nat) (dropped error cancelled : Bool) (h : s.memOk = true) :
    (s.countDest c d x n dropped error cancelled).memOk = true := by
  simp [State.countDest, h]

@[simp] theorem releaseDests_memOk (s : State) (c : Copy) (d : Desc) (error cancelled : Bool) (xs : List Dest) (h : s.memOk = true) :
    (s.releaseDests c d error cancelled xs).memOk = true := by
  fun_induction State.releaseDests <;> simp_all

@[simp] theorem stopCopy_memOk (s : State) (c : Copy) (e : Ending) (h : s.memOk = true) : (s.stopCopy c e).memOk = true := by simp [State.stopCopy, h]

@[simp] theorem advance_memOk (s : State) (c : Copy) (d : Desc) (i m : Nat) (h : s.memOk = true) : (s.advance c d i m).memOk = true := by
  unfold State.advance
  split <;> simp [h]

@[simp] theorem stallCopy_memOk (s : State) (c : Copy) (k : FKind) (need : BitVec 3) (va : DWord) (r l : Nat) (h : s.memOk = true) :
    (s.stallCopy c k need va r l).memOk = true := by
  grind [State.stallCopy, openFault_memOk, modCopy_memOk]

@[simp] theorem execSaigaPiece_ok (c i : Nat) (s : State) (h : s.memOk = true) : OutOk (execSaigaPiece c i s) := by
  unfold execSaigaPiece
  rw [outOk_next]
  split
  · exact h
  · split
    · exact h
    · extract_lets d n s1 q1
      have h1 : s1.memOk = true := by simp [s1, h]
      split
      · exact h
      · split
        · exact h
        · split <;> next e => simp [snd_memOk e (moveRange_memOk s1 q1 d i _ _ _ h1)]

@[simp] theorem execScoutProbe_ok (c : Nat) (s : State) (h : s.memOk = true) : OutOk (execScoutProbe c s) := by
  unfold execScoutProbe
  rw [outOk_next]
  split
  · exact h
  · next q _ =>
    split
    · next t dst va _ _ =>
      have ht := translate_memOk s none (pcTower q.pcore) (s.root t) va (if dst then .store else .load) .dflt h
      extract_lets seen
      split
      · exact h
      · split
        · next r l s1 e =>
          have hf := openFault_memOk s1 (s1.root t) va .scout r l (if dst then 2 else 1) (s1.grid t) t.teamid (q.pcore / 4 * 4) (snd_memOk e ht)
          split <;> next e => simpa [seen] using snd_memOk e hf
        · next e => exact snd_memOk e ht
        · next e => simpa [seen] using snd_memOk e ht
    · exact h

@[simp] theorem stopTargets_memOk (s : State) (q : Copy) (d : Desc) (xs : List Nat) (h : s.memOk = true) : (s.stopTargets q d xs).2.memOk = true := by
  fun_induction State.stopTargets <;> grind [freeWord_memOk]

@[simp] theorem finishSectors_memOk (s : State) (c : Nat) (d : Desc) (xs : List (Nat × Nat)) (h : s.memOk = true) :
    (s.finishSectors c d xs).memOk = true := by
  fun_induction State.finishSectors <;> grind [moveRange_memOk, advance_memOk]

@[simp] theorem sectorWaits_memOk (s : State) (q : Copy) (d : Desc) (e : Nat × Nat) (h : s.memOk = true) :
    ∀ t, s.sectorWaits q d e = some t → t.memOk = true := by
  grind [State.sectorWaits, reachElems_memOk]

@[simp] theorem execCopyCancelStop_ok (c : Nat) (s : State) (h : s.memOk = true) : OutOk (execCopyCancelStop c s) := by
  unfold execCopyCancelStop
  rw [outOk_next]
  split
  · exact h
  · next q _ =>
    extract_lets d
    have ht := stopTargets_memOk s q d (List.range q.dests.length) h
    split
    · exact h
    · split
      · simp [h]
      · split
        · exact h
        · split
          next ms s1 e =>
          have h1 : s1.memOk = true := snd_memOk e ht
          split
          · next e =>
            obtain ⟨x, -, hx⟩ := List.exists_of_findSome?_eq_some e
            exact sectorWaits_memOk s1 q d x h1 _ hx
          · extract_lets s2
            have h2 : s2.memOk = true := finishSectors_memOk s1 c d ms h1
            split
            · exact h2
            · simp [h2]

@[simp] theorem dropFlags_memOk (s : State) (c : Copy) (d : Desc) (xs : List Dest) (h : s.memOk = true) : (s.dropFlags c d xs).memOk = true := by
  fun_induction State.dropFlags <;> simp_all

@[simp] theorem notify_memOk (s : State) (k : Nat) (d : Desc) (h : s.memOk = true) : (s.notify k d).memOk = true := by simp [State.notify, h]

@[simp] theorem execCopyComplete_ok (c : Nat) (s : State) (h : s.memOk = true) : OutOk (execCopyComplete c s) := by
  unfold execCopyComplete
  split <;> simp [h]

@[simp] theorem actCopy_memOk (o : EngOp) (s : State) (c : Issue) (h : s.memOk = true) : (actCopy o s c).memOk = true := by
  unfold actCopy
  extract_lets off
  have hf : (if off % 64 == 0 && off + 64 ≤ s.spadSize c.team then s.fillNow c (.copy o) (wordLines c.team c.thr (.copy o)) false
    else (true, s)).2.memOk = true := by split <;> simp [h]
  split
  · next e => exact snd_memOk e hf
  · next e =>
    have hs := snd_memOk e hf
    extract_lets bs
    split <;> simp [hs]

/-! ### Operations of Machine/Oryx.lean -/

@[simp] theorem cancelMma_memOk (s : State) (m : Mma) : (s.cancelMma m).memOk = s.memOk := by simp [State.cancelMma]
@[simp] theorem setRows_memOk (s : State) (quad row n : Nat) (vals : List (Nat × Word)) : (s.setRows quad row n vals).memOk = s.memOk := rfl

@[simp] theorem setElems_memOk (s : State) (quad x : Nat) (xs : List Word) : (s.setElems quad x xs).memOk = s.memOk := by
  fun_induction State.setElems <;> simp_all

@[simp] theorem setScales_memOk (s : State) (quad e : Nat) (vals : List Word) : (s.setScales quad e vals).memOk = s.memOk := rfl
@[simp] theorem freeRows_memOk (s : State) (row n : Nat) : (s.freeRows row n).2.memOk = s.memOk := rfl
@[simp] theorem softError_memOk (s : State) (e : SoftError) : (s.softError e).memOk = s.memOk := by simp [State.softError]
@[simp] theorem startPass_memOk (s : State) (m : Mma) (t : Team) : (s.startPass m t).memOk = s.memOk := by simp [State.startPass]
@[simp] theorem failPass_memOk (s : State) (m : Mma) (t : Team) : (s.failPass m t).memOk = s.memOk := by simp [State.failPass]

@[simp] theorem execPassStart_ok (quad : BitVec 9) (s : State) (h : s.memOk = true) : OutOk (execPassStart quad s) := by
  unfold execPassStart
  dsimp only
  (repeat' split) <;> simp_all

@[simp] theorem endMma_memOk (s : State) (m : Mma) : (s.endMma m).memOk = s.memOk := by simp [State.endMma]

@[simp] theorem execPassRetire_ok (quad : BitVec 9) (s : State) (h : s.memOk = true) : OutOk (execPassRetire quad s) := by
  unfold execPassRetire
  dsimp only
  (repeat' split) <;> simp_all

@[simp] theorem accWord_memOk (s : State) (i : Instr) (o : EngOp) (trap : Issue → Option Trap) (act : State → Issue → State) (h : s.memOk = true)
    (hact : ∀ s c, s.memOk = true → (act s c).memOk = true) : (s.accWord i o trap act).memOk = true := by
  refine gated_memOk i h fun s c h => ?_
  split <;> simp [h, hact]

@[simp] theorem sendAcc_memOk (s : State) (i : Instr) (c : Issue) (o : EngOp) (a : Act) : (s.sendAcc i c o a).memOk = s.memOk := by
  simp [State.sendAcc]

@[simp] theorem reachPages_memOk (s : State) (c : Issue) (i : Instr) (store : Bool) (ty : RType) (xs : List DWord) (ps : Table Place)
    (h : s.memOk = true) : (s.reachPages c i store ty xs ps).2.memOk = true := by
  fun_induction State.reachPages <;> grind [xteam_memOk, trapAll_memOk, holdFault_memOk, stall_memOk]

@[simp] theorem tilesWord_memOk (s : State) (i : Instr) (o : EngOp) (store : Bool) (h : s.memOk = true) : (s.tilesWord i o store).memOk = true := by
  refine accWord_memOk s i o _ _ h fun s c h => ?_
  extract_lets w r stride base act
  split
  · split <;> next e => simp [snd_memOk e (fillNow_memOk s c i _ _ h)]
  · split
    · next e => exact snd_memOk e (reachPages_memOk s c i store _ _ _ h)
    · next e => split <;> simp [snd_memOk e (reachPages_memOk s c i store _ _ _ h)]

@[simp] theorem sendElems_memOk (s : State) (r : Req) (n : Nat) (data : Nat → Option (List Byte)) (es : List (Nat × DWord × Place)) :
    (s.sendElems r n data es).memOk = s.memOk :=
  rfl

@[simp] theorem readPart_memOk (s : State) (r : Req) (t : Team) (ps : Table Place) (es x : Nat) (va : DWord) (n : Nat) (h : s.memOk = true) :
    (s.readPart r t ps es x va n).2.2.memOk = true := by
  unfold State.readPart
  (repeat' split) <;> simp [h, spoil_memOk]

@[simp] theorem readParts_memOk (s : State) (r : Req) (t : Team) (ps : Table Place) (es x : Nat) (va : DWord) (xs : List (Nat × Nat))
    (h : s.memOk = true) : (s.readParts r t ps es x va xs).2.2.memOk = true := by
  fun_induction State.readParts <;> grind [readPart_memOk]

@[simp] theorem logElem_memOk (s : State) (r : Req) (x : Nat) (va : DWord) (bs : List Byte) : (s.logElem r x va bs).memOk = s.memOk := rfl

@[simp] theorem storeElems_memOk (s : State) (r : Req) (t : Team) (p : Place) (es x : Nat) (va : DWord) (xs : List (List Byte)) (h : s.memOk = true) :
    (s.storeElems r t p es x va xs).memOk = true := by
  fun_induction State.storeElems <;> grind [logElem_memOk, putAt_memOk]

@[simp] theorem writePart_memOk (s : State) (r : Req) (t : Team) (ps : Table Place) (es x : Nat) (va : DWord) (bs : List Byte) (h : s.memOk = true) :
    (s.writePart r t ps es x va bs).memOk = true := by
  unfold State.writePart
  split <;> simp [h]

@[simp] theorem writeParts_memOk (s : State) (r : Req) (t : Team) (ps : Table Place) (es x : Nat) (va : DWord) (bs : List Byte) (xs : List
    (Nat × Nat)) (h : s.memOk = true) : (s.writeParts r t ps es x va bs xs).memOk = true := by
  fun_induction State.writeParts <;> simp_all

@[simp] theorem loadRows_memOk (s : State) (r : Req) (t : Team) (stride : Nat) (w : Word) (base : DWord) (ps : Table Place) (n i : Nat)
    (h : s.memOk = true) : (s.loadRows r t stride w base ps n i).2.2.2.memOk = true := by
  fun_induction State.loadRows <;> grind [readParts_memOk]

@[simp] theorem putRows_memOk (s : State) (quad row : Nat) (xs : List (Nat × List Word)) : (s.putRows quad row xs).memOk = s.memOk := by
  fun_induction State.putRows <;> simp_all

@[simp] theorem putSome_memOk (s : State) (quad row : Nat) (xs : List (Nat × Word)) (h : s.memOk = true) : (s.putSome quad row xs).memOk = true := by
  fun_induction State.putSome <;> grind [freeChoice_memOk, setElems_memOk]

@[simp] theorem storeRows_memOk (s : State) (r : Req) (t : Team) (quad row stride : Nat) (w : Word) (base : DWord) (ps : Table Place) (n i : Nat)
    (h : s.memOk = true) : (s.storeRows r t quad row stride w base ps n i).memOk = true := by
  fun_induction State.storeRows <;> grind [spadWrite_memOk, writeParts_memOk]

@[simp] theorem accLoad_memOk (s : State) (r : Req) (t : Team) (row stride : Nat) (w : Word) (base : DWord) (ps : Table Place) (h : s.memOk = true) :
    (s.accLoad r t row stride w base ps).memOk = true := by
  grind [State.accLoad, loadRows_memOk, endReq_memOk, putRows_memOk, failReq_memOk, putSome_memOk]

@[simp] theorem accDone_memOk (s : State) (r : Req) (t : Team) (h : s.memOk = true) : (s.accDone r t).memOk = true := by
  unfold State.accDone
  (repeat' split) <;> simp [h]

@[simp] theorem execAccumOpComplete_ok (n : Nat) (s : State) (h : s.memOk = true) : OutOk (execAccumOpComplete n s) := by
  unfold execAccumOpComplete
  (repeat' split) <;> simp [h]

/-! ### Operations of Machine/Engine.lean -/

@[simp] theorem cancelFuture_memOk (s : State) (k : Nat) (tok : Word) (h : s.memOk = true) : (s.cancelFuture k tok).memOk = true := by
  unfold State.cancelFuture
  dsimp only
  (repeat' split) <;> simp_all

@[simp] theorem actLaunch_memOk (o : EngOp) (s : State) (c : Issue) (h : s.memOk = true) : (actLaunch o s c).memOk = true := by simp [actLaunch, h]

@[simp] theorem arriveWord_memOk (s : State) (i : Instr) (o : EngOp) (h : s.memOk = true) : (s.arriveWord i o).memOk = true := by
  grind [State.arriveWord, gate_memOk, trapAll_memOk, modThread_memOk, awaitRelease_memOk]

@[simp] theorem rdvWord_memOk (s : State) (i : Instr) (h : s.memOk = true) : (s.rdvWord i).memOk = true := by
  grind [State.rdvWord, gate_memOk, awaitRelease_memOk]

@[simp] theorem actPhase_memOk (s : State) (c : Issue) (i : Instr) (h : s.memOk = true) : (actPhase s c i).memOk = true := by
  unfold actPhase
  split <;> simp [h]

@[simp] theorem wakeMembers_memOk (s : State) (k : Nat) (is : List Nat) : (s.wakeMembers k is).memOk = s.memOk := by simp [State.wakeMembers]

@[simp] theorem execReleasePrereqMet_ok (k tid : Nat) (s : State) (h : s.memOk = true) : OutOk (execReleasePrereqMet k tid s) := by
  unfold execReleasePrereqMet
  dsimp only
  (repeat' split) <;> simp_all

@[simp] theorem passAcquire_memOk (s : State) (t : Team) (r : Req) (f : State → State) (h : (f s).memOk = true) :
    (s.passAcquire t r f).memOk = true := by
  simp [State.passAcquire, h]

@[simp] theorem failAcquire_memOk (s : State) (r : Req) (tr : Trap) : (s.failAcquire r tr).memOk = s.memOk := by simp [State.failAcquire]

@[simp] theorem acquireDone_memOk (s : State) (r : Req) (t : Team) (h : s.memOk = true) : (s.acquireDone r t).memOk = true := by
  unfold State.acquireDone
  (repeat' split) <;> simp [h]

@[simp] theorem fenceDone_memOk (s : State) (t : Team) (k tid : Nat) (th : Thread) (i : Instr) (sc : Scope) :
    (s.fenceDone t k tid th i sc).memOk = s.memOk := by
  unfold State.fenceDone
  (repeat' split) <;> simp

@[simp] theorem execAcquireCheckComplete_ok (k tid : Nat) (s : State) (h : s.memOk = true) : OutOk (execAcquireCheckComplete k tid s) := by
  unfold execAcquireCheckComplete
  (repeat' split) <;> simp [h]

/-! ### Operations of Machine/Events.lean -/

@[simp] theorem interrupt_memOk (s : State) (v : Nat) : (s.interrupt v).memOk = s.memOk := by simp [State.interrupt]
@[simp] theorem putEventQ_memOk (s : State) (q : EventQ) : (s.putEventQ q).memOk = s.memOk := rfl
@[simp] theorem post_memOk (s : State) (n : Nat) (bytes : List Byte) : (s.post n bytes).memOk = s.memOk := rfl
@[simp] theorem postTower_memOk (s : State) (t typ data : Nat) : (s.postTower t typ data).memOk = s.memOk := rfl
@[simp] theorem postHub_memOk (s : State) (src typ data : Nat) : (s.postHub src typ data).memOk = s.memOk := rfl

@[simp] theorem endEntry_memOk (s : State) (q e status : Nat) : (s.endEntry q e status).memOk = s.memOk := by
  unfold State.endEntry
  (repeat' split) <;> simp

@[simp] theorem execEventContextPoll_ok (e : BitVec 10) (s : State) (h : s.memOk = true) : OutOk (execEventContextPoll e s) := by
  simp [execEventContextPoll, h]

@[simp] theorem execEventRecordWrite_ok (e : BitVec 10) (s : State) (h : s.memOk = true) : OutOk (execEventRecordWrite e s) := by
  unfold execEventRecordWrite
  extract_lets q
  rw [outOk_next]
  split
  · exact h
  · split
    · exact h
    · exact hubTry_memOk s _ 16 _ h (by simp [devWrite_memOk, h])

@[simp] theorem eventDoor_memOk (s : State) (e : BitVec 10) (v : Word) : (s.eventDoor e v).memOk = s.memOk := by simp [State.eventDoor]

@[simp] theorem execEventDoorbell_ok (e : BitVec 10) (v : Word) (s : State) (h : s.memOk = true) : OutOk (execEventDoorbell e v s) := by
  simp [execEventDoorbell, h]

@[simp] theorem execEventInterruptTimer_ok (e : BitVec 10) (s : State) (h : s.memOk = true) : OutOk (execEventInterruptTimer e s) := by
  simp [execEventInterruptTimer, h]

/-! ### Operations of Machine/Faults.lean -/

@[simp] theorem sweepFaults_memOk (s : State) (h : s.memOk = true) : s.sweepFaults.memOk = true := by
  simp [State.sweepFaults, foldl_memOk, h]

@[simp] theorem execFaultRecordWrite_ok (s : State) (h : s.memOk = true) : OutOk (execFaultRecordWrite s) := by
  unfold execFaultRecordWrite
  rw [outOk_next]
  split
  · exact h
  · extract_lets at'
    split
    · exact h
    · exact hubTry_memOk s at' 32 _ h (by simp [devWrite_memOk, h])

@[simp] theorem fqDoor_memOk (s : State) (v : Word) : (s.fqDoor v).memOk = s.memOk := rfl
@[simp] theorem execFqdoorWrite_ok (v : Word) (s : State) (h : s.memOk = true) : OutOk (execFqdoorWrite v s) := by simp [execFqdoorWrite, h]

@[simp] theorem failHeld_memOk (s : State) (k : Nat) (cause : Byte) (xs : List (Nat × DWord)) (h : s.memOk = true) :
    (s.failHeld k cause xs).memOk = true := by
  fun_induction State.failHeld <;> simp_all

@[simp] theorem failTeams_memOk (s : State) (fid : Nat) (cause : Byte) (xs : List Team) (h : s.memOk = true) :
    (s.failTeams fid cause xs).memOk = true := by
  fun_induction State.failTeams <;> simp_all

@[simp] theorem failEntries_memOk (s : State) (cause : Byte) (xs : List LogEntry) (h : s.memOk = true) : (s.failEntries cause xs).memOk = true := by
  fun_induction State.failEntries <;> simp_all

@[simp] theorem failCopies_memOk (s : State) (cause : Byte) (xs : List Copy) (h : s.memOk = true) : (s.failCopies cause xs).memOk = true := by
  fun_induction State.failCopies <;> simp_all

@[simp] theorem retryWaiters_memOk (s : State) (fid : Nat) (h : s.memOk = true) : (s.retryWaiters fid).memOk = true := by
  simp [State.retryWaiters, foldl_memOk, h]

@[simp] theorem failWaitersOf_memOk (s : State) (fids : List Nat) (cause : Byte) (h : s.memOk = true) : (s.failWaitersOf fids cause).memOk = true :=
  foldl_memOk (fun s _ h => by simp [h]) _ _ (by simp [h])

@[simp] theorem failFaults_memOk (s : State) (fids : List Nat) (cause : Byte) (h : s.memOk = true) : (s.failFaults fids cause).memOk = true := by
  simp [State.failFaults, h]

@[simp] theorem answer_memOk (s : State) (fid : Nat) (a : Answer) (h : s.memOk = true) : (s.answer fid a).memOk = true := by
  unfold State.answer
  (repeat' split) <;> simp [h]

@[simp] theorem watchdog_memOk (s : State) (h : s.memOk = true) : s.watchdog.memOk = true := by
  unfold State.watchdog
  split <;> simp [h]

@[simp] theorem writeFqcfg_memOk (s : State) (v : Word) (h : s.memOk = true) : (s.writeFqcfg v).memOk = true := by simp [State.writeFqcfg, h]
@[simp] theorem execFqcfgWrite_ok (v : Word) (s : State) (h : s.memOk = true) : OutOk (execFqcfgWrite v s) := by simp [execFqcfgWrite, h]
@[simp] theorem execFreplyRetry_ok (fid : BitVec 24) (s : State) (h : s.memOk = true) : OutOk (execFreplyRetry fid s) := by simp [execFreplyRetry, h]
@[simp] theorem freply_memOk (s : State) (v : Word) (h : s.memOk = true) : (s.freply v).memOk = true := by simp [State.freply, h]

@[simp] theorem execFreplyFail_ok (fid : BitVec 24) (disp : BitVec 8) (s : State) (h : s.memOk = true) : OutOk (execFreplyFail fid disp s) := by
  simp [execFreplyFail, h]

@[simp] theorem execFaultWatchdog_ok (fid : BitVec 24) (s : State) (h : s.memOk = true) : OutOk (execFaultWatchdog fid s) := by
  unfold execFaultWatchdog
  split <;> simp [h]

@[simp] theorem invalidate_memOk (s : State) (v : Word) (ok : BitVec 2 → Bool) : (s.invalidate v ok).memOk = s.memOk := by simp [State.invalidate]

@[simp] theorem execInvalidateVaRange_ok (v : Word) (s : State) (h : s.memOk = true) : OutOk (execInvalidateVaRange v s) := by
  simp [execInvalidateVaRange, h]

@[simp] theorem execInvalidateAsid_ok (v : Word) (s : State) (h : s.memOk = true) : OutOk (execInvalidateAsid v s) := by simp [execInvalidateAsid, h]
@[simp] theorem execInvalidateAll_ok (v : Word) (s : State) (h : s.memOk = true) : OutOk (execInvalidateAll v s) := by simp [execInvalidateAll, h]
@[simp] theorem dropRemote_memOk (s : State) (c : InvCmd) : (s.dropRemote c).memOk = s.memOk := rfl

@[simp] theorem execRemoteLineDrop_ok (s : State) (h : s.memOk = true) : OutOk (execRemoteLineDrop s) := by
  unfold execRemoteLineDrop
  split <;> simp [h]

@[simp] theorem kept_memOk (m : SpadMap) (va : DWord) (s : State) (x : XRes) (h : s.memOk = true) :
    ((m.kept va s).getD (x, s)).2.memOk = true := by
  unfold SpadMap.kept
  cases m.pages.get? (va.toNat / 4096) with
  | none => exact h
  | some p =>
    simp only [Option.map_some, Option.getD_some]
    (repeat' split) <;> exact h

@[simp] theorem invLines_memOk (s : State) (t : Team) (m : SpadMap) (base : Nat) (c : InvCmd) (ls : List Nat) (h : s.memOk = true) :
    (s.invLines t m base c ls).2.memOk = true := by
  induction ls generalizing s with
  | nil => exact h
  | cons l ls ih =>
    unfold State.invLines
    extract_lets va
    split
    · exact ih s h
    · exact ih _ (backLine_memOk s t 0 m base m.dirty l false _ h (kept_memOk m va s _ h))

@[simp] theorem invMaps_memOk (s : State) (t : Team) (c : InvCmd) (xs : List SpadMap) (h : s.memOk = true) : (s.invMaps t c xs).2.memOk = true := by
  fun_induction State.invMaps <;> grind [takeKeys_memOk, invLines_memOk]

@[simp] theorem invTeams_memOk (s : State) (c : InvCmd) (xs : List Team) (h : s.memOk = true) : (s.invTeams c xs).2.memOk = true := by
  fun_induction State.invTeams <;> grind [invMaps_memOk]

@[simp] theorem dropCovered_memOk (s : State) (c : InvCmd) : (s.dropCovered c).memOk = s.memOk := rfl

@[simp] theorem execInvalidationDone_ok (s : State) (h : s.memOk = true) : OutOk (execInvalidationDone s) := by
  unfold execInvalidationDone
  rw [outOk_next]
  split
  · next c _ =>
    have ht := invTeams_memOk s c (s.teams.filter (·.placed)) h
    split
    · exact h
    · split <;> next e => simp [snd_memOk e ht]
  · exact h

@[simp] theorem execPageWalkComplete_ok (k : Nat) (va : DWord) (s : State) (h : s.memOk = true) : OutOk (execPageWalkComplete k va s) := by
  unfold execPageWalkComplete
  split <;> simp [h]

/-! ### Operations of Machine/Fetch.lean -/

@[simp] theorem fetchBytes_memOk (s : State) (t : Team) (p : Place) (n : Nat) (h : s.memOk = true) : (s.fetchBytes t p n).2.memOk = true := by
  simp [State.fetchBytes, h, pickOf_memOk, devRead_memOk]

@[simp] theorem fetch_memOk (s : State) (t : Team) (va : DWord) (h : s.memOk = true) : (s.fetch t va).2.memOk = true := by
  grind [State.fetch, xteam_memOk, remoteRead_memOk, spoil_memOk, fetchBytes_memOk]

@[simp] theorem holdFetch_memOk (s : State) (k i : Nat) (va : DWord) (r l : Nat) (h : s.memOk = true) : (s.holdFetch k i va r l).memOk = true := by
  grind [State.holdFetch, teamFault_memOk, modThread_memOk]

/-! ### Operations of Machine/Sys.lean -/

@[simp] theorem software_memOk (s : State) (i : Instr) (o : EngOp) (cause : Byte) (h : s.memOk = true) : (s.software i o cause).memOk = true := by
  grind [State.software, gate_memOk, trapAll_memOk]

@[simp] theorem badReturn_memOk (s : State) (k i : Nat) (h3 : Word) (h : s.memOk = true) : (s.badReturn k i h3).memOk = true := by
  unfold State.badReturn
  split <;> simp [h]

@[simp] theorem tret_memOk (s : State) (k i : Nat) (w : Instr) (h : s.memOk = true) : (s.tret k i w).memOk = true := by
  grind [State.tret, takeTrap_memOk, fetch_memOk, teamFault_memOk, modThread_memOk, badReturn_memOk]

@[simp] theorem execSleepExpire_ok (k tid : Nat) (s : State) (h : s.memOk = true) : OutOk (execSleepExpire k tid s) := by
  unfold execSleepExpire
  (repeat' split) <;> simp [h]

@[simp] theorem tellPage_memOk (s : State) (i : Instr) (o : EngOp) (f : State → DWord → Place → Word) (h : s.memOk = true) :
    (s.tellPage i o f).memOk = true := by
  grind [State.tellPage, gate_memOk, stall_memOk, probe_memOk, finish_memOk]

/-! ### Operations of Machine/Place.lean -/

@[simp] theorem readPred_memOk (s : State) (l : Launch) (va : DWord) (n : Nat) (h : s.memOk = true) : (s.readPred l va n).2.memOk = true := by
  grind [State.readPred, hubWant_memOk, translate_memOk, hubRead_memOk]

@[simp] theorem readWords_memOk (s : State) (l : Launch) (xs xs' : List Nat) (h : s.memOk = true) : (s.readWords l xs xs').2.memOk = true := by
  fun_induction State.readWords <;> grind [readPred_memOk]

@[simp] theorem execPredRecordPoll_ok (k : Nat) (s : State) (h : s.memOk = true) : OutOk (execPredRecordPoll k s) := by
  unfold execPredRecordPoll
  rw [outOk_next]
  split
  · exact h
  · next l _ =>
    split
    · exact h
    · have hr := readPred_memOk s l l.lrec.pred 64 h
      split
      · next e => exact snd_memOk e hr
      · next e =>
        have hs := snd_memOk e hr
        split
        · exact hs
        · simp [hs]

@[simp] theorem addEntry_memOk (s : State) (l : Launch) (w : Nat) (sums : Vector Nat 12) (h : s.memOk = true) :
    (s.addEntry l w sums).2.memOk = true := by
  grind [State.addEntry, probe_memOk]

@[simp] theorem sumEntries_memOk (s : State) (l : Launch) (xs : List Nat) (x : Vector Nat 12) (h : s.memOk = true) :
    (s.sumEntries l xs x).2.memOk = true := by
  fun_induction State.sumEntries <;> grind [hubRead_memOk, addEntry_memOk]

@[simp] theorem wantEntries_memOk (s : State) (l : Launch) (xs : List Nat) (h : s.memOk = true) : (s.wantEntries l xs).memOk = true := by
  fun_induction State.wantEntries <;> simp_all

@[simp] theorem execUnitEnterPlacement_ok (k u : Nat) (s : State) (h : s.memOk = true) : OutOk (execUnitEnterPlacement k u s) := by
  unfold execUnitEnterPlacement
  rw [outOk_next]
  split
  · exact h
  · next l _ =>
    split
    · exact h
    · extract_lets es
      have hs := sumEntries_memOk s l es (Vector.replicate 12 0) h
      split
      · simp [h]
      · split
        · simp [h]
        · next e => simpa using snd_memOk e hs

@[simp] theorem execPlacewaitExpire_ok (k u : Nat) (s : State) (h : s.memOk = true) : OutOk (execPlacewaitExpire k u s) := by
  unfold execPlacewaitExpire
  split <;> simp [h]

end Sys2Proof.Machine
end

section
/-!
PROOFS. Memory stays canonical: placement, towers, the fabric, the host and runs.
-/
namespace Sys2Proof.Machine

/-! ### Operations of Machine/Image.lean -/

@[simp] theorem fromImage_memOk (s : State) (t : Team) (r : LaunchRec) (quad : Nat) (bs : List Byte) : (s.fromImage t r quad bs).memOk = s.memOk := by
  simp [State.fromImage]

@[simp] theorem loadScales_memOk (s : State) (t : Team) (quad : Nat) : (s.loadScales t quad).memOk = s.memOk := rfl

/-! ### Operations of Machine/Sched.lean -/

@[simp] theorem execTpartWrite_ok (t : TowerId) (v : Word) (s : State) (h : s.memOk = true) : OutOk (execTpartWrite t v s) := by
  simp [execTpartWrite, h]

@[simp] theorem zeroRows_memOk (s : State) (quad row n : Nat) : (s.zeroRows quad row n).memOk = s.memOk := rfl
@[simp] theorem putTeam_memOk (s : State) (t : Team) : (s.putTeam t).memOk = s.memOk := rfl

@[simp] theorem startTeams_memOk (s : State) (l : Launch) (xs : List Start) (h : s.memOk = true) : (s.startTeams l xs).memOk = true := by
  fun_induction State.startTeams <;> grind [zeroRows_memOk, putTeam_memOk, l1Drop_memOk]

@[simp] theorem execTeamPlace_ok (k u : Nat) (s : State) (h : s.memOk = true) : OutOk (execTeamPlace k u s) := by
  unfold execTeamPlace
  (repeat' split) <;> simp [h]

@[simp] theorem failThread_memOk (s : State) (k i : Nat) (asid : BitVec 12) (h : s.memOk = true) : (s.failThread k i asid).memOk = true := by
  unfold State.failThread
  (repeat' split) <;> simp [h]

@[simp] theorem deliverFails_memOk (s : State) (k : Nat) (asid : BitVec 12) (h : s.memOk = true) : (s.deliverFails k asid).memOk = true := by
  unfold State.deliverFails
  extract_lets es s1 cs s2
  have h1 : s1.memOk = true := foldl_memOk (fun s e h => by simp [h]) s es h
  have h2 : s2.memOk = true := foldl_memOk (fun s e h => by simp [h]) s1 cs h1
  split
  · exact h2
  · exact foldl_memOk (fun s i h => by simp [h]) _ _ h2

@[simp] theorem rejoin_memOk (s : State) (k : Nat) (asid : BitVec 12) : (s.rejoin k asid).memOk = s.memOk := by simp [State.rejoin]

@[simp] theorem takeSlots_memOk (s : State) (p : Nat) (cs : List Nat) (h : s.memOk = true) : (s.takeSlots p cs).memOk = true := by
  induction cs generalizing s with
  | nil => exact h
  | cons c cs ih => exact ih _ h

@[simp] theorem seatCopies_memOk (s : State) (k p : Nat) (h : s.memOk = true) : (s.seatCopies k p).memOk = true := by simp [State.seatCopies, h]
@[simp] theorem acceptAgain_memOk (s : State) (k quad : Nat) : (s.acceptAgain k quad).memOk = s.memOk := rfl

@[simp] theorem slotPatch_memOk (s : State) (l : Launch) (t : Team) (i : Nat) (old new : Thread) (h : s.memOk = true) :
    (s.slotPatch l t i old new).memOk = true := by
  unfold State.slotPatch
  split
  · exact h
  · exact hubWrite_memOk _ _ _ _ _ _ (foldl_memOk (fun s _ h => hubWrite_memOk s _ _ _ _ _ h) _ _ h)

@[simp] theorem slotPatches_memOk (s : State) (l : Launch) (t : Team) (n : Nat) (xs : List (Thread × Thread)) (h : s.memOk = true) :
    (s.slotPatches l t n xs).memOk = true := by
  fun_induction State.slotPatches <;> simp_all

@[simp] theorem restoreTeam_memOk (s : State) (l : Launch) (t : Team) (p : Nat) (h : s.memOk = true) : (s.restoreTeam l t p).memOk = true := by
  grind [State.restoreTeam, hubRead_memOk, fromImage_memOk, zeroRows_memOk, slotPatches_memOk, loadScales_memOk, acceptAgain_memOk, seatCopies_memOk,
    putTeam_memOk, l1Drop_memOk]

@[simp] theorem restoreTeams_memOk (s : State) (l : Launch) (xs : List (Team × Nat × Nat)) (h : s.memOk = true) :
    (s.restoreTeams l xs).memOk = true := by
  fun_induction State.restoreTeams <;> simp_all

@[simp] theorem readMail_memOk (s : State) (asid : BitVec 12) (xs : List Nat) (h : s.memOk = true) : (s.readMail asid xs).memOk = true := by
  fun_induction State.readMail <;> simp_all

@[simp] theorem slotsWant_memOk (s : State) (l : Launch) (xs : List Team) (h : s.memOk = true) : (s.slotsWant l xs).memOk = true := by
  fun_induction State.slotsWant <;> simp_all

@[simp] theorem slotsRetry_memOk (s : State) (l : Launch) (xs : List Team) (h : s.memOk = true) : (s.slotsRetry l xs).memOk = true := by
  fun_induction State.slotsRetry <;> simp_all

@[simp] theorem execTeamRestore_ok (k : Nat) (s : State) (h : s.memOk = true) : OutOk (execTeamRestore k s) := by
  unfold execTeamRestore
  rw [outOk_next]
  split
  · exact h
  · split
    · exact h
    · next l _ =>
      extract_lets u
      split
      · exact h
      · split
        · exact h
        · next place _ =>
          have hr := restoreTeams_memOk s l ((s.unitMembers l u).zip place) h
          split
          · simp [h]
          · apply nextChild_memOk
            apply sweepFaults_memOk
            exact readMail_memOk _ _ _ hr

@[simp] theorem beginSave_memOk (s : State) (ks : List Nat) : (s.beginSave ks).memOk = s.memOk := rfl

@[simp] theorem execPreemptPriority_ok (k u : Nat) (s : State) (h : s.memOk = true) : OutOk (execPreemptPriority k u s) := by
  unfold execPreemptPriority
  dsimp only
  (repeat' split) <;> simp_all

@[simp] theorem execTimeSliceExpire_ok (k u : Nat) (s : State) (h : s.memOk = true) : OutOk (execTimeSliceExpire k u s) := by
  unfold execTimeSliceExpire
  (repeat' split) <;> simp [h]

@[simp] theorem backMaps_memOk (s : State) (t : Team) (xs : List SpadMap) (h : s.memOk = true) : (s.backMaps t xs).2.memOk = true := by
  fun_induction State.backMaps <;> grind [takeKeys_memOk, writeBack_memOk]

@[simp] theorem backAll_memOk (s : State) (xs : List Team) (h : s.memOk = true) : (s.backAll xs).2.memOk = true := by
  fun_induction State.backAll <;> grind [backMaps_memOk]

@[simp] theorem dropAwaited_memOk (s : State) (xs : List Req) : (s.dropAwaited xs).memOk = s.memOk := by fun_induction State.dropAwaited <;> simp_all

@[simp] theorem saveTeam_memOk (s : State) (l : Launch) (k : Nat) (h : s.memOk = true) : (s.saveTeam l k).memOk = true := by
  unfold State.saveTeam
  split <;> simp [h]

@[simp] theorem saveTeams_memOk (s : State) (l : Launch) (xs : List Nat) (h : s.memOk = true) : (s.saveTeams l xs).memOk = true := by
  fun_induction State.saveTeams <;> simp_all

@[simp] theorem discard_memOk (s : State) (ks : List Nat) (h : s.memOk = true) : (s.discard ks).memOk = true := by simp [State.discard, h]

@[simp] theorem execTeamSaveComplete_ok (k : Nat) (s : State) (h : s.memOk = true) : OutOk (execTeamSaveComplete k s) := by
  unfold execTeamSaveComplete
  (repeat' split) <;> simp [h]

@[simp] theorem recWrite_memOk (s : State) (l : Launch) (off : Nat) (bs : List Byte) (sc : Scope) (h : s.memOk = true) :
    (s.recWrite l off bs sc).memOk = true := by
  grind [State.recWrite, hubWrite_memOk, modLaunch_memOk]

@[simp] theorem slotDeliver_memOk (s : State) (l : Launch) (t : Team) (tok st : Word) (i : Nat) (h : s.memOk = true) :
    (s.slotDeliver l t tok st i).memOk = true := by
  unfold State.slotDeliver
  split <;> simp [h]

@[simp] theorem resolveLaunch_memOk (s : State) (k : Nat) (tok st : Word) (h : s.memOk = true) : (s.resolveLaunch k tok st).memOk = true := by
  unfold State.resolveLaunch
  simp only [resolve_memOk]
  split
  · exact h
  · split
    · exact foldl_memOk (fun s i h => by simp [h]) _ _ h
    · exact h

@[simp] theorem endLaunch_memOk (s : State) (l : Launch) (h : s.memOk = true) : (s.endLaunch l).memOk = true := by
  unfold State.endLaunch
  (repeat' split) <;> simp [h]

@[simp] theorem recGo_memOk (s : State) (k fuel : Nat) (h : s.memOk = true) : (s.recGo k fuel).memOk = true := by
  fun_induction State.recGo <;> simp_all

@[simp] theorem recAll_memOk (s : State) (xs : List Launch) (h : s.memOk = true) : (s.recAll xs).memOk = true := by
  fun_induction State.recAll <;> simp_all

@[simp] theorem wordRetry_memOk (s : State) (l : Launch) (t : Team) (h : s.memOk = true) : (s.wordRetry l t).memOk = true := by
  simp [State.wordRetry, h]

@[simp] theorem writeWord_memOk (s : State) (l : Launch) (t : Team) (h : s.memOk = true) : (s.writeWord l t).memOk = true := by
  simp [State.writeWord, h]

@[simp] theorem execTeamComplete_ok (k : Nat) (s : State) (h : s.memOk = true) : OutOk (execTeamComplete k s) := by
  unfold execTeamComplete
  dsimp only
  (repeat' split) <;> simp_all

/-! ### Operations of Machine/Tower.lean -/

@[simp] theorem extendLog_memOk (s : State) (event tower bank row : Nat) : (s.extendLog event tower bank row).memOk = s.memOk := by
  simp [State.extendLog]

@[simp] theorem MemSys_wipe_bytes (m : MemSys) (lo hi : Nat) (h : Memory.wf m.bytes = true) : Memory.wf (m.wipe lo hi).bytes = true :=
  Memory.wf_filter _ _ h

@[simp] theorem drain_memOk (s : State) (t : Nat) : (s.drain t).memOk = s.memOk := rfl

@[simp] theorem roleCmd_memOk (s : State) (t : Nat) (v : Word) (h : s.memOk = true) : (s.roleCmd t v).memOk = true := by
  grind [State.roleCmd, modTower_memOk, drain_memOk]

@[simp] theorem execRoleCmdGo_ok (t : TowerId) (v : Word) (s : State) (h : s.memOk = true) : OutOk (execRoleCmdGo t v s) := by simp [execRoleCmdGo, h]
@[simp] theorem execRoleDrainDone_ok (t : TowerId) (s : State) (h : s.memOk = true) : OutOk (execRoleDrainDone t s) := by simp [execRoleDrainDone, h]
@[simp] theorem emptyL1_memOk (s : State) (t : Nat) (f : Nat → Bool) : (s.emptyL1 t f).memOk = s.memOk := rfl

@[simp] theorem flipSlices_memOk (s : State) (t : Nat) (xs : List Nat) (h : s.memOk = true) : (s.flipSlices t xs).memOk = true := by
  fun_induction State.flipSlices <;> simp_all

@[simp] theorem flushL2_memOk (s : State) (t : Nat) : (s.flushL2 t).memOk = s.memOk := by simp [State.flushL2]
@[simp] theorem execRoleFlushDone_ok (t : TowerId) (s : State) (h : s.memOk = true) : OutOk (execRoleFlushDone t s) := by simp [execRoleFlushDone, h]

@[simp] theorem execRoleReenumerate_ok (t : TowerId) (s : State) (h : s.memOk = true) : OutOk (execRoleReenumerate t s) := by
  simp [execRoleReenumerate, h]

@[simp] theorem execTahrEvaluate_ok (t : TowerId) (td tj : Nat) (s : State) (h : s.memOk = true) : OutOk (execTahrEvaluate t td tj s) := by
  simp [execTahrEvaluate, h]

@[simp] theorem execTahrApply_ok (t : TowerId) (s : State) (h : s.memOk = true) : OutOk (execTahrApply t s) := by
  unfold execTahrApply
  split <;> simp [h]

@[simp] theorem execThcntTick_ok (t : TowerId) (s : State) (h : s.memOk = true) : OutOk (execThcntTick t s) := by simp [execThcntTick, h]
@[simp] theorem MemSys_afterReset_bytes (m : MemSys) (h : Memory.wf m.bytes = true) : Memory.wf m.afterReset.bytes = true := Memory.wf_filter _ _ h
@[simp] theorem execModuleReset_ok (s : State) (h : s.memOk = true) : OutOk (execModuleReset s) := by simp [execModuleReset, h]

/-! ### Operations of Machine/TowerMem.lean -/

@[simp] theorem writeChash_memOk (s : State) (t : Nat) (v : Word) : (s.writeChash t v).memOk = s.memOk := by simp [State.writeChash]

@[simp] theorem execChashWrite_ok (t : TowerId) (v : Word) (s : State) (h : s.memOk = true) : OutOk (execChashWrite t v s) := by
  simp [execChashWrite, h]

@[simp] theorem setQuiesce_memOk (s : State) (t : Nat) : (s.setQuiesce t).memOk = s.memOk := by simp [State.setQuiesce]

@[simp] theorem execMemctlQuiesceSet_ok (t : TowerId) (s : State) (h : s.memOk = true) : OutOk (execMemctlQuiesceSet t s) := by
  simp [execMemctlQuiesceSet, h]

@[simp] theorem execQuiesceComplete_ok (t : TowerId) (s : State) (h : s.memOk = true) : OutOk (execQuiesceComplete t s) := by
  simp [execQuiesceComplete, h]

@[simp] theorem clearQuiesce_memOk (s : State) (t : Nat) : (s.clearQuiesce t).memOk = s.memOk := by simp [State.clearQuiesce]

@[simp] theorem execMemctlQuiesceClear_ok (t : TowerId) (s : State) (h : s.memOk = true) : OutOk (execMemctlQuiesceClear t s) := by
  simp [execMemctlQuiesceClear, h]

@[simp] theorem execDramZeroingDone_ok (t : TowerId) (s : State) (h : s.memOk = true) : OutOk (execDramZeroingDone t s) := by
  simp [execDramZeroingDone, h]

@[simp] theorem execRowRefresh_ok (t : TowerId) (bank : BitVec 10) (row : Nat) (s : State) (h : s.memOk = true) :
    OutOk (execRowRefresh t bank row s) := by
  simp [execRowRefresh, h]

@[simp] theorem execRefreshRetryReissue_ok (n : Nat) (s : State) (h : s.memOk = true) : OutOk (execRefreshRetryReissue n s) := by
  unfold execRefreshRetryReissue
  (repeat' split) <;> simp [h]

@[simp] theorem condemn_memOk (s : State) (t bank row : Nat) : (s.condemn t bank row).memOk = s.memOk := by simp [State.condemn]
@[simp] theorem repairRow_memOk (s : State) (t bank row : Nat) : (s.repairRow t bank row).memOk = s.memOk := by simp [State.repairRow]
@[simp] theorem correct_memOk (s : State) (t bank row : Nat) : (s.correct t bank row).memOk = s.memOk := by simp [State.correct]

@[simp] theorem execPatrolScrub_ok (t : TowerId) (bank : BitVec 10) (row : Nat) (found : Scrub) (s : State) (h : s.memOk = true) :
    OutOk (execPatrolScrub t bank row found s) := by
  unfold execPatrolScrub
  split <;> simp [h]

@[simp] theorem failTower_memOk (s : State) (t bank row : Nat) (h : s.memOk = true) : (s.failTower t bank row).memOk = true := by
  simp [State.failTower, h]

@[simp] theorem execRemapMissFill_ok (t : TowerId) (bank : BitVec 10) (row : Nat) (aOk bOk : Bool) (s : State) (h : s.memOk = true) :
    OutOk (execRemapMissFill t bank row aOk bOk s) := by
  unfold execRemapMissFill
  dsimp only
  (repeat' split) <;> simp_all

@[simp] theorem execTsvDriftDetect_ok (t : TowerId) (i : Fin 5) (s : State) (h : s.memOk = true) : OutOk (execTsvDriftDetect t i s) := by
  simp [execTsvDriftDetect, h]

@[simp] theorem execTsvRealignStart_ok (t : TowerId) (i : Fin 5) (s : State) (h : s.memOk = true) : OutOk (execTsvRealignStart t i s) := by
  simp [execTsvRealignStart, h]

@[simp] theorem execTsvRealignEnd_ok (t : TowerId) (i : Fin 5) (s : State) (h : s.memOk = true) : OutOk (execTsvRealignEnd t i s) := by
  simp [execTsvRealignEnd, h]

@[simp] theorem lockNow_memOk (s : State) : s.lockNow.memOk = s.memOk := by simp [State.lockNow]
@[simp] theorem execMsecctlLock_ok (s : State) (h : s.memOk = true) : OutOk (execMsecctlLock s) := by simp [execMsecctlLock, h]
@[simp] theorem unlockNow_memOk (s : State) : s.unlockNow.memOk = s.memOk := by simp [State.unlockNow]
@[simp] theorem execMsecctlUnlock_ok (s : State) (h : s.memOk = true) : OutOk (execMsecctlUnlock s) := by simp [execMsecctlUnlock, h]
@[simp] theorem recallKeys_memOk (s : State) (f : Nat → Bool) (h : s.memOk = true) : (s.recallKeys f).memOk = true := by simp [State.recallKeys, h]

@[simp] theorem execUnlockWritebackDone_ok (s : State) (h : s.memOk = true) : OutOk (execUnlockWritebackDone s) := by
  simp [execUnlockWritebackDone, h]

@[simp] theorem writeKeypol_memOk (s : State) (i : BitVec 6) (v : Word) : (s.writeKeypol i v).memOk = s.memOk := by simp [State.writeKeypol]

@[simp] theorem execKeypolWrite_ok (i : BitVec 6) (v : Word) (s : State) (h : s.memOk = true) : OutOk (execKeypolWrite i v s) := by
  simp [execKeypolWrite, h]

/-! ### Operations of Machine/Fabric.lean -/

@[simp] theorem enqueue_memOk (s : State) (p : Peer) (r : Req) : (s.enqueue p r).memOk = s.memOk := by
  unfold State.enqueue
  split <;> simp

@[simp] theorem enqueueHub_memOk (s : State) (p : Peer) (cs : List (Nat × Cell)) : (s.enqueueHub p cs).memOk = s.memOk := rfl

@[simp] theorem fillQueue_memOk (s : State) (n : BitVec 12) (fuel : Nat) : (s.fillQueue n fuel).memOk = s.memOk := by
  fun_induction State.fillQueue <;> simp_all

@[simp] theorem emit_memOk (s : State) (p : Peer) (c : Cell) : (s.emit p c).memOk = s.memOk := rfl

@[simp] theorem sendCell_memOk (s : State) (n : BitVec 12) (h : s.memOk = true) : (s.sendCell n).memOk = true := by
  grind [State.sendCell, emit_memOk, putPair_memOk]

@[simp] theorem execSyncSlot_ok (j : Nat) (s : State) (h : s.memOk = true) : OutOk (execSyncSlot j s) := by
  unfold execSyncSlot
  dsimp only
  (repeat' split) <;> simp_all

@[simp] theorem putRuns_memOk (s : State) (xs : List (Nat × List Byte)) (h : s.memOk = true) : (s.putRuns xs).memOk = true := by
  fun_induction State.putRuns <;> simp_all [devWrite_memOk]

@[simp] theorem putBytes_memOk (s : State) (xs : List (Nat × Byte)) (h : s.memOk = true) : (s.putBytes xs).memOk = true := by simp [State.putBytes, h]
@[simp] theorem replyTo_memOk (s : State) (c : Cell) (status : Byte) (data : List Byte) : (s.replyTo c status data).memOk = s.memOk := rfl

@[simp] theorem peerLoad_memOk (s : State) (c : Cell) (acq : Bool) (h : s.memOk = true) : (s.peerLoad c acq).memOk = true := by
  grind [State.peerLoad, replyTo_memOk, spoil_memOk, devRead_memOk]

@[simp] theorem peerTag_memOk (s : State) (pa : Nat) (rel : Bool) (sc : Scope) (src : BitVec 12) : (s.peerTag pa rel sc src).memOk = s.memOk := by
  simp [State.peerTag]

@[simp] theorem peerStore_memOk (s : State) (c : Cell) (rel : Bool) (h : s.memOk = true) : (s.peerStore c rel).memOk = true := by
  unfold State.peerStore
  (repeat' split) <;> simp [h]

@[simp] theorem peerOp_memOk (s : State) (c : Cell) (h : s.memOk = true) : (s.peerOp c).memOk = true := by
  grind [State.peerOp, replyTo_memOk, spoil_memOk, devRead_memOk, peerTag_memOk, devWrite_memOk]

@[simp] theorem peerShoot_memOk (s : State) (c : Cell) : (s.peerShoot c).memOk = s.memOk := by simp [State.peerShoot]
@[simp] theorem answerAsk_memOk (s : State) (a : HubAsk) (c : Cell) : (s.answerAsk a c).memOk = s.memOk := rfl

@[simp] theorem takeReply_memOk (s : State) (c : Cell) (h : s.memOk = true) : (s.takeReply c).memOk = true := by
  unfold State.takeReply
  dsimp only
  (repeat' split) <;> simp_all

@[simp] theorem perform_memOk (s : State) (c : Cell) (h : s.memOk = true) : (s.perform c).memOk = true := by
  unfold State.perform
  split <;> simp [h]

@[simp] theorem arrive_memOk (s : State) (c : Cell) (h : s.memOk = true) : (s.arrive c).memOk = true := by simp [State.arrive, h]

@[simp] theorem drainCells_memOk (s : State) (src : BitVec 12) (fuel : Nat) (h : s.memOk = true) : (s.drainCells src fuel).memOk = true := by
  fun_induction State.drainCells <;> simp_all

@[simp] theorem goWaiting_memOk (s : State) (src : BitVec 12) (kind : Cell → Bool) (h : s.memOk = true) : (s.goWaiting src kind).memOk = true := by
  grind [State.goWaiting, drainCells_memOk]

@[simp] theorem arriveAs_memOk (s : State) (types : List Nat) (c : Cell) (h : s.memOk = true) : (s.arriveAs types c).memOk = true := by
  simp [State.arriveAs, h]

@[simp] theorem execFabEmptyCell_ok (c : Cell) (s : State) (h : s.memOk = true) : OutOk (execFabEmptyCell c s) := by simp [execFabEmptyCell, h]
@[simp] theorem execFabLoadCell_ok (c : Cell) (s : State) (h : s.memOk = true) : OutOk (execFabLoadCell c s) := by simp [execFabLoadCell, h]

@[simp] theorem execFabAcquireLoadCell_ok (c : Cell) (s : State) (h : s.memOk = true) : OutOk (execFabAcquireLoadCell c s) := by
  simp [execFabAcquireLoadCell, h]

@[simp] theorem execFabStoreCell_ok (c : Cell) (s : State) (h : s.memOk = true) : OutOk (execFabStoreCell c s) := by simp [execFabStoreCell, h]
@[simp] theorem execFabReleaseCell_ok (c : Cell) (s : State) (h : s.memOk = true) : OutOk (execFabReleaseCell c s) := by simp [execFabReleaseCell, h]

@[simp] theorem execFabOperationPacket_ok (c : Cell) (s : State) (h : s.memOk = true) : OutOk (execFabOperationPacket c s) := by
  simp [execFabOperationPacket, h]

@[simp] theorem execFabReplyCell_ok (c : Cell) (s : State) (h : s.memOk = true) : OutOk (execFabReplyCell c s) := by simp [execFabReplyCell, h]

@[simp] theorem execFabShootdownCell_ok (c : Cell) (s : State) (h : s.memOk = true) : OutOk (execFabShootdownCell c s) := by
  simp [execFabShootdownCell, h]

@[simp] theorem execFabReservedCell_ok (c : Cell) (s : State) (h : s.memOk = true) : OutOk (execFabReservedCell c s) := by
  simp [execFabReservedCell, h]

@[simp] theorem execFabReleaseApply_ok (src : BitVec 12) (s : State) (h : s.memOk = true) : OutOk (execFabReleaseApply src s) := by
  simp [execFabReleaseApply, h]

@[simp] theorem execFabRequestResume_ok (src : BitVec 12) (s : State) (h : s.memOk = true) : OutOk (execFabRequestResume src s) := by
  simp [execFabRequestResume, h]

@[simp] theorem execBulkPacketArrive_ok (b : Bulk) (s : State) (h : s.memOk = true) : OutOk (execBulkPacketArrive b s) := by
  simp [execBulkPacketArrive, h]

@[simp] theorem execFabEpochLock_ok (flat : BitVec 16) (s : State) (h : s.memOk = true) : OutOk (execFabEpochLock flat s) := by
  simp [execFabEpochLock, h]

@[simp] theorem execFabEpochLoss_ok (s : State) (h : s.memOk = true) : OutOk (execFabEpochLoss s) := by simp [execFabEpochLoss, h]
@[simp] theorem execFabLinkDown_ok (p : BitVec 6) (s : State) (h : s.memOk = true) : OutOk (execFabLinkDown p s) := by simp [execFabLinkDown, h]
@[simp] theorem writeFabcfg_memOk (s : State) (v : Word) : (s.writeFabcfg v).memOk = s.memOk := by simp [State.writeFabcfg]
@[simp] theorem execFabcfgWrite_ok (v : Word) (s : State) (h : s.memOk = true) : OutOk (execFabcfgWrite v s) := by simp [execFabcfgWrite, h]
@[simp] theorem writeFardec_memOk (s : State) (n : Fin 4) (v : Word) : (s.writeFardec n v).memOk = s.memOk := rfl

@[simp] theorem execFardecWrite_ok (n : Fin 4) (v : Word) (s : State) (h : s.memOk = true) : OutOk (execFardecWrite n v s) := by
  simp [execFardecWrite, h]

@[simp] theorem postFar_memOk (s : State) (port cause : Nat) : (s.postFar port cause).memOk = s.memOk := rfl

@[simp] theorem timeOut_memOk (s : State) (r : Req) (hit : Place → Bool) (h : s.memOk = true) : ∀ t, s.timeOut r hit = some t → t.1.memOk = true := by
  unfold State.timeOut
  split <;> simp [h]

theorem loseTile_memOk {s t : State} {r : Req} {hit : Place → Bool} (h : s.memOk = true) (ht : s.loseTile r hit = some t) : t.memOk = true := by
  unfold State.loseTile at ht
  split at ht
  · obtain ⟨r, -, rfl⟩ := Option.map_eq_some_iff.1 ht
    exact h
  · cases ht

@[simp] theorem execFarTierTimeout_ok (n : Nat) (s : State) (h : s.memOk = true) : OutOk (execFarTierTimeout n s) := by
  unfold execFarTierTimeout
  rw [outOk_next]
  split
  · next r _ =>
    cases hl : s.loseTile r fun p => (s.portOf p).isSome with
    | some t => exact loseTile_memOk h hl
    | none =>
      rw [Option.getD_none]
      split
      · next e => simpa using timeOut_memOk s r _ h _ e
      · exact h
  · split <;> simp [h]
  · exact h

@[simp] theorem execFarTierLinkDown_ok (p : Fin 4) (s : State) (h : s.memOk = true) : OutOk (execFarTierLinkDown p s) := by
  simp [execFarTierLinkDown, h]

/-! ### Operations of Machine/Host.lean -/

@[simp] theorem meetLine_memOk (s : State) (line : Nat) : (s.meetLine line).memOk = s.memOk := by simp [State.meetLine]
@[simp] theorem meetLines_memOk (s : State) (xs : List Nat) : (s.meetLines xs).memOk = s.memOk := by fun_induction State.meetLines <;> simp_all
@[simp] theorem tell_memOk (s : State) (m : HostMsg) : (s.tell m).memOk = s.memOk := rfl

@[simp] theorem hostSectors_memOk (s : State) (k fuel n n' : Nat) (h : s.memOk = true) : (s.hostSectors k fuel n n').memOk = true := by
  fun_induction State.hostSectors <;> grind [tell_memOk, spoil_memOk]

@[simp] theorem giveHost_memOk (s : State) (ls : List Nat) : (s.giveHost ls).memOk = s.memOk := rfl

@[simp] theorem execHostCxlMemRead_ok (off : BitVec 40) (n : Nat) (s : State) (h : s.memOk = true) : OutOk (execHostCxlMemRead off n s) := by
  unfold execHostCxlMemRead
  (repeat' split) <;> simp [h]

@[simp] theorem openLine_memOk (s : State) (k line : Nat) : (s.openLine k line).memOk = s.memOk := by simp [State.openLine]

@[simp] theorem hostByte_memOk (s : State) (k a : Nat) (b : Byte) (h : s.memOk = true) : (s.hostByte k a b).memOk = true := by
  unfold State.hostByte
  dsimp only
  split
  · exact h
  · apply writeByte_memOk
    split <;> exact h

@[simp] theorem hostBytes_memOk (s : State) (k a : Nat) (xs : List Byte) (h : s.memOk = true) : (s.hostBytes k a xs).memOk = true := by
  fun_induction State.hostBytes <;> simp_all

@[simp] theorem openLines_memOk (s : State) (k : Nat) (xs : List Nat) : (s.openLines k xs).memOk = s.memOk := by
  fun_induction State.openLines <;> simp_all

@[simp] theorem dropL1_memOk (s : State) (ls : List Nat) : (s.dropL1 ls).memOk = s.memOk := rfl

@[simp] theorem hostWrite_memOk (s : State) (k pa : Nat) (d : List Byte) (h : s.memOk = true) : (s.hostWrite k pa d).memOk = true := by
  simp [State.hostWrite, h, notePast_memOk]

@[simp] theorem tagLines_memOk (s : State) (tg : Tag) (xs : List Nat) : (s.tagLines tg xs).memOk = s.memOk := by
  fun_induction State.tagLines <;> simp_all

@[simp] theorem execHostCxlMemWrite_ok (off : BitVec 40) (d : List Byte) (s : State) (h : s.memOk = true) : OutOk (execHostCxlMemWrite off d s) := by
  unfold execHostCxlMemWrite
  (repeat' split) <;> simp [h]

@[simp] theorem execHostSnoop_ok (line : Nat) (drop : Bool) (s : State) (h : s.memOk = true) : OutOk (execHostSnoop line drop s) := by
  simp [execHostSnoop, h, cleanHost_memOk]

@[simp] theorem hostBack_memOk (s : State) (line : Nat) (d : List Byte) (h : s.memOk = true) : (s.hostBack line d).memOk = true := by
  simp [State.hostBack, h, fromHost_memOk]

@[simp] theorem execHostCompletionTimeout_ok (n : Nat) (s : State) (h : s.memOk = true) : OutOk (execHostCompletionTimeout n s) := by
  unfold execHostCompletionTimeout
  rw [outOk_next]
  split
  · exact h
  · next r _ =>
    split
    · cases hl : s.loseTile r fun p => p.node.isNone && paRegion p.pa == 0xE with
      | some t => exact loseTile_memOk h hl
      | none =>
        rw [Option.getD_none]
        split
        · next e => exact timeOut_memOk s r _ h _ e
        · exact h
    · exact h

@[simp] theorem hostRefuse_memOk (s : State) (n : Nat) (h : s.memOk = true) : (s.hostRefuse n).memOk = true := by
  unfold State.hostRefuse
  (repeat' split) <;> simp [h]

@[simp] theorem writeHqctl_memOk (s : State) (v : Word) : (s.writeHqctl v).memOk = s.memOk := by simp [State.writeHqctl]
@[simp] theorem execHqctlWrite_ok (v : Word) (s : State) (h : s.memOk = true) : OutOk (execHqctlWrite v s) := by simp [execHqctlWrite, h]
@[simp] theorem putQueue_memOk (s : State) (q : Queue) : (s.putQueue q).memOk = s.memOk := rfl

@[simp] theorem hubStore_memOk (s : State) (pa : Nat) (bs : List Byte) (h : s.memOk = true) : (s.hubStore pa bs).2.memOk = true := by
  unfold State.hubStore
  split <;> simp [h, devWrite_memOk]

@[simp] theorem noteState_memOk (s : State) (q code err : Nat) (h : s.memOk = true) : (s.noteState q code err).memOk = true := by
  simp [State.noteState, h]

@[simp] theorem queueError_memOk (s : State) (q : Queue) (code : Nat) (h : s.memOk = true) : (s.queueError q code).memOk = true := by
  simp [State.queueError, h]

@[simp] theorem writeHead_memOk (s : State) (q : Queue) (h : s.memOk = true) : (s.writeHead q).memOk = true := by
  grind [State.writeHead, hubStore_memOk, putQueue_memOk, queueError_memOk]

@[simp] theorem enable_memOk (s : State) (n : Nat) (h : s.memOk = true) : (s.enable n).memOk = true := by simp [State.enable, h, spoil_memOk]
@[simp] theorem execHqcmdEnable_ok (q : BitVec 14) (s : State) (h : s.memOk = true) : OutOk (execHqcmdEnable q s) := by simp [execHqcmdEnable, h]
@[simp] theorem disable_memOk (s : State) (n : Nat) : (s.disable n).memOk = s.memOk := by simp [State.disable]
@[simp] theorem execHqcmdDisable_ok (q : BitVec 14) (s : State) (h : s.memOk = true) : OutOk (execHqcmdDisable q s) := by simp [execHqcmdDisable, h]
@[simp] theorem resetQueue_memOk (s : State) (n : Nat) (h : s.memOk = true) : (s.resetQueue n).memOk = true := by simp [State.resetQueue, h]
@[simp] theorem execHqcmdReset_ok (q : BitVec 14) (s : State) (h : s.memOk = true) : OutOk (execHqcmdReset q s) := by simp [execHqcmdReset, h]

@[simp] theorem execQueueDisableComplete_ok (q : BitVec 14) (s : State) (h : s.memOk = true) : OutOk (execQueueDisableComplete q s) := by
  simp [execQueueDisableComplete, h]

@[simp] theorem queueDoor_memOk (s : State) (q : BitVec 14) (v : Word) (h : s.memOk = true) : (s.queueDoor q v).memOk = true := by
  simp [State.queueDoor, h]

@[simp] theorem execWqDoorbell_ok (q : BitVec 14) (v : Word) (s : State) (h : s.memOk = true) : OutOk (execWqDoorbell q v s) := by
  simp [execWqDoorbell, h]

@[simp] theorem fetchEntries_memOk (s : State) (q : Queue) (n i : Nat) (h : s.memOk = true) : (s.fetchEntries q n i).2.memOk = true := by
  fun_induction State.fetchEntries <;> simp_all [spoil_memOk]

@[simp] theorem modEntry_memOk (s : State) (q e : Nat) (f : QEntry → QEntry) : (s.modEntry q e f).memOk = s.memOk := rfl
@[simp] theorem startEntry_memOk (s : State) (q : Nat) (e : QEntry) : (s.startEntry q e).memOk = s.memOk := by simp [State.startEntry]

@[simp] theorem startEntries_memOk (s : State) (q : Nat) (xs : List QEntry) : (s.startEntries q xs).memOk = s.memOk := by
  fun_induction State.startEntries <;> simp_all

@[simp] theorem execQueueEntryFetch_ok (q : BitVec 14) (n : Nat) (s : State) (h : s.memOk = true) : OutOk (execQueueEntryFetch q n s) := by
  unfold execQueueEntryFetch
  extract_lets w
  rw [outOk_next]
  have hf := fetchEntries_memOk s w n 0 h
  split
  · exact h
  · split
    · simp [h]
    · split <;> next e => simp [snd_memOk e hf]

@[simp] theorem execQueueArbitrationSlot_ok (s : State) (h : s.memOk = true) : OutOk (execQueueArbitrationSlot s) := by
  unfold execQueueArbitrationSlot
  dsimp only
  (repeat' split) <;> simp_all

@[simp] theorem begin_memOk (s : State) (q e : Nat) : (s.begin q e).memOk = s.memOk := rfl

@[simp] theorem execNopEntry_ok (q : BitVec 14) (e : Nat) (s : State) (h : s.memOk = true) : OutOk (execNopEntry q e s) := by
  unfold execNopEntry
  split <;> simp [h]

@[simp] theorem execLaunchEntry_ok (q : BitVec 14) (e : Nat) (s : State) (h : s.memOk = true) : OutOk (execLaunchEntry q e s) := by
  unfold execLaunchEntry
  rw [outOk_next]
  split
  · exact h
  · next x _ =>
    extract_lets w
    have hl := startLaunch_memOk s e w.root (BitVec.ofNat 64 (x.f 8 8)) q.toNat w.part w.prio w.quantum (.entry q.toNat e) h
    split
    · simp [h]
    · split <;> next e => simp [snd_memOk e hl]

@[simp] theorem execFlushEntry_ok (q : BitVec 14) (e : Nat) (s : State) (h : s.memOk = true) : OutOk (execFlushEntry q e s) := by
  unfold execFlushEntry
  split <;> simp [h]

@[simp] theorem execFlushComplete_ok (q : BitVec 14) (e : Nat) (s : State) (h : s.memOk = true) : OutOk (execFlushComplete q e s) := by
  unfold execFlushComplete
  dsimp only
  (repeat' split) <;> simp_all

@[simp] theorem execBiasEntry_ok (q : BitVec 14) (e : Nat) (s : State) (h : s.memOk = true) : OutOk (execBiasEntry q e s) := by
  unfold execBiasEntry
  split <;> simp [h]

@[simp] theorem flipPage_memOk (s : State) (page : Nat) (device : Bool) : (s.flipPage page device).memOk = s.memOk := by simp [State.flipPage]

@[simp] theorem execBiasPageFlip_ok (q : BitVec 14) (e : Nat) (s : State) (h : s.memOk = true) : OutOk (execBiasPageFlip q e s) := by
  unfold execBiasPageFlip
  split <;> simp [h]

@[simp] theorem execWaitEntry_ok (q : BitVec 14) (e : Nat) (s : State) (h : s.memOk = true) : OutOk (execWaitEntry q e s) := by
  unfold execWaitEntry
  split <;> simp [h]

@[simp] theorem execWaitPoll_ok (q : BitVec 14) (e : Nat) (s : State) (h : s.memOk = true) : OutOk (execWaitPoll q e s) := by
  unfold execWaitPoll
  split <;> simp [h, spoil_memOk, devRead_memOk]

@[simp] theorem execSignalEntry_ok (q : BitVec 14) (e : Nat) (s : State) (h : s.memOk = true) : OutOk (execSignalEntry q e s) := by
  unfold execSignalEntry
  split <;> simp [h]

@[simp] theorem execSignalStoreDone_ok (q : BitVec 14) (e : Nat) (s : State) (h : s.memOk = true) : OutOk (execSignalStoreDone q e s) := by
  unfold execSignalStoreDone
  rw [outOk_next]
  split
  · exact h
  · next x _ =>
    have hs := hubStore_memOk s (x.f 8 8) (leBytes 8 (x.f 16 8)) h
    refine hubTry_memOk s _ 8 _ h ?_
    split
    · simp [h]
    · split <;> next e => simp [snd_memOk e hs]

@[simp] theorem writeHpincfg_memOk (s : State) (v : Word) (h : s.memOk = true) : (s.writeHpincfg v).memOk = true := by simp [State.writeHpincfg, h]
@[simp] theorem execHpincfgWrite_ok (v : Word) (s : State) (h : s.memOk = true) : OutOk (execHpincfgWrite v s) := by simp [execHpincfgWrite, h]
@[simp] theorem execDoeDiscovery_ok (i : Nat) (s : State) (h : s.memOk = true) : OutOk (execDoeDiscovery i s) := by simp [execDoeDiscovery, h]

@[simp] theorem execSpdmNegotiateAlgorithms_ok (mldsa sha3 : Bool) (s : State) (h : s.memOk = true) :
    OutOk (execSpdmNegotiateAlgorithms mldsa sha3 s) := by
  simp [execSpdmNegotiateAlgorithms, h]

@[simp] theorem execSpdmKeyExchange_ok (sess : Nat) (mlkem aes : Bool) (s : State) (h : s.memOk = true) :
    OutOk (execSpdmKeyExchange sess mlkem aes s) := by
  simp [execSpdmKeyExchange, h]

@[simp] theorem execSpdmMeasurements_ok (signed : Bool) (digest : Digests) (log : Bool) (s : State) (h : s.memOk = true) :
    OutOk (execSpdmMeasurements signed digest log s) := by
  simp [execSpdmMeasurements, h]

@[simp] theorem keyMessage_memOk (s : State) (sess status id : Nat) (value : Option (BitVec 512)) :
    (s.keyMessage sess status id value).memOk = s.memOk := by
  simp [State.keyMessage]

@[simp] theorem execKeyLoad_ok (sess : Nat) (msg : BitVec 544) (s : State) (h : s.memOk = true) : OutOk (execKeyLoad sess msg s) := by
  simp [execKeyLoad, h]

@[simp] theorem execKeyClear_ok (sess : Nat) (msg : BitVec 32) (s : State) (h : s.memOk = true) : OutOk (execKeyClear sess msg s) := by
  simp [execKeyClear, h]

@[simp] theorem execKeyInstallDone_ok (id : BitVec 10) (s : State) (h : s.memOk = true) : OutOk (execKeyInstallDone id s) := by
  unfold execKeyInstallDone
  split <;> simp [h]

@[simp] theorem execSpdmSessionEnd_ok (sess : Nat) (s : State) (h : s.memOk = true) : OutOk (execSpdmSessionEnd sess s) := by
  simp [execSpdmSessionEnd, h]

/-! ### Operations of Machine/Regs.lean -/

@[simp] theorem towerWrite_memOk (s : State) (t off : Nat) (v : Word) (h : s.memOk = true) : (s.towerWrite t off v).memOk = true := by
  unfold State.towerWrite
  split <;> simp [h]

@[simp] theorem hqcmd_memOk (s : State) (v : Word) (h : s.memOk = true) : (s.hqcmd v).memOk = true := by
  unfold State.hqcmd
  split <;> simp [h]

@[simp] theorem hubWrite32_memOk (s : State) (off : Nat) (v : Word) (h : s.memOk = true) : (s.hubWrite32 off v).memOk = true := by
  unfold State.hubWrite32
  (repeat' split) <;> simp [h]

@[simp] theorem msixWrite_memOk (s : State) (off : Nat) (v : Word) : (s.msixWrite off v).memOk = s.memOk := by simp [State.msixWrite]

@[simp] theorem execRegisterWrite_ok (pa : BitVec 52) (v : Word) (s : State) (h : s.memOk = true) : OutOk (execRegisterWrite pa v s) := by
  unfold execRegisterWrite
  split <;> simp [h]

/-! ### Operations of Machine/Run.lean -/

@[simp] theorem stopHalted_memOk (s : State) (k i : Nat) : (s.stopHalted k i).memOk = s.memOk := by
  unfold State.stopHalted
  split <;> simp

@[simp] theorem stopAll_memOk (s : State) (k : Nat) (xs : List Nat) : (s.stopAll k xs).memOk = s.memOk := by fun_induction State.stopAll <;> simp_all

@[simp] theorem endRun_memOk (s : State) (k i : Nat) : (s.endRun k i).memOk = s.memOk := by
  unfold State.endRun
  split <;> simp

@[simp] theorem endAtHeader_memOk (s : State) (k i : Nat) (h : s.memOk = true) : (s.endAtHeader k i).memOk = true := by
  unfold State.endAtHeader
  split
  · next t th _ _ =>
    split
    · simp [h]
    · have hf := fetch_memOk s t th.pc h
      generalize s.fetch t th.pc = r at hf ⊢
      obtain ⟨g, s1⟩ := r
      cases g <;> simp_all
  · exact h

@[simp] theorem beginClause_memOk (s : State) (k i : Nat) (first : Bool) (h : s.memOk = true) : (s.beginClause k i first).memOk = true := by
  grind [State.beginClause, fetch_memOk, takeTrap_memOk, holdFetch_memOk, endRun_memOk, modThread_memOk]

@[simp] theorem beginRun_memOk (s : State) (k i : Nat) (h : s.memOk = true) : (s.beginRun k i).memOk = true := by
  unfold State.beginRun
  (repeat' split) <;> simp [h]

@[simp] theorem beginRuns_memOk (s : State) (k : Nat) (xs : List Nat) (h : s.memOk = true) : (s.beginRuns k xs).memOk = true := by
  fun_induction State.beginRuns <;> simp_all

@[simp] theorem wakeResources_memOk (s : State) : s.wakeResources.memOk = s.memOk := rfl

@[simp] theorem execRunStart_ok (p : BitVec 11) (q : BitVec 2) (s : State) (h : s.memOk = true) : OutOk (execRunStart p q s) := by
  unfold execRunStart
  dsimp only
  (repeat' split) <;> simp_all

@[simp] theorem setRun_memOk (s : State) (r : Run) : (s.setRun r).memOk = s.memOk := rfl

@[simp] theorem trapMembers_memOk (s : State) (r : Run) (tr : Trap) (h : s.memOk = true) : (s.trapMembers r tr).memOk = true := by
  simp [State.trapMembers, h]

@[simp] theorem holdMembers_memOk (s : State) (r : Run) (va : DWord) (rs l : Nat) (xs : List Nat) (h : s.memOk = true) :
    (s.holdMembers r va rs l xs).memOk = true := by
  fun_induction State.holdMembers <;> simp_all

@[simp] theorem stallRun_memOk (s : State) (r : Run) : (s.stallRun r).memOk = s.memOk := rfl

@[simp] theorem settleOne_memOk (s : State) (k i : Nat) (hdr : Word) (h : s.memOk = true) : (s.settleOne k i hdr).memOk = true := by
  unfold State.settleOne
  split <;> simp [h]

@[simp] theorem settleAll_memOk (s : State) (k : Nat) (hdr : Word) (xs : List Nat) (h : s.memOk = true) : (s.settleAll k hdr xs).memOk = true := by
  fun_induction State.settleAll <;> simp_all

@[simp] theorem headMembers_memOk (s : State) (r : Run) (l : Nat) (hdr : Word) (h : s.memOk = true) : (s.headMembers r l hdr).memOk = true := by
  simp [State.headMembers, h]

@[simp] theorem take_memOk (s : State) (r : Run) (h : s.memOk = true) : (s.take r).2.memOk = true := by
  unfold State.take
  split
  · exact h
  · split
    · next t th _ _ =>
      split
      · simp [h]
      · split
        · next e => simp [snd_memOk e (fetch_memOk s t th.pc h)]
        · next e => simp [snd_memOk e (fetch_memOk s t th.pc h)]
        · next e => simp [snd_memOk e (fetch_memOk s t th.pc h)]
        · next w s1 e =>
          have h1 := snd_memOk e (fetch_memOk s t th.pc h)
          split
          · simp [h1]
          · next k _ =>
            extract_lets inside xs x s2
            have h2 : s2.memOk = true := by
              simp only [s2, xs]
              split <;> simp [h1]
            clear_value x s2
            (repeat' split) <;> simp [h2]
    · exact h

@[simp] theorem settle_memOk (s : State) (p : Nat) (q : BitVec 2) (tids : List Nat) (k : Nat) (hdr : Word) (h : s.memOk = true) :
    (s.settle p q tids k hdr).1.memOk = true := by
  unfold State.settle
  split <;> simp [h]

end Sys2Proof.Machine
end

section
/-!
PROOFS. Memory stays canonical: every instruction, every turn and every step.
-/
namespace Sys2Proof.Machine

/-! ### Operations of Machine/Freedoms.lean -/

@[simp] theorem modReq_memOk (s : State) (id : Nat) (f : Req → Req) : (s.modReq id f).memOk = s.memOk := rfl

@[simp] theorem showLogged_memOk (s : State) (n : Nat) (h : s.memOk = true) : (s.showLogged n).memOk = true := by
  grind [State.showLogged, xteam_memOk, wakeHeld_memOk, dropEntry_memOk, replaySend_memOk]

@[simp] theorem showReq_memOk (s : State) (id : Nat) : (s.showReq id).memOk = s.memOk := by
  unfold State.showReq
  (repeat' split) <;> simp

@[simp] theorem showEarly_memOk (s : State) (id : Nat) (h : s.memOk = true) : (s.showEarly id).memOk = true := by simp [State.showEarly, h]

@[simp] theorem takePeeked_memOk (s : State) (r : Req) (t : Team) (h : s.memOk = true) : (s.takePeeked r t).memOk = true := by
  unfold State.takePeeked
  split <;> simp [h, devRead_memOk]

@[simp] theorem peekStore_memOk (s : State) (load store : Nat) (offs : List Nat) (h : s.memOk = true) :
    (s.peekStore load store offs).memOk = true := by
  unfold State.peekStore
  (repeat' split) <;> simp [h]

@[simp] theorem rmwRead_memOk (s : State) (id : Nat) (h : s.memOk = true) : (s.rmwRead id).memOk = true := by
  unfold State.rmwRead
  (repeat' split) <;> simp [h]

@[simp] theorem landing_memOk (s : State) (r : Req) (t : Team) (h : s.memOk = true) : (s.landing r t).2.memOk = true := by
  grind [State.landing, readOf_memOk]

@[simp] theorem landReg_memOk (s : State) (id j : Nat) (h : s.memOk = true) : (s.landReg id j).memOk = true := by
  grind [State.landReg, landing_memOk, modReq_memOk, modThreads_memOk]

@[simp] theorem backByte_memOk (s : State) (id off : Nat) (h : s.memOk = true) : (s.backByte id off).memOk = true := by
  unfold State.backByte
  split
  · exact h
  · split
    · split
      · exact h
      · dsimp only
        split
        · exact backLine_memOk _ _ _ _ _ _ _ _ _ h (xteam_memOk s _ _ _ _ h)
        · exact h
    · exact h

@[simp] theorem pieceByte_memOk (s : State) (id i off : Nat) (h : s.memOk = true) : (s.pieceByte id i off).memOk = true := by
  unfold State.pieceByte
  (repeat' split) <;> grind [reachElems_memOk, elemData_memOk, modCopy_memOk, elemPut_memOk]
/-! ### The instructions -/

/-- A device step, or a word: the words by the operation that they share. -/
theorem exec_ok (i : Instr) (s : State) (h : s.memOk = true) : OutOk (exec i s) := by
  cases i
  case add | sub | mullo | mulhi | mad | mulw | madw | add64 | sub64 | min | max | sad | dp4i8 | dp2i16 | setc | bfx | neg | abs | and | or | xor
      | andn | orn | not | tlog | shl | shr | sar | rol | shf | bfi | popc | clz | ctz | brev | perm | sel | mov | movh | lea | fadd | fsub | fmul
      | ffma | fmin | fmax | fminn | fmaxn | fsetc | frnd | fclass | fscale | fcpys | vaddh | vmulh | vfmah | vaddb | vmulb | vfmab | dot2b | dot4e
      | pack | unpk | cvt | f2i | i2f | rcp | rsq | sqrt | ex2 | lg2 | sin | cos | tanh | div | idiv | irem =>
    exact (outOk_next _).2 (alu_memOk s _ _ _ h)
  case ld | ldacq | ldh => exact (outOk_next _).2 (globalWord_memOk s _ _ _ _ h fun s c h => by simp [actLoad, h])
  case st | strel | sth => exact (outOk_next _).2 (globalWord_memOk s _ _ _ _ h fun s c h => by simp [h])
  case atom | cas | cas128 | red | redc => exact (outOk_next _).2 (globalWord_memOk s _ _ _ _ h fun s c h => by simp [h])
  case lds | sts => exact (outOk_next _).2 (spadAccess_memOk s _ _ _ h fun s c h => by simp [h])
  case pref | fence | copy | resort | idemx | srd | swr | tret | nop | sleep | dbgmark | exit =>
    exact (outOk_next _).2 (gated_memOk _ h fun s c h => by simp [h])
  case accwin | launch => exact (outOk_next _).2 (gated_memOk _ h fun s c h => by split <;> simp [h])
  case maps | ftest | fcancel | fwait => exact (outOk_next _).2 (gated_memOk _ h fun s c h => by dsimp only; split <;> simp [h])
  case waita =>
    refine (outOk_next _).2 (gated_memOk _ h fun s c h => ?_)
    have hf := fillNow_memOk s c (.waita ‹_›) (wordLines c.team c.thr (.waita ‹_›)) false h
    dsimp only
    split
    · simp [h]
    · split <;> next e => simp [snd_memOk e hf]
  case mma o =>
    refine (outOk_next _).2 (gated_memOk _ h fun s c h => ?_)
    extract_lets off
    have hf : (if s.lfield c.team (·.accrows) != 0 && off % 64 == 0 && off + 64 ≤ s.spadSize c.team then
        s.fillNow c (.mma o) (wordLines c.team c.thr (.mma o)) false else (true, s)).2.memOk = true := by split <;> simp [h]
    split
    · next e => exact snd_memOk e hf
    · next e =>
      have hs := snd_memOk e hf
      extract_lets bs
      split <;> simp [hs]
  case cwb | cinv => exact (outOk_next _).2 (cacheWord_memOk s _ _ _ h)
  case unmaps | wbs => exact (outOk_next _).2 (unmapWord_memOk s _ _ _ h)
  case accld | accst => exact (outOk_next _).2 (tilesWord_memOk s _ _ _ h)
  case tbinit | tbinitRearm | tbexp => exact (outOk_next _).2 (updateWord_memOk s _ _ _ h)
  case bararv | barsync => exact (outOk_next _).2 (arriveWord_memOk s _ _ h)
  case rdv | rdvx | rdvv | rdvs => exact (outOk_next _).2 (rdvWord_memOk s _ h)
  case trap | brk => exact (outOk_next _).2 (software_memOk s _ _ _ h)
  case chsel | probe => exact (outOk_next _).2 (tellPage_memOk s _ _ _ h)
  case bra | call => exact (outOk_next _).2 (jump_memOk s _ _ h)
  case bz | bnz | bltz | bgez => exact (outOk_next _).2 (branch_memOk s _ _ _ h)
  case brx | callx | ret => exact (outOk_next _).2 (indirect_memOk s _ _ _ h)
  case scld o =>
    refine (outOk_next _).2 (accWord_memOk s _ _ _ _ h fun s c h => ?_)
    split <;> next e => simp [snd_memOk e (fillNow_memOk s c (.scld o) _ false h)]
  case accz | accrd | accwr => exact (outOk_next _).2 (accWord_memOk s _ _ _ _ h fun s c h => by simp [h])
  case tbarv | tbwait | stgwait => exact (outOk_next _).2 (barWord_memOk s _ _ _ _ h fun s c n h => by simp [h])
  case cont => exact (outOk_next _).2 (barWord_memOk s _ _ _ _ h fun s c n h => by split <;> simp [h])
  all_goals simp [exec, h]

/-! ### Turns -/

/-- Each of some steps keeps memory canonical. -/
def Keeping (fs : List (State → Out)) : Prop := ∀ f ∈ fs, ∀ s : State, s.memOk = true → OutOk (f s)

@[simp] theorem keeping_nil : Keeping [] := fun _ h => by cases h

@[simp] theorem keeping_cons (f : State → Out) (fs : List (State → Out)) :
    Keeping (f :: fs) ↔ (∀ s : State, s.memOk = true → OutOk (f s)) ∧ Keeping fs := List.forall_mem_cons

@[simp] theorem keeping_append (fs gs : List (State → Out)) : Keeping (fs ++ gs) ↔ Keeping fs ∧ Keeping gs := List.forall_mem_append

@[simp] theorem keeping_map {α : Type} (g : α → State → Out) (xs : List α) :
    Keeping (xs.map g) ↔ ∀ x ∈ xs, ∀ s : State, s.memOk = true → OutOk (g x s) := List.forall_mem_map

@[simp] theorem keeping_flatMap {α : Type} (g : α → List (State → Out)) (xs : List α) :
    Keeping (xs.flatMap g) ↔ ∀ x ∈ xs, Keeping (g x) := by
  simp only [Keeping, List.mem_flatMap]
  exact ⟨fun h x hx f hf => h f ⟨x, hx, hf⟩, fun h f ⟨x, hx, hf⟩ => h x hx f hf⟩

/-- The first of some steps that changes the state. -/
theorem firstOf_memOk {s t : State} {fs : List (State → Out)} (hfs : Keeping fs) (h : s.memOk = true) (ht : s.firstOf fs = some t) :
    t.memOk = true := by
  induction fs with
  | nil => cases ht
  | cons f fs ih =>
    obtain ⟨hf, hrest⟩ := (keeping_cons f fs).1 hfs
    unfold State.firstOf at ht
    split at ht
    · next u hu =>
      split at ht
      · exact ih hrest ht
      · cases ht
        exact hf s h t hu
    · exact ih hrest ht

/-- Steps that take place one after the other. -/
theorem takeAll_memOk (s : State) {fs : List (State → Out)} (hfs : Keeping fs) (h : s.memOk = true) : (s.takeAll fs).memOk = true := by
  induction fs generalizing s with
  | nil => exact h
  | cons f fs ih =>
    obtain ⟨hf, hrest⟩ := (keeping_cons f fs).1 hfs
    unfold State.takeAll
    split
    · next u hu => exact ih u hrest (hf s h u hu)
    · exact ih s hrest h

theorem clocked_keeping (s : State) : Keeping s.clocked := by
  unfold State.clocked
  split <;> simp +contextual

theorem evaluations_keeping (s : State) : Keeping s.evaluations := by
  unfold State.evaluations
  split <;> simp +contextual

theorem windows_keeping (s : State) : Keeping s.windows := by
  unfold State.windows
  split <;> simp +contextual

theorem reqSteps_keeping (r : Req) : Keeping (reqSteps r) := by simp +contextual [reqSteps]

theorem teamSteps_keeping (t : Team) : Keeping (teamSteps t) := by simp +contextual [teamSteps, threadSteps]

theorem copySteps_keeping (c : Copy) : Keeping (copySteps c) := by simp +contextual [copySteps]

theorem oryxSteps_keeping (q : Nat) : Keeping (oryxSteps q) := by simp +contextual [oryxSteps]

theorem launchSteps_keeping (s : State) (l : Launch) : Keeping (s.launchSteps l) := by
  unfold State.launchSteps
  split <;> simp +contextual

theorem queueSteps_keeping (w : Queue) : Keeping (queueSteps w) := by simp +contextual [queueSteps, entrySteps]

theorem eventSteps_keeping (e : EventQ) : Keeping (eventSteps e) := by simp +contextual [eventSteps]

theorem towerSteps_keeping (t : TowerId) : Keeping (towerSteps t) := by simp +contextual [towerSteps]

theorem hubSteps_keeping (s : State) : Keeping s.hubSteps := by simp +contextual [State.hubSteps]

theorem fabSteps_keeping (s : State) : Keeping s.fabSteps := by simp +contextual [State.fabSteps]

theorem startSteps_keeping (s : State) : Keeping s.startSteps := by simp +contextual [State.startSteps]

/-- The steps that the package takes on its own. -/
theorem ownSteps_keeping (s : State) : Keeping s.ownSteps := by
  simp +contextual [State.ownSteps, reqSteps_keeping, copySteps_keeping, oryxSteps_keeping, teamSteps_keeping, fabSteps_keeping, launchSteps_keeping,
    queueSteps_keeping, eventSteps_keeping, hubSteps_keeping, towerSteps_keeping]

@[simp] theorem leaveCycle_memOk (s : State) (h : s.memOk = true) : s.leaveCycle.memOk = true := by
  simp [State.leaveCycle, takeAll_memOk s ((keeping_append _ _).2 ⟨clocked_keeping s, evaluations_keeping s⟩) h]

@[simp] theorem takeKept_memOk (s : State) (is : List Instr) (h : s.memOk = true) : (s.takeKept is).memOk = true := by
  induction is generalizing s with
  | nil => exact h
  | cons i is ih =>
    unfold State.takeKept
    split
    · next u hu => exact ih u (exec_ok i s h u hu)
    · exact ih s h

@[simp] theorem retryKept_memOk (s : State) (h : s.memOk = true) : s.retryKept.memOk = true := by simp [State.retryKept, h]
@[simp] theorem tsvCycles_memOk (s : State) : s.tsvCycles.memOk = s.memOk := rfl
@[simp] theorem postLapsed_memOk (s : State) (xs : List Nat) : (s.postLapsed xs).memOk = s.memOk := by fun_induction State.postLapsed <;> simp_all
@[simp] theorem lapses_memOk (s : State) : s.lapses.memOk = s.memOk := by simp [State.lapses]
@[simp] theorem nameLines_memOk (s : State) : s.nameLines.memOk = s.memOk := by simp [State.nameLines]
@[simp] theorem retryRuns_memOk (s : State) : s.retryRuns.memOk = s.memOk := rfl

/-- What is bound to the beginning of a cycle. -/
@[simp] theorem enterCycle_memOk (s : State) (h : s.memOk = true) : s.enterCycle.memOk = true := by
  unfold State.enterCycle
  extract_lets s1 s2 s3 s4
  have h1 : s1.memOk = true := takeAll_memOk s (by simp +contextual) h
  have h2 : s2.memOk = true := watchdog_memOk _ (takeAll_memOk s1 (windows_keeping s1) h1)
  have h3 : s3.memOk = true := takeAll_memOk s2 (by simp +contextual) h2
  have h4 : s4.memOk = true := by simp [s4, h3]
  exact wakeLaunches_memOk _ _ (recAll_memOk _ _ h4)

@[simp] theorem elapse_memOk (s : State) (n : Nat) (h : s.memOk = true) : (s.elapse n).memOk = true := by
  induction n generalizing s with
  | zero => exact h
  | succ n ih =>
    rw [State.elapse]
    apply ih
    apply enterCycle_memOk
    simp [h]

/-- The next word of a run: its fetch, its meaning and what follows it. -/
@[simp] theorem issueRun_ok (s : State) (r : Run) (h : s.memOk = true) : OutOk (s.issueRun r) := by
  unfold State.issueRun
  have ht := take_memOk (s.setRun (s.regroup r)) (s.regroup r) (by simp [h])
  dsimp only
  split
  · next e => exact (outOk_next _).2 (snd_memOk e ht)
  · next i u e =>
    have hu := snd_memOk e ht
    split
    · exact (outOk_next _).2 hu
    · have hx := exec_ok i u hu
      split
      · next v hv => simp [hx v hv]
      · exact hx

@[simp] theorem issueTurn_ok (s : State) (n : Nat) (h : s.memOk = true) : OutOk (s.issueTurn n) := by
  unfold State.issueTurn
  split <;> simp [h]

@[simp] theorem pop_memOk (s : State) (after : Nat) (rest : List Turn) (h : s.memOk = true) : (s.pop after rest).memOk = true := by
  simp [State.pop, h]

@[simp] theorem actTurn_ok (s : State) (i : Instr) (h : s.memOk = true) : OutOk (s.actTurn i) := by simp [State.actTurn, exec_ok, h]

@[simp] theorem recallHost_memOk (s : State) (ls : List Nat) (h : s.memOk = true) : (s.recallHost ls).memOk = true := by
  induction ls generalizing s with
  | nil => exact h
  | cons l ls ih => exact ih _ (cleanHost_memOk s l true h)

@[simp] theorem hostStore_memOk (s : State) (pa : Nat) (d : List Byte) (h : s.memOk = true) : (s.hostStore pa d).memOk = true := by
  unfold State.hostStore
  split
  · have h1 : (if hostCoherent pa then s.recallHost (hostLinesOf pa d.length) else s).memOk = true := by simp [h]
    have h2 := notePast_memOk _ (hostOwn pa) d.length h1
    exact Memory.wf_writeN _ _ _ (by rw [noteHost_bytes]; exact h2)
  · exact h

@[simp] theorem farPoison_memOk (s : State) (x : Nat) (h : s.memOk = true) : (s.farPoison x).memOk = true := by
  simp [State.farPoison, addPoison_memOk, h]

@[simp] theorem farLose_memOk (s : State) (x : Nat) : (s.farLose x).memOk = s.memOk := by simp [State.farLose]

/-- The turn when the agenda is empty. -/
theorem turn_ok (s : State) (h : s.memOk = true) : OutOk s.turn := by
  unfold State.turn
  split
  · next t ht => exact (outOk_next _).2 (firstOf_memOk (clocked_keeping s) h ht)
  · split
    · exact issueRun_ok s _ h
    · split
      · next t ht => simp [firstOf_memOk (ownSteps_keeping s) h ht]
      · split
        · next t ht => exact (outOk_next _).2 (firstOf_memOk (startSteps_keeping s) h ht)
        · simp [h]

/-- One step, whatever its turn. -/
theorem step_ok (s : State) (h : s.memOk = true) : OutOk (step s) := by
  unfold step
  split
  case h_1 => exact turn_ok s h
  all_goals simp [h]

/-- Settles O60: a step is one of the turns, and each of them keeps memory canonical. -/
theorem memoryStaysCanonical : Obligations.MemoryStaysCanonical := by
  unfold Obligations.MemoryStaysCanonical
  exact fun s t h ht => step_ok s h t ht

end Sys2Proof.Machine
end


section
/-!
PROOFS. The fold of a combining page in a sector that is listed under another place (O18)
-/
namespace Sys2Proof.Tests
open Sys2Proof.Machine

/-! ### One byte after another written into the misfiled sector -/

/-- The first block of sector 0 holds c. -/
def firstBlock (bytes : List Host.Cell) (c : List Byte) : Prop := (Memory.readN bytes 0 32).take 16 = c

/-- Context 1 reads the block c as d: it is enciphered as sector 1 and deciphered as sector 0 (R53). -/
def readsAs (c d : List Byte) : Prop := d.length = 16 ∧ ∀ bs : List Byte, bs.take 16 = c → ∃ r, xtsDecrypt 0 0 (xtsEncrypt 0 1 bs) = d ++ r

/-- What a block is read as, from one block enciphered (e) and one deciphered (x). -/
theorem readsAs_of_blocks {c e x d : List Byte} (he : aesEncrypt zeroKey (xorBytes c tweak1) = e)
    (hx : aesDecrypt zeroKey (xorBytes (xorBytes e tweak1) tweak0) = x)
    (hl : e.length = 16) (hd : xorBytes x tweak0 = d) (hn : d.length = 16) : readsAs c d := by
  refine ⟨hn, fun bs hbs => ?_⟩
  obtain ⟨r, hr⟩ := xts_crossed (bs := bs) (by rw [hbs, he]) hl hx
  exact ⟨r, by rw [hr, hd]⟩

/-- misfiledWith's sector as context 1 reads it. -/
theorem sectorUnder_misfiledWith (bytes : List Host.Cell) :
    (misfiledWith bytes).sectorUnder 1 0 0 = xtsDecrypt 0 0 (xtsEncrypt 0 1 (Memory.readN bytes 0 32)) := rfl

theorem hostCoherent_low {i : Nat} (h : i < 32) : hostCoherent i = false := by
  simp only [hostCoherent, paRegion, Nat.div_eq_of_lt (show i < 2 ^ 48 by omega)]
  rfl

theorem seat_misfiledWith (bytes : List Host.Cell) {i : Nat} (h : i < 32) : (misfiledWith bytes).seat i = i := by
  simp only [State.seat, hostCoherent_low h, State.farSeat, paRegion, Nat.div_eq_of_lt (show i < 2 ^ 48 by omega)]
  rfl

theorem foreign_misfiledWith (bytes : List Host.Cell) : (misfiledWith bytes).foreign 1 0 0 = true := by
  have h : misfiled.foreign 1 0 0 = true := by decide
  exact h

/-- A byte of the sector, as context 1 reads it. -/
theorem byteUnder_misfiledWith_at {bytes : List Host.Cell} {c d : List Byte} (hc : firstBlock bytes c) (hd : readsAs c d)
    {i : Nat} (hi : i < 16) :
    (misfiledWith bytes).byteUnder 1 i = d.getD i 0 := by
  obtain ⟨hlen, hread⟩ := hd
  obtain ⟨r, hr⟩ := hread _ hc
  rw [State.byteUnder, seat_misfiledWith bytes (by omega), Nat.div_eq_of_lt (show i < 32 by omega), foreign_misfiledWith, if_pos rfl,
    sectorUnder_misfiledWith, hr, Nat.mod_eq_of_lt (show i < 32 by omega)]
  simp [List.getD, List.getElem?_append_left, hlen, hi]

/-- A byte written over byte i of a sector that is laid down anew as it is read. -/
theorem firstBlock_write (m : List Host.Cell) {d : List Byte} (r : List Byte) (hd : d.length = 16) (i : Nat) (b : Byte) :
    firstBlock (Memory.write (Memory.writeN m 0 (d ++ r)) i b) (d.set i b) := by
  apply List.ext_getElem
  · simp [Memory.readN, hd]
  · intro j hj _
    have hj' : j < 16 := by simp at hj; omega
    simp only [List.getElem_take, Memory.readN, List.getElem_map, List.getElem_range, Nat.zero_add, Memory.read_write, Memory.read_writeN,
      List.getElem_set]
    by_cases hij : i = j
    · rw [if_pos hij, if_pos hij]
    · rw [if_neg hij, if_neg hij, dif_pos (by simp only [List.length_append, hd]; omega)]
      exact List.getElem_append_left (by omega)

/-- The sector is laid down as context 1 reads it, its byte i replaced, and stays listed under the other place. -/
theorem writeByte_misfiledWith {bytes : List Host.Cell} {c d : List Byte} (hc : firstBlock bytes c) (hd : readsAs c d)
    {i : Nat} (hi : i < 16) (b : Byte) :
    ∃ bytes', (misfiledWith bytes).writeByte none 1 i b = misfiledWith bytes' ∧ firstBlock bytes' (d.set i b) := by
  obtain ⟨hlen, hread⟩ := hd
  obtain ⟨r, hr⟩ := hread _ hc
  refine ⟨_, ?_, firstBlock_write bytes r hlen i b⟩
  have hrec : (misfiledWith bytes).isRecoded 0 = false := rfl
  have hkey : misfiled.mem.sectorKey.putD (misfiled.mem.baseOf 0) 0 (1, misfiled.hub.gen 1) = misfiled.mem.sectorKey := by decide
  have hfar : (paRegion 0 == 0xD) = false := rfl
  have hrekey : (misfiledWith bytes).rekey none 1 0 0 = misfiledWith (Memory.writeN bytes 0 (d ++ r)) := by
    simp only [State.rekey, Nat.zero_div, hrec, foreign_misfiledWith, sectorUnder_misfiledWith, hr, Nat.mul_zero, hfar]
    exact congrArg (fun ks => ({ misfiledWith (Memory.writeN bytes 0 (d ++ r)) with
      mem := { (misfiledWith (Memory.writeN bytes 0 (d ++ r))).mem with sectorKey := ks } } : State)) hkey
  have hhost : (misfiledWith (Memory.writeN bytes 0 (d ++ r))).mem.noteHost i 1 = (misfiledWith (Memory.writeN bytes 0 (d ++ r))).mem := by
    simp only [MemSys.noteHost, paRegion, Nat.div_eq_of_lt (show i < 2 ^ 48 by omega)]
    rfl
  simp only [State.writeByte, hostCoherent_low (show i < 32 by omega), Bool.false_eq_true, if_false, seat_misfiledWith bytes (show i < 32 by omega),
    Nat.div_eq_of_lt (show i < 32 by omega), hrekey, hhost]
  rfl

/-! ### The four bytes of an element -/

theorem readsAs_tweak1 : readsAs tweak1 (block 0xDD95C078A2408989AD48A21492842087) := by
  have hzero : xorBytes tweak1 tweak1 = leBytes 16 0 := by decide
  have hback : xorBytes (xorBytes tweak0 tweak1) tweak0 = tweak1 := by decide
  exact readsAs_of_blocks (by rw [hzero, aesEncrypt_zero]) (by rw [hback, aesDecrypt_tweak1]) rfl (by decide) rfl

theorem readsAs_tweak0 : readsAs tweak0 (block 0x8DB3B423AA486053088DF001908252FF) := by
  have hback : xorBytes (xorBytes (block 0x6D9AE39AB97225D56C55DBAEF4C0CF22) tweak1) tweak0 = block 0xE37AD03A707D1434848E6A84D9E1D376 := by
    decide
  exact readsAs_of_blocks aesEncrypt_sum (by rw [hback, aesDecrypt_sum]) rfl (by decide) rfl

/-- The block that holds the element's bytes 0 and 1. -/
theorem readsAs_second : readsAs (block 0x8D95B423AA486053088DF001908252FF) (block 0x254F6954C42A62807239CC916805E173) := by
  refine readsAs_of_blocks (e := block 0xDD02391486CBC11B2E29F1E130E661D9) (x := block 0xF9DAA92C666AEB09DF716E85FA81C1F4) ?_ ?_ rfl
    (by decide) rfl
  · rw [aesEncrypt_eq]
    decide +kernel
  · rw [aesDecrypt_eq]
    decide +kernel

/-- The block that holds its byte 2 also. -/
theorem readsAs_third : readsAs (block 0x254FC054C42A62807239CC916805E173) (block 0x17782767545921FAC146F947F4ECE007) := by
  refine readsAs_of_blocks (e := block 0x58B8BCCF8D33A32609D2823672BB9033) (x := block 0xCBEDE71FF619A8736C0E5B536668C080) ?_ ?_ rfl
    (by decide) rfl
  · rw [aesEncrypt_eq]
    decide +kernel
  · rw [aesDecrypt_eq]
    decide +kernel

/-- The block that holds its byte 3 also. -/
theorem readsAs_fourth : readsAs (block 0x17782778545921FAC146F947F4ECE007) (block 0xF43346ADF700A90B91D25B29851FB3BF) := by
  refine readsAs_of_blocks (e := block 0x21A17DC38ED9F355831B4B385FD10D1D) (x := block 0x28A686D5554020823C9AF93D179B9338) ?_ ?_ rfl
    (by decide) rfl
  · rw [aesEncrypt_eq]
    decide +kernel
  · rw [aesDecrypt_eq]
    decide +kernel

/-- The element 0x78C095DC written at 0: context 1 then reads the sector's first block with none of its bytes. -/
theorem writeBytes_misfiled : ∃ bytes, misfiled.writeBytes none 1 0 [0xDC, 0x95, 0xC0, 0x78] = misfiledWith bytes ∧
    firstBlock bytes (block 0x17782778545921FAC146F947F4ECE007) := by
  have h0 : firstBlock misfiled.mem.bytes tweak1 := by
    unfold firstBlock
    decide
  obtain ⟨b1, w1, h1⟩ := writeByte_misfiledWith h0 readsAs_tweak1 (i := 0) (by decide) 0xDC
  obtain ⟨b2, w2, h2⟩ := writeByte_misfiledWith h1 readsAs_tweak0 (i := 1) (by decide) 0x95
  obtain ⟨b3, w3, h3⟩ := writeByte_misfiledWith h2 readsAs_second (i := 2) (by decide) 0xC0
  obtain ⟨b4, w4, h4⟩ := writeByte_misfiledWith h3 readsAs_third (i := 3) (by decide) 0x78
  refine ⟨b4, ?_, h4⟩
  change ((((misfiledWith misfiled.mem.bytes).writeByte none 1 0 0xDC).writeByte none 1 1 0x95).writeByte none 1 2 0xC0).writeByte none 1 3 0x78 = _
  rw [w1, w2, w3, w4]

/-! ### The fold -/

/-- A partial of 2^32 − 1 of the element at 0, of tower 0 and format u32 (R179). -/
def lastPartial : Partial := { tower := 0, pa := 0, size := 4096, cfmt := 1, key := 1, val := 2 ^ 32 - 1 }

/-- misfiled with its partial. -/
def misfiledPartial : State := { misfiled with mem := { misfiled.mem with partials := [lastPartial] } }

/-- The page of address 0. -/
def misfiledPage : Place := { misfiled.peerPlace 0 with size := 4096 }

/-- The bytes of a word whose first block is known. -/
theorem readUnder_misfiledWith {bytes : List Host.Cell} {c d : List Byte} (hc : firstBlock bytes c) (hd : readsAs c d) :
    (misfiledWith bytes).readUnder 1 0 4 = [d.getD 0 0, d.getD 1 0, d.getD 2 0, d.getD 3 0] := by
  simp only [State.readUnder, List.range, List.range.loop, List.map, Nat.zero_add, byteUnder_misfiledWith_at hc hd (show 0 < 16 by decide),
    byteUnder_misfiledWith_at hc hd (show 1 < 16 by decide), byteUnder_misfiledWith_at hc hd (show 2 < 16 by decide),
    byteUnder_misfiledWith_at hc hd (show 3 < 16 by decide)]

theorem readUnder_misfiled : misfiled.readUnder 1 0 4 = [0xDD, 0x95, 0xC0, 0x78] := by
  have h0 : firstBlock misfiled.mem.bytes tweak1 := by
    unfold firstBlock
    decide
  exact readUnder_misfiledWith h0 readsAs_tweak1

/-- The home value 0x78C095DD and the partial give 0x78C095DC, whose bytes are written at the element. -/
theorem foldPage_misfiledPartial : misfiledPartial.foldPage 0 4096 =
    (misfiled.writeBytes none 1 0 [0xDC, 0x95, 0xC0, 0x78]).clearPoison 0 4 := by
  have hread : misfiled.readUnder lastPartial.key.toNat lastPartial.pa 4 = [0xDD, 0x95, 0xC0, 0x78] := readUnder_misfiled
  have hval : leBytes 4 (foldOp lastPartial.cfmt.toNat (leNat [0xDD, 0x95, 0xC0, 0x78]) lastPartial.val) =
      [0xDC, 0x95, 0xC0, 0x78] := by decide +kernel
  have hone : misfiledPartial.foldPage 0 4096 = misfiled.foldOne lastPartial := rfl
  have hfour : cfmtBytes lastPartial.cfmt.toNat = 4 := rfl
  have hsettle : ({ misfiled with mem := misfiled.mem.settleLines (linesAt lastPartial.pa 4) } : State) = misfiled := rfl
  have hpast : misfiled.notePast 0 4 = misfiled := rfl
  rw [hone]
  simp only [State.foldOne, hfour, hread, hval, hsettle]
  change (((misfiled.notePast 0 4).writeBytes none 1 0 [0xDC, 0x95, 0xC0, 0x78])).clearPoison 0 4 = _
  rw [hpast]

/-- The fold leaves 0xAD4633F4 at the element. -/
theorem readUnder_foldPage_misfiledPartial : (misfiledPartial.foldPage 0 4096).readUnder 1 0 4 = [0xF4, 0x33, 0x46, 0xAD] := by
  obtain ⟨bytes, hw, hb⟩ := writeBytes_misfiled
  rw [foldPage_misfiledPartial, hw]
  exact readUnder_misfiledWith hb readsAs_fourth

/-- Refutes O18 by the value that a fold leaves: where mem.farPa lists a sector of the device's own memory, the fold of the partial 2^32 − 1 into the home value 0x78C095DD reads back as 0xAD4633F4, not 0x78C095DC.
As in O53, the statement leaves out that mem.farPa lists sectors of region 0xD alone. -/
theorem not_loadsKeepMemory : ¬ Obligations.LoadsKeepMemory := by
  unfold Obligations.LoadsKeepMemory
  rintro ⟨-, -, hfold⟩
  have hvalue := hfold misfiledPartial misfiledPage 1 1 0 (by unfold Claims.foldable; decide) (by decide) rfl rfl (by decide)
  have hfour : cfmtBytes 1 = 4 := rfl
  have hhome : misfiledPartial.readUnder 1 0 4 = [0xDD, 0x95, 0xC0, 0x78] := readUnder_misfiled
  have hpage : misfiledPartial.foldPage misfiledPage.pa misfiledPage.size = misfiledPartial.foldPage 0 4096 := rfl
  rw [hfour, hhome, hpage, readUnder_foldPage_misfiledPartial] at hvalue
  exact absurd hvalue (by decide +kernel)

end Sys2Proof.Tests
end

section
/-!
PROOFS. How the accesses that are no loads end (O16, O17) and how the waiters of R174, R175, R366 and R397 go on (O29).
-/
namespace Sys2Proof.Machine

/-! ### What the end of every access is made of -/

/-- With no register that shows its value already, every register of the destination is written (R147). -/
@[simp] theorem Thread.setRegsBut_nil (t : Thread) (j : Nat) (d : Reg) (ws : List Word) : t.setRegsBut [] j d ws = t.setRegs d ws := by
  induction ws generalizing t j d with
  | nil => rfl
  | cons w ws ih => exact ih ..

theorem State.give_of_not_landed (s : State) (r : Req) (d : Reg) (ws : List Word) (h : r.landed = []) :
    s.give r d ws = s.modThreads r.team r.threads fun th => th.setRegs d ws := by
  simp only [State.give, h, Thread.setRegsBut_nil]

/-- What a relaxed read of local memory leaves for the next acquire fence (R174). -/
theorem State.noteRead_of_local (s : State) {r : Req} (va : DWord) {p : Place} (ha : isAcq r.ord = false) (hn : p.node = none) :
    s.noteRead r va p = Claims.noted s r va p := by
  simp only [State.noteRead, ha, State.readTag, hn, Claims.noted]
  cases s.tagOf p.pa <;> rfl

theorem State.reqAgent_of_team {s : State} {r : Req} {t : Team} (h : s.team? r.team = some t) : s.reqAgent r = s.agentOf t := by
  rw [State.reqAgent, h]

/-- An access whose threads are all there ends with a late trap of each (R413). -/
theorem State.failWith_of_late (s : State) {r : Req} (tr : Trap) (hd : r.dead = []) (h : r.defers = false) :
    s.failWith r tr = (s.endReq r).lateAll r.team r.id r.threads tr := by
  simp [State.failWith, hd, h]

/-- The cause of a peer's refusal, other than SCOPE_MISMATCH, is that of a late trap (R65; log entry 26). -/
theorem State.failReply_of_late (s : State) {r : Req} {c : Byte} (va : DWord) (hs : c ≠ 0x06) (hd : r.dead = []) (h : r.defers = false) :
    s.failReply r c va = (s.endReq r).lateAll r.team r.id r.threads
      { cause := c, addr := va, info := BitVec.ofNat 32 ((if c = 0x05 then 2 else 0) + 256) } := by
  have hc : (c == cScope) = false := by simpa [cScope] using hs
  simp only [State.failReply, State.replyTrap, hc, Bool.false_eq_true, if_false, State.failWith_of_late s _ hd h]
  simp [lateOf, failInfo, cAccess]

/-! ### ATOMIC_COMPLETE (R346, R347) -/

/-- An atomic with a destination ends late, never as a deferred trap (R76, R413). -/
theorem Req.defers_of_atomic {r : Req} {d : Reg} {op : AOp} {data : List Byte} (h : r.act = .atomic d op data true) : r.defers = false := by
  unfold Req.defers
  rw [h]
  cases r.loc <;> rfl

section
variable {s : State} {n : Nat} {r : Req} {t : Team} {d : Reg} {op : AOp} {va : DWord} {p : Place} {data : List Byte}

theorem exec_atomicComplete (hr : s.req? n = some r) (hact : r.act = .atomic d op data true) (ha : isAcq r.ord = false) (hc : s.canPerform r = true) :
    exec (.atomicComplete n) s = .next (s.atomicDone r d op data) := by
  change execAtomicComplete n s = _
  simp [execAtomicComplete, hr, hact, ha, hc]

/-- An atomic at a peer that has answered. -/
theorem State.atomicDone_of_reply {w : BitVec 12} {bs : List Byte} (hl : r.loc = .glob va p) (ht : s.team? r.team = some t) (hn : p.node = some w)
    (hp : r.phase = .replied 0 bs) : s.atomicDone r d op data = ((s.noteRead r va p).give r d (loadWords r.size bs)).endReq r := by
  simp [State.atomicDone, ht, hl, hn, hp]

/-- An atomic that a peer has refused. -/
theorem State.atomicDone_of_refused {w : BitVec 12} {c : Byte} {bs : List Byte} (hl : r.loc = .glob va p) (ht : s.team? r.team = some t)
    (hn : p.node = some w) (hp : r.phase = .replied c bs) (hc : c ≠ 0) : s.atomicDone r d op data = s.failReply r c va := by
  simp only [State.atomicDone, ht, hl, hn, hp]
  split
  case h_1 h => exact absurd (Phase.replied.inj h).1 hc
  case h_2 h => rw [(Phase.replied.inj h).1]
  case h_3 h => exact absurd rfl (h c bs)

/-- An atomic on local memory whose key has gone (R110). -/
theorem State.atomicDone_of_noKey (hl : r.loc = .glob va p) (ht : s.team? r.team = some t) (hn : p.node = none)
    (hk : s.hub.keyOk p.key.toNat p.pa = false) : s.atomicDone r d op data = s.failWith r (lateKey va) := by
  simp [State.atomicDone, ht, hl, hn, hk]

/-- An atomic on local memory of which a byte cannot be read (R46). -/
theorem State.atomicDone_of_bad {x : Nat} (hl : r.loc = .glob va p) (ht : s.team? r.team = some t) (hn : p.node = none)
    (hk : s.hub.keyOk p.key.toNat p.pa = true) (hb : s.rmwBad r p = some x) : s.atomicDone r d op data =
      (s.spoil p.key.toNat p.pa r.size).failReq r cUncorrectable (va + BitVec.ofNat 64 (x - p.pa)) := by
  simp [State.atomicDone, ht, hl, hn, hk, hb]

/-- An atomic on local memory whose bytes are read now or have been read (R168). -/
theorem State.atomicDone_of_local {old : List Byte} {s1 : State} (hl : r.loc = .glob va p) (ht : s.team? r.team = some t) (hn : p.node = none)
    (hk : s.hub.keyOk p.key.toNat p.pa = true) (hb : s.rmwBad r p = none) (ho : (s.noteRead r va p).rmwOld r t p = (old, s1)) :
    s.atomicDone r d op data = (((op.apply old data).elim s1 (s1.putAt r t p)).give r d (loadWords r.size old)).endReq r := by
  simp only [State.atomicDone, ht, hl, hn, hk, hb, ho]
  cases op.apply old data <;> rfl

end

/-- What an RMW that is no acquire reads of local memory, in the same step or before it (R168). -/
theorem State.rmwOld_of_local {s s1 : State} {r : Req} {t : Team} {va : DWord} {p : Place} {old : List Byte} (ha : isAcq r.ord = false)
    (hn : p.node = none)
    (h : r.got = none ∧ s.badByte p.key.toNat p.pa r.size = none ∧ (Claims.noted s r va p).devRead (r.via t p) p r.size = (old, s1) ∨
      r.got = some old ∧ s1 = Claims.noted s r va p) :
    s.rmwBad r p = none ∧ (s.noteRead r va p).rmwOld r t p = (old, s1) := by
  rw [State.noteRead_of_local s va ha hn]
  rcases h with ⟨hg, hb, hd⟩ | ⟨hg, rfl⟩
  · exact ⟨by simp [State.rmwBad, hg, hb], by simp [State.rmwOld, hg, hd]⟩
  · exact ⟨by simp [State.rmwBad, hg], by simp [State.rmwOld, hg]⟩

/-- A CAS writes its swap value where the bytes read equal its comparison, else nothing (R347). -/
theorem State.putAt_cas (s : State) (r : Req) (t : Team) (p : Place) (cmp old data : List Byte) :
    ((AOp.cas cmp).apply old data).elim s (s.putAt r t p) = if old = cmp then s.putAt r t p data else s := by
  by_cases h : old = cmp <;> simp [AOp.apply, h]

/-- Settles O16: an atomic on local memory by the bytes that it reads, any other by what the peer, the key or the memory answers. -/
theorem atomicsComplete : Obligations.AtomicsComplete := by
  unfold Obligations.AtomicsComplete
  refine ⟨fun s s1 n r t d op va p data old hr hact hl hn ha hc ht hk hland hold => ?_,
    fun s n r t d op va p data hr hact hl ha hc ht hland hd => ⟨fun w bs hn hp => ?_, fun w c bs hn hp h0 h6 => ?_, fun hn hk => ?_,
      fun x hn hk hg hb => ?_⟩⟩
  · obtain ⟨hbad, hread⟩ := State.rmwOld_of_local ha hn hold
    rw [exec_atomicComplete hr hact ha hc, State.atomicDone_of_local hl ht hn hk hbad hread,
      State.give_of_not_landed _ _ _ _ hland]
    cases op with
    | atop c => rfl
    | cas cmp =>
      rw [State.putAt_cas]
      rfl
  · rw [exec_atomicComplete hr hact ha hc, State.atomicDone_of_reply hl ht hn hp, State.give_of_not_landed _ _ _ _ hland]
  · rw [exec_atomicComplete hr hact ha hc, State.atomicDone_of_refused hl ht hn hp h0,
      State.failReply_of_late s va h6 hd (Req.defers_of_atomic hact)]
  · rw [exec_atomicComplete hr hact ha hc, State.atomicDone_of_noKey hl ht hn hk, State.failWith_of_late s _ hd (Req.defers_of_atomic hact)]
    rfl
  · have hbad : s.rmwBad r p = some x := by simp [State.rmwBad, hg, hb]
    rw [exec_atomicComplete hr hact ha hc, State.atomicDone_of_bad hl ht hn hk hbad, State.failReq,
      State.failWith_of_late _ _ hd (Req.defers_of_atomic hact)]
    rfl

/-! ### REDC, cache words and maps (R348, R352 to R354) -/

/-- What REDC_COMBINED does to the partials (R179). -/
theorem State.combine_eq (s : State) (tower : Nat) (p : Place) (v : Nat) : s.combine tower p v = Claims.combined s tower p v := by
  unfold State.combine Claims.combined
  cases s.mem.partials.find? fun q => q.tower == tower && q.pa == p.pa with
  | none => rfl
  | some q => simp only [beq_iff_eq]

/-- A REDC that may be performed, on a page whose key and tower are there. -/
theorem exec_redcCombined {s : State} {n : Nat} {r : Req} {t : Team} {va : DWord} {p : Place} {data : List Byte} (hr : s.req? n = some r)
    (hact : r.act = .redc data) (hl : r.loc = .glob va p) (hn : p.node = none) (ha : isAcq r.ord = false) (hc : s.canPerform r = true)
    (ht : s.team? r.team = some t) (hk : s.hub.keyOk p.key.toNat p.pa = true) (hw : s.writeFails p = false) :
    exec (.redcCombined n) s = .next (((Claims.combined (Claims.noted s r va p) (pcTower t.pcore) p (leNat data)).tagWrite
      p.pa r.ord r.sc r.fs (s.agentOf t)).endReq r) := by
  have hdone : s.redcDone r t va p data = ((Claims.combined (Claims.noted s r va p) (pcTower t.pcore) p (leNat data)).tagWrite
      p.pa r.ord r.sc r.fs (s.agentOf t)).endReq r := by
    simp only [State.redcDone, hk, hw, State.noteRead_of_local s va ha hn, State.combine_eq, State.reqAgent_of_team ht]
    rfl
  change execRedcCombined n s = _
  simp only [execRedcCombined, hr, hact, hl, ht, hc, hdone, if_true]

/-- A cache word once no copy owns one of its lines and no tower holds one (R352). -/
theorem exec_cacheOpComplete {s : State} {n : Nat} {r : Req} {t : Team} {ls : List (Nat × Nat)} {drop : Bool} (hr : s.req? n = some r)
    (hact : r.act = .cache ls drop) (ht : s.team? r.team = some t) (hfree : ∀ l ∈ ls, s.owned none l.1 128 = false ∧ s.towerHolds l.1 = false) :
    exec (.cacheOpComplete n) s = .next ((s.treatLines t.pcore r.sc drop ls).endReq r) := by
  have hany : (ls.any fun l => s.owned none l.1 128 || s.towerHolds l.1) = false := by
    rw [List.any_eq_false]
    intro l hl
    simp [hfree l hl]
  change execCacheOpComplete n s = _
  simp [execCacheOpComplete, hr, hact, ht, hany]

/-- The map word whose turn it is binds its region (R353). -/
theorem exec_mapBound {s : State} {n off len : Nat} {r : Req} {va : DWord} (hr : s.req? n = some r) (hact : r.act = .maps off len va)
    (hturn : s.mapTurn r = true) : exec (.mapBound n) s = .next ((s.modTeam r.team (fun t => { t with
      maps := t.maps ++ [{ off := off, len := len, va := va, filled := [], filling := [], dirty := [], pages := [] }] })).endReq r) := by
  change execMapBound n s = _
  simp only [execMapBound, hr, hact, hturn, if_true]

/-- The write-back of a map that is bound, in its turn and after its thread's earlier accesses, once every line can go (R164, R354). -/
theorem exec_mapWritebackDone_of_bound {s s1 : State} {n off : Nat} {keep : Bool} {r : Req} {t : Team} {m : SpadMap} (hr : s.req? n = some r)
    (hact : r.act = .unmap off keep) (ht : s.team? r.team = some t) (hturn : s.mapTurn r = true)
    (hm : t.maps.find? (fun m => m.off == off) = some m) (hfill : m.filling = []) (hord : s.inOrder r = true)
    (hback : s.writeBack t r.tid m (r.id + 1) m.dirtyLines = (true, s1)) :
    let s2 := s1.fillWritten r.team off (m.dirtyLines.filter fun l => Claims.clean s1 r.team off l)
    exec (.mapWritebackDone n) s = .next ((if keep then s2 else
      s2.modTeam r.team (fun t => { t with maps := t.maps.filter (fun m => m.off != off) })).endReq r) := by
  change execMapWritebackDone n s = _
  simp only [execMapWritebackDone, hr, hact, ht, hturn, hm, hfill, hord, hback]
  cases keep <;> rfl

/-- A map that is bound no more ends its write-back (R354). -/
theorem exec_mapWritebackDone_of_unbound {s : State} {n off : Nat} {keep : Bool} {r : Req} {t : Team} (hr : s.req? n = some r)
    (hact : r.act = .unmap off keep) (ht : s.team? r.team = some t) (hturn : s.mapTurn r = true)
    (hm : t.maps.find? (fun m => m.off == off) = none) : exec (.mapWritebackDone n) s = .next (s.endReq r) := by
  change execMapWritebackDone n s = _
  simp [execMapWritebackDone, hr, hact, ht, hturn, hm]

/-! ### The fill of a line of a map (R159) -/

/-- The line's bytes reach the scratchpad where nothing has been written, and the line is filled (R159). -/
theorem State.spadFill_eq (s : State) (k line : Nat) (bs : List Byte) :
    s.spadFill k line bs = (s.modTeam k (fun t => { t with
        spad := Claims.filledOver t line bs
        maps := t.maps.map fun m => if m.off ≤ line ∧ line < m.off + m.len then
          { m with filled := m.filled ++ [line], filling := m.filling.erase line } else m })).stirAll k line bs.length := by
  simp only [State.spadFill, Claims.filledOver, Bool.and_eq_true, decide_eq_true_eq]

section
variable {s : State} {k line : Nat} {t : Team} {m : SpadMap} {p : Place} (ht : s.team? k = some t) (hm : t.mapAt line = some m)
  (hp : m.filling.get? line = some p) (hn : p.node = none) (hh : s.holds t.pcore none p 128 = false) (hk : s.hub.keyOk p.key.toNat p.pa = true)
include ht hm hp hn hh hk

/-- The fill of a line that can be read. -/
theorem exec_mapLineFill_of_good {s1 : State} {bs : List Byte} (hb : s.badByte p.key.toNat p.pa 128 = none)
    (hload : s.loadBytes t.pcore p .dflt true 128 = (bs, s1)) : exec (.mapLineFill k line) s = .next (s1.spadFill k line bs) := by
  have hread (va : DWord) : s.readLine t.pcore p va = (.inr bs, s1) := by simp [State.readLine, hn, hk, hb, hload]
  change execMapLineFill k line s = _
  simp [execMapLineFill, ht, hm, hp, hn, hh, hread]

/-- The fill of a line with a byte that cannot be read (R413). -/
theorem exec_mapLineFill_of_bad {x : Nat} (hb : s.badByte p.key.toNat p.pa 128 = some x) :
    exec (.mapLineFill k line) s = .next ((s.spoil p.key.toNat p.pa 128).failFill k line
      { cause := 0x11, addr := m.va + BitVec.ofNat 64 (line - m.off) + BitVec.ofNat 64 (x - p.pa), info := 256 }) := by
  have hread (va : DWord) : s.readLine t.pcore p va = (.inl (lateOf cUncorrectable (va + BitVec.ofNat 64 (x - p.pa))),
    s.spoil p.key.toNat p.pa 128) := by simp [State.readLine, hn, hk, hb]
  change execMapLineFill k line s = _
  simp only [execMapLineFill, ht, hm, hp, hn, hh, hread]
  rfl

end

/-- Settles O17: each of the accesses by its own lemma. -/
theorem otherAccessesComplete : Obligations.OtherAccessesComplete := by
  unfold Obligations.OtherAccessesComplete
  refine ⟨⟨fun s n r t va p data hr hact hl hn ha hc ht hk hw => exec_redcCombined hr hact hl hn ha hc ht hk hw,
    fun s n r t ls drop hr hact ht hfree => exec_cacheOpComplete hr hact ht hfree,
    fun s n off len r va hr hact hturn => exec_mapBound hr hact hturn,
    fun s s1 n off keep r t hr hact ht hturn =>
      ⟨fun m hm hfill hord hback => exec_mapWritebackDone_of_bound hr hact ht hturn hm hfill hord hback,
        fun hm => exec_mapWritebackDone_of_unbound hr hact ht hturn hm⟩⟩,
    fun s k line t m p ht hm hp hn hh hk => ⟨fun s1 bs hb hload => ?_, fun x hb => exec_mapLineFill_of_bad ht hm hp hn hh hk hb⟩⟩
  rw [exec_mapLineFill_of_good ht hm hp hn hh hk hb hload, State.spadFill_eq]

/-! ### After an acquire, a fence, a sleep and WAITA (R174, R175, R366, R397) -/

section
variable {s : State} {k tid : Nat} {t : Team} {th : Thread} (ht : s.team? k = some t) (hth : s.thread? k tid = some th)
include ht hth

/-- A thread waits for its acquire, and the access may be performed. -/
theorem exec_acquireCheckComplete_of_access {i : Instr} {r : Req} (hst : th.st = .waiting .check) (hw : th.word = some i) (hi : ∀ o, i ≠ .fence o)
    (hr : (s.reqs.find? fun r => r.team == k && r.threads.contains tid && isAcq r.ord) = some r) (hc : s.canPerform r = true) :
    exec (.acquireCheckComplete k tid) s = .next (s.acquireDone r t) := by
  change execAcquireCheckComplete k tid s = _
  simp only [execAcquireCheckComplete, ht, hth, hst, hw, hr, hc, if_true]

/-- A thread waits at a FENCE, and its earlier reads are complete (R174). -/
theorem exec_acquireCheckComplete_of_fence {o : MemOp} (hst : th.st = .waiting .check) (hw : th.word = some (.fence o))
    (hreads : ∀ r ∈ s.reqs, r.team = k → tid ∈ r.threads → r.act.reads = false) :
    exec (.acquireCheckComplete k tid) s = .next (match s.fenceTrap t o.sc th.reads with
      | some tr => s.modThread k tid fun u => { u with st := .ready, since := s.now, used := 0, word := none, failed := some tr }
      | none => (s.modThread k tid fun u => { u.leave (.fence o) s.now with reads := [] }).l1Acquire t.pcore o.sc) := by
  have hnone : (s.reqs.any fun r => r.team == k && r.threads.contains tid && r.act.reads) = false := by
    rw [List.any_eq_false]
    intro r hr
    simpa using hreads r hr
  change execAcquireCheckComplete k tid s = _
  simp only [execAcquireCheckComplete, ht, hth, hst, hw, State.fenceDone, hnone]
  cases s.fenceTrap t o.sc th.reads <;> rfl

/-- A WAITA past its cycle (R366). -/
theorem exec_waitaTimeout {off n : Nat} {v : Word} {d : Reg} {next : DWord} (hst : th.st = .blocked (.waita off v d next (some n)))
    (hn : n ≤ s.now) : exec (.waitaTimeout k tid) s = .next ((s.modThread k tid fun th =>
      ((th.setReg d (BitVec.ofNat 32 (leNat (s.spadSee t tid off 4)))).wake s.now).moveTo next).l1Acquire t.pcore .pkg) := by
  change execWaitaTimeout k tid s = _
  simp only [execWaitaTimeout, ht, hth, hst, hn, if_true]

end

/-- A fence whose reads all pass has no trap to take (R174). -/
theorem State.fenceTrap_of_pass (s : State) (t : Team) (sc : Scope) {xs : List (DWord × Tag)}
    (h : ∀ x ∈ xs, tagPasses (some x.2) sc (s.agentOf t) = true) : s.fenceTrap t sc xs = none := by
  induction xs with
  | nil => rfl
  | cons x xs ih =>
    rw [State.fenceTrap, if_pos (h x (by simp))]
    exact ih fun y hy => h y (by simp [hy])

/-- The check of an access to local memory whose line is tagged, with the bits of TINFO (R175). -/
theorem State.checkTrap_of_tagged (s : State) {r : Req} (t : Team) {va : DWord} {p : Place} {tg : Tag} (hl : r.loc = .glob va p)
    (hn : p.node = none) (hg : s.tagOf p.pa = some tg) :
    s.checkTrap r t = if inScope tg.2 tg.1 (s.agentOf t) ∧ inScope (s.agentOf t) r.sc tg.2 then none else some
      { cause := 0x06, addr := va, info := BitVec.ofNat 32 (scopeCode tg.1 + 4 * scopeCode r.sc + if outside s.fab.node tg.2 then 16 else 0) } := by
  have hbit : 16 * b2n (outside s.fab.node tg.2) + 32 * b2n false = if outside s.fab.node tg.2 then 16 else 0 := by
    cases outside s.fab.node tg.2 <;> rfl
  have htrap : scopeTrap s.fab.node tg r.sc false va =
      { cause := 0x06, addr := va, info := BitVec.ofNat 32 (scopeCode tg.1 + 4 * scopeCode r.sc + if outside s.fab.node tg.2 then 16 else 0) } := by
    simp only [scopeTrap, Nat.add_assoc, hbit, cScope]
  simp only [State.checkTrap, hl, hn, hg, htrap, tagPasses, Bool.and_eq_true]
  rfl

/-- A thread whose SLEEP has ended (R397). -/
theorem exec_sleepExpire {s : State} {k tid till : Nat} {t : Thread} (ht : s.thread? k tid = some t) (hst : t.st = .blocked (.sleep till))
    (hn : till ≤ s.now) : exec (.sleepExpire k tid) s = .next (s.modThread k tid fun t => { t with st := .ready, since := s.now, used := 0 }) := by
  change execSleepExpire k tid s = _
  simp only [execSleepExpire, ht, hst, hn, if_true]
  rfl

/-- Settles O29: an acquire by its check, a fence by its reads, the rest by the cycle. -/
theorem waitersGoOn : Obligations.WaitersGoOn := by
  unfold Obligations.WaitersGoOn
  refine ⟨⟨fun s k tid t th i r d hnd ht hth hst hw hi hr hc => ?_, fun s k tid t th o ht hth hst hw hreads hpass => ?_,
    fun s k tid t th o tr ht hth hst hw hreads htrap => ?_, fun s r t va p tg hl hn hg => State.checkTrap_of_tagged s t hl hn hg⟩,
    fun s k tid till t ht hst hn => exec_sleepExpire ht hst hn,
    fun s k tid off n v d next t th ht hth hst hn => exec_waitaTimeout ht hth hst hn⟩
  · have hexec := exec_acquireCheckComplete_of_access ht hth hst hw hi hr hc
    refine ⟨fun tr htr => ?_, fun htr hact => ?_, fun op data htr hact => ?_⟩
    · rw [hexec, State.acquireDone, htr]
      rfl
    · rw [hexec, State.acquireDone, htr, hact]
      rfl
    · rw [hexec, State.acquireDone, htr, hact]
      rfl
  · rw [exec_acquireCheckComplete_of_fence ht hth hst hw hreads, State.fenceTrap_of_pass s t o.sc hpass]
  · rw [exec_acquireCheckComplete_of_fence ht hth hst hw hreads, htrap]

end Sys2Proof.Machine
end

section
/-!
PROOFS. How the pieces of a Saiga copy move and its scout probes (O24), and how a copy completes or is cancelled (O25).
-/
namespace Sys2Proof.Machine

/-! ### SAIGA_PIECE (R214 to R216) -/

/-- What the machine makes of the answer to moving n elements of destination i: they count, or the copy waits, stalls or ends (R214 to R216). -/
def State.settlePiece (q : Copy) (i : Nat) (x : Dest) (n : Nat) : Moved × State → State
  | (.done, t) => { t.advance q (descOf q.desc) i (x.moved + n) with saigaLast := t.saigaLast.put (quadIx q.pcore) q.slot }
  | (.wait, t) => t
  | (.fault k need va r l, t) => t.stallCopy q k need va r l
  | (.await fid, t) => t.modCopy q.id fun y => { y with fid := some fid }
  | (.fatal cause, t) => t.stopCopy q (.failed cause)

/-- The copy that a number names has that number. -/
theorem State.copy?_id {s : State} {c : Nat} {q : Copy} (hq : s.copy? c = some q) : q.id = c := by
  simpa using List.find?_some hq

/-- A piece that may move, of a copy whose lines all have names, comes to what its elements answer. -/
theorem exec_saigaPiece {s : State} {c i : Nat} {q : Copy} {x : Dest} (hq : s.copy? c = some q) (hx : q.dests[i]? = some x)
    (hruns : s.copyRuns q = true) (hcancel : q.cancel = false) (hfid : q.fid = none) (hown : q.unowned = false)
    (hmoved : x.moved < (descOf q.desc).count) (hcycle : s.runCycle (pcTower q.pcore) = true)
    (hpiece : s.pieceNow q (descOf q.desc) x.moved ≠ 0) :
    exec (.saigaPiece c i) s = .next (State.settlePiece q i x (s.pieceNow q (descOf q.desc) x.moved)
      (s.moveRange q (descOf q.desc) i x x.moved (s.pieceNow q (descOf q.desc) x.moved))) := by
  obtain rfl := State.copy?_id hq
  change execSaigaPiece q.id i s = _
  simp only [execSaigaPiece, hq, hx, hruns, hcancel, hfid, hown, hcycle, Nat.not_le.mpr hmoved, beq_eq_false_iff_ne.mpr hpiece,
    Option.isSome_none, Option.getD_some, Bool.not_true, Bool.or_false, decide_false, Bool.false_eq_true, if_false]
  rcases s.moveRange q (descOf q.desc) i x x.moved (s.pieceNow q (descOf q.desc) x.moved) with ⟨m, t⟩
  cases m <;> rfl

/-! ### SCOUT_PROBE (R198, R217) -/

section
variable {s t : State} {c : Nat} {q : Copy} {u : Team} {dst : Bool} {va : DWord} (hq : s.copy? c = some q) (hu : s.team? q.team = some u)
  (hprobe : q.toProbe = some (dst, va)) (hruns : s.copyRuns q = true) (hscout : (descOf q.desc).scout ≠ 0)
  (hreached : q.reached < (descOf q.desc).count)
include hq hu hprobe hruns hscout hreached

/-- A probe of a page that translates. -/
theorem exec_scoutProbe_of_ok {p : Place}
    (hlook : s.translate none (pcTower q.pcore) (s.root u) va (if dst then .store else .load) .dflt = (.ok p, t)) :
    exec (.scoutProbe c) s = .next (t.modCopy c fun q => { q with probed := q.probed.put (pageKey dst va) none }) := by
  change execScoutProbe c s = _
  simp only [execScoutProbe, hq, hu, hprobe, hruns, beq_eq_false_iff_ne.mpr hscout, Nat.not_le.mpr hreached, hlook, Bool.not_true, Bool.or_false,
    decide_false, Bool.false_eq_true, if_false]

/-- A probe of a page that faults, for which the fault table has an entry or room for one. -/
theorem exec_scoutProbe_of_fault {t2 : State} {r l fid : Nat}
    (hlook : s.translate none (pcTower q.pcore) (s.root u) va (if dst then .store else .load) .dflt = (.fault r l, t))
    (hopen : t.openFault (t.root u) va .scout r l (if dst then 2 else 1) (t.grid u) u.teamid (q.pcore / 4 * 4) = (some fid, t2)) :
    exec (.scoutProbe c) s = .next (t2.modCopy c fun q => { q with probed := q.probed.put (pageKey dst va) (some fid) }) := by
  change execScoutProbe c s = _
  simp only [execScoutProbe, hq, hu, hprobe, hruns, beq_eq_false_iff_ne.mpr hscout, Nat.not_le.mpr hreached, hlook, hopen, Bool.not_true,
    Bool.or_false, decide_false, Bool.false_eq_true, if_false]

end

/-! ### E2M1 to E4M3 (R213) -/

/-- The code of an E2M1 element: the low half of its byte at even places, the high half at odd ones (R213). -/
def Desc.nibble (d : Desc) (m : Nat) (b : Byte) : BitVec 4 :=
  if (d.coords m).1 % 2 = 0 then b.extractLsb' 0 4 else b.extractLsb' 4 4

theorem Desc.nibble_toNat (d : Desc) (m : Nat) (b : Byte) :
    (d.nibble m b).toNat = if (d.coords m).1 % 2 = 0 then b.toNat % 16 else b.toNat / 16 := by
  have hhigh : b.toNat / 16 < 16 := by omega
  unfold Desc.nibble
  split <;> simp [BitVec.extractLsb'_toNat, Nat.shiftRight_eq_div_pow, Nat.mod_eq_of_lt hhigh]

/-- An E2M1 element becomes the one byte that its code stands for. -/
theorem Desc.convert_e2m1 (d : Desc) (m : Nat) (b : Byte) (h : d.conv = 1) :
    d.convert m [b] = [BitVec.ofNat 8 (e2m1Byte (d.nibble m b).toNat)] := by
  rw [Desc.nibble_toNat]
  simp [Desc.convert, h, leNat, leBytes]

/-- The sixteen codes: the sign is that of E2M1, and the magnitude stands in the table of R213. -/
theorem e2m1Byte_sign_magnitude (n : BitVec 4) :
    (BitVec.ofNat 8 (e2m1Byte n.toNat)).msb = decide (8 ≤ n.toNat) ∧
    (BitVec.ofNat 8 (e2m1Byte n.toNat)).toNat % 128 = [0x00, 0x30, 0x38, 0x3C, 0x40, 0x44, 0x48, 0x4C].getD (n.toNat % 8) 0 := by
  revert n
  decide

/-- Settles O24: a piece by what its elements answer, a probe by its translation, and the sixteen codes of R213. -/
theorem piecesMove : Obligations.PiecesMove := by
  unfold Obligations.PiecesMove
  refine ⟨fun s c i q x hq hx hruns hcancel hfid hown hmoved hcycle hpiece => ?_,
    fun s t c q u dst va hq hu hprobe hruns hscout hreached =>
      ⟨fun p hlook => exec_scoutProbe_of_ok hq hu hprobe hruns hscout hreached hlook,
        fun r l fid t2 hlook hopen => exec_scoutProbe_of_fault hq hu hprobe hruns hscout hreached hlook hopen⟩,
    fun d m b hconv => ?_⟩
  · have hexec := exec_saigaPiece hq hx hruns hcancel hfid hown hmoved hcycle hpiece
    obtain rfl := State.copy?_id hq
    refine ⟨fun t h => ?_, fun t k need va r l h => ?_, fun t fid h => ?_, fun t cause h => ?_⟩ <;>
    · rw [hexec, h]
      rfl
  · obtain ⟨hsign, hmag⟩ := e2m1Byte_sign_magnitude (d.nibble m b)
    have hcode : ((d.nibble m b).zeroExtend 8).toNat = (d.nibble m b).toNat := by
      simp [Nat.mod_eq_of_lt (show (d.nibble m b).toNat < 256 by omega)]
    exact ⟨_, (d.nibble m b).zeroExtend 8, d.convert_e2m1 m b hconv, rfl, by rw [hcode]; exact hsign, by rw [hcode]; exact hmag⟩

/-! ### COPY_COMPLETE (R218, R224, R225) -/

/-- The status word of R225, its fields added. -/
theorem copyStatus_eq (e : Option Ending) (dropped : Bool) :
    copyStatus e dropped = BitVec.ofNat 32 ((if dropped then 1024 else 0) + match e with
      | none => 0
      | some .cancelled => 256
      | some (.failed cause) => 512 + cause.toNat) := by
  cases dropped <;> rcases e with _ | _ | _ <;> rfl

/-- A copy that has ended, or whose destinations have all received every element, completes. -/
theorem exec_copyComplete {s : State} {c : Nat} {q : Copy} (hq : s.copy? c = some q)
    (hend : q.ending ≠ none ∨ ∀ x ∈ q.dests, (descOf q.desc).count ≤ x.moved) :
    let d := descOf q.desc
    let drop := q.dests.any (·.dropped)
    let s1 := if drop then s.dropFlags q d q.dests else s
    let s2 := if d.nen then s1.notify q.team d else s1
    exec (.copyComplete c) s = .next ((({ s2 with copies := s2.copies.filter fun x => x.id != c } : State).resolve q.team q.tok
      (copyStatus q.ending drop)).l1Drop q.pcore) := by
  have hgo : (q.ending.isNone && !q.dests.all fun x => decide ((descOf q.desc).count ≤ x.moved)) = false := by
    rcases hend with h | h
    · simp [h]
    · simpa using fun _ => h
  change execCopyComplete c s = _
  simp only [execCopyComplete, hq, hgo, Bool.false_eq_true, if_false]

/-! ### COPY_CANCEL_STOP (R30, R226) -/

/-- The greatest of some numbers and a first one is not below the first. -/
theorem le_foldl_max {α : Type} (f : α → Nat) (bs : List α) (n : Nat) : n ≤ bs.foldl (fun n b => Nat.max n (f b)) n := by
  induction bs generalizing n with
  | nil => exact Nat.le_refl n
  | cons b bs ih => exact Nat.le_trans (Nat.le_max_left ..) (ih _)

/-- A destination stops not before what has moved, at the end of a sector or of the copy (R226). -/
theorem Copy.stopAt_spec (c : Copy) (d : Desc) (i : Nat) (x : Dest) (piece : Nat) (w : Word) (hm : x.moved < d.count) (hde : d.de ∣ 32) :
    x.moved ≤ c.stopAt d i x piece w ∧ (c.stopAt d i x piece w = d.count ∨ 32 ∣ c.stopAt d i x piece w * d.de) := by
  have hpos : 0 < d.de := Nat.pos_of_dvd_of_pos hde (by decide)
  have hlow := le_foldl_max (fun b : Nat × Nat => b.2 + 1) (c.ahead.filter fun b => b.1 == i) (x.moved * d.de)
  simp only [Copy.stopAt]
  generalize (c.ahead.filter fun b => b.1 == i).foldl _ _ = low at hlow ⊢
  generalize w.toNat % _ = k
  have hfirst : low ≤ ceilDiv low 32 * 32 := by unfold ceilDiv; omega
  have hstop : 32 ∣ ceilDiv low 32 * 32 + 32 * k := Nat.dvd_add (Nat.dvd_mul_left ..) (Nat.dvd_mul_right ..)
  refine ⟨Nat.le_min.mpr ⟨Nat.le_of_lt hm, (Nat.le_div_iff_mul_le hpos).mpr (by omega)⟩, ?_⟩
  rcases Nat.le_total d.count ((ceilDiv low 32 * 32 + 32 * k) / d.de) with h | h
  · exact .inl (Nat.min_eq_left h)
  · right
    rw [show Nat.min d.count _ = _ from Nat.min_eq_right h, Nat.div_mul_cancel (Nat.dvd_trans hde hstop)]
    exact hstop

/-- Where each destination stops: those that lack elements as `Copy.stopAt` says. -/
theorem State.stopTargets_spec (q : Copy) (d : Desc) (is : List Nat) (s : State) : ∀ e ∈ (s.stopTargets q d is).1, ∃ x, q.dests[e.1]? = some x ∧
    (x.moved < d.count → d.de ∣ 32 → x.moved ≤ e.2 ∧ (e.2 = d.count ∨ 32 ∣ e.2 * d.de)) := by
  induction is generalizing s with
  | nil => simp [State.stopTargets]
  | cons i is ih =>
    intro e he
    cases hx : q.dests[i]? with
    | none => exact ih s e (by simpa only [State.stopTargets, hx] using he)
    | some x =>
      simp only [State.stopTargets, hx, List.mem_cons] at he
      rcases he with rfl | he
      · refine ⟨x, hx, fun hm hde => ?_⟩
        rw [if_neg (Nat.not_le.mpr hm)]
        exact q.stopAt_spec d i x _ _ hm hde
      · exact ih _ e he

/-- Some destination lacks elements: not all have received every one. -/
theorem all_moved_eq_false {ds : List Dest} {n : Nat} (h : ∃ x ∈ ds, x.moved < n) : (ds.all fun x => decide (n ≤ x.moved)) = false := by
  simpa using h

section
variable {s : State} {c : Nat} {q : Copy} (hq : s.copy? c = some q) (hcancel : q.cancel = true) (hend : q.ending = none)
include hq hcancel hend

/-- A cancelled copy that is stalled stops at once. -/
theorem exec_copyCancelStop_of_stalled (hleft : ∃ x ∈ q.dests, x.moved < (descOf q.desc).count) (hst : s.copyStalled q = true) :
    exec (.copyCancelStop c) s = .next (s.stopCopy q .cancelled) := by
  change execCopyCancelStop c s = _
  simp [execCopyCancelStop, hq, hcancel, hend, all_moved_eq_false hleft, hst]

/-- One that is not stalled waits for a cycle that the throttle allows (R30). -/
theorem exec_copyCancelStop_of_throttled (hst : s.copyStalled q = false) (hcycle : s.runCycle (pcTower q.pcore) = false) :
    exec (.copyCancelStop c) s = .next s := by
  change execCopyCancelStop c s = _
  simp [execCopyCancelStop, hq, hcancel, hend, hst, hcycle]

/-- One that memory lets finish its sectors in progress stops after them. -/
theorem exec_copyCancelStop_of_finished {ms : List (Nat × Nat)} {u : State} {q' : Copy}
    (hleft : ∃ x ∈ q.dests, x.moved < (descOf q.desc).count) (hst : s.copyStalled q = false)
    (hcycle : s.runCycle (pcTower q.pcore) = true) (hms : s.stopTargets q (descOf q.desc) (List.range q.dests.length) = (ms, u))
    (hwait : ∀ e ∈ ms, u.sectorWaits q (descOf q.desc) e = none) (hq' : (u.finishSectors c (descOf q.desc) ms).copy? c = some q')
    (hleft' : ∃ x ∈ q'.dests, x.moved < (descOf q.desc).count) :
    exec (.copyCancelStop c) s = .next ((u.finishSectors c (descOf q.desc) ms).stopCopy q' .cancelled) := by
  have hnone : ms.findSome? (u.sectorWaits q (descOf q.desc)) = none := List.findSome?_eq_none_iff.mpr hwait
  change execCopyCancelStop c s = _
  simp [execCopyCancelStop, hq, hcancel, hend, all_moved_eq_false hleft, all_moved_eq_false hleft', hst, hcycle, hms, hnone, hq']

end

/-- Settles O25: a completion by its order, a cancellation by whether the copy is stalled and where its sectors end. -/
theorem copiesEnd : Obligations.CopiesEnd := by
  unfold Obligations.CopiesEnd
  refine ⟨fun s c q hq hend => ?_, fun s c q hq hcancel hend hleft => ⟨fun hst => ?_, fun hst hcycle => ?_,
    fun ms u q' hst hcycle hms => ⟨fun e he => ?_, fun hwait hq' hleft' => ?_⟩⟩⟩
  · rw [exec_copyComplete hq hend, copyStatus_eq]
    rfl
  · rw [exec_copyCancelStop_of_stalled hq hcancel hend hleft hst]
    rfl
  · exact exec_copyCancelStop_of_throttled hq hcancel hend hst hcycle
  · exact State.stopTargets_spec q _ _ s e (by rwa [hms])
  · exact exec_copyCancelStop_of_finished hq hcancel hend hleft hst hcycle hms hwait hq' hleft'

end Sys2Proof.Machine
end

section
/-!
PROOFS. How Oryx starts a pass, fails it at an error and retires it (O27; R229, R241 to R243).
-/
namespace Sys2Proof.Machine

/-! ### Tables, sorted lists and streams -/

/-- A key just written reads what was written. -/
@[simp] theorem Table.getD_put_self {α : Type} (t : Table α) (k : Nat) (v d : α) : (t.put k v).getD k d = v := by
  induction t with
  | nil => simp [Table.put, Table.getD, Table.get?]
  | cons e t ih =>
    obtain ⟨j, w⟩ := e
    rcases Nat.lt_trichotomy k j with hlt | rfl | hgt
    · simp [Table.put, hlt, Table.getD, Table.get?]
    · simp [Table.put, Table.getD, Table.get?]
    · have hskip : Table.put ((j, w) :: t) k v = (j, w) :: Table.put t k v := by
        rw [Table.put, if_neg (by omega), if_neg (by omega)]
      rw [hskip, Table.getD, Table.get?, if_neg (by omega)]
      exact ih

theorem mem_of_mem_insertBy {α : Type} {lt : α → α → Bool} {x y : α} {l : List α} (h : x ∈ insertBy lt y l) : x = y ∨ x ∈ l := by
  induction l with
  | nil => simpa [insertBy] using h
  | cons z l ih =>
    unfold insertBy at h
    split at h
    · rcases List.mem_cons.mp h with rfl | h
      · simp
      · exact (ih h).imp_right (List.mem_cons_of_mem z)
    · exact List.mem_cons.mp h

/-- Sorting adds no element. -/
theorem mem_of_mem_sortBy {α : Type} {lt : α → α → Bool} {x : α} {l : List α} (h : x ∈ sortBy lt l) : x ∈ l := by
  induction l with
  | nil => exact h
  | cons y l ih =>
    rcases mem_of_mem_insertBy h with rfl | h
    · exact List.mem_cons_self
    · exact List.mem_cons_of_mem y (ih h)

/-- The stream that a team and a FIFO name is theirs. -/
theorem State.stream_names (s : State) (k : Nat) (f : BitVec 3) : (s.stream k f).team = k ∧ (s.stream k f).fifo = f := by
  unfold State.stream
  cases h : s.streams.find? fun x => x.team == k && x.fifo == f with
  | none => exact ⟨rfl, rfl⟩
  | some x => simpa using List.find?_some h

/-- Nothing that a filter drops is found behind it. -/
theorem find?_filter_not_self {α : Type} (l : List α) (p : α → Bool) : (l.filter fun x => !p x).find? p = none := by
  simp [List.find?_eq_none]

/-- A filter that drops nothing sought does not change what is found. -/
theorem find?_filter_not_of_disjoint {α : Type} (l : List α) {p q : α → Bool} (h : ∀ x, q x = true → p x = false) :
    (l.filter fun x => !p x).find? q = l.find? q := by
  rw [List.find?_filter]
  congr 1
  funext x
  cases hq : q x with
  | false => simp
  | true => simp [h x hq]

/-- A stream that owes nothing is found as it was put (R243). -/
theorem State.stream_putStream_self (s : State) (x : Stream) (ho : x.owed = []) : (s.putStream x).stream x.team x.fifo = x := by
  have hx : { x with owed := [] } = x := by rw [← ho]
  simp only [State.stream, State.putStream, ho, pullOwed, List.find?_append,
    find?_filter_not_self s.streams fun y => y.team == x.team && y.fifo == x.fifo]
  simpa using hx

/-- Putting a stream leaves every other one. -/
theorem State.stream_putStream_of_ne (s : State) (x : Stream) (k : Nat) (f : BitVec 3) (hne : ¬(x.team = k ∧ x.fifo = f)) :
    (s.putStream x).stream k f = s.stream k f := by
  have hother (y : Stream) (hy : (y.team == k && y.fifo == f) = true) : (y.team == x.team && y.fifo == x.fifo) = false := by
    simp only [Bool.and_eq_true, beq_iff_eq] at hy
    obtain ⟨rfl, rfl⟩ := hy
    refine Bool.eq_false_iff.mpr fun h => hne ?_
    obtain ⟨hteam, hfifo⟩ : y.team = x.team ∧ y.fifo = x.fifo := by simpa using h
    exact ⟨hteam.symm, hfifo.symm⟩
  have hx : (x.team == k && x.fifo == f) = false := by simpa using hne
  simp only [State.stream, State.putStream, List.find?_append, find?_filter_not_of_disjoint s.streams hother, List.find?_cons, hx,
    List.find?_nil, Option.or_none]

/-- A pass takes its block from the front of a stream that owes nothing (R234). -/
theorem State.bytes_takeStream_self (s : State) (k : Nat) (f : BitVec 3) (n : Nat) (ho : (s.stream k f).owed = []) :
    ((s.takeStream k f n).stream k f).bytes = (s.stream k f).bytes.drop n := by
  obtain ⟨hteam, hfifo⟩ := s.stream_names k f
  have hput := s.stream_putStream_self { s.stream k f with bytes := (s.stream k f).bytes.drop n } ho
  rw [hteam, hfifo] at hput
  exact congrArg Stream.bytes hput

/-- A take leaves the streams on the other FIFOs. -/
theorem State.stream_takeStream_of_ne (s : State) (k n : Nat) {f g : BitVec 3} (hne : f ≠ g) :
    (s.takeStream k f n).stream k g = s.stream k g := by
  obtain ⟨-, hfifo⟩ := s.stream_names k f
  exact s.stream_putStream_of_ne _ k g fun h => hne (hfifo.symm.trans h.2)

/-! ### MMAs and futures -/

/-- An MMA changed under its own number is found changed. -/
theorem State.mma?_modMma_self (s : State) (n : Nat) (f : Mma → Mma) (hid : ∀ x, (f x).id = x.id) :
    (s.modMma n f).mma? n = (s.mma? n).map f := by
  have hfind : (s.modMma n f).mma? n = (s.mma? n).map fun x => if x.id == n then f x else x :=
    find?_map_if s.mmas (fun x => x.id == n) (fun x => x.id == n) f fun x => by rw [hid]
  rw [hfind]
  cases hm : s.mma? n with
  | none => rfl
  | some m =>
    have hn : m.id = n := by simpa using List.find?_some hm
    simp [hn]

/-- The future of a team that a token names. -/
def State.future? (s : State) (k : Nat) (tok : Word) : Option Future := (s.team? k).bind fun t => t.future? tok

theorem State.future?_of_team {s : State} {k : Nat} {t : Team} {tok : Word} {f : Future} (ht : s.team? k = some t) (hf : t.future? tok = some f) :
    s.future? k tok = some f := by
  rw [State.future?, ht]
  exact hf

/-- A token names a future by its sequence number and kind (R371). -/
def Future.namedBy (tok : Word) (f : Future) : Bool := f.seq == (tok.extractLsb' 0 30).toNat && f.kind == tok.extractLsb' 30 2

/-- A future resolved with a status (R373). -/
def Future.settle (st : Word) (f : Future) : Future := { f with resolved := true, status := st }

/-- Team k's future that a token names stands resolved with a status. -/
def State.Settled (s : State) (k : Nat) (tok st : Word) : Prop := ∃ f, s.future? k tok = some f ∧ f.resolved = true ∧ f.status = st

theorem State.Settled.exists_future {s : State} {k : Nat} {tok st : Word} (h : s.Settled k tok st) :
    ∃ t f, s.team? k = some t ∧ t.future? tok = some f ∧ f.resolved = true ∧ f.status = st := by
  obtain ⟨f, hf, hres, hst⟩ := h
  obtain ⟨t, ht, hf⟩ := Option.bind_eq_some_iff.mp hf
  exact ⟨t, f, ht, hf, hres, hst⟩

theorem Team.future?_namedBy {t : Team} {tok : Word} {f : Future} (h : t.future? tok = some f) : f.namedBy tok = true := by
  unfold Team.future? at h
  simp only [] at h
  split at h
  · cases h
  · exact List.find?_some h

theorem State.future?_namedBy {s : State} {k : Nat} {tok : Word} {f : Future} (h : s.future? k tok = some f) : f.namedBy tok = true := by
  obtain ⟨t, -, hf⟩ := Option.bind_eq_some_iff.mp h
  exact Team.future?_namedBy hf

/-- A team with the future that a token names resolved, and its status delivered (R148, R149, R373). -/
def Team.settle (t : Team) (tok st : Word) (now : Nat) : Team := { t with
  futures := t.futures.map fun f => if f.namedBy tok then f.settle st else f
  threads := t.threads.map fun th =>
    if t.status == .saved then { th.deliver tok st now with st := th.st, since := th.since } else th.deliver tok st now }

theorem State.resolve_eq (s : State) (k : Nat) (tok st : Word) : s.resolve k tok st = s.modTeam k fun t => t.settle tok st s.now := rfl

/-- A resolve changes the future that its token names, and no other. -/
theorem Team.future?_settle (t : Team) (tok tok' st : Word) (now : Nat) :
    (t.settle tok st now).future? tok' = (t.future? tok').map fun f => if f.namedBy tok then f.settle st else f := by
  unfold Team.future?
  simp only []
  split
  · rfl
  · exact find?_map_if t.futures (Future.namedBy tok) (Future.namedBy tok') (Future.settle st) fun _ => rfl

/-- A resolve settles the future that its token names in its team, and leaves every other (R373). -/
theorem State.future?_resolve (s : State) (k j : Nat) (tok tok' st : Word) :
    (s.resolve k tok st).future? j tok' = (s.future? j tok').map fun f => if j = k ∧ f.namedBy tok then f.settle st else f := by
  rw [State.future?, State.resolve_eq, State.team?_modTeam s k j (fun t => t.settle tok st s.now) fun _ => rfl, State.future?]
  by_cases hj : j = k
  · cases s.team? j with
    | none => simp
    | some t => simpa [hj] using t.future?_settle tok tok' st s.now
  · simp [hj]

/-- The future that a resolve names stands resolved. -/
theorem State.settled_resolve_self {s : State} {k : Nat} {tok : Word} {f : Future} (st : Word) (h : s.future? k tok = some f) :
    (s.resolve k tok st).Settled k tok st := by
  refine ⟨f.settle st, ?_, rfl, rfl⟩
  simp [State.future?_resolve, h, State.future?_namedBy h]

/-- A future that stands resolved with a status does so after another resolve with it. -/
theorem State.Settled.resolve {s : State} {j : Nat} {tok' st : Word} (h : s.Settled j tok' st) (k : Nat) (tok : Word) :
    (s.resolve k tok st).Settled j tok' st := by
  obtain ⟨f, hf, hres, hst⟩ := h
  by_cases hn : j = k ∧ f.namedBy tok = true
  · exact ⟨f.settle st, by rw [State.future?_resolve, hf, Option.map_some, if_pos hn], rfl, rfl⟩
  · exact ⟨f, by rw [State.future?_resolve, hf, Option.map_some, if_neg hn], hres, hst⟩

/-! ### The sweep of the reservation table (R242, R243) -/

/-- An MMA leaves the reservation table, and its future resolves (R242, R243). -/
def State.settleMma (s : State) (m : Mma) (st : Word) : State := ({ s with mmas := s.mmas.filter fun x => x.id != m.id }).resolve m.team m.tok st

theorem State.mem_settleMma_mmas {s : State} {m x : Mma} {st : Word} : x ∈ (s.settleMma m st).mmas ↔ x ∈ s.mmas ∧ x.id ≠ m.id := by
  simp [State.settleMma]

theorem State.mma?_settleMma_self (s : State) (m : Mma) (st : Word) : (s.settleMma m st).mma? m.id = none := by
  simp [State.settleMma, State.mma?, List.find?_eq_none]

theorem State.future?_settleMma (s : State) (m : Mma) (j : Nat) (tok st : Word) :
    (s.settleMma m st).future? j tok = (s.future? j tok).map fun f => if j = m.team ∧ f.namedBy m.tok then f.settle st else f :=
  State.future?_resolve ..

theorem State.settled_settleMma_self {s : State} {m : Mma} {f : Future} (st : Word) (h : s.future? m.team m.tok = some f) :
    (s.settleMma m st).Settled m.team m.tok st := State.settled_resolve_self (s := { s with mmas := _ }) st h

/-- The sweep takes the MMAs one by one: one that has ended and whose started passes have retired leaves the table. -/
theorem State.sweepMmas_cons (s : State) (m : Mma) (ms : List Mma) : s.sweepMmas (m :: ms) =
    (if m.ending.isSome = true ∧ m.started = m.retired then s.settleMma m (mmaStatus m.ending) else s).sweepMmas ms := by
  by_cases h : m.ending.isSome = true ∧ m.started = m.retired <;> simp [State.sweepMmas, State.settleMma, h]

/-- The sweep adds no MMA. -/
theorem State.mem_of_mem_sweepMmas {x : Mma} {s : State} {ms : List Mma} (h : x ∈ (s.sweepMmas ms).mmas) : x ∈ s.mmas := by
  induction ms generalizing s with
  | nil => exact h
  | cons m ms ih =>
    rw [State.sweepMmas_cons] at h
    split at h
    · exact (State.mem_settleMma_mmas.mp (ih h)).1
    · exact ih h

/-- An MMA that the sweep ends leaves the reservation table. -/
theorem State.id_ne_of_mem_sweepMmas {x m : Mma} {s : State} {ms : List Mma} (hm : m ∈ ms) (hend : m.ending.isSome = true)
    (hret : m.started = m.retired) (h : x ∈ (s.sweepMmas ms).mmas) : x.id ≠ m.id := by
  induction ms generalizing s with
  | nil => cases hm
  | cons y ms ih =>
    rw [State.sweepMmas_cons] at h
    rcases List.mem_cons.mp hm with rfl | hm
    · rw [if_pos ⟨hend, hret⟩] at h
      exact (State.mem_settleMma_mmas.mp (State.mem_of_mem_sweepMmas h)).2
    · exact ih hm h

/-- A future that stands resolved with a status keeps it through a sweep of MMAs that all end with it. -/
theorem State.Settled.sweepMmas {s : State} {k : Nat} {tok st : Word} {ms : List Mma} (h : s.Settled k tok st)
    (hst : ∀ m ∈ ms, mmaStatus m.ending = st) : (s.sweepMmas ms).Settled k tok st := by
  induction ms generalizing s with
  | nil => exact h
  | cons m ms ih =>
    rw [State.sweepMmas_cons, hst m List.mem_cons_self]
    refine ih ?_ fun x hx => hst x (List.mem_cons_of_mem m hx)
    split
    · exact State.Settled.resolve (s := { s with mmas := _ }) h _ _
    · exact h

/-- The future of an MMA that the sweep ends is resolved with the status with which all of the swept end. -/
theorem State.settled_sweepMmas {s : State} {m : Mma} {f : Future} {st : Word} {ms : List Mma} (hm : m ∈ ms) (hend : m.ending.isSome = true)
    (hret : m.started = m.retired) (hst : ∀ x ∈ ms, mmaStatus x.ending = st) (hf : s.future? m.team m.tok = some f) :
    (s.sweepMmas ms).Settled m.team m.tok st := by
  induction ms generalizing s f with
  | nil => cases hm
  | cons y ms ih =>
    have hrest : ∀ x ∈ ms, mmaStatus x.ending = st := fun x hx => hst x (List.mem_cons_of_mem y hx)
    rw [State.sweepMmas_cons, hst y List.mem_cons_self]
    rcases List.mem_cons.mp hm with rfl | hm
    · rw [if_pos ⟨hend, hret⟩]
      exact (State.settled_settleMma_self st hf).sweepMmas hrest
    · split
      · exact ih hm hrest (by rw [State.future?_settleMma, hf, Option.map_some])
      · exact ih hm hrest hf

/-! ### PASS_START (R229, R241, R242) -/

/-- The MMA whose pass starts is in the reservation table. -/
theorem State.mem_of_nextMma {s : State} {q : Nat} {m : Mma} (h : s.nextMma q = some m) : m ∈ s.mmas :=
  (List.mem_filter.mp (mem_of_mem_sortBy (List.mem_of_head? h))).1

/-- With the array free, a pass of the chosen MMA starts, or fails it. -/
theorem exec_passStart {s : State} {q : BitVec 9} {m : Mma} {t : Team} (hfree : ∀ p ∈ s.passes, p.quadIx = q.toNat → p.start + 32 ≤ s.now)
    (hroom : s.passRoom q.toNat = true) (hm : s.nextMma q.toNat = some m) (ht : s.team? m.team = some t) :
    exec (.passStart q) s = .next (if s.passMet m t then s.failPass m t else s.startPass m t) := by
  have hnone : (s.passes.any fun p => p.quadIx == q.toNat && decide (s.now < p.start + 32)) = false := by
    simpa using hfree
  change execPassStart q s = _
  simp [execPassStart, hnone, hroom, hm, ht]

/-- The new value of the element of row i and column c of the tile of an MMA's next pass (R241). -/
def State.nextValue (s : State) (m : Mma) (t : Team) (i c : Nat) : Nat :=
  let b := blockOf m.block
  let row := t.base.toNat + b.tile m.started
  passValue b (b.dOf m.started) i c (if b.zf && (b.pass m.started).2.2 == 0 then 0 else (s.accNow m.quadIx (row + i) c).toNat)
    (s.scaleAt m.quadIx (2 * t.base.toNat + b.scaleA m.started + i)) (s.scaleAt m.quadIx (2 * t.base.toNat + b.scaleB m.started))
    ((s.stream m.team b.af).bytes.take (b.blockBytes m.started)) ((s.stream m.team b.bf).bytes.take (b.blockBytes m.started))

/-- The next pass of an MMA, as it goes into the array. -/
def State.nextPass (s : State) (m : Mma) (t : Team) : Pass :=
  let row := t.base.toNat + (blockOf m.block).tile m.started
  { mma := m.id, quadIx := m.quadIx, team := m.team, row := row, start := s.now
    vals := (List.range 128).flatMap fun i => (List.range 128).map fun c => ((row + i) * 128 + c, BitVec.ofNat 32 (s.nextValue m t i c)) }

/-- The state with an MMA's next pass counted and its blocks taken. -/
def State.takeBlocks (s : State) (m : Mma) : State :=
  let b := blockOf m.block
  ((s.modMma m.id fun x => { x with started := m.started + 1 }).takeStream m.team b.af (b.blockBytes m.started)).takeStream m.team b.bf
    (b.blockBytes m.started)

theorem State.startPass_eq (s : State) (m : Mma) (t : Team) : s.startPass m t = { s.takeBlocks m with
    passes := s.passes ++ [s.nextPass m t]
    passWin := s.passWin.put m.quadIx (s.now / 256,
      (if (s.passWin.getD m.quadIx (0, 0)).1 == s.now / 256 then (s.passWin.getD m.quadIx (0, 0)).2 else 0) + 1) } := rfl

/-- A pass has a value for each element of its tile. -/
theorem State.length_nextPass_vals (s : State) (m : Mma) (t : Team) : (s.nextPass m t).vals.length = 16384 := by
  simp only [State.nextPass, List.length_flatMap, List.length_map, List.length_range, List.map_const', List.sum_replicate_nat]

theorem State.mem_nextPass_vals (s : State) (m : Mma) (t : Team) {i c : Nat} (hi : i < 128) (hc : c < 128) :
    (((s.nextPass m t).row + i) * 128 + c, BitVec.ofNat 32 (s.nextValue m t i c)) ∈ (s.nextPass m t).vals :=
  List.mem_flatMap.mpr ⟨i, List.mem_range.mpr hi, List.mem_map.mpr ⟨c, List.mem_range.mpr hc, rfl⟩⟩

/-- Each of a pass's two blocks leaves its FIFO from the front of a stream that owes nothing (R234). -/
theorem State.bytes_takeBlocks (s : State) (m : Mma) {f : BitVec 3} (hne : (blockOf m.block).af ≠ (blockOf m.block).bf)
    (hf : f = (blockOf m.block).af ∨ f = (blockOf m.block).bf) (ho : (s.stream m.team f).owed = []) :
    ((s.takeBlocks m).stream m.team f).bytes = (s.stream m.team f).bytes.drop ((blockOf m.block).blockBytes m.started) := by
  unfold State.takeBlocks
  rcases hf with rfl | rfl
  · rw [State.stream_takeStream_of_ne _ _ _ hne.symm]
    exact State.bytes_takeStream_self _ _ _ _ ho
  · have hstream (u : State) (n : Nat) : (u.takeStream m.team (blockOf m.block).af n).stream m.team (blockOf m.block).bf =
        u.stream m.team (blockOf m.block).bf := State.stream_takeStream_of_ne u _ _ hne
    rw [State.bytes_takeStream_self _ _ _ _ (by rw [hstream]; exact ho), hstream]
    rfl

/-! ### A pass that meets an error (R243) -/

@[simp] theorem State.dropRest_teams (s : State) (m : Mma) (e : Ending) : (s.dropRest m e).teams = s.teams := by
  unfold State.dropRest
  simp only []
  split <;> rfl

@[simp] theorem State.dropRest_passes (s : State) (m : Mma) (e : Ending) : (s.dropRest m e).passes = s.passes := by
  unfold State.dropRest
  simp only []
  split <;> rfl

theorem State.dropRest_mmas (s : State) (m : Mma) (e : Ending) :
    (s.dropRest m e).mmas = s.mmas.map fun x => if x.id == m.id then { x with ending := some e } else x := by
  unfold State.dropRest
  simp only []
  split <;> rfl

/-- The state in which an MMA has failed, before the sweep of its entry. -/
def State.failedMma (s : State) (m : Mma) (t : Team) : State :=
  let row := t.base.toNat + (blockOf m.block).tile m.started
  let (vs, u) := (s.dropRest m (.failed cUncorrectable)).freeRows row 128
  let u := u.setRows m.quadIx row 128 vs
  { u with passes := u.passes.map fun (p : Pass) => if p.quadIx == m.quadIx && p.row == row then { p with vals := vs } else p }

theorem State.failPass_eq (s : State) (m : Mma) (t : Team) :
    s.failPass m t = (s.failedMma m t).sweepMmas ((s.failedMma m t).mmas.filter fun x => x.id == m.id) := rfl

theorem State.failedMma_mmas (s : State) (m : Mma) (t : Team) :
    (s.failedMma m t).mmas = s.mmas.map fun x => if x.id == m.id then { x with ending := some (.failed cUncorrectable) } else x :=
  s.dropRest_mmas m _

theorem State.failedMma_future? (s : State) (m : Mma) (t : Team) (k : Nat) (tok : Word) : (s.failedMma m t).future? k tok = s.future? k tok := by
  have hteams : (s.failedMma m t).teams = s.teams := s.dropRest_teams m _
  simp only [State.future?, State.team?, hteams]

theorem State.failPass_passes_length (s : State) (m : Mma) (t : Team) : (s.failPass m t).passes.length = s.passes.length := by
  have hmap : (s.failedMma m t).passes.length = (s.dropRest m (.failed cUncorrectable)).passes.length := List.length_map _
  rw [s.failPass_eq, State.sweepMmas_keeps State.passes (fun _ _ _ _ => rfl), hmap, State.dropRest_passes]

/-- Every entry under the number of an MMA that failed has failed. -/
theorem State.ending_of_failedMma {s : State} {m x : Mma} {t : Team} (hx : x ∈ (s.failedMma m t).mmas) (hid : x.id = m.id) :
    x.ending = some (.failed 0x11) := by
  rw [State.failedMma_mmas] at hx
  obtain ⟨y, -, rfl⟩ := List.mem_map.mp hx
  split
  · rfl
  case isFalse h =>
    rw [if_neg h] at hid
    simp [hid] at h

/-- What is left under the number of an MMA that failed has failed, with passes yet to retire. -/
theorem State.failPass_mma? {s : State} {m x : Mma} {t : Team} (h : (s.failPass m t).mma? m.id = some x) :
    x.ending = some (.failed 0x11) ∧ x.started ≠ x.retired := by
  have hid : x.id = m.id := by simpa using List.find?_some h
  have hmem : x ∈ (s.failPass m t).mmas := List.mem_of_find?_eq_some h
  rw [State.failPass_eq] at hmem
  have hfailed := State.mem_of_mem_sweepMmas hmem
  have hend := State.ending_of_failedMma hfailed hid
  refine ⟨hend, fun hret => ?_⟩
  have hswept : x ∈ (s.failedMma m t).mmas.filter fun y => y.id == m.id := List.mem_filter.mpr ⟨hfailed, by simpa using hid⟩
  exact State.id_ne_of_mem_sweepMmas hswept (by simp [hend]) hret hmem rfl

/-- An MMA that failed with no pass in flight leaves the table, its future resolved with 0x211 (R243). -/
theorem State.failPass_of_retired {s : State} {m : Mma} (t : Team) (hm : m ∈ s.mmas) (hret : m.started = m.retired) :
    (s.failPass m t).mma? m.id = none ∧
      ∀ f, s.future? m.team m.tok = some f → (s.failPass m t).Settled m.team m.tok 0x211 := by
  have hswept : { m with ending := some (.failed cUncorrectable) } ∈ (s.failedMma m t).mmas.filter fun y => y.id == m.id := by
    refine List.mem_filter.mpr ⟨?_, by simp⟩
    rw [State.failedMma_mmas]
    exact List.mem_map.mpr ⟨m, hm, by simp⟩
  rw [State.failPass_eq]
  constructor
  · refine List.find?_eq_none.mpr fun x hx => ?_
    simpa using State.id_ne_of_mem_sweepMmas hswept rfl hret hx
  · intro f hf
    refine State.settled_sweepMmas (m := { m with ending := some (.failed cUncorrectable) }) hswept rfl hret (fun x hx => ?_)
      (by rw [State.failedMma_future?]; exact hf)
    obtain ⟨hx, hid⟩ := List.mem_filter.mp hx
    rw [State.ending_of_failedMma hx (by simpa using hid)]
    rfl

/-! ### PASS_RETIRE (R229, R243) -/

/-- The state in which a pass has written its tile and counts as retired, before its MMA ends. -/
def State.retirePass (s : State) (p : Pass) : State :=
  ({ s with passes := s.passes.erase p }.setRows p.quadIx p.row 128 p.vals).modMma p.mma fun m => { m with retired := m.retired + 1 }

theorem State.retirePass_mma? {s : State} {p : Pass} {m : Mma} (h : s.mma? p.mma = some m) :
    (s.retirePass p).mma? p.mma = some { m with retired := m.retired + 1 } := by
  unfold State.retirePass
  rw [State.mma?_modMma_self _ p.mma (fun m => { m with retired := m.retired + 1 }) fun _ => rfl]
  exact congrArg (Option.map _) h

theorem exec_passRetire {s : State} {q : BitVec 9} {p : Pass} {m : Mma} (hp : (s.passes.find? fun p => p.quadIx == q.toNat) = some p)
    (hold : p.start + 56 ≤ s.now) (hm : s.mma? p.mma = some m) :
    exec (.passRetire q) s = .next ((s.retirePass p).endMma { m with retired := m.retired + 1 }) := by
  have hmma := State.retirePass_mma? hm
  unfold State.retirePass at hmma ⊢
  change execPassRetire q s = _
  simp only [execPassRetire, hp, if_neg (Nat.not_lt.mpr hold), hmma]

/-- The end of an MMA changes teams and MMAs at most. -/
theorem State.endMma_keeps {α : Type} (g : State → α) (h : ∀ (s : State) ts ms ss, g { s with teams := ts, mmas := ms, streams := ss } = g s)
    (s : State) (m : Mma) : g (s.endMma m) = g s := by
  unfold State.endMma
  split
  · exact h s _ _ s.streams
  · exact State.sweepMmas_keeps g h s _

theorem State.endMma_of_unfinished (s : State) {m : Mma} (hend : m.ending = none) (hret : m.retired ≠ (blockOf m.block).passes) :
    s.endMma m = s := by
  simp [State.endMma, State.sweepMmas, hend, hret]

/-- An MMA whose last pass has retired leaves the table with status 0 (R243). -/
theorem State.endMma_of_finished (s : State) {m : Mma} (hend : m.ending = none) (hret : m.retired = (blockOf m.block).passes) :
    s.endMma m = s.settleMma m 0 := by
  simp [State.endMma, State.settleMma, hend, hret]

/-- Settles O27: a start by the next pass and the blocks it takes, a failure by the sweep of its entry, a retirement by whether the pass is the last. -/
theorem passesRun : Obligations.PassesRun := by
  unfold Obligations.PassesRun
  refine ⟨fun s q m t hfree hroom hm ht hmet => ?_, fun s q m t hfree hroom hm ht hmet => ?_, fun s q p m hp hold hm hend => ?_⟩
  · refine ⟨s.startPass m t, s.nextPass m t, by simp [exec_passStart hfree hroom hm ht, hmet], rfl, rfl, rfl, rfl, rfl,
      s.length_nextPass_vals m t, ?_, ?_, fun f hne hf ho => s.bytes_takeBlocks m hne hf ho, fun i hi c hc => ?_⟩
    · rw [State.startPass_eq]
      exact List.map_congr_left fun x _ => by simp
    · simp [State.startPass_eq]
    · simpa [State.nextValue, State.nextPass] using s.mem_nextPass_vals m t hi hc
  · refine ⟨s.failPass m t, by simp [exec_passStart hfree hroom hm ht, hmet], s.failPass_passes_length m t,
      fun x hx => State.failPass_mma? hx, fun hret => ?_⟩
    obtain ⟨hnone, hfut⟩ := State.failPass_of_retired t (State.mem_of_nextMma hm) hret
    exact ⟨hnone, fun f hf => (hfut f (State.future?_of_team ht hf)).exists_future⟩
  · refine ⟨_, exec_passRetire hp hold hm, State.endMma_keeps State.passes (fun _ _ _ _ => rfl) .., ?_, fun hmore => ?_, fun hlast => ?_⟩
    · rw [State.endMma_keeps State.acc fun _ _ _ _ => rfl]
      exact Table.getD_put_self ..
    · rw [State.endMma_of_unfinished (s.retirePass p) (m := { m with retired := m.retired + 1 }) hend hmore]
      exact State.retirePass_mma? hm
    · have hid : m.id = p.mma := by simpa using List.find?_some hm
      rw [State.endMma_of_finished (s.retirePass p) (m := { m with retired := m.retired + 1 }) hend hlast]
      refine ⟨hid ▸ (s.retirePass p).mma?_settleMma_self { m with retired := m.retired + 1 } 0, fun t f ht hf => ?_⟩
      have hfound : (s.retirePass p).future? m.team m.tok = some f := State.future?_of_team ht hf
      obtain ⟨t', g, ht', hg⟩ := (State.settled_settleMma_self (m := { m with retired := m.retired + 1 }) 0 hfound).exists_future
      exact ⟨t', ht', g, hg⟩

end Sys2Proof.Machine
end

section
/-!
PROOFS. How an accumulator access completes (O28; R239, R379 to R384).
-/
namespace Sys2Proof.Machine

/-! ### ACCUM_OP_COMPLETE (R239, R381) -/

/-- A failed accumulator access ends late, never as a deferred trap (R413). -/
theorem Req.defers_of_isAcc {r : Req} (h : isAcc r.act = true) : r.defers = false := by
  unfold Req.defers
  split
  case h_1 hact => simp [hact, isAcc, accRows] at h
  case h_2 hact => simp [hact, isAcc, accRows] at h
  case h_3 hact => simp [hact, isAcc, accRows] at h
  case h_4 => rfl

/-- An access that fails with a cause, its threads all there, ends with a late trap of each (R413). -/
theorem State.failReq_of_late (s : State) {r : Req} (c : Byte) (a : DWord) (hd : r.dead = []) (h : r.defers = false) :
    s.failReq r c a = (s.endReq r).lateAll r.team r.id r.threads
      { cause := c, addr := a, info := BitVec.ofNat 32 ((if c = 0x05 then 2 else 0) + 256) } := by
  rw [State.failReq, State.failWith_of_late s _ hd h]
  simp [lateOf, failInfo, cAccess]

/-- An accumulator access that follows no pass any more is performed. -/
theorem exec_accumOpComplete {s : State} {n : Nat} {r : Req} {t : Team} (hr : s.req? n = some r) (ht : s.team? r.team = some t)
    (hp : t.placed = true) (hd : s.passesDone r = true) (ho : r.size = 0 ∨ s.inOrder r = true) (hacc : isAcc r.act = true) :
    exec (.accumOpComplete n) s = .next (s.accDone r t) := by
  change execAccumOpComplete n s = _
  simp [execAccumOpComplete, hr, ht, hp, hd, ho, hacc]

section
variable {s : State} {r : Req} {t : Team} {row stride : Nat} {w : Word} {base : DWord} {ps : Table Place}

section
variable (hact : r.act = .accld row stride w base ps)
include hact

/-- ACCLD with a page that can be accessed no more. -/
theorem State.accDone_accld_of_pagesFail {tr : Trap} (hpages : s.pagesFail w base stride ps false = some tr) : s.accDone r t = s.failWith r tr := by
  simp [State.accDone, hact, hpages]

section
variable (hpages : s.pagesFail w base stride ps false = none) (hfree : s.rowsFree r t w base stride ps false = true)
include hpages hfree

/-- ACCLD with elements yet to be asked of peers (R63). -/
theorem State.accDone_accld_of_due (hdue : s.elemsDue r w stride base ps false ≠ []) :
    s.accDone r t = s.sendElems r (accSize w) (fun _ => none) (s.elemsDue r w stride base ps false) := by
  cases hes : s.elemsDue r w stride base ps false with
  | nil => exact absurd hes hdue
  | cons e es => simp [State.accDone, hact, hpages, hfree, hes]

/-- ACCLD with every element asked for: it waits for the answers, then reads its rows. -/
theorem State.accDone_accld_of_sent (hdue : s.elemsDue r w stride base ps false = []) :
    s.accDone r t = if s.elemsBack r then s.accLoad r t row stride w base ps else s := by
  simp [State.accDone, hact, hpages, hfree, hdue]

end
end

/-- ACCLD all of whose elements are read (R381). -/
theorem State.accLoad_of_good {rows : List (Nat × List Word)} {es : List (Nat × Word)} {s1 : State}
    (hload : s.loadRows r t stride w base ps (128 * accTiles w) 0 = (rows, es, none, s1)) :
    s.accLoad r t row stride w base ps = (s1.putRows (quadIx t.pcore) (t.base.toNat + row) rows).endReq r := by
  simp [State.accLoad, hload]

/-- ACCLD one of whose reads fails: what has been read goes in as it may, and the access ends with the cause (R413). -/
theorem State.accLoad_of_bad {rows : List (Nat × List Word)} {es : List (Nat × Word)} {c : Byte} {a : DWord} {s1 : State}
    (hload : s.loadRows r t stride w base ps (128 * accTiles w) 0 = (rows, es, some (c, a), s1)) :
    s.accLoad r t row stride w base ps = (s1.putSome (quadIx t.pcore) (t.base.toNat + row)
      ((rows.flatMap fun e => (List.range 128).zip e.2 |>.map fun x => (e.1 * 128 + x.1, x.2)) ++ es)).failReq r c a := by
  simp [State.accLoad, hload]

section
variable (hact : r.act = .accst row stride w base ps)
include hact

/-- ACCST with a page that can be accessed no more (log entry 25). -/
theorem State.accDone_accst_of_pagesFail {tr : Trap} (hpages : s.pagesFail w base stride ps true = some tr) : s.accDone r t = s.failWith r tr := by
  simp [State.accDone, hact, hpages]

section
variable (hpages : s.pagesFail w base stride ps true = none) (hfree : s.rowsFree r t w base stride ps true = true)
include hpages hfree

/-- ACCST with elements yet to be sent to peers (R63). -/
theorem State.accDone_accst_of_due (hdue : s.elemsDue r w stride base ps true ≠ []) :
    s.accDone r t = s.sendElems r (accSize w) (fun x => some (((s.rowOut t (quadIx t.pcore) row w (x / 128)).drop (x % 128 * accSize w)).take (accSize w)))
      (s.elemsDue r w stride base ps true) := by
  cases hes : s.elemsDue r w stride base ps true with
  | nil => exact absurd hes hdue
  | cons e es => simp [State.accDone, hact, hpages, hfree, hes]

section
variable (hdue : s.elemsDue r w stride base ps true = []) (hback : s.elemsBack r = true)
include hdue hback

/-- ACCST whose elements at peers have all been taken writes its rows (R383). -/
theorem State.accDone_accst_of_good (hbad : s.elemBad r = none) :
    s.accDone r t = (s.storeRows r t (quadIx t.pcore) row stride w base ps (128 * accTiles w) 0).endReq r := by
  simp [State.accDone, hact, hpages, hfree, hdue, hback, hbad]

/-- ACCST one of whose elements a peer has refused writes its rows and ends with the cause (log entry 25). -/
theorem State.accDone_accst_of_refused {c : Byte} {a : DWord} (hbad : s.elemBad r = some (c, a)) :
    s.accDone r t = (s.storeRows r t (quadIx t.pcore) row stride w base ps (128 * accTiles w) 0).failReq r c a := by
  simp [State.accDone, hact, hpages, hfree, hdue, hback, hbad]

end
end
end
end

/-- Settles O28: each access by its own arm of accDone, the tile words by their pages, then by their elements at peers. -/
theorem accumulatorAccessesComplete : Obligations.AccumulatorAccessesComplete := by
  unfold Obligations.AccumulatorAccessesComplete
  intro s n r t hr ht hp hd ho
  have hexec := exec_accumOpComplete hr ht hp hd ho
  have hlate (hacc : isAcc r.act = true) : r.defers = false := Req.defers_of_isAcc hacc
  refine ⟨fun e vs hact => ?_, fun row k hact => ?_, fun d x k hact hvals hland => ?_, fun d x k ws hact hvals => ?_, fun x vs hact => ?_,
    fun row stride w base ps hact hpages hfree => ?_, fun row stride w base ps hact hpages hfree => ?_, fun row stride w base ps tr hdead hfail => ?_⟩
  · rw [hexec (by rw [hact]; rfl), State.accDone, hact]
  · rw [hexec (by rw [hact]; rfl), State.accDone, hact]
  · rw [hexec (by rw [hact]; rfl), State.accDone, hact]
    simp only [hvals, Option.getD_none, State.give_of_not_landed _ _ _ _ hland, State.accWords]
  · rw [hexec (by rw [hact]; rfl), State.accDone, hact]
    simp only [hvals, Option.getD_some, State.give]
  · rw [hexec (by rw [hact]; rfl), State.accDone, hact]
  · have hacc : isAcc r.act = true := by rw [hact]; rfl
    rw [hexec hacc]
    refine ⟨fun es hne hes => ?_, fun hes hback => ?_, fun rows es s1 hes hback hload => ?_, fun rows es s1 c a hdead hes hback hload => ?_⟩
    · subst hes
      rw [State.accDone_accld_of_due hact hpages hfree hne]
    · rw [State.accDone_accld_of_sent hact hpages hfree hes, hback]
      rfl
    · rw [State.accDone_accld_of_sent hact hpages hfree hes, hback, if_pos rfl, State.accLoad_of_good hload]
    · rw [State.accDone_accld_of_sent hact hpages hfree hes, hback, if_pos rfl, State.accLoad_of_bad hload,
        State.failReq_of_late _ c a hdead (hlate hacc)]
  · have hacc : isAcc r.act = true := by rw [hact]; rfl
    rw [hexec hacc]
    refine ⟨fun es hne hes => ?_, fun hes hback => ⟨fun hgood => ?_, fun c a hdead hbad => ?_⟩⟩
    · subst hes
      rw [State.accDone_accst_of_due hact hpages hfree hne]
    · rw [State.accDone_accst_of_good hact hpages hfree hes hback hgood]
    · rw [State.accDone_accst_of_refused hact hpages hfree hes hback hbad, State.failReq_of_late _ c a hdead (hlate hacc)]
  · rcases hfail with ⟨hact, hpages⟩ | ⟨hact, hpages⟩
    · have hacc : isAcc r.act = true := by rw [hact]; rfl
      rw [hexec hacc, State.accDone_accld_of_pagesFail hact hpages, State.failWith_of_late s tr hdead (hlate hacc)]
    · have hacc : isAcc r.act = true := by rw [hact]; rfl
      rw [hexec hacc, State.accDone_accst_of_pagesFail hact hpages, State.failWith_of_late s tr hdead (hlate hacc)]

end Sys2Proof.Machine
end

section
/-!
PROOFS. A rounding depends on the exact value alone, not on its form, and keeps a representable one (O5; R249, R251, R252, R322).
-/
namespace Sys2Proof.Machine

/-! ### One exact value in two forms -/

/-- The same exact value with its exponent lower by j. -/
def Exact.lower (x : Exact) (j : Nat) : Exact := { x with m := x.m * 2 ^ j, e := x.e - j }

/-- No mode leaves the lower neighbour where nothing lies above it (R249, R256). -/
theorem roundsUp_of_exact (md : RMode) (neg : Bool) (n k : Nat) : roundsUp md neg n 0 k false = false := by
  have hhalf : ¬ 0 = 2 ^ (k - 1) := Nat.ne_of_lt (Nat.two_pow_pos _)
  cases md <;> simp [roundsUp, hhalf]

/-- Two multiples of a power of two agree where their factors do. -/
theorem mul_two_pow_beq (a b j : Nat) : (a * 2 ^ j == b * 2 ^ j) = (a == b) := by
  rw [Bool.eq_iff_iff, beq_iff_eq, beq_iff_eq, Nat.mul_left_inj (Nat.ne_of_gt (Nat.two_pow_pos j))]

/-- A multiple of a power of two is other than zero where its factor is. -/
theorem mul_two_pow_bne_zero (a j : Nat) : (a * 2 ^ j != 0) = (a != 0) := by
  rw [bne, bne, ← mul_two_pow_beq a 0 j, Nat.zero_mul]

/-- A mode looks at the fraction as a part of the unit only (R249, R256). -/
theorem roundsUp_scale (md : RMode) (neg : Bool) (n rem j : Nat) {k : Nat} (hk : 0 < k) (st : Bool) :
    roundsUp md neg n (rem * 2 ^ j) (k + j) st = roundsUp md neg n rem k st := by
  have hpos : 0 < 2 ^ j := Nat.two_pow_pos j
  have hlt (a : Nat) : a * 2 ^ j < rem * 2 ^ j ↔ a < rem := Nat.mul_lt_mul_right hpos
  have hhalf : 2 ^ (k + j - 1) = 2 ^ (k - 1) * 2 ^ j := by rw [← Nat.pow_add, Nat.sub_add_comm hk]
  have hdown (t : Nat) : (2 ^ (k + j) - rem * 2 ^ j) * 128 ≤ (2 * t + 1) * 2 ^ (k + j) ↔ (2 ^ k - rem) * 128 ≤ (2 * t + 1) * 2 ^ k := by
    rw [Nat.pow_add, ← Nat.sub_mul, Nat.mul_right_comm, ← Nat.mul_assoc, Nat.mul_le_mul_right_iff hpos]
  have hup (t : Nat) : (2 * t + 1) * 2 ^ (k + j) < rem * 2 ^ j * 128 ↔ (2 * t + 1) * 2 ^ k < rem * 128 := by
    rw [Nat.pow_add, Nat.mul_right_comm rem, ← Nat.mul_assoc, Nat.mul_lt_mul_right hpos]
  cases md with
  | rne | rz | rup | rdn | rna => simp only [roundsUp, hhalf, hlt, mul_two_pow_beq, mul_two_pow_bne_zero]
  | dth t => simp only [roundsUp, hdown, hup, mul_two_pow_bne_zero]

/-- An exact value rounds to the same multiple in either form (R249). -/
theorem roundAt_lower (md : RMode) {x : Exact} (hst : x.st = false) (j : Nat) (q : Int) :
    roundAt md (x.lower j) q = roundAt md x q := by
  have hpos : 0 < 2 ^ j := Nat.two_pow_pos j
  rcases Int.lt_or_le x.e q with hq | hq
  · have hk : (q - (x.e - j)).toNat = (q - x.e).toNat + j := by omega
    simp only [roundAt, Exact.lower, if_neg (show ¬ q ≤ x.e by omega), if_neg (show ¬ q ≤ x.e - j by omega), hk, Nat.pow_add,
      Nat.mul_div_mul_right _ _ hpos, Nat.mul_mod_mul_right, roundsUp_scale md _ _ _ j (show 0 < (q - x.e).toNat by omega), mul_two_pow_bne_zero]
  · rcases Int.lt_or_le (x.e - j) q with hlow | hlow
    · have hj : x.m * 2 ^ j = x.m * 2 ^ (x.e - q).toNat * 2 ^ (q - (x.e - j)).toNat := by
        rw [Nat.mul_assoc, ← Nat.pow_add]; congr 2; omega
      simp only [roundAt, Exact.lower, if_pos hq, if_neg (show ¬ q ≤ x.e - j by omega), hj, Nat.mul_mod_left,
        Nat.mul_div_cancel _ (Nat.two_pow_pos _), hst, roundsUp_of_exact, Bool.false_eq_true, if_false, bne_self_eq_false, Bool.false_or]
    · have hj : x.m * 2 ^ j * 2 ^ (x.e - j - q).toNat = x.m * 2 ^ (x.e - q).toNat := by
        rw [Nat.mul_assoc, ← Nat.pow_add]; congr 2; omega
      simp only [roundAt, Exact.lower, if_pos hq, if_pos hlow, hj]

/-- The leading bit of a magnitude moves with it. -/
theorem log2_mul_two_pow {m : Nat} (hm : m ≠ 0) (j : Nat) : (m * 2 ^ j).log2 = m.log2 + j := by
  have hpos : 0 < 2 ^ j := Nat.two_pow_pos j
  rw [Nat.log2_eq_iff (Nat.mul_ne_zero hm (Nat.ne_of_gt hpos)), Nat.add_right_comm, Nat.pow_add, Nat.pow_add]
  exact ⟨Nat.mul_le_mul_right _ (Nat.log2_self_le hm), Nat.mul_lt_mul_of_pos_right Nat.lt_log2_self hpos⟩

/-- An exact value rounds into a format with the same flags in either form (R251). -/
theorem fround_lower (f : Fmt) (md : RMode) (sat ftz : Bool) {x : Exact} (hst : x.st = false) (j : Nat) :
    fround f md sat ftz (x.lower j) = fround f md sat ftz x := by
  by_cases hm : x.m = 0
  · simp only [fround, Exact.lower, hm, Nat.zero_mul, beq_self_eq_true, if_true]
  · have htop : (((x.lower j).m.log2 : Nat) : Int) + (x.lower j).e = x.m.log2 + x.e := by
      simp only [Exact.lower, log2_mul_two_pow hm]; omega
    have hzero : ((x.lower j).m == 0) = (x.m == 0) := by rw [← mul_two_pow_beq x.m 0 j, Nat.zero_mul]; rfl
    have hneg : (x.lower j).neg = x.neg := rfl
    simp only [fround, htop, hzero, hneg, roundAt_lower md hst]

/-- The integer at a scale has the sign and the magnitude of the value. -/
theorem eq_of_scaled_eq {s t : Bool} {m n : Nat} {e d g : Int} (hm : m ≠ 0) (h : Claims.scaled s m e g = Claims.scaled t n d g) :
    s = t ∧ m * 2 ^ (e - g).toNat = n * 2 ^ (d - g).toNat := by
  have hpos : 0 < m * 2 ^ (e - g).toNat := Nat.mul_pos (Nat.pos_of_ne_zero hm) (Nat.two_pow_pos _)
  unfold Claims.scaled at h
  generalize m * 2 ^ (e - g).toNat = a at *
  generalize n * 2 ^ (d - g).toNat = b at *
  cases s <;> cases t <;> simp only [Bool.false_eq_true, if_false, if_true, Int.one_mul, Int.neg_mul] at h
  case false.false => exact ⟨rfl, by omega⟩
  case true.true => exact ⟨rfl, by omega⟩
  case false.true => omega
  case true.false => omega

/-- A rounding depends on the exact value alone, in whatever form it is written (R251). -/
theorem fround_congr (f : Fmt) (md : RMode) (sat ftz : Bool) {x y : Exact} {g : Int} (hm : x.m ≠ 0) (hx : x.st = false) (hy : y.st = false)
    (hgx : g ≤ x.e) (hgy : g ≤ y.e) (h : Claims.scaled x.neg x.m x.e g = Claims.scaled y.neg y.m y.e g) :
    fround f md sat ftz x = fround f md sat ftz y := by
  obtain ⟨hneg, hmag⟩ := eq_of_scaled_eq hm h
  have hlow : x.lower (x.e - g).toNat = y.lower (y.e - g).toNat := by
    simp only [Exact.lower, Exact.mk.injEq]
    exact ⟨hneg, hmag, by omega, hx.trans hy.symm⟩
  rw [← fround_lower f md sat ftz hx (x.e - g).toNat, hlow, fround_lower f md sat ftz hy]

/-! ### Exact sums -/

/-- The integer that a signed exact value is at a scale. -/
def Sx.scaled (x : Sx) (g : Int) : Int := x.i * (2 ^ (x.e - g).toNat : Nat)

/-- A finite value with its sign is the same integer at a scale. -/
theorem scaled_sxOf (s : Bool) (m : Nat) (e g : Int) : (sxOf s m e).scaled g = Claims.scaled s m e g := by
  cases s with
  | false => simp only [sxOf, Sx.scaled, Claims.scaled, Bool.false_eq_true, if_false, Int.natCast_mul, Int.one_mul]
  | true => simp only [sxOf, Sx.scaled, Claims.scaled, if_true, Int.natCast_mul, Int.neg_mul, Int.one_mul]

/-- The magnitude and the sign of a signed exact value make the same integer at a scale. -/
theorem Sx.scaled_exact (x : Sx) (z : Bool) (g : Int) : Claims.scaled (x.exact z).neg (x.exact z).m (x.exact z).e g = x.scaled g := by
  rcases Int.lt_trichotomy x.i 0 with h | h | h
  · have habs : (x.i.natAbs : Int) = -x.i := Int.ofNat_natAbs_of_nonpos (Int.le_of_lt h)
    have hne : (x.i == 0) = false := beq_false_of_ne (Int.ne_of_lt h)
    simp only [Sx.exact, Sx.scaled, Claims.scaled, hne, h, Bool.false_eq_true, if_false, decide_true, if_true, Int.natCast_mul, habs]
    rw [Int.neg_mul, Int.neg_mul, Int.one_mul, Int.neg_neg]
  · simp only [Sx.exact, Sx.scaled, Claims.scaled, h, Int.natAbs_zero, Nat.zero_mul, Int.zero_mul, Int.natCast_zero, Int.mul_zero]
  · have habs : (x.i.natAbs : Int) = x.i := Int.natAbs_of_nonneg (Int.le_of_lt h)
    have hne : (x.i == 0) = false := beq_false_of_ne (Int.ne_of_gt h)
    simp only [Sx.exact, Sx.scaled, Claims.scaled, hne, Int.not_lt.mpr (Int.le_of_lt h), Bool.false_eq_true, if_false, decide_false, Int.natCast_mul, habs]
    rw [Int.one_mul]

/-- An integer at a scale, brought to a lower one. -/
theorem scaled_trans (i : Int) {e d g : Int} (hd : d ≤ e) (hg : g ≤ d) :
    i * (2 ^ (e - d).toNat : Nat) * (2 ^ (d - g).toNat : Nat) = i * (2 ^ (e - g).toNat : Nat) := by
  rw [Int.mul_assoc, ← Int.natCast_mul, ← Nat.pow_add]
  congr 3
  omega

/-- An exact sum has the lower exponent of the two. -/
theorem Sx.add_e (x y : Sx) : (x.add y).e = min x.e y.e := (Int.min_def x.e y.e).symm

/-- The exact sum is the sum at every scale that no exponent falls below (R251). -/
theorem Sx.scaled_add {x y : Sx} {g : Int} (hx : g ≤ x.e) (hy : g ≤ y.e) : (x.add y).scaled g = x.scaled g + y.scaled g := by
  have hg : g ≤ (x.add y).e := x.add_e y ▸ Int.le_min.mpr ⟨hx, hy⟩
  have hdx : (x.add y).e ≤ x.e := x.add_e y ▸ Int.min_le_left _ _
  have hdy : (x.add y).e ≤ y.e := x.add_e y ▸ Int.min_le_right _ _
  calc (x.add y).scaled g
      = (x.i * (2 ^ (x.e - (x.add y).e).toNat : Nat) + y.i * (2 ^ (y.e - (x.add y).e).toNat : Nat)) * (2 ^ ((x.add y).e - g).toNat : Nat) := rfl
    _ = x.scaled g + y.scaled g := by rw [Int.add_mul, scaled_trans _ hdx hg, scaled_trans _ hdy hg]; rfl

/-- The exact sum of two finite values, in whatever form it is written, is rounded as the model rounds it (R251, R322). -/
theorem fround_add (f : Fmt) (md : RMode) (sat ftz z : Bool) {x : Exact} {s t : Bool} {m n : Nat} {e d g : Int}
    (hm : x.m ≠ 0) (hx : x.st = false) (he : g ≤ e) (hd : g ≤ d) (hgx : g ≤ x.e)
    (h : Claims.scaled x.neg x.m x.e g = Claims.scaled s m e g + Claims.scaled t n d g) :
    fround f md sat ftz (((sxOf s m e).add (sxOf t n d)).exact z) = fround f md sat ftz x := by
  have hsum : g ≤ ((sxOf s m e).add (sxOf t n d)).e := Sx.add_e _ _ ▸ Int.le_min.mpr ⟨he, hd⟩
  refine (fround_congr f md sat ftz hm hx rfl hgx hsum ?_).symm
  rw [h, Sx.scaled_exact, Sx.scaled_add he hd, scaled_sxOf, scaled_sxOf]

/-! ### Representable values -/

/-- An encoding is its sign and its magnitude. -/
theorem fwith_fsign_fmag (f : Fmt) {b : Nat} (hb : b < 2 ^ (fmtInfo f).bits) : fwith f (fsign f b) (fmag f b) = b := by
  have hbits : 2 ^ (fmtInfo f).bits = 2 ^ ((fmtInfo f).bits - 1) * 2 := by cases f <;> rfl
  rw [hbits] at hb
  unfold fwith fsign fmag bitOf
  generalize 2 ^ ((fmtInfo f).bits - 1) = p at *
  have hq : b / p < 2 := Nat.div_lt_of_lt_mul hb
  have hdiv := Nat.mod_add_div b p
  obtain h | h : b / p = 0 ∨ b / p = 1 := Nat.le_one_iff_eq_zero_or_eq_one.mp (Nat.le_of_lt_succ hq)
  · simpa [h] using hdiv
  · simpa [h] using hdiv

/-- What the encoding of a finite value says of it: its sign, and a magnitude that is a subnormal one or one with the leading bit (R245, R246). -/
theorem fdecode_eq_fin {f : Fmt} {b m : Nat} {neg : Bool} {e : Int} (h : fdecode f b = .fin neg m e) :
    neg = fsign f b ∧ fmag f b ≤ (fmtInfo f).max ∧
    ((m < 2 ^ (fmtInfo f).fb ∧ e = (fmtInfo f).emin ∧ fmag f b = m) ∨
      ∃ k : Nat, e = k + (fmtInfo f).emin ∧ m.log2 = (fmtInfo f).fb ∧ 2 ^ (fmtInfo f).fb ≤ m ∧ fmag f b = k * 2 ^ (fmtInfo f).fb + m) := by
  have hpos : 0 < 2 ^ (fmtInfo f).fb := Nat.two_pow_pos _
  have hlt := Nat.mod_lt (fmag f b) hpos
  have hdiv := Nat.mod_add_div' (fmag f b) (2 ^ (fmtInfo f).fb)
  simp only [fdecode] at h
  split at h
  · cases h
  split at h
  · cases h
  next hmax =>
  replace hmax := Nat.le_of_not_lt hmax
  split at h
  next he =>
    cases h
    rw [beq_iff_eq] at he
    rw [he] at hdiv
    exact ⟨rfl, hmax, .inl ⟨hlt, rfl, by omega⟩⟩
  next he =>
    cases h
    rw [beq_iff_eq] at he
    obtain ⟨k, hk⟩ := Nat.exists_eq_succ_of_ne_zero he
    refine ⟨rfl, hmax, .inr ⟨k, by omega, ?_, Nat.le_add_right _ _, ?_⟩⟩
    · rw [Nat.log2_eq_iff (by omega), Nat.pow_succ]; omega
    · rw [hk, Nat.succ_mul] at hdiv; omega

/-- A representable value encodes to the magnitude that it came from (R245). -/
theorem fencode_of_fdecode {f : Fmt} {b m : Nat} {neg : Bool} {e : Int} (h : fdecode f b = .fin neg m e) : fencode f m e = fmag f b := by
  obtain ⟨-, -, ⟨hm, rfl, hb⟩ | ⟨k, rfl, -, hm, hb⟩⟩ := fdecode_eq_fin h
  · simp [fencode, hm, hb]
  · simp [fencode, Nat.not_lt.mpr hm, hb]

/-- A representable value other than zero stands at the format's own exponent for it, the least one or that of its leading bit (R245). -/
theorem exponent_of_fdecode {f : Fmt} {b m : Nat} {neg : Bool} {e : Int} (h : fdecode f b = .fin neg m e) (hm : m ≠ 0) :
    (if (m.log2 : Int) + e - (fmtInfo f).fb < (fmtInfo f).emin then (fmtInfo f).emin else (m.log2 : Int) + e - (fmtInfo f).fb) = e := by
  obtain ⟨-, -, ⟨hlt, rfl, -⟩ | ⟨k, rfl, hlog, -, -⟩⟩ := fdecode_eq_fin h
  · have hlog := (Nat.log2_lt hm).mpr hlt
    exact if_pos (by omega)
  · rw [hlog, if_neg (by omega)]; omega

/-- A representable value rounds to itself without a flag, in every mode, while subnormals are kept (R249, R252). -/
theorem fround_of_fdecode (f : Fmt) (md : RMode) (sat neg : Bool) {b m : Nat} {e : Int} (hb : b < 2 ^ (fmtInfo f).bits)
    (h : fdecode f b = .fin neg m e) : fround f md sat false { neg := neg, m := m, e := e, st := false } = (b, 0) := by
  obtain ⟨rfl, hmax, -⟩ := fdecode_eq_fin h
  have hcode := fencode_of_fdecode h
  by_cases hm : m = 0
  · subst hm
    have hmag : fmag f b = 0 := by rw [← hcode, fencode, if_pos (Nat.two_pow_pos _)]
    calc fround f md sat false ⟨fsign f b, 0, e, false⟩ = (fwith f (fsign f b) 0, 0) := by simp [fround]
      _ = (b, 0) := by rw [← hmag, fwith_fsign_fmag f hb]
  · have hround : roundAt md ⟨fsign f b, m, e, false⟩ e = (m, false) := by simp [roundAt]
    have hover : foverflows f m e = false := by simp [foverflows, hcode, hmax]
    simp only [fround, beq_false_of_ne hm, exponent_of_fdecode h hm, hround, hover, hcode, fwith_fsign_fmag f hb, Bool.false_eq_true, if_false,
      Bool.false_and, Bool.and_false]
    rfl

/-- Settles O5: each operation hands its exact result to fround, which depends on the value alone; and a representable value needs no rounding. -/
theorem roundingIsSingle : Obligations.RoundingIsSingle := by
  unfold Obligations.RoundingIsSingle
  refine ⟨fun f md ftz a b c an bn cn am bm cm ae be ce g x ha hb hc hm hst => ⟨fun hae hbe hx h => ?_, fun he hx h => ?_, fun he hce hx h => ?_⟩,
    fun f md sat neg b m e hb h => fround_of_fdecode f md sat neg hb h⟩
  · rw [faddOf, ha, hb]
    exact fround_add f md false ftz _ hm hst hae hbe hx h
  · rw [fmulOf, ha, hb]
    exact (fround_congr f md false ftz hm hst rfl hx he h).symm
  · rw [ffmaOf, ha, hb, hc]
    exact fround_add f md false ftz _ hm hst he hce hx h

end Sys2Proof.Machine
end
